-- ==== Sys2Proof/Word.lean ====
section
/-! DEFINITION. The words of the SLN-88 and the one container type of the model: a sparse map from a number to a value,
held as a list of pairs with strictly rising keys (GUIDE: canonical lists). -/

namespace Sys2Proof

/-- One byte of memory or scratchpad (R2). -/
abbrev Byte := BitVec 8
/-- One lane of a vector register (R39 kind 0). -/
abbrev W32 := BitVec 32
/-- One uniform register (R39 kind 1). -/
abbrev W64 := BitVec 64
/-- One instruction word (R38). -/
abbrev W96 := BitVec 96
/-- A set of the 32 lanes of a group: bit i is lane i (R108). -/
abbrev Lanes := BitVec 32
/-- A sparse map keyed by a number, strictly rising keys. -/
abbrev AMap (α : Type) := List (Nat × α)

end Sys2Proof
end

