-- ==== Sys2Proof/Config.lean ====
section
/-! DEFINITION. What the spec leaves open: each value below is opaque, so nothing can be proved of it (assumption log 3),
and the constants that an implementation fixes. -/

namespace Sys2Proof.Config

/-- The f32 result that an SFU function forms before the accuracy bound of R138 is applied (function code, mode, operand). -/
opaque sfu : Nat → Nat → W32 → W32
/-- A byte whose value the spec does not give (a save image, a flash image, a flit payload): stamp and address. -/
opaque freeByte : Nat → Nat → Byte
/-- Where in a context's save area the images start whose contents the spec gives (legends, tiles), in units of 32 bytes; the spec does
not give the layout of the area. -/
opaque savePlace : Nat → Nat
/-- Was a received flit sent on an ordered flow (R379)? The sender's mode is no field of the header. -/
opaque flitOrdered : BitVec 2048 → Bool
/-- The bytes that a received read request asks for (R377): how its payload says it the spec does not give. -/
opaque readLen : BitVec 2048 → Nat
/-- The atomic that a received flit asks for (R377): function (9 for cas), type, operand and compare value. -/
opaque atomicFlit : BitVec 2048 → Nat × Nat × Nat × Nat
/-- The new value that a host's atomic leaves (R375): its function, the old value and the operand. -/
opaque hostAtomic : Nat → Nat → Nat → Nat
/-- The bin of the inlet histogram (R406) that a temperature falls in. -/
opaque inletBin : Nat → Nat
/-- The element of a 6-bit symbol above 63, which a legend's alphabet can name and the format cannot. -/
opaque wideSymbol : Nat → BitVec 6
/-- The hash of the configuration record that an attestation returns (R408): its version and the pairs that it names. -/
opaque configHash : Nat → List Nat → BitVec 256
/-- The signature of an attestation (R408): nonce and index. -/
opaque signature : BitVec 256 → Nat → BitVec 22560

end Sys2Proof.Config
end

