-- ==== Sys2Proof/Syntax.lean ====
section
/-! DEFINITION. The syntax: one constructor of Instr for each row of spec/opcode_table.json. A program instruction carries
its decoded word (R38 to R47), a queue command its arguments (R90), a step of the device the object it happens to. -/

namespace Sys2Proof

/-- Operand kinds of R39, as a source. -/
inductive Opnd where
  /-- kind 0x0, v0 to v127 -/
  | v (n : BitVec 7)
  /-- kind 0x1, s0 to s63 -/
  | s (n : BitVec 6)
  /-- kind 0x2, b0 to b3 -/
  | latch (n : BitVec 2)
  /-- kind 0x3, 0 to 7 p0 to p7, 8 to 11 k0 to k3 -/
  | pred (n : BitVec 4)
  /-- kind 0x4, a special register number -/
  | sr (n : BitVec 8)
  /-- kind 0x5, ac0 to ac3 -/
  | ac (n : BitVec 2)
  /-- kind 0x6, bd0 to bd15 -/
  | bd (n : BitVec 4)
  /-- kind 0x7, lg0 to lg7 -/
  | lg (n : BitVec 3)
  /-- kind 0x8 with bit 8 clear, sh0 to sh7 -/
  | sh (n : BitVec 3)
  /-- kind 0x8 with bit 8 set, cl0 to cl7 -/
  | cl (n : BitVec 3)
  /-- kind 0x9, a signed 12-bit immediate -/
  | imm (i : BitVec 12)
  /-- kind 0xA, a constant table word -/
  | ct (n : BitVec 12)
  /-- kind 0xF, no operand -/
  | none
  deriving DecidableEq, Repr

/-- The D field: kinds 0 and 1 with no-write-back and latch bits (R41), any other kind as R39. -/
inductive Dst where
  | v (nowb : Bool) (latch : BitVec 2) (n : BitVec 7)
  | s (nowb : Bool) (latch : BitVec 2) (n : BitVec 6)
  | other (x : Opnd)
  deriving DecidableEq, Repr

/-- The B field: an operand, or the raw upper half of a 32-bit immediate or offset (R44, R146). -/
inductive BFld where
  | op (x : Opnd)
  | raw (x : BitVec 16)
  deriving DecidableEq, Repr

/-- Guard and hint bits 87:77 (R38, R45, R46). -/
structure Hdr where
  neg : Bool
  guard : BitVec 3
  burst : BitVec 3
  yld : Bool
  keep : Bool
  reuse : Bool
  uni : Bool
  deriving DecidableEq, Repr

/-- The decoded fields of a program word. The modifier is kept as its three nibbles (R47, R210, R275), read through named accessors. -/
structure P where
  h : Hdr
  /-- modifier bits 75:72 -/
  fn : BitVec 4
  /-- modifier bits 71:68 -/
  ty : BitVec 4
  /-- modifier bits 67:64 -/
  rs : BitVec 4
  d : Dst
  a : Opnd
  b : BFld
  ext : BitVec 16
  deriving DecidableEq, Repr

/-- Where a cached sector lies: the L1 of a pair or the guest part of a die cache (R207). -/
inductive CacheLoc where
  | l1 (pair : Nat)
  | die (d : Nat)
  deriving DecidableEq, Repr

/-- A resource that a saved block left tagged (R74). -/
inductive Tagged where
  | chunks
  | ways
  | tiles
  deriving DecidableEq, Repr

/-- A ring of records: a context's fault ring (R69) or a partition's freeze ring (R78). -/
inductive Ring where
  | fault (ctx : Nat)
  | freeze (part : Nat)
  deriving DecidableEq, Repr

/-- A host request to a partition's memory (R375): `data` is none for a read of `len` bytes. -/
structure HostReq where
  requester : BitVec 16
  part : Nat
  off : Nat
  len : Nat
  data : Option (List Byte)
  /-- the function of an atomic, whose operand is the data (R375) -/
  atom : Option Nat := none
  deriving DecidableEq, Repr

/-- The program instructions by name, without their operands: the rows of opcodes 0x00 to 0xEA (R53). -/
inductive Op where
  | add | sub | mul | mulhi | mad | madhi | div | rem | min | max | abs | neg | and | or | xor | not | shl | shr | sha | rot | bfx | bfi | popc | clz 
  | ctz | brev | perm | sel | set | setp | mov | movi | addi | andi | ori | xori | shladd | lea | addc | subb | sad | clamp | mulw | ext | tern | shf 
  | fadd | fsub | fmul | ffma | fmin | fmax | fabs | fneg | fsetp | fset | fclass | frnd | rcp | rsqrt | sqrt | ex2 | log2 | sin | cos | tanh | cvt 
  | cvtf | cvti | cvts | pack | faddi | fmuli | dot4 | dot8 | dot4f | dot8f | dot2h | bra | brx | call | ret | jmp | exit | plop | census | lmask 
  | qxch | lperm | gred | gscan | matchv | nop | join | ld | st | ldu | stu | lds | sts | atom | red | atoms | cas | txbeg | txend | txabt | mwait 
  | fence | pfetch | icinv | pgq | wresz | barSync | barArv | bcsetInit | bcsetExp | bcadd | bcwait | batf | batw | xcpy | xgat | xqnt | xfil 
  | xrowCpy | xrowIni | xsta | lgld | lgst | lgclr | fget | fenc | fdec | frefInc | frefDec | falc | ffre | fqry | mma | mmag | mrd | mrdm | mclr 
  | mld | tcls | mint | mstk | sres | scom | strm | sfrk | sfil | sbnd | spfx | spin | stopk | srdDat | srdMap | srdLen | snew | sdel | cbnd 
  | cmodSet | cmodGet | crun | cstp | cblim | trap | yield | rdsr | rdsrChunk | rdsrFrzprod | wrsr | wrsrFrzcons | frelRel | frelDst | frelRes | ptok 
  | ptokRel | ttok | launch | rdctr | rdctrSel | mark | brk
  deriving DecidableEq, Repr

/-- THE instructions and steps: one constructor for each row of the table, in the table's order. -/
inductive Instr where
  | add (p : P)
  | sub (p : P)
  | mul (p : P)
  | mulhi (p : P)
  | mad (p : P)
  | madhi (p : P)
  | div (p : P)
  | rem (p : P)
  | min (p : P)
  | max (p : P)
  | abs (p : P)
  | neg (p : P)
  | and (p : P)
  | or (p : P)
  | xor (p : P)
  | not (p : P)
  | shl (p : P)
  | shr (p : P)
  | sha (p : P)
  | rot (p : P)
  | bfx (p : P)
  | bfi (p : P)
  | popc (p : P)
  | clz (p : P)
  | ctz (p : P)
  | brev (p : P)
  | perm (p : P)
  | sel (p : P)
  | set (p : P)
  | setp (p : P)
  | mov (p : P)
  | movi (p : P)
  | addi (p : P)
  | andi (p : P)
  | ori (p : P)
  | xori (p : P)
  | shladd (p : P)
  | lea (p : P)
  | addc (p : P)
  | subb (p : P)
  | sad (p : P)
  | clamp (p : P)
  | mulw (p : P)
  | ext (p : P)
  | tern (p : P)
  | shf (p : P)
  | fadd (p : P)
  | fsub (p : P)
  | fmul (p : P)
  | ffma (p : P)
  | fmin (p : P)
  | fmax (p : P)
  | fabs (p : P)
  | fneg (p : P)
  | fsetp (p : P)
  | fset (p : P)
  | fclass (p : P)
  | frnd (p : P)
  | rcp (p : P)
  | rsqrt (p : P)
  | sqrt (p : P)
  | ex2 (p : P)
  | log2 (p : P)
  | sin (p : P)
  | cos (p : P)
  | tanh (p : P)
  | cvt (p : P)
  | cvtf (p : P)
  | cvti (p : P)
  | cvts (p : P)
  | pack (p : P)
  | faddi (p : P)
  | fmuli (p : P)
  | dot4 (p : P)
  | dot8 (p : P)
  | dot4f (p : P)
  | dot8f (p : P)
  | dot2h (p : P)
  | bra (p : P)
  | brx (p : P)
  | call (p : P)
  | ret (p : P)
  | jmp (p : P)
  | exit (p : P)
  | plop (p : P)
  | census (p : P)
  | lmask (p : P)
  | qxch (p : P)
  | lperm (p : P)
  | gred (p : P)
  | gscan (p : P)
  | matchv (p : P)
  | nop (p : P)
  | join (p : P)
  | ld (p : P)
  | st (p : P)
  | ldu (p : P)
  | stu (p : P)
  | lds (p : P)
  | sts (p : P)
  | atom (p : P)
  | red (p : P)
  | atoms (p : P)
  | cas (p : P)
  | txbeg (p : P)
  | txend (p : P)
  | txabt (p : P)
  | mwait (p : P)
  | fence (p : P)
  | pfetch (p : P)
  | icinv (p : P)
  | pgq (p : P)
  | wresz (p : P)
  | barSync (p : P)
  | barArv (p : P)
  | bcsetInit (p : P)
  | bcsetExp (p : P)
  | bcadd (p : P)
  | bcwait (p : P)
  | batf (p : P)
  | batw (p : P)
  | xcpy (p : P)
  | xgat (p : P)
  | xqnt (p : P)
  | xfil (p : P)
  | xrowCpy (p : P)
  | xrowIni (p : P)
  | xsta (p : P)
  | lgld (p : P)
  | lgst (p : P)
  | lgclr (p : P)
  | fget (p : P)
  | fenc (p : P)
  | fdec (p : P)
  | frefInc (p : P)
  | frefDec (p : P)
  | falc (p : P)
  | ffre (p : P)
  | fqry (p : P)
  | mma (p : P)
  | mmag (p : P)
  | mrd (p : P)
  | mrdm (p : P)
  | mclr (p : P)
  | mld (p : P)
  | tcls (p : P)
  | mint (p : P)
  | mstk (p : P)
  | sres (p : P)
  | scom (p : P)
  | strm (p : P)
  | sfrk (p : P)
  | sfil (p : P)
  | sbnd (p : P)
  | spfx (p : P)
  | spin (p : P)
  | stopk (p : P)
  | srdDat (p : P)
  | srdMap (p : P)
  | srdLen (p : P)
  | snew (p : P)
  | sdel (p : P)
  | cbnd (p : P)
  | cmodSet (p : P)
  | cmodGet (p : P)
  | crun (p : P)
  | cstp (p : P)
  | cblim (p : P)
  | trap (p : P)
  | yield (p : P)
  | rdsr (p : P)
  | rdsrChunk (p : P)
  | rdsrFrzprod (p : P)
  | wrsr (p : P)
  | wrsrFrzcons (p : P)
  | frelRel (p : P)
  | frelDst (p : P)
  | frelRes (p : P)
  | ptok (p : P)
  | ptokRel (p : P)
  | ttok (p : P)
  | launch (p : P)
  | rdctr (p : P)
  | rdctrSel (p : P)
  | mark (p : P)
  | brk (p : P)
  | cmdSkip (n : W32)
  | cmdLoop (l : BitVec 2) (c : W32)
  | cmdEndl (l : BitVec 2)
  | cmdCond (f : BitVec 3) (n : W32) (addr val : W64)
  | cmdWait (f : BitVec 3) (timeout : W32) (addr val : W64)
  | cmdSignal (f : BitVec 2) (addr val : W64)
  | cmdLaunch (serial : Bool) (rec : W64)
  | cmdLaunchi (serial : Bool) (rec grid : W64)
  | cmdCtxCreate (c : BitVec 6) (status : W64)
  | cmdCtxPreempt (c : BitVec 6) (status : W64)
  | cmdCtxResume (c : BitVec 6) (status : W64)
  | cmdCtxDestroy (c : BitVec 6) (status : W64)
  | fetchSectorArrival (gid va : Nat)
  | splitPhaseResult (gid : Nat)
  | asyncFaultReport (gid : Nat)
  | redPerformed (gid : Nat)
  | mwaitTick (gid : Nat)
  | txCommit (die : Nat)
  | barArrivalApplied (gid : Nat)
  | bcaddApplied (gid : Nat)
  | preemptDeadlineExpires (ctx : Nat)
  | groupStopComplete (gid : Nat)
  | contextSaved (ctx : Nat)
  | contextFreed (ctx : Nat)
  | spillOnClaim (block : Nat) (what : Tagged)
  | faultRingDrain (ring : Ring)
  | hartSelectQueue (hart : Nat)
  | queueEnable (queue : Nat)
  | queueWaitMet (queue : Nat)
  | queueWaitTimeout (queue : Nat)
  | kernelTranslatingStart (kernel : Nat)
  | extentTableBuilt (kernel : Nat)
  | blockPlacement (kernel : Nat)
  | blockRetire (block : Nat)
  | kernelFaultingDone (kernel : Nat)
  | sideLogRetryTick (core : Nat)
  | rmRemove (part : Nat)
  | rmNotify (part : Nat)
  | rmDonate (part : Nat)
  | removeDrainEnd (part : Nat)
  | removeConfirm (part : Nat)
  | migrationCopyDone (page : Nat)
  | migrationSettleExpire (page : Nat)
  | folioDonate (part : Nat)
  | growingCopyDone (entry : Nat)
  | entryRetireFree (entry : Nat)
  | clMirrorUpdate (block core handle : Nat)
  | scrollDeleteFree (part scroll : Nat)
  | gangInitDone (stack : Nat)
  | rateChangeStart (stack : Nat)
  | rateChangeDone (stack : Nat) (ok : Bool)
  | bcsetApplied (gid : Nat)
  | blockReloadDone (block : Nat) (ok : Bool)
  | storeWriteBack (loc : CacheLoc) (sector : Nat) (uncorrectable : Bool)
  | mwaitWriteWake (gid : Nat)
  | queueProdWrite (queue : Nat) (prod : W32)
  | queueDisable (queue : Nat)
  | cmdNop
  | cmdWaitk
  | walkComplete (core ctx va : Nat)
  | migCountClear
  | migrationWindowExpire (page : Nat)
  | xferChannelHead (id : Nat)
  | xferReadDone (id : Nat)
  | xferAbandon (id : Nat)
  | xferRetire (id : Nat)
  | xferParkedTick (id : Nat)
  | lowmarkTick (part : Nat)
  | burinDone (id : Nat)
  | mmaStart (id : Nat)
  | mmaRetire (id : Nat)
  | mmaFault (id : Nat)
  | tileTurnEffect (id : Nat)
  | fillInstall (id : Nat)
  | chainChannelHead (id : Nat)
  | chainStepDone (id : Nat)
  | chainStepFault (id : Nat)
  | chainRetire (id : Nat)
  | hostRequest (req : HostReq)
  | registerWrite (fn off : Nat) (val : W64)
  | attestation (nonce : BitVec 256)
  | packageNumberWrite (val : W64)
  | timesetWrite (val : W64)
  | flitReceived (port : Nat) (flit : BitVec 2048)
  | flitReplay (port : Nat)
  | keepaliveSend (port : Nat)
  | flowAckTimer (src flow : Nat)
  | flowRetransmitTimeout (dst flow : Nat)
  | portEnable (port : Nat)
  | portFence (port : Nat)
  | portUnfence (port : Nat)
  | markUnreachable (pkg : Nat)
  | portTrainingResult (port lanes : Nat)
  | portLaneLoss (port : Nat)
  | portKeepaliveLoss (port : Nat)
  | portRetrainTimeout (port : Nat)
  | timeSyncSend
  | timeSyncReceive (port : Nat) (offset : W32)
  | timeLockLoss
  | gangWrite (stack : Nat) (val : W64)
  | rateChangeRequest (stack : Nat)
  | scrubRead (stack : Nat)
  | scrubEscalateTick (stack : Nat)
  | pcSampleTick (core draw : Nat)
  | counterSlice
  | counterSelectWrite (part i : Nat) (val : W64)
  | histogramRecord
  | boot
  | powerCapExceeded
  | thermalTrip
  | fdecRetire (id : Nat)
  | powerLoss (duringWrite : Bool)
  deriving DecidableEq, Repr

/-- The instruction of a name and its fields. -/
def Op.mk (o : Op) (p : P) : Instr :=
  match o with
  | .add => .add p
  | .sub => .sub p
  | .mul => .mul p
  | .mulhi => .mulhi p
  | .mad => .mad p
  | .madhi => .madhi p
  | .div => .div p
  | .rem => .rem p
  | .min => .min p
  | .max => .max p
  | .abs => .abs p
  | .neg => .neg p
  | .and => .and p
  | .or => .or p
  | .xor => .xor p
  | .not => .not p
  | .shl => .shl p
  | .shr => .shr p
  | .sha => .sha p
  | .rot => .rot p
  | .bfx => .bfx p
  | .bfi => .bfi p
  | .popc => .popc p
  | .clz => .clz p
  | .ctz => .ctz p
  | .brev => .brev p
  | .perm => .perm p
  | .sel => .sel p
  | .set => .set p
  | .setp => .setp p
  | .mov => .mov p
  | .movi => .movi p
  | .addi => .addi p
  | .andi => .andi p
  | .ori => .ori p
  | .xori => .xori p
  | .shladd => .shladd p
  | .lea => .lea p
  | .addc => .addc p
  | .subb => .subb p
  | .sad => .sad p
  | .clamp => .clamp p
  | .mulw => .mulw p
  | .ext => .ext p
  | .tern => .tern p
  | .shf => .shf p
  | .fadd => .fadd p
  | .fsub => .fsub p
  | .fmul => .fmul p
  | .ffma => .ffma p
  | .fmin => .fmin p
  | .fmax => .fmax p
  | .fabs => .fabs p
  | .fneg => .fneg p
  | .fsetp => .fsetp p
  | .fset => .fset p
  | .fclass => .fclass p
  | .frnd => .frnd p
  | .rcp => .rcp p
  | .rsqrt => .rsqrt p
  | .sqrt => .sqrt p
  | .ex2 => .ex2 p
  | .log2 => .log2 p
  | .sin => .sin p
  | .cos => .cos p
  | .tanh => .tanh p
  | .cvt => .cvt p
  | .cvtf => .cvtf p
  | .cvti => .cvti p
  | .cvts => .cvts p
  | .pack => .pack p
  | .faddi => .faddi p
  | .fmuli => .fmuli p
  | .dot4 => .dot4 p
  | .dot8 => .dot8 p
  | .dot4f => .dot4f p
  | .dot8f => .dot8f p
  | .dot2h => .dot2h p
  | .bra => .bra p
  | .brx => .brx p
  | .call => .call p
  | .ret => .ret p
  | .jmp => .jmp p
  | .exit => .exit p
  | .plop => .plop p
  | .census => .census p
  | .lmask => .lmask p
  | .qxch => .qxch p
  | .lperm => .lperm p
  | .gred => .gred p
  | .gscan => .gscan p
  | .matchv => .matchv p
  | .nop => .nop p
  | .join => .join p
  | .ld => .ld p
  | .st => .st p
  | .ldu => .ldu p
  | .stu => .stu p
  | .lds => .lds p
  | .sts => .sts p
  | .atom => .atom p
  | .red => .red p
  | .atoms => .atoms p
  | .cas => .cas p
  | .txbeg => .txbeg p
  | .txend => .txend p
  | .txabt => .txabt p
  | .mwait => .mwait p
  | .fence => .fence p
  | .pfetch => .pfetch p
  | .icinv => .icinv p
  | .pgq => .pgq p
  | .wresz => .wresz p
  | .barSync => .barSync p
  | .barArv => .barArv p
  | .bcsetInit => .bcsetInit p
  | .bcsetExp => .bcsetExp p
  | .bcadd => .bcadd p
  | .bcwait => .bcwait p
  | .batf => .batf p
  | .batw => .batw p
  | .xcpy => .xcpy p
  | .xgat => .xgat p
  | .xqnt => .xqnt p
  | .xfil => .xfil p
  | .xrowCpy => .xrowCpy p
  | .xrowIni => .xrowIni p
  | .xsta => .xsta p
  | .lgld => .lgld p
  | .lgst => .lgst p
  | .lgclr => .lgclr p
  | .fget => .fget p
  | .fenc => .fenc p
  | .fdec => .fdec p
  | .frefInc => .frefInc p
  | .frefDec => .frefDec p
  | .falc => .falc p
  | .ffre => .ffre p
  | .fqry => .fqry p
  | .mma => .mma p
  | .mmag => .mmag p
  | .mrd => .mrd p
  | .mrdm => .mrdm p
  | .mclr => .mclr p
  | .mld => .mld p
  | .tcls => .tcls p
  | .mint => .mint p
  | .mstk => .mstk p
  | .sres => .sres p
  | .scom => .scom p
  | .strm => .strm p
  | .sfrk => .sfrk p
  | .sfil => .sfil p
  | .sbnd => .sbnd p
  | .spfx => .spfx p
  | .spin => .spin p
  | .stopk => .stopk p
  | .srdDat => .srdDat p
  | .srdMap => .srdMap p
  | .srdLen => .srdLen p
  | .snew => .snew p
  | .sdel => .sdel p
  | .cbnd => .cbnd p
  | .cmodSet => .cmodSet p
  | .cmodGet => .cmodGet p
  | .crun => .crun p
  | .cstp => .cstp p
  | .cblim => .cblim p
  | .trap => .trap p
  | .yield => .yield p
  | .rdsr => .rdsr p
  | .rdsrChunk => .rdsrChunk p
  | .rdsrFrzprod => .rdsrFrzprod p
  | .wrsr => .wrsr p
  | .wrsrFrzcons => .wrsrFrzcons p
  | .frelRel => .frelRel p
  | .frelDst => .frelDst p
  | .frelRes => .frelRes p
  | .ptok => .ptok p
  | .ptokRel => .ptokRel p
  | .ttok => .ttok p
  | .launch => .launch p
  | .rdctr => .rdctr p
  | .rdctrSel => .rdctrSel p
  | .mark => .mark p
  | .brk => .brk p

/-- The name and fields of a program instruction; none for a queue command or a step of the device. -/
def Instr.split (i : Instr) : Option (Op × P) :=
  match i with
  | .add p => some (.add, p)
  | .sub p => some (.sub, p)
  | .mul p => some (.mul, p)
  | .mulhi p => some (.mulhi, p)
  | .mad p => some (.mad, p)
  | .madhi p => some (.madhi, p)
  | .div p => some (.div, p)
  | .rem p => some (.rem, p)
  | .min p => some (.min, p)
  | .max p => some (.max, p)
  | .abs p => some (.abs, p)
  | .neg p => some (.neg, p)
  | .and p => some (.and, p)
  | .or p => some (.or, p)
  | .xor p => some (.xor, p)
  | .not p => some (.not, p)
  | .shl p => some (.shl, p)
  | .shr p => some (.shr, p)
  | .sha p => some (.sha, p)
  | .rot p => some (.rot, p)
  | .bfx p => some (.bfx, p)
  | .bfi p => some (.bfi, p)
  | .popc p => some (.popc, p)
  | .clz p => some (.clz, p)
  | .ctz p => some (.ctz, p)
  | .brev p => some (.brev, p)
  | .perm p => some (.perm, p)
  | .sel p => some (.sel, p)
  | .set p => some (.set, p)
  | .setp p => some (.setp, p)
  | .mov p => some (.mov, p)
  | .movi p => some (.movi, p)
  | .addi p => some (.addi, p)
  | .andi p => some (.andi, p)
  | .ori p => some (.ori, p)
  | .xori p => some (.xori, p)
  | .shladd p => some (.shladd, p)
  | .lea p => some (.lea, p)
  | .addc p => some (.addc, p)
  | .subb p => some (.subb, p)
  | .sad p => some (.sad, p)
  | .clamp p => some (.clamp, p)
  | .mulw p => some (.mulw, p)
  | .ext p => some (.ext, p)
  | .tern p => some (.tern, p)
  | .shf p => some (.shf, p)
  | .fadd p => some (.fadd, p)
  | .fsub p => some (.fsub, p)
  | .fmul p => some (.fmul, p)
  | .ffma p => some (.ffma, p)
  | .fmin p => some (.fmin, p)
  | .fmax p => some (.fmax, p)
  | .fabs p => some (.fabs, p)
  | .fneg p => some (.fneg, p)
  | .fsetp p => some (.fsetp, p)
  | .fset p => some (.fset, p)
  | .fclass p => some (.fclass, p)
  | .frnd p => some (.frnd, p)
  | .rcp p => some (.rcp, p)
  | .rsqrt p => some (.rsqrt, p)
  | .sqrt p => some (.sqrt, p)
  | .ex2 p => some (.ex2, p)
  | .log2 p => some (.log2, p)
  | .sin p => some (.sin, p)
  | .cos p => some (.cos, p)
  | .tanh p => some (.tanh, p)
  | .cvt p => some (.cvt, p)
  | .cvtf p => some (.cvtf, p)
  | .cvti p => some (.cvti, p)
  | .cvts p => some (.cvts, p)
  | .pack p => some (.pack, p)
  | .faddi p => some (.faddi, p)
  | .fmuli p => some (.fmuli, p)
  | .dot4 p => some (.dot4, p)
  | .dot8 p => some (.dot8, p)
  | .dot4f p => some (.dot4f, p)
  | .dot8f p => some (.dot8f, p)
  | .dot2h p => some (.dot2h, p)
  | .bra p => some (.bra, p)
  | .brx p => some (.brx, p)
  | .call p => some (.call, p)
  | .ret p => some (.ret, p)
  | .jmp p => some (.jmp, p)
  | .exit p => some (.exit, p)
  | .plop p => some (.plop, p)
  | .census p => some (.census, p)
  | .lmask p => some (.lmask, p)
  | .qxch p => some (.qxch, p)
  | .lperm p => some (.lperm, p)
  | .gred p => some (.gred, p)
  | .gscan p => some (.gscan, p)
  | .matchv p => some (.matchv, p)
  | .nop p => some (.nop, p)
  | .join p => some (.join, p)
  | .ld p => some (.ld, p)
  | .st p => some (.st, p)
  | .ldu p => some (.ldu, p)
  | .stu p => some (.stu, p)
  | .lds p => some (.lds, p)
  | .sts p => some (.sts, p)
  | .atom p => some (.atom, p)
  | .red p => some (.red, p)
  | .atoms p => some (.atoms, p)
  | .cas p => some (.cas, p)
  | .txbeg p => some (.txbeg, p)
  | .txend p => some (.txend, p)
  | .txabt p => some (.txabt, p)
  | .mwait p => some (.mwait, p)
  | .fence p => some (.fence, p)
  | .pfetch p => some (.pfetch, p)
  | .icinv p => some (.icinv, p)
  | .pgq p => some (.pgq, p)
  | .wresz p => some (.wresz, p)
  | .barSync p => some (.barSync, p)
  | .barArv p => some (.barArv, p)
  | .bcsetInit p => some (.bcsetInit, p)
  | .bcsetExp p => some (.bcsetExp, p)
  | .bcadd p => some (.bcadd, p)
  | .bcwait p => some (.bcwait, p)
  | .batf p => some (.batf, p)
  | .batw p => some (.batw, p)
  | .xcpy p => some (.xcpy, p)
  | .xgat p => some (.xgat, p)
  | .xqnt p => some (.xqnt, p)
  | .xfil p => some (.xfil, p)
  | .xrowCpy p => some (.xrowCpy, p)
  | .xrowIni p => some (.xrowIni, p)
  | .xsta p => some (.xsta, p)
  | .lgld p => some (.lgld, p)
  | .lgst p => some (.lgst, p)
  | .lgclr p => some (.lgclr, p)
  | .fget p => some (.fget, p)
  | .fenc p => some (.fenc, p)
  | .fdec p => some (.fdec, p)
  | .frefInc p => some (.frefInc, p)
  | .frefDec p => some (.frefDec, p)
  | .falc p => some (.falc, p)
  | .ffre p => some (.ffre, p)
  | .fqry p => some (.fqry, p)
  | .mma p => some (.mma, p)
  | .mmag p => some (.mmag, p)
  | .mrd p => some (.mrd, p)
  | .mrdm p => some (.mrdm, p)
  | .mclr p => some (.mclr, p)
  | .mld p => some (.mld, p)
  | .tcls p => some (.tcls, p)
  | .mint p => some (.mint, p)
  | .mstk p => some (.mstk, p)
  | .sres p => some (.sres, p)
  | .scom p => some (.scom, p)
  | .strm p => some (.strm, p)
  | .sfrk p => some (.sfrk, p)
  | .sfil p => some (.sfil, p)
  | .sbnd p => some (.sbnd, p)
  | .spfx p => some (.spfx, p)
  | .spin p => some (.spin, p)
  | .stopk p => some (.stopk, p)
  | .srdDat p => some (.srdDat, p)
  | .srdMap p => some (.srdMap, p)
  | .srdLen p => some (.srdLen, p)
  | .snew p => some (.snew, p)
  | .sdel p => some (.sdel, p)
  | .cbnd p => some (.cbnd, p)
  | .cmodSet p => some (.cmodSet, p)
  | .cmodGet p => some (.cmodGet, p)
  | .crun p => some (.crun, p)
  | .cstp p => some (.cstp, p)
  | .cblim p => some (.cblim, p)
  | .trap p => some (.trap, p)
  | .yield p => some (.yield, p)
  | .rdsr p => some (.rdsr, p)
  | .rdsrChunk p => some (.rdsrChunk, p)
  | .rdsrFrzprod p => some (.rdsrFrzprod, p)
  | .wrsr p => some (.wrsr, p)
  | .wrsrFrzcons p => some (.wrsrFrzcons, p)
  | .frelRel p => some (.frelRel, p)
  | .frelDst p => some (.frelDst, p)
  | .frelRes p => some (.frelRes, p)
  | .ptok p => some (.ptok, p)
  | .ptokRel p => some (.ptokRel, p)
  | .ttok p => some (.ttok, p)
  | .launch p => some (.launch, p)
  | .rdctr p => some (.rdctr, p)
  | .rdctrSel p => some (.rdctrSel, p)
  | .mark p => some (.mark, p)
  | .brk p => some (.brk, p)
  | .fetchSectorArrival _ _ => none
  | .splitPhaseResult _ => none
  | .asyncFaultReport _ => none
  | .redPerformed _ => none
  | .storeWriteBack _ _ _ => none
  | .mwaitWriteWake _ => none
  | .mwaitTick _ => none
  | .txCommit _ => none
  | .barArrivalApplied _ => none
  | .bcaddApplied _ => none
  | .preemptDeadlineExpires _ => none
  | .groupStopComplete _ => none
  | .contextSaved _ => none
  | .contextFreed _ => none
  | .spillOnClaim _ _ => none
  | .faultRingDrain _ => none
  | .hartSelectQueue _ => none
  | .queueProdWrite _ _ => none
  | .queueEnable _ => none
  | .queueDisable _ => none
  | .cmdNop => none
  | .cmdSkip _ => none
  | .cmdLoop _ _ => none
  | .cmdEndl _ => none
  | .cmdCond _ _ _ _ => none
  | .cmdWait _ _ _ _ => none
  | .cmdSignal _ _ _ => none
  | .cmdWaitk => none
  | .cmdLaunch _ _ => none
  | .cmdLaunchi _ _ _ => none
  | .cmdCtxCreate _ _ => none
  | .cmdCtxPreempt _ _ => none
  | .cmdCtxResume _ _ => none
  | .cmdCtxDestroy _ _ => none
  | .queueWaitMet _ => none
  | .queueWaitTimeout _ => none
  | .kernelTranslatingStart _ => none
  | .extentTableBuilt _ => none
  | .blockPlacement _ => none
  | .blockRetire _ => none
  | .kernelFaultingDone _ => none
  | .walkComplete _ _ _ => none
  | .sideLogRetryTick _ => none
  | .rmRemove _ => none
  | .rmNotify _ => none
  | .rmDonate _ => none
  | .removeDrainEnd _ => none
  | .removeConfirm _ => none
  | .migCountClear => none
  | .migrationCopyDone _ => none
  | .migrationWindowExpire _ => none
  | .migrationSettleExpire _ => none
  | .xferChannelHead _ => none
  | .xferReadDone _ => none
  | .xferAbandon _ => none
  | .xferRetire _ => none
  | .xferParkedTick _ => none
  | .folioDonate _ => none
  | .lowmarkTick _ => none
  | .burinDone _ => none
  | .growingCopyDone _ => none
  | .entryRetireFree _ => none
  | .mmaStart _ => none
  | .mmaRetire _ => none
  | .mmaFault _ => none
  | .tileTurnEffect _ => none
  | .fillInstall _ => none
  | .clMirrorUpdate _ _ _ => none
  | .scrollDeleteFree _ _ => none
  | .chainChannelHead _ => none
  | .chainStepDone _ => none
  | .chainStepFault _ => none
  | .chainRetire _ => none
  | .hostRequest _ => none
  | .registerWrite _ _ _ => none
  | .attestation _ => none
  | .packageNumberWrite _ => none
  | .timesetWrite _ => none
  | .flitReceived _ _ => none
  | .flitReplay _ => none
  | .keepaliveSend _ => none
  | .flowAckTimer _ _ => none
  | .flowRetransmitTimeout _ _ => none
  | .portEnable _ => none
  | .portFence _ => none
  | .portUnfence _ => none
  | .markUnreachable _ => none
  | .portTrainingResult _ _ => none
  | .portLaneLoss _ => none
  | .portKeepaliveLoss _ => none
  | .portRetrainTimeout _ => none
  | .timeSyncSend => none
  | .timeSyncReceive _ _ => none
  | .timeLockLoss => none
  | .gangWrite _ _ => none
  | .gangInitDone _ => none
  | .rateChangeRequest _ => none
  | .rateChangeStart _ => none
  | .rateChangeDone _ _ => none
  | .scrubRead _ => none
  | .scrubEscalateTick _ => none
  | .pcSampleTick _ _ => none
  | .counterSlice => none
  | .counterSelectWrite _ _ _ => none
  | .histogramRecord => none
  | .boot => none
  | .powerCapExceeded => none
  | .thermalTrip => none
  | .fdecRetire _ => none
  | .bcsetApplied _ => none
  | .blockReloadDone _ _ => none
  | .powerLoss _ => none

end Sys2Proof
end

