-- ==== Sys2Proof/Decode.lean ====
section
/-! DEFINITION. Decoding and encoding of the 96-bit program word (R38 to R48) and of the 64-bit queue command words
(R89, R90), and the bit-field helpers that records and words share. -/

namespace Sys2Proof

/-! ### Bit fields of a record, held as a natural number (R2) -/

/-- Bits hi:lo of a record. -/
def fld (r hi lo : Nat) : Nat := (r >>> lo) % 2 ^ (hi + 1 - lo)
/-- Bit i of a record. -/
def bitAt (r i : Nat) : Bool := fld r i i == 1
/-- A record with bits hi:lo replaced by x, reduced to the field's width. -/
def setFld (r hi lo x : Nat) : Nat :=
  r - (fld r hi lo) * 2 ^ lo + (x % 2 ^ (hi + 1 - lo)) * 2 ^ lo
/-- A record built from (hi, lo, value) fields; the fields do not overlap. -/
def mkRec (fs : List (Nat × Nat × Nat)) : Nat :=
  fs.foldl (fun r f => r + (f.2.2 % 2 ^ (f.1 + 1 - f.2.1)) * 2 ^ f.2.1) 0
/-- The two's complement reading of a w-bit pattern. -/
def toSigned (w x : Nat) : Int :=
  if 2 * (x % 2 ^ w) < 2 ^ w then ((x % 2 ^ w : Nat) : Int) else ((x % 2 ^ w : Nat) : Int) - ((2 ^ w : Nat) : Int)
/-- Reduction of an exact integer to w bits (R32). -/
def wrap (w : Nat) (x : Int) : Nat := (x % ((2 ^ w : Nat) : Int)).toNat

/-! ### Operand fields -/

/-- The operand kinds of R39 by name; sh and cl are the two forms of kind 8. -/
inductive K where
  | v | s | latch | pred | sr | ac | bd | lg | sh | cl | imm | ct | none
  deriving DecidableEq, Repr

/-- The kind of an operand. -/
def Opnd.k : Opnd → K
  | .v _ => .v | .s _ => .s | .latch _ => .latch | .pred _ => .pred | .sr _ => .sr | .ac _ => .ac | .bd _ => .bd
  | .lg _ => .lg | .sh _ => .sh | .cl _ => .cl | .imm _ => .imm | .ct _ => .ct | .none => .none

/-- R39: an operand field, or none for an unassigned kind and for a predicate index 12 to 15. Bits above the index
range are left to `opndRsv`. -/
def Opnd.ofBits (x : BitVec 16) : Option Opnd :=
  match (x.extractLsb' 12 4).toNat with
  | 0 => some (.v (x.extractLsb' 0 7))
  | 1 => some (.s (x.extractLsb' 0 6))
  | 2 => some (.latch (x.extractLsb' 0 2))
  | 3 => if (x.extractLsb' 0 4).toNat < 12 then some (.pred (x.extractLsb' 0 4)) else none
  | 4 => some (.sr (x.extractLsb' 0 8))
  | 5 => some (.ac (x.extractLsb' 0 2))
  | 6 => some (.bd (x.extractLsb' 0 4))
  | 7 => some (.lg (x.extractLsb' 0 3))
  | 8 => if x.getLsbD 8 then some (.cl (x.extractLsb' 0 3)) else some (.sh (x.extractLsb' 0 3))
  | 9 => some (.imm (x.extractLsb' 0 12))
  | 10 => some (.ct (x.extractLsb' 0 12))
  | 15 => some .none
  | _ => none

/-- The encoding of an operand field (R39). -/
def Opnd.bits : Opnd → BitVec 16
  | .v n => (0x0 : BitVec 4) ++ (0 : BitVec 5) ++ n
  | .s n => (0x1 : BitVec 4) ++ (0 : BitVec 6) ++ n
  | .latch n => (0x2 : BitVec 4) ++ (0 : BitVec 10) ++ n
  | .pred n => (0x3 : BitVec 4) ++ (0 : BitVec 8) ++ n
  | .sr n => (0x4 : BitVec 4) ++ (0 : BitVec 4) ++ n
  | .ac n => (0x5 : BitVec 4) ++ (0 : BitVec 10) ++ n
  | .bd n => (0x6 : BitVec 4) ++ (0 : BitVec 8) ++ n
  | .lg n => (0x7 : BitVec 4) ++ (0 : BitVec 9) ++ n
  | .sh n => (0x8 : BitVec 4) ++ (0 : BitVec 9) ++ n
  | .cl n => (0x8 : BitVec 4) ++ (0x20 : BitVec 9) ++ n
  | .imm i => (0x9 : BitVec 4) ++ i
  | .ct n => (0xA : BitVec 4) ++ n
  | .none => 0xF000

/-- R48 check 4: a reserved index bit is set, or a none operand has an index. -/
def opndRsv (x : BitVec 16) : Bool :=
  match Opnd.ofBits x with
  | some o => o.bits != x
  | none => false

/-- R41: the D field. -/
def Dst.ofBits (x : BitVec 16) : Option Dst :=
  match (x.extractLsb' 12 4).toNat with
  | 0 => some (.v (x.getLsbD 11) (x.extractLsb' 9 2) (x.extractLsb' 0 7))
  | 1 => some (.s (x.getLsbD 11) (x.extractLsb' 9 2) (x.extractLsb' 0 6))
  | _ => (Opnd.ofBits x).map .other

/-- The encoding of the D field (R41). -/
def Dst.bits : Dst → BitVec 16
  | .v nw l n => (0x0 : BitVec 4) ++ BitVec.ofBool nw ++ l ++ (0 : BitVec 2) ++ n
  | .s nw l n => (0x1 : BitVec 4) ++ BitVec.ofBool nw ++ l ++ (0 : BitVec 3) ++ n
  | .other x => x.bits

/-- R41, R48: a reserved bit of the D field is set. -/
def dstRsv (x : BitVec 16) : Bool :=
  match Dst.ofBits x with
  | some o => o.bits != x
  | none => false

/-- The kind of the D field. -/
def Dst.k : Dst → K
  | .v _ _ _ => .v | .s _ _ _ => .s | .other x => x.k

/-- The operand in B, none when B carries immediate bits. -/
def BFld.opnd : BFld → Opnd
  | .op x => x | .raw _ => .none

/-- The encoding of the B field. -/
def BFld.bits : BFld → BitVec 16
  | .op x => x.bits | .raw x => x

/-! ### The encoding table -/

/-- What modifier bits 71:68 hold. -/
inductive Tys where
  /-- a type code of the list; any other raises trap 0x01 -/
  | codes (l : List Nat)
  /-- reserved, must be 0 -/
  | rsv
  /-- R275: bit 68 Count, 71:69 RZ -/
  | count
  /-- R366: bits 69:68 chain handle, 71:70 RZ -/
  | two
  deriving DecidableEq, Repr

/-- What modifier bits 67:64 hold. -/
inductive Rs where
  /-- reserved, must be 0 -/
  | rsv
  /-- R47: rounding, .sat, bit 64 RZ, with which of the two the row uses -/
  | arith (rnd sat : Bool)
  /-- R210: order, with the list accepted, and scope; spad marks a scratchpad instruction -/
  | mem (orders : List Nat) (spad : Bool)
  /-- R275: engine order and scope -/
  | eng
  /-- R217: 67:66 RZ, scope -/
  | scope
  deriving DecidableEq, Repr

/-- What the extension holds. -/
inductive Ext where
  /-- must be 0 (R44) -/
  | zero
  /-- any value -/
  | any
  /-- the low n bits; the others RZ -/
  | low (n : Nat)
  /-- R275: 0 unless Count is 1 -/
  | counted
  deriving DecidableEq, Repr

/-- Which of the vector and uniform forms exist (R46, R125). -/
inductive Uni where
  | both | vec | uni
  deriving DecidableEq, Repr

/-- One row of the encoding tables: d, a, b are the kinds accepted without the uniform bit, du, au, bu with it. -/
structure Row where
  maj : Nat
  fns : List Nat := [0]
  /-- a function that is not 0 is a reserved field -/
  fnRsv : Bool := false
  tys : Tys := .rsv
  rs : Rs := .rsv
  d : List K
  du : List K
  a : List K
  au : List K
  b : List K := [.none]
  bu : List K := [.none]
  /-- B and the extension hold a 32-bit immediate or two offsets (R44, R146) -/
  rawB : Bool := false
  ext : Ext := .zero
  uni : Uni := .both
  /-- issues on an ALU or SFU pipe, so D[10:9] names a latch (R41) -/
  latch : Bool := false
  deriving DecidableEq, Repr

/-- R122: sources of the vector form. -/
def vSrc : List K := [.v, .s, .latch, .imm, .ct]
/-- R122: sources of the uniform form. -/
def uSrc : List K := [.s, .imm, .ct]
/-- All sixteen codes of a nibble. -/
def all16 : List Nat := [0, 1, 2, 3, 4, 5, 6, 7, 8, 9, 10, 11, 12, 13, 14, 15]

/-- The rows, from R54, R79, R106, R107, R119, R129, R130, R136, R138 to R144, R146 to R157, R177, R200, R214, R217,
R218, R221, R223, R253, R275, R306, R336, R366 and R400. -/
def Op.row (o : Op) : Row :=
  match o with
  | .add => { maj := 0x0, tys := .codes [0,1,2,3,4,5,6,7], rs := .arith false true, d := [.v], du := [.s], a := vSrc, au := uSrc, b := vSrc, bu := uSrc, latch := true }
  | .sub => { maj := 0x1, tys := .codes [0,1,2,3,4,5,6,7], rs := .arith false true, d := [.v], du := [.s], a := vSrc, au := uSrc, b := vSrc, bu := uSrc, latch := true }
  | .mul => { maj := 0x2, tys := .codes [1,2,3,5,6,7], rs := .arith false true, d := [.v], du := [.s], a := vSrc, au := uSrc, b := vSrc, bu := uSrc, latch := true }
  | .mulhi => { maj := 0x3, tys := .codes [2,3,6,7], rs := .arith false false, d := [.v], du := [.s], a := vSrc, au := uSrc, b := vSrc, bu := uSrc, latch := true }
  | .mad => { maj := 0x4, tys := .codes [1,2,3,5,6,7], rs := .arith false true, d := [.v], du := [.s], a := vSrc, au := uSrc, b := vSrc, bu := uSrc, latch := true }
  | .madhi => { maj := 0x5, tys := .codes [2,3,6,7], rs := .arith false false, d := [.v], du := [.s], a := vSrc, au := uSrc, b := vSrc, bu := uSrc, latch := true }
  | .div => { maj := 0x6, tys := .codes [2,3,6,7], rs := .arith false false, d := [.v], du := [.s], a := vSrc, au := uSrc, b := vSrc, bu := uSrc, latch := true }
  | .rem => { maj := 0x7, tys := .codes [2,3,6,7], rs := .arith false false, d := [.v], du := [.s], a := vSrc, au := uSrc, b := vSrc, bu := uSrc, latch := true }
  | .min => { maj := 0x8, tys := .codes [0,1,2,3,4,5,6,7], rs := .arith false false, d := [.v], du := [.s], a := vSrc, au := uSrc, b := vSrc, bu := uSrc, latch := true }
  | .max => { maj := 0x9, tys := .codes [0,1,2,3,4,5,6,7], rs := .arith false false, d := [.v], du := [.s], a := vSrc, au := uSrc, b := vSrc, bu := uSrc, latch := true }
  | .abs => { maj := 0xa, tys := .codes [0,1,2,3], rs := .arith false true, d := [.v], du := [.s], a := vSrc, au := uSrc, b := [.none], bu := [.none], latch := true }
  | .neg => { maj := 0xb, tys := .codes [0,1,2,3], rs := .arith false true, d := [.v], du := [.s], a := vSrc, au := uSrc, b := [.none], bu := [.none], latch := true }
  | .and => { maj := 0xc, tys := .codes [6,7], rs := .arith false false, d := [.v], du := [.s], a := vSrc, au := uSrc, b := vSrc, bu := uSrc, latch := true }
  | .or => { maj := 0xd, tys := .codes [6,7], rs := .arith false false, d := [.v], du := [.s], a := vSrc, au := uSrc, b := vSrc, bu := uSrc, latch := true }
  | .xor => { maj := 0xe, tys := .codes [6,7], rs := .arith false false, d := [.v], du := [.s], a := vSrc, au := uSrc, b := vSrc, bu := uSrc, latch := true }
  | .not => { maj := 0xf, tys := .codes [6,7], rs := .arith false false, d := [.v], du := [.s], a := vSrc, au := uSrc, b := [.none], bu := [.none], latch := true }
  | .shl => { maj := 0x10, tys := .codes [6,7], rs := .arith false false, d := [.v], du := [.s], a := vSrc, au := uSrc, b := vSrc, bu := uSrc, latch := true }
  | .shr => { maj := 0x11, tys := .codes [6,7], rs := .arith false false, d := [.v], du := [.s], a := vSrc, au := uSrc, b := vSrc, bu := uSrc, latch := true }
  | .sha => { maj := 0x12, tys := .codes [2,3], rs := .arith false false, d := [.v], du := [.s], a := vSrc, au := uSrc, b := vSrc, bu := uSrc, latch := true }
  | .rot => { maj := 0x13, tys := .codes [6,7], rs := .arith false false, d := [.v], du := [.s], a := vSrc, au := uSrc, b := vSrc, bu := uSrc, latch := true }
  | .bfx => { maj := 0x14, tys := .codes [2,3,6,7], rs := .arith false false, d := [.v], du := [.s], a := vSrc, au := uSrc, b := vSrc, bu := uSrc, latch := true }
  | .bfi => { maj := 0x15, tys := .codes [6,7], rs := .arith false false, d := [.v], du := [.s], a := vSrc, au := uSrc, b := vSrc, bu := uSrc, latch := true }
  | .popc => { maj := 0x16, tys := .codes [6,7], rs := .arith false false, d := [.v], du := [.s], a := vSrc, au := uSrc, b := [.none], bu := [.none], latch := true }
  | .clz => { maj := 0x17, tys := .codes [6,7], rs := .arith false false, d := [.v], du := [.s], a := vSrc, au := uSrc, b := [.none], bu := [.none], latch := true }
  | .ctz => { maj := 0x18, tys := .codes [6,7], rs := .arith false false, d := [.v], du := [.s], a := vSrc, au := uSrc, b := [.none], bu := [.none], latch := true }
  | .brev => { maj := 0x19, tys := .codes [6,7], rs := .arith false false, d := [.v], du := [.s], a := vSrc, au := uSrc, b := [.none], bu := [.none], latch := true }
  | .perm => { maj := 0x1a, tys := .codes [6], rs := .arith false false, d := [.v], du := [.s], a := vSrc, au := uSrc, b := vSrc, bu := uSrc, latch := true, ext := .any }
  | .sel => { maj := 0x1b, tys := .codes [6,7], rs := .arith false false, d := [.v], du := [.s], a := vSrc, au := uSrc, b := vSrc, bu := uSrc, latch := true, fns := all16 }
  | .set => { maj := 0x1c, tys := .codes [0,1,2,3,4,5,6,7], rs := .arith false false, d := [.v], du := [.s], a := vSrc, au := uSrc, b := vSrc, bu := uSrc, latch := true, fns := [0,1,2,3,4,5] }
  | .setp => { maj := 0x1d, tys := .codes [2,3,6,7], rs := .arith false false, d := [.pred], du := [.pred], a := vSrc, au := uSrc, b := vSrc, bu := uSrc, latch := false, fns := [0,1,2,3,4,5] }
  | .mov => { maj := 0x1e, tys := .codes [6,7], rs := .arith false false, d := [.v], du := [.s], a := (.sr :: vSrc), au := (.sr :: uSrc), b := [.none], bu := [.none], latch := true }
  | .movi => { maj := 0x1f, fnRsv := true, tys := .rsv, d := [.v], du := [.s], a := [.none], au := [.none], rawB := true, ext := .any, latch := true }
  | .addi => { maj := 0x20, tys := .codes [2,3,6,7], rs := .arith false true, d := [.v], du := [.s], a := vSrc, au := uSrc, b := vSrc, bu := uSrc, latch := true, rawB := true, ext := .any }
  | .andi => { maj := 0x21, tys := .codes [6,7], rs := .arith false false, d := [.v], du := [.s], a := vSrc, au := uSrc, b := vSrc, bu := uSrc, latch := true, rawB := true, ext := .any }
  | .ori => { maj := 0x22, tys := .codes [6,7], rs := .arith false false, d := [.v], du := [.s], a := vSrc, au := uSrc, b := vSrc, bu := uSrc, latch := true, rawB := true, ext := .any }
  | .xori => { maj := 0x23, tys := .codes [6,7], rs := .arith false false, d := [.v], du := [.s], a := vSrc, au := uSrc, b := vSrc, bu := uSrc, latch := true, rawB := true, ext := .any }
  | .shladd => { maj := 0x24, tys := .codes [2,3,6,7], rs := .arith false false, d := [.v], du := [.s], a := vSrc, au := uSrc, b := vSrc, bu := uSrc, latch := true, ext := .low 6 }
  | .lea => { maj := 0x25, tys := .codes [7], rs := .arith false false, d := [.v], du := [.s], a := vSrc, au := uSrc, b := vSrc, bu := uSrc, latch := true, ext := .low 3 }
  | .addc => { maj := 0x26, tys := .codes [6,7], rs := .arith false false, d := [.v], du := [.s], a := vSrc, au := uSrc, b := vSrc, bu := uSrc, latch := true, ext := .low 8 }
  | .subb => { maj := 0x27, tys := .codes [6,7], rs := .arith false false, d := [.v], du := [.s], a := vSrc, au := uSrc, b := vSrc, bu := uSrc, latch := true, ext := .low 8 }
  | .sad => { maj := 0x28, tys := .codes [4,2,6], rs := .arith false false, d := [.v], du := [.s], a := vSrc, au := uSrc, b := vSrc, bu := uSrc, latch := true }
  | .clamp => { maj := 0x29, tys := .codes [0,1,2,3,4,5,6,7], rs := .arith false false, d := [.v], du := [.s], a := vSrc, au := uSrc, b := vSrc, bu := uSrc, latch := true }
  | .mulw => { maj := 0x2a, tys := .codes [2,6], rs := .arith false false, d := [.v], du := [.s], a := vSrc, au := uSrc, b := vSrc, bu := uSrc, latch := true }
  | .ext => { maj := 0x2b, tys := .codes [0,1,2,4,5,6], rs := .arith false false, d := [.v], du := [.s], a := vSrc, au := uSrc, b := [.none], bu := [.none], latch := true, fns := [0,1] }
  | .tern => { maj := 0x2c, tys := .codes [6,7], rs := .arith false false, d := [.v], du := [.s], a := vSrc, au := uSrc, b := vSrc, bu := uSrc, latch := true, ext := .low 8 }
  | .shf => { maj := 0x2d, tys := .codes [6], rs := .arith false false, d := [.v], du := [.s], a := vSrc, au := uSrc, b := vSrc, bu := uSrc, latch := true, ext := .low 5, fns := [0,1] }
  | .fadd => { maj := 0x30, tys := .codes [8,9,10], rs := .arith true true, d := [.v], du := [.s], a := vSrc, au := uSrc, b := vSrc, bu := uSrc, latch := true }
  | .fsub => { maj := 0x31, tys := .codes [8,9,10], rs := .arith true true, d := [.v], du := [.s], a := vSrc, au := uSrc, b := vSrc, bu := uSrc, latch := true }
  | .fmul => { maj := 0x32, tys := .codes [8,9,10], rs := .arith true true, d := [.v], du := [.s], a := vSrc, au := uSrc, b := vSrc, bu := uSrc, latch := true }
  | .ffma => { maj := 0x33, tys := .codes [8,9,10], rs := .arith true true, d := [.v], du := [.s], a := vSrc, au := uSrc, b := vSrc, bu := uSrc, latch := true }
  | .fmin => { maj := 0x34, tys := .codes [8,9,10], rs := .arith false false, d := [.v], du := [.s], a := vSrc, au := uSrc, b := vSrc, bu := uSrc, latch := true }
  | .fmax => { maj := 0x35, tys := .codes [8,9,10], rs := .arith false false, d := [.v], du := [.s], a := vSrc, au := uSrc, b := vSrc, bu := uSrc, latch := true }
  | .fabs => { maj := 0x36, tys := .codes [8,9,10], rs := .arith false false, d := [.v], du := [.s], a := vSrc, au := uSrc, b := [.none], bu := [.none], latch := true }
  | .fneg => { maj := 0x37, tys := .codes [8,9,10], rs := .arith false false, d := [.v], du := [.s], a := vSrc, au := uSrc, b := [.none], bu := [.none], latch := true }
  | .fsetp => { maj := 0x38, tys := .codes [8,9,10], rs := .arith false false, d := [.pred], du := [.pred], a := vSrc, au := uSrc, b := vSrc, bu := uSrc, latch := false, fns := [0,1,2,3,4,5,6,7] }
  | .fset => { maj := 0x39, tys := .codes [8,9,10], rs := .arith false false, d := [.v], du := [.s], a := vSrc, au := uSrc, b := vSrc, bu := uSrc, latch := true, fns := [0,1,2,3,4,5,6,7] }
  | .fclass => { maj := 0x3a, tys := .codes [8,9,10], rs := .arith false false, d := [.v], du := [.s], a := vSrc, au := uSrc, b := [.none], bu := [.none], latch := true }
  | .frnd => { maj := 0x3b, tys := .codes [8,9,10], rs := .arith true false, d := [.v], du := [.s], a := vSrc, au := uSrc, b := [.none], bu := [.none], latch := true }
  | .rcp => { maj := 0x3c, tys := .codes [8,9,10], rs := .arith true false, d := [.v], du := [.s], a := vSrc, au := uSrc, b := [.none], bu := [.none], latch := true, uni := .vec }
  | .rsqrt => { maj := 0x3d, tys := .codes [8,9,10], rs := .arith false false, d := [.v], du := [.s], a := vSrc, au := uSrc, b := [.none], bu := [.none], latch := true, uni := .vec }
  | .sqrt => { maj := 0x3e, tys := .codes [8,9,10], rs := .arith true false, d := [.v], du := [.s], a := vSrc, au := uSrc, b := [.none], bu := [.none], latch := true, uni := .vec }
  | .ex2 => { maj := 0x3f, tys := .codes [8,9,10], rs := .arith false false, d := [.v], du := [.s], a := vSrc, au := uSrc, b := [.none], bu := [.none], latch := true, uni := .vec }
  | .log2 => { maj := 0x40, tys := .codes [8,9,10], rs := .arith false false, d := [.v], du := [.s], a := vSrc, au := uSrc, b := [.none], bu := [.none], latch := true, uni := .vec }
  | .sin => { maj := 0x41, tys := .codes [8,9,10], rs := .arith false false, d := [.v], du := [.s], a := vSrc, au := uSrc, b := [.none], bu := [.none], latch := true, uni := .vec }
  | .cos => { maj := 0x42, tys := .codes [8,9,10], rs := .arith false false, d := [.v], du := [.s], a := vSrc, au := uSrc, b := [.none], bu := [.none], latch := true, uni := .vec }
  | .tanh => { maj := 0x43, tys := .codes [8,9,10], rs := .arith false false, d := [.v], du := [.s], a := vSrc, au := uSrc, b := [.none], bu := [.none], latch := true, uni := .vec }
  | .cvt => { maj := 0x44, tys := .codes all16, rs := .arith true true, d := [.v], du := [.s], a := vSrc, au := uSrc, b := [.none], bu := [.none], latch := true, fns := all16 }
  | .cvtf => { maj := 0x45, tys := .codes [0,1,2,3,4], rs := .arith true true, d := [.v], du := [.s], a := vSrc, au := uSrc, b := [.none], bu := [.none], latch := true, fns := [0,1] }
  | .cvti => { maj := 0x46, tys := .codes all16, rs := .arith false true, d := [.v], du := [.s], a := vSrc, au := uSrc, b := [.none], bu := [.none], latch := true, fns := all16 }
  | .cvts => { maj := 0x47, tys := .codes all16, rs := .arith true true, d := [.v], du := [.s], a := vSrc, au := uSrc, b := vSrc, bu := uSrc, latch := true, fns := all16 }
  | .pack => { maj := 0x48, tys := .codes [9,10,11,12,13,0,4,14,15], rs := .arith true true, d := [.v], du := [.s], a := vSrc, au := uSrc, b := vSrc, bu := uSrc, latch := true, fns := all16 }
  | .faddi => { maj := 0x49, tys := .codes [8], rs := .arith true true, d := [.v], du := [.s], a := vSrc, au := uSrc, b := vSrc, bu := uSrc, latch := true, rawB := true, ext := .any }
  | .fmuli => { maj := 0x4a, tys := .codes [8], rs := .arith true true, d := [.v], du := [.s], a := vSrc, au := uSrc, b := vSrc, bu := uSrc, latch := true, rawB := true, ext := .any }
  | .dot4 => { maj := 0x50, tys := .codes [0,4], rs := .arith false true, d := [.v], du := [.s], a := vSrc, au := uSrc, b := vSrc, bu := uSrc, latch := true }
  | .dot8 => { maj := 0x51, tys := .codes [14,15], rs := .arith false true, d := [.v], du := [.s], a := vSrc, au := uSrc, b := vSrc, bu := uSrc, latch := true }
  | .dot4f => { maj := 0x52, tys := .codes [11,12,13], rs := .arith true false, d := [.v], du := [.s], a := vSrc, au := uSrc, b := vSrc, bu := uSrc, latch := true }
  | .dot8f => { maj := 0x53, tys := .codes [0], rs := .arith true false, d := [.v], du := [.s], a := vSrc, au := uSrc, b := vSrc, bu := uSrc, latch := true }
  | .dot2h => { maj := 0x54, tys := .codes [9,10], rs := .arith true false, d := [.v], du := [.s], a := vSrc, au := uSrc, b := vSrc, bu := uSrc, latch := true }
  | .bra => { maj := 0x58, d := [.none], du := [.none], a := [.none], au := [.none], b := [.none], bu := [.none], fnRsv := true, rawB := true, ext := .any }
  | .brx => { maj := 0x59, d := [.none], du := [.none], a := [.v, .s], au := [.v, .s], b := [.none], bu := [.none], fnRsv := true, ext := .any, uni := .vec }
  | .call => { maj := 0x5a, d := [.s], du := [.s], a := [.none], au := [.none], b := [.none], bu := [.none], fnRsv := true, rawB := true, ext := .any }
  | .ret => { maj := 0x5b, d := [.none], du := [.none], a := [.s], au := [.s], b := [.none], bu := [.none], fnRsv := true }
  | .jmp => { maj := 0x5c, d := [.none], du := [.none], a := [.s], au := [.s], b := [.none], bu := [.none], fnRsv := true }
  | .exit => { maj := 0x5d, d := [.none], du := [.none], a := [.none], au := [.none], b := [.none], bu := [.none], fnRsv := true }
  | .plop => { maj := 0x5e, d := [.pred], du := [.pred], a := [.pred], au := [.pred], b := [.pred], bu := [.pred], fns := [0,1,2,3,4,5,6,7] }
  | .census => { maj := 0x5f, d := [.pred], du := [.pred], a := [.pred], au := [.pred], b := [.none], bu := [.none], fns := [0,1,2,3], uni := .vec }
  | .lmask => { maj := 0x60, d := [.v, .s], du := [.v, .s], a := [.pred], au := [.pred], b := [.none], bu := [.none], fns := [0,1], uni := .vec }
  | .qxch => { maj := 0x61, d := [.v], du := [.v], a := [.v, .s, .imm, .ct], au := [.v, .s, .imm, .ct], b := [.none], bu := [.none], fns := [0,1,2,4,5,6,7], tys := .codes [6], uni := .vec, latch := true }
  | .lperm => { maj := 0x62, d := [.v], du := [.v], a := [.v, .s, .imm, .ct], au := [.v, .s, .imm, .ct], b := vSrc, bu := vSrc, fns := [0,1,2,3], tys := .codes [6], uni := .vec, latch := true }
  | .gred => { maj := 0x63, d := [.v, .s], du := [.v, .s], a := vSrc, au := vSrc, b := [.none], bu := [.none], fns := [0,1,2,3,4,5,6,7,8], tys := .codes [2,6,8], rs := .arith true true, uni := .vec, latch := true }
  | .gscan => { maj := 0x64, d := [.v], du := [.v], a := vSrc, au := vSrc, b := [.none], bu := [.none], fns := [0,1,2,3,4,5,6,7,8], tys := .codes [2,6,8], rs := .arith true true, uni := .vec, ext := .low 1, latch := true }
  | .matchv => { maj := 0x65, d := [.v], du := [.v], a := [.v, .s, .imm, .ct], au := [.v, .s, .imm, .ct], b := [.none], bu := [.none], tys := .codes [6], uni := .vec, latch := true }
  | .nop => { maj := 0x66, d := [.none], du := [.none], a := [.none], au := [.none], b := [.none], bu := [.none], fnRsv := true }
  | .join => { maj := 0x67, d := [.none], du := [.none], a := [.none], au := [.none], b := [.none], bu := [.none], fnRsv := true, uni := .vec }
  | .ld => { maj := 0x70, d := [.v], du := [.v], a := [.v, .s], au := [.v, .s], b := [.none, .v], bu := [.none, .v], fns := [0,1,2], tys := .codes [0,1,2,3,4,5,6,7,8], rs := .mem [0,1] false, uni := .vec, ext := .any }
  | .st => { maj := 0x71, d := [.none], du := [.none], a := [.v, .s], au := [.v, .s], b := [.v, .s, .imm, .ct], bu := [.v, .s, .imm, .ct], fns := [0,1,2], tys := .codes [0,1,2,3,4,5,6,7,8], rs := .mem [0,2] false, uni := .vec, ext := .any }
  | .ldu => { maj := 0x72, d := [.s], du := [.s], a := [.s], au := [.s], b := [.none], bu := [.none], fns := [0,1,2], tys := .codes [0,1,2,3,4,5,6,7,8], rs := .mem [0,1] false, uni := .uni, ext := .any }
  | .stu => { maj := 0x73, d := [.none], du := [.none], a := [.s], au := [.s], b := [.s], bu := [.s], fns := [0,1,2], tys := .codes [0,1,2,3,4,5,6,7,8], rs := .mem [0,2] false, uni := .uni, ext := .any }
  | .lds => { maj := 0x74, d := [.v], du := [.v], a := [.v, .s], au := [.v, .s], b := [.none], bu := [.none], fns := [0,1,2], tys := .codes [0,1,2,3,4,5,6,7,8], rs := .mem [0,1] true, uni := .vec, ext := .any }
  | .sts => { maj := 0x75, d := [.none], du := [.none], a := [.v, .s], au := [.v, .s], b := [.v, .s, .imm, .ct], bu := [.v, .s, .imm, .ct], fns := [0,1,2], tys := .codes [0,1,2,3,4,5,6,7,8], rs := .mem [0,2] true, uni := .vec, ext := .any }
  | .atom => { maj := 0x76, d := [.v], du := [.s], a := [.v, .s], au := [.s], b := [.v, .s, .imm, .ct], bu := [.s], fns := [0,1,2,3,4,5,6,7,8], tys := .codes [2,3,6,7,8,9,10], rs := .mem [0,1,2,3] false, ext := .any }
  | .red => { maj := 0x77, d := [.none], du := [.none], a := [.v, .s], au := [.s], b := [.v, .s, .imm, .ct], bu := [.s], fns := [0,1,2,3,4,5,7,8], tys := .codes [2,3,6,7,8,9,10], rs := .mem [0,2] false, ext := .any }
  | .atoms => { maj := 0x78, d := [.v, .none], du := [.s, .none], a := [.v, .s], au := [.s], b := [.v, .s, .imm, .ct], bu := [.s], fns := [0,1,2,3,4,5,6,7,8], tys := .codes [2,3,6,7,8,9,10], rs := .mem [0,1,2,3] true, ext := .any }
  | .cas => { maj := 0x79, d := [.v], du := [.s], a := [.v, .s], au := [.s], b := [.v, .s, .imm, .ct], bu := [.s], tys := .codes [2,3,6,7], rs := .mem [0,1,2,3] false, ext := .any }
  | .txbeg => { maj := 0x7a, d := [.none], du := [.none], a := [.none], au := [.none], b := [.none], bu := [.none], fnRsv := true }
  | .txend => { maj := 0x7b, d := [.v], du := [.v], a := [.none], au := [.none], b := [.none], bu := [.none], fnRsv := true, uni := .vec }
  | .txabt => { maj := 0x7c, d := [.none], du := [.none], a := [.imm, .s], au := [.imm, .s], b := [.none], bu := [.none], fnRsv := true }
  | .mwait => { maj := 0x7d, d := [.s, .none], du := [.s, .none], a := [.s], au := [.s], b := [.s, .imm], bu := [.s, .imm], fns := [0,1,2,3,4,5,6,7], tys := .codes [2,3,6,7], rs := .mem [0,1] false, ext := .any }
  | .fence => { maj := 0x7e, d := [.none], du := [.none], a := [.none], au := [.none], b := [.none], bu := [.none], fns := [0,1,2,3], rs := .scope }
  | .pfetch => { maj := 0x7f, d := [.none], du := [.none], a := [.v, .s], au := [.s], b := [.none], bu := [.none], fns := [0,1], ext := .any }
  | .icinv => { maj := 0x80, d := [.none], du := [.none], a := [.s], au := [.s], b := [.s, .imm], bu := [.s, .imm], ext := .any }
  | .pgq => { maj := 0x81, d := [.s], du := [.s], a := [.s], au := [.s], b := [.none], bu := [.none], ext := .any }
  | .wresz => { maj := 0x82, d := [.s], du := [.s], a := [.s, .imm], au := [.s, .imm], b := [.none], bu := [.none] }
  | .barSync => { maj := 0x90, d := [.none], du := [.none], a := [.imm, .s], au := [.imm, .s], b := [.imm, .s], bu := [.imm, .s], fns := [0] }
  | .barArv => { maj := 0x90, d := [.none], du := [.none], a := [.imm, .s], au := [.imm, .s], b := [.imm, .s], bu := [.imm, .s], fns := [1] }
  | .bcsetInit => { maj := 0x91, d := [.none], du := [.none], a := [.s], au := [.s], b := [.imm, .s], bu := [.imm, .s], ext := .any }
  | .bcsetExp => { maj := 0x91, d := [.none], du := [.none], a := [.s], au := [.s], b := [.imm, .s], bu := [.imm, .s], fns := [1], ext := .any }
  | .bcadd => { maj := 0x92, d := [.none], du := [.none], a := [.s], au := [.s], b := [.imm, .s], bu := [.imm, .s], ext := .any }
  | .bcwait => { maj := 0x93, d := [.none], du := [.none], a := [.s], au := [.s], b := [.imm, .s], bu := [.imm, .s], ext := .any }
  | .batf => { maj := 0x94, d := [.s, .none], du := [.s, .none], a := [.none], au := [.none], b := [.none], bu := [.none] }
  | .batw => { maj := 0x95, d := [.none], du := [.none], a := [.imm, .s], au := [.imm, .s], b := [.none], bu := [.none], fns := [0,1] }
  | .xcpy => { maj := 0x98, d := [.s], du := [.s], a := [.s], au := [.s], b := [.s], bu := [.s], tys := .count, rs := .eng, ext := .counted }
  | .xgat => { maj := 0x99, d := [.s], du := [.s], a := [.v], au := [.v], b := [.imm, .s], bu := [.imm, .s], fns := [0,1,2,3,4,5], tys := .count, rs := .eng, ext := .counted, uni := .vec }
  | .xqnt => { maj := 0x9a, d := [.s], du := [.s], a := [.s], au := [.s], b := [.none], bu := [.none], tys := .count, rs := .eng, ext := .counted }
  | .xfil => { maj := 0x9b, d := [.s], du := [.s], a := [.s], au := [.s], b := [.none], bu := [.none], tys := .count, rs := .eng, ext := .counted }
  | .xrowCpy => { maj := 0x9c, d := [.s], du := [.s], a := [.s], au := [.s], b := [.s], bu := [.s], rs := .eng }
  | .xrowIni => { maj := 0x9c, d := [.s], du := [.s], a := [.s], au := [.s], b := [.s], bu := [.s], fns := [1], rs := .eng }
  | .xsta => { maj := 0x9d, d := [.none], du := [.none], a := [.s], au := [.s], b := [.s], bu := [.s], rs := .eng, ext := .any }
  | .lgld => { maj := 0xa0, d := [.s], du := [.s], a := [.s], au := [.s], b := [.lg], bu := [.lg], ext := .any }
  | .lgst => { maj := 0xa1, d := [.none], du := [.none], a := [.s], au := [.s], b := [.lg], bu := [.lg], ext := .any }
  | .lgclr => { maj := 0xa2, d := [.lg], du := [.lg], a := [.none], au := [.none], b := [.none], bu := [.none] }
  | .fget => { maj := 0xa3, d := [.s], du := [.s], a := [.s], au := [.s], b := [.imm, .s], bu := [.imm, .s] }
  | .fenc => { maj := 0xa4, d := [.s, .none], du := [.s, .none], a := [.s], au := [.s], b := [.imm, .s], bu := [.imm, .s], fns := [0,1], ext := .low 3 }
  | .fdec => { maj := 0xa5, d := [.none], du := [.none], a := [.s], au := [.s], b := [.imm, .s], bu := [.imm, .s] }
  | .frefInc => { maj := 0xa6, d := [.s], du := [.s], a := [.s], au := [.s], b := [.imm, .s], bu := [.imm, .s] }
  | .frefDec => { maj := 0xa6, d := [.s], du := [.s], a := [.s], au := [.s], b := [.imm, .s], bu := [.imm, .s], fns := [1] }
  | .falc => { maj := 0xa7, d := [.s], du := [.s], a := [.s], au := [.s], b := [.none], bu := [.none], ext := .any }
  | .ffre => { maj := 0xa8, d := [.s], du := [.s], a := [.none], au := [.none], b := [.imm, .s], bu := [.imm, .s] }
  | .fqry => { maj := 0xa9, d := [.s], du := [.s], a := [.imm, .s], au := [.imm, .s], b := [.none], bu := [.none] }
  | .mma => { maj := 0xb0, d := [.ac], du := [.ac], a := [.s], au := [.s], b := [.s, .none], bu := [.s, .none], fnRsv := true }
  | .mmag => { maj := 0xb1, d := [.ac], du := [.ac], a := [.s], au := [.s], b := [.v], bu := [.v], fnRsv := true, uni := .vec }
  | .mrd => { maj := 0xb2, d := [.v], du := [.v], a := [.ac], au := [.ac], b := [.s], bu := [.s], fns := [0,1,2,3,4,5,6,7], tys := .codes [8,10,2], uni := .vec }
  | .mrdm => { maj := 0xb3, d := [.v], du := [.v], a := [.ac], au := [.ac], b := [.s], bu := [.s], fns := [0,1,2,3,4,5,6,7], tys := .codes [8,10], uni := .vec }
  | .mclr => { maj := 0xb4, d := [.ac], du := [.ac], a := [.none], au := [.none], b := [.none], bu := [.none], fnRsv := true, tys := .codes [8,2] }
  | .mld => { maj := 0xb5, d := [.none], du := [.none], a := [.s], au := [.s], b := [.none], bu := [.none], fnRsv := true }
  | .tcls => { maj := 0xb6, d := [.s], du := [.s], a := [.ac], au := [.ac], b := [.s], bu := [.s], fnRsv := true }
  | .mint => { maj := 0xb7, d := [.ac], du := [.ac], a := [.s], au := [.s], b := [.s], bu := [.s], fnRsv := true, ext := .any }
  | .mstk => { maj := 0xb8, d := [.s], du := [.s], a := [.ac], au := [.ac], b := [.none], bu := [.none], fnRsv := true }
  | .sres => { maj := 0xc0, d := [.s], du := [.s], a := [.sh], au := [.sh], b := [.imm, .s], bu := [.imm, .s] }
  | .scom => { maj := 0xc1, d := [.s], du := [.s], a := [.sh], au := [.sh], b := [.s], bu := [.s] }
  | .strm => { maj := 0xc2, d := [.s], du := [.s], a := [.sh], au := [.sh], b := [.imm, .s], bu := [.imm, .s] }
  | .sfrk => { maj := 0xc3, d := [.s], du := [.s], a := [.sh], au := [.sh], b := [.s], bu := [.s] }
  | .sfil => { maj := 0xc4, d := [.none], du := [.none], a := [.sh], au := [.sh], b := [.s, .v], bu := [.s], fns := [0,1], ext := .low 3 }
  | .sbnd => { maj := 0xc5, d := [.sh], du := [.sh], a := [.s, .none], au := [.s, .none], b := [.none], bu := [.none] }
  | .spfx => { maj := 0xc6, d := [.s], du := [.s], a := [.s], au := [.s], b := [.none], bu := [.none] }
  | .spin => { maj := 0xc7, d := [.s], du := [.s], a := [.sh], au := [.sh], b := [.s], bu := [.s], ext := .any }
  | .stopk => { maj := 0xc8, d := [.s], du := [.s], a := [.sh], au := [.sh], b := [.s], bu := [.s], ext := .any }
  | .srdDat => { maj := 0xc9, d := [.s], du := [.s], a := [.sh], au := [.sh], b := [.s], bu := [.s], ext := .any }
  | .srdMap => { maj := 0xc9, d := [.s], du := [.s], a := [.sh], au := [.sh], b := [.s, .imm], bu := [.s, .imm], fns := [1] }
  | .srdLen => { maj := 0xc9, d := [.s], du := [.s], a := [.cl], au := [.cl], b := [.none], bu := [.none], fns := [2] }
  | .snew => { maj := 0xca, d := [.s], du := [.s], a := [.s], au := [.s], b := [.none], bu := [.none], ext := .any }
  | .sdel => { maj := 0xcb, d := [.s], du := [.s], a := [.sh], au := [.sh], b := [.none], bu := [.none] }
  | .cbnd => { maj := 0xd0, d := [.none], du := [.none], a := [.imm], au := [.imm], b := [.s, .none], bu := [.s, .none], fnRsv := true }
  | .cmodSet => { maj := 0xd1, d := [.bd], du := [.bd], a := [.s], au := [.s], b := [.none], bu := [.none] }
  | .cmodGet => { maj := 0xd1, d := [.s], du := [.s], a := [.bd], au := [.bd], b := [.none], bu := [.none], fns := [1] }
  | .crun => { maj := 0xd2, d := [.none], du := [.none], a := [.s], au := [.s], b := [.s], bu := [.s], tys := .two, rs := .eng, ext := .any }
  | .cstp => { maj := 0xd3, d := [.none], du := [.none], a := [.s], au := [.s], b := [.s], bu := [.s], fns := [0,1], tys := .two, rs := .eng, ext := .any }
  | .cblim => { maj := 0xd4, d := [.none], du := [.none], a := [.s], au := [.s], b := [.none], bu := [.none], fnRsv := true }
  | .trap => { maj := 0xe0, d := [.none], du := [.none], a := [.imm, .s], au := [.imm, .s], b := [.none], bu := [.none], fnRsv := true }
  | .yield => { maj := 0xe1, d := [.none], du := [.none], a := [.imm], au := [.imm], b := [.none], bu := [.none], fnRsv := true }
  | .rdsr => { maj := 0xe2, d := [.v, .s], du := [.v, .s], a := [.sr, .s], au := [.sr, .s], b := [.none], bu := [.none], fnRsv := true }
  | .rdsrChunk => { maj := 0xe2, d := [.s], du := [.s], a := [.sr], au := [.sr], b := [.none], bu := [.none], fnRsv := true }
  | .rdsrFrzprod => { maj := 0xe2, d := [.v, .s], du := [.v, .s], a := [.sr], au := [.sr], b := [.none], bu := [.none], fnRsv := true }
  | .wrsr => { maj := 0xe3, d := [.sr], du := [.sr], a := [.s, .imm], au := [.s, .imm], b := [.none], bu := [.none], fnRsv := true }
  | .wrsrFrzcons => { maj := 0xe3, d := [.sr], du := [.sr], a := [.s, .imm], au := [.s, .imm], b := [.none], bu := [.none], fnRsv := true }
  | .frelRel => { maj := 0xe6, d := [.s], du := [.s], a := [.s], au := [.s], b := [.none], bu := [.none], fns := [0] }
  | .frelDst => { maj := 0xe6, d := [.s], du := [.s], a := [.s], au := [.s], b := [.none], bu := [.none], fns := [1] }
  | .frelRes => { maj := 0xe6, d := [.s], du := [.s], a := [.s], au := [.s], b := [.none], bu := [.none], fns := [2] }
  | .ptok => { maj := 0xe4, d := [.pred, .none], du := [.pred, .none], a := [.imm, .s], au := [.imm, .s], b := [.none], bu := [.none] }
  | .ptokRel => { maj := 0xe4, d := [.pred, .none], du := [.pred, .none], a := [.none], au := [.none], b := [.none], bu := [.none], fns := [1] }
  | .ttok => { maj := 0xe5, d := [.pred, .none], du := [.pred, .none], a := [.none], au := [.none], b := [.none], bu := [.none] }
  | .launch => { maj := 0xe7, d := [.s], du := [.s], a := [.s], au := [.s], b := [.s, .none], bu := [.s, .none], fnRsv := true }
  | .rdctr => { maj := 0xe8, d := [.s], du := [.s], a := [.imm, .s], au := [.imm, .s], b := [.none], bu := [.none] }
  | .rdctrSel => { maj := 0xe8, d := [.s], du := [.s], a := [.imm, .s], au := [.imm, .s], b := [.s], bu := [.s], fns := [1] }
  | .mark => { maj := 0xe9, d := [.none], du := [.none], a := [.imm, .s], au := [.imm, .s], b := [.none], bu := [.none] }
  | .brk => { maj := 0xea, d := [.none], du := [.none], a := [.imm, .s], au := [.imm, .s], b := [.none], bu := [.none] }
/-! ### Fields of the modifier -/

/-- R31, R47: the rounding field. -/
def P.rnd (p : P) : Nat := (p.rs.extractLsb' 2 2).toNat
/-- R47: the .sat bit. -/
def P.sat (p : P) : Bool := p.rs.getLsbD 1
/-- R210, R275: the order field. -/
def P.order (p : P) : Nat := (p.rs.extractLsb' 2 2).toNat
/-- R47: the scope field. -/
def P.scope (p : P) : Nat := (p.rs.extractLsb' 0 2).toNat
/-- R275: the Count bit. -/
def P.count (p : P) : Bool := p.ty.getLsbD 0
/-- R366: the chain handle. -/
def P.chain (p : P) : Nat := (p.ty.extractLsb' 0 2).toNat
/-- R44: the 32-bit immediate. -/
def P.imm32 (p : P) : BitVec 32 := p.b.bits ++ p.ext
/-- R44, R57: the extension as a signed 16-bit value. -/
def P.off (p : P) : Int := p.ext.toInt
/-- R55: the function field. -/
def P.f (p : P) : Nat := p.fn.toNat
/-- R47: the type code. -/
def P.t (p : P) : Nat := p.ty.toNat

/-- Is the type code an integer type (R47)? -/
def isInt (t : Nat) : Bool := t < 8 || t == 14 || t == 15
/-- Is the type code 64 bits wide? -/
def is64 (t : Nat) : Bool := t == 3 || t == 7
/-- R47: the width of a type code in bits. -/
def tyW (t : Nat) : Nat :=
  match t with
  | 0 => 8 | 1 => 16 | 2 => 32 | 3 => 64 | 4 => 8 | 5 => 16 | 6 => 32 | 7 => 64
  | 8 => 32 | 9 => 16 | 10 => 16 | 11 => 8 | 12 => 8 | 13 => 8 | _ => 4
/-- Is the type code signed? -/
def tySigned (t : Nat) : Bool := t < 4 || t == 14
/-- R211: the width in bytes of a load or store size code. -/
def sizeB (t : Nat) : Nat := if t == 8 then 16 else 2 ^ (t % 4)

/-! ### Register counts of operands (R40, R126, R211, R212) -/

/-- Vector registers in D. -/
def Op.dRegs (o : Op) (p : P) : Nat :=
  match o with
  | .popc | .clz | .ctz | .cvtf => 1
  | .mulw => 2
  | .ext => if p.f = 1 then 2 else 1
  | .cvt | .cvti | .cvts => if is64 p.f then 2 else 1
  | .ld | .lds => Nat.max 1 (sizeB p.t / 4)
  | .mrd | .mrdm => p.f + 1
  | .pack => 1
  | _ => match o.row.tys with
    | .codes _ => if is64 p.t then 2 else 1
    | _ => 1
/-- Vector registers in A. -/
def Op.aRegs (o : Op) (p : P) : Nat :=
  match o with
  | .ld | .st | .atom | .red | .cas | .pfetch => 2
  | .lds | .sts | .atoms => 1
  | .mulw | .ext | .cvtf | .pack => 1
  | _ => match o.row.tys with
    | .codes _ => if is64 p.t then 2 else 1
    | _ => 1
/-- Vector registers in B. -/
def Op.bRegs (o : Op) (p : P) : Nat :=
  match o with
  | .lea | .mulw | .cvts | .ld | .cvtf | .pack => 1
  | .st | .sts => Nat.max 1 (sizeB p.t / 4)
  | .mmag | .sfil => 2
  | _ => match o.row.tys with
    | .codes _ => if is64 p.t then 2 else 1
    | _ => 1

/-- A vector register operand of w registers is aligned and within the group's allocation (R40, R110, R211). -/
def vOk (regs w n : Nat) (free : Bool) : Bool :=
  n + w ≤ regs && (free || w == 1 || (w == 2 && n % 2 == 0) || (w == 4 && n % 4 == 0))

/-- R111: does a special register number name a register? -/
def srOk (n : Nat) : Bool := n < 0x19 || (0x40 ≤ n && n < 0x80)

/-- The immediate of an operand lies in lo..hi; any other operand passes. -/
def immIn (x : Opnd) (lo hi : Int) : Bool :=
  match x with
  | .imm i => decide (lo ≤ i.toInt) && decide (i.toInt ≤ hi)
  | _ => true

/-- The uniform register of an operand is a multiple of q at most m; any other operand passes. -/
def sMul (x : Opnd) (q m : Nat) : Bool :=
  match x with
  | .s n => n.toNat % q == 0 && n.toNat ≤ m
  | _ => true
/-- The same for D. -/
def dMul (x : Dst) (q m : Nat) : Bool :=
  match x with
  | .s _ _ n => n.toNat % q == 0 && n.toNat ≤ m
  | _ => true
/-- The predicate index of an operand lies in a list; any other operand passes. -/
def predIn (x : Opnd) (l : List Nat) : Bool :=
  match x with
  | .pred n => l.contains n.toNat
  | _ => true
/-- The predicate index of D lies in a list; any other kind passes. -/
def dPredIn (x : Dst) (l : List Nat) : Bool :=
  match x with
  | .other o => predIn o l
  | _ => true

/-- R218: does an atomic function accept the type? -/
def atomFnTy (f t : Nat) : Bool :=
  if f ≤ 2 then true
  else if f ≤ 5 then t == 6 || t == 7
  else if f == 6 then t == 6 || t == 7
  else t == 6

/-- R155: does a group-wide function accept the type? -/
def gredFnTy (f t : Nat) : Bool :=
  if f ≤ 2 then t == 2 || t == 6 else if f ≤ 5 then t == 6 else t == 8

/-- R139, R142: the type pairs of cvt. -/
def cvtPair (d s : Nat) : Bool := d != s && !(isInt d && isInt s)

/-- Is the instruction one of the tile block (R288)? -/
def Op.isTile (o : Op) : Bool := 0xB0 ≤ o.row.maj && o.row.maj ≤ 0xB8

/-- The checks particular to one instruction that raise trap 0x01. -/
def Op.own1 (o : Op) (p : P) : Bool :=
  let b := p.b.opnd
  match o with
  | .sel => !p.h.uni || [0, 1, 2, 3, 7].contains (p.f % 8)
  | .setp | .fsetp => dPredIn p.d (if p.h.uni then [8, 9, 10, 11] else [0, 1, 2, 3, 4, 5, 6, 7])
  | .mov => match p.a with | .sr n => srOk n.toNat && n != 9 | _ => true
  | .addc | .subb =>
      let l := if p.h.uni then [7, 8, 9, 10, 11] else [0, 1, 2, 3, 4, 5, 6, 7]
      l.contains (p.ext.extractLsb' 0 4).toNat && l.contains (p.ext.extractLsb' 4 4).toNat
  | .cvt => cvtPair p.f p.t
  | .cvts => cvtPair p.f p.t || (p.f == 8 && p.t == 8)
  | .cvti => isInt p.f && isInt p.t && p.f != p.t
  | .pack => p.f < 16 / tyW p.t
  | .plop =>
      if p.h.uni then dPredIn p.d [8, 9, 10, 11] && predIn p.a [7, 8, 9, 10, 11] && predIn b [7, 8, 9, 10, 11]
      else dPredIn p.d [0, 1, 2, 3, 4, 5, 6, 7]
  | .gred | .gscan => gredFnTy p.f p.t
  | .ld => b.k == .none || p.a.k == .s
  | .st | .sts => (p.t != 3 && p.t != 7 && p.t != 8) || b.k == .v || (b.k == .s && (p.t != 8 || sMul b 2 62))
  | .ldu => p.t != 8 || dMul p.d 2 62
  | .stu => p.t != 8 || sMul b 2 62
  | .atom | .atoms | .red => atomFnTy p.f p.t && (!is64 p.t || b.k == .v || b.k == .s)
  | .cas => !is64 p.t || b.k == .v || b.k == .s
  | .txabt => immIn p.a 0 255
  | .icinv => immIn b 0 2047
  | .wresz => immIn p.a 0 14
  | .barSync | .barArv => immIn p.a 0 15 && immIn b 0 32
  | .bcsetInit | .bcsetExp | .bcadd | .bcwait => immIn b 0 2047
  | .batw => immIn p.a 0 2047
  | .xcpy | .xqnt | .xfil => dMul p.d 4 52
  | .xgat | .fdec | .frefInc | .frefDec | .ffre | .fenc => immIn b 0 7
  | .fget => immIn b 0 7 && dMul p.d 4 60
  | .fqry => immIn p.a 0 5
  | .mma | .mmag | .mld => sMul p.a 4 60
  | .sres | .strm | .srdMap => immIn b 0 2047
  | .spfx => dMul p.d 4 60 && sMul p.a 2 62
  | .spin => sMul b 2 62
  | .cbnd => immIn p.a 0 3
  | .yield => immIn p.a 0 128
  | .rdsr => match p.a with | .sr n => srOk n.toNat | _ => true
  | .wrsr => match p.d with | .other (.sr n) => n == 8 | _ => true
  | .ptok | .ptokRel | .ttok => dPredIn p.d [8, 9, 10, 11]
  | .rdctr | .rdctrSel => immIn p.a 0 63 && dMul p.d 2 62
  | _ => true

/-- The kinds that D, A and B accept in the form the word has. -/
def Op.kinds (o : Op) (u : Bool) : List K × List K × List K :=
  if u then (o.row.du, o.row.au, o.row.bu) else (o.row.d, o.row.a, o.row.b)

/-- R40, R126: the vector operands lie in the allocation, pairs are even, 64-bit operands are no latch. -/
def Op.regsOk (regs : Nat) (o : Op) (p : P) : Bool :=
  (match p.d with | .v _ _ n => vOk regs (o.dRegs p) n.toNat (o == .mrd || o == .mrdm) | _ => true) &&
  (match p.a with | .v n => vOk regs (o.aRegs p) n.toNat false | .latch _ => o.aRegs p == 1 | _ => true) &&
  (match p.b with | .op (.v n) => vOk regs (o.bRegs p) n.toNat false | .op (.latch _) => o.bRegs p == 1 | _ => true)

/-- R48 checks 1 to 3 on the decoded fields: false raises trap 0x01. -/
def Op.legal1 (regs : Nat) (tiles : Bool) (o : Op) (p : P) : Bool :=
  let r := o.row
  let ks := o.kinds p.h.uni
  (r.fnRsv || r.fns.contains p.f) &&
  (match r.tys with | .codes l => l.contains p.t | _ => true) &&
  (match r.rs with | .mem os _ => os.contains p.order | _ => true) &&
  (match r.uni with | .both => true | .vec => !p.h.uni | .uni => p.h.uni) &&
  (!p.h.uni || [0, 1, 2, 3, 7].contains p.h.guard.toNat) &&
  ks.1.contains p.d.k && ks.2.1.contains p.a.k && (r.rawB || ks.2.2.contains p.b.opnd.k) &&
  o.regsOk regs p && (tiles || !o.isTile) && o.own1 p

/-- R41, R126: the latch bits of D. -/
def Dst.latchBits : Dst → Nat
  | .v _ l _ => l.toNat | .s _ l _ => l.toNat | .other _ => 0

/-- R48 check 4 on the decoded fields: false raises trap 0x02. Where a rule says only that the modifier is 0x000 (movi,
bra, call, txbeg, trap, launch and their like), a non-zero function field is taken as a reserved modifier bit: log entry 85. -/
def Op.legal2 (o : Op) (p : P) : Bool :=
  let r := o.row
  (!r.fnRsv || p.f == 0) &&
  (match r.tys with
    | .codes _ => true
    | .rsv => p.t == 0
    | .count => p.t < 2
    | .two => p.t < 4) &&
  (match r.rs with
    | .rsv => p.rs == 0
    | .arith rnd sat =>
        !p.rs.getLsbD 0 && (sat || !p.sat) && (rnd || p.rnd == 0) &&
        (p.rnd == 0 || o == .cvt || o == .cvts || o == .cvtf || o == .dot8f || !isInt p.t)
    | .mem _ spad => (p.order != 0 || p.scope == 0) && (!spad || p.scope == 0)
    | .eng => p.order != 0 || p.scope == 0
    | .scope => p.order == 0) &&
  (match r.ext with
    | .zero => p.ext == 0
    | .any => true
    | .low n => p.ext.toNat < 2 ^ n
    | .counted => p.count || p.ext == 0) &&
  (p.d.latchBits == 0 || (r.latch && !p.h.uni && o.dRegs p == 1)) &&
  (match o with
    | .cvt | .cvts => !(p.sat && isInt p.f)
    | .cvtf => p.f == 0 || p.rs == 0
    | .gred | .gscan => (!p.sat || p.f == 0) && (p.rnd == 0 || p.f == 6)
    | _ => true)

/-! ### The word -/

/-- Which of the two traps of R48 decoding raises. -/
inductive DecErr where
  /-- trap 0x01 -/
  | illegal
  /-- trap 0x02 -/
  | reserved
  deriving DecidableEq, Repr

/-- R39, R111: the field names special register n, whatever its reserved index bits 11:8 hold (those raise trap 0x02). -/
def namesSr (x n : Nat) : Bool := x / 4096 == 4 && x % 256 == n

/-- R53: the instruction of a major opcode; function, A and D tell apart the rows that share one. -/
def decodeOp (maj fn a d : Nat) : Option Op :=
  match maj with
  | 0x0 => some .add
  | 0x1 => some .sub
  | 0x2 => some .mul
  | 0x3 => some .mulhi
  | 0x4 => some .mad
  | 0x5 => some .madhi
  | 0x6 => some .div
  | 0x7 => some .rem
  | 0x8 => some .min
  | 0x9 => some .max
  | 0xa => some .abs
  | 0xb => some .neg
  | 0xc => some .and
  | 0xd => some .or
  | 0xe => some .xor
  | 0xf => some .not
  | 0x10 => some .shl
  | 0x11 => some .shr
  | 0x12 => some .sha
  | 0x13 => some .rot
  | 0x14 => some .bfx
  | 0x15 => some .bfi
  | 0x16 => some .popc
  | 0x17 => some .clz
  | 0x18 => some .ctz
  | 0x19 => some .brev
  | 0x1a => some .perm
  | 0x1b => some .sel
  | 0x1c => some .set
  | 0x1d => some .setp
  | 0x1e => some .mov
  | 0x1f => some .movi
  | 0x20 => some .addi
  | 0x21 => some .andi
  | 0x22 => some .ori
  | 0x23 => some .xori
  | 0x24 => some .shladd
  | 0x25 => some .lea
  | 0x26 => some .addc
  | 0x27 => some .subb
  | 0x28 => some .sad
  | 0x29 => some .clamp
  | 0x2a => some .mulw
  | 0x2b => some .ext
  | 0x2c => some .tern
  | 0x2d => some .shf
  | 0x30 => some .fadd
  | 0x31 => some .fsub
  | 0x32 => some .fmul
  | 0x33 => some .ffma
  | 0x34 => some .fmin
  | 0x35 => some .fmax
  | 0x36 => some .fabs
  | 0x37 => some .fneg
  | 0x38 => some .fsetp
  | 0x39 => some .fset
  | 0x3a => some .fclass
  | 0x3b => some .frnd
  | 0x3c => some .rcp
  | 0x3d => some .rsqrt
  | 0x3e => some .sqrt
  | 0x3f => some .ex2
  | 0x40 => some .log2
  | 0x41 => some .sin
  | 0x42 => some .cos
  | 0x43 => some .tanh
  | 0x44 => some .cvt
  | 0x45 => some .cvtf
  | 0x46 => some .cvti
  | 0x47 => some .cvts
  | 0x48 => some .pack
  | 0x49 => some .faddi
  | 0x4a => some .fmuli
  | 0x50 => some .dot4
  | 0x51 => some .dot8
  | 0x52 => some .dot4f
  | 0x53 => some .dot8f
  | 0x54 => some .dot2h
  | 0x58 => some .bra
  | 0x59 => some .brx
  | 0x5a => some .call
  | 0x5b => some .ret
  | 0x5c => some .jmp
  | 0x5d => some .exit
  | 0x5e => some .plop
  | 0x5f => some .census
  | 0x60 => some .lmask
  | 0x61 => some .qxch
  | 0x62 => some .lperm
  | 0x63 => some .gred
  | 0x64 => some .gscan
  | 0x65 => some .matchv
  | 0x66 => some .nop
  | 0x67 => some .join
  | 0x70 => some .ld
  | 0x71 => some .st
  | 0x72 => some .ldu
  | 0x73 => some .stu
  | 0x74 => some .lds
  | 0x75 => some .sts
  | 0x76 => some .atom
  | 0x77 => some .red
  | 0x78 => some .atoms
  | 0x79 => some .cas
  | 0x7a => some .txbeg
  | 0x7b => some .txend
  | 0x7c => some .txabt
  | 0x7d => some .mwait
  | 0x7e => some .fence
  | 0x7f => some .pfetch
  | 0x80 => some .icinv
  | 0x81 => some .pgq
  | 0x82 => some .wresz
  | 0x90 => if fn = 0 then some .barSync else if fn = 1 then some .barArv else none
  | 0x91 => if fn = 0 then some .bcsetInit else if fn = 1 then some .bcsetExp else none
  | 0x92 => some .bcadd
  | 0x93 => some .bcwait
  | 0x94 => some .batf
  | 0x95 => some .batw
  | 0x98 => some .xcpy
  | 0x99 => some .xgat
  | 0x9a => some .xqnt
  | 0x9b => some .xfil
  | 0x9c => if fn = 0 then some .xrowCpy else if fn = 1 then some .xrowIni else none
  | 0x9d => some .xsta
  | 0xa0 => some .lgld
  | 0xa1 => some .lgst
  | 0xa2 => some .lgclr
  | 0xa3 => some .fget
  | 0xa4 => some .fenc
  | 0xa5 => some .fdec
  | 0xa6 => if fn = 0 then some .frefInc else if fn = 1 then some .frefDec else none
  | 0xa7 => some .falc
  | 0xa8 => some .ffre
  | 0xa9 => some .fqry
  | 0xb0 => some .mma
  | 0xb1 => some .mmag
  | 0xb2 => some .mrd
  | 0xb3 => some .mrdm
  | 0xb4 => some .mclr
  | 0xb5 => some .mld
  | 0xb6 => some .tcls
  | 0xb7 => some .mint
  | 0xb8 => some .mstk
  | 0xc0 => some .sres
  | 0xc1 => some .scom
  | 0xc2 => some .strm
  | 0xc3 => some .sfrk
  | 0xc4 => some .sfil
  | 0xc5 => some .sbnd
  | 0xc6 => some .spfx
  | 0xc7 => some .spin
  | 0xc8 => some .stopk
  | 0xc9 => if fn = 0 then some .srdDat else if fn = 1 then some .srdMap else if fn = 2 then some .srdLen else none
  | 0xca => some .snew
  | 0xcb => some .sdel
  | 0xd0 => some .cbnd
  | 0xd1 => if fn = 0 then some .cmodSet else if fn = 1 then some .cmodGet else none
  | 0xd2 => some .crun
  | 0xd3 => some .cstp
  | 0xd4 => some .cblim
  | 0xe0 => some .trap
  | 0xe1 => some .yield
  | 0xe2 => if namesSr a 0x09 then some .rdsrChunk else if namesSr a 0x17 then some .rdsrFrzprod else some .rdsr
  | 0xe3 => if namesSr d 0x18 then some .wrsrFrzcons else some .wrsr
  | 0xe4 => if fn = 0 then some .ptok else if fn = 1 then some .ptokRel else none
  | 0xe5 => some .ttok
  | 0xe6 => if fn = 0 then some .frelRel else if fn = 1 then some .frelDst else if fn = 2 then some .frelRes else none
  | 0xe7 => some .launch
  | 0xe8 => if fn = 0 then some .rdctr else if fn = 1 then some .rdctrSel else none
  | 0xe9 => some .mark
  | 0xea => some .brk
  | _ => none
/-- Bits 87:77 (R38). -/
def hdrOf (w : W96) : Hdr :=
  { neg := w.getLsbD 87, guard := w.extractLsb' 84 3, burst := w.extractLsb' 81 3, yld := w.getLsbD 80,
    keep := w.getLsbD 79, reuse := w.getLsbD 78, uni := w.getLsbD 77 }

/-- R54, R106, R148: the rows of which any other value of an operand field raises trap 0x02. -/
def Op.blank (o : Op) : Bool := o == .nop || o == .exit || o == .join

/-- R79: the rows that follow the common properties of R79, which give trap 0x02 to an unused operand that is not
0xF000: the opcodes from 0x80 up (R177, R200, R253, R275, R285, R336, R366, R400, R107, R119). -/
def Op.commonUnused (o : Op) : Bool := 0x80 ≤ o.row.maj

/-- A field that the row leaves unused holds a value for which the row's own rule gives trap 0x02. Any other value of
such a field is left to R48: an unassigned kind and, outside R79, any kind but none raise trap 0x01 (check 3), none with
an index raises trap 0x02 (check 4). Which of the two traps R79's rows take for an unassigned kind is log entry 84. -/
def unusedBad (o : Op) (ks : List K) (x : BitVec 16) : Bool :=
  ks == [.none] && x != 0xF000 && (o.blank || (o.commonUnused && (Opnd.ofBits x).isSome))

/-- Decoding of a word in a group with `regs` vector registers per lane, whose block holds a tile set or not: R48,
checks 1 to 4 in order. -/
def decodeWord (regs : Nat) (tiles : Bool) (w : W96) : Except DecErr Instr :=
  let h := hdrOf w
  let dB := w.extractLsb' 48 16
  let aB := w.extractLsb' 32 16
  let bB := w.extractLsb' 16 16
  let fn := w.extractLsb' 72 4
  match decodeOp (w.extractLsb' 88 8).toNat fn.toNat aB.toNat dB.toNat with
  | none => .error .illegal
  | some o =>
    let ks := o.kinds h.uni
    let uD := unusedBad o ks.1 dB
    let uA := unusedBad o ks.2.1 aB
    let uB := !o.row.rawB && unusedBad o ks.2.2 bB
    let d := if uD then some (.other .none) else Dst.ofBits dB
    let a := if uA then some .none else Opnd.ofBits aB
    let b := if o.row.rawB then some (.raw bB) else if uB then some (.op .none) else (Opnd.ofBits bB).map .op
    match d, a, b with
    | some d, some a, some b =>
      let p : P := { h := h, fn := fn, ty := w.extractLsb' 68 4, rs := w.extractLsb' 64 4, d := d, a := a, b := b,
                     ext := w.extractLsb' 0 16 }
      if !o.legal1 regs tiles p then .error .illegal
      else if w.getLsbD 76 || uD || uA || uB || (!uD && dstRsv dB) || (!uA && opndRsv aB) ||
          (!o.row.rawB && !uB && opndRsv bB) || !o.legal2 p then .error .reserved
      else .ok (o.mk p)
    | _, _, _ => .error .illegal

/-- The word of a program instruction (R38). -/
def encodeP (o : Op) (p : P) : W96 :=
  BitVec.ofNat 8 o.row.maj ++ BitVec.ofBool p.h.neg ++ p.h.guard ++ p.h.burst ++ BitVec.ofBool p.h.yld ++
  BitVec.ofBool p.h.keep ++ BitVec.ofBool p.h.reuse ++ BitVec.ofBool p.h.uni ++ (0 : BitVec 1) ++
  p.fn ++ p.ty ++ p.rs ++ p.d.bits ++ p.a.bits ++ p.b.bits ++ p.ext

/-! ### Queue commands (R89, R90) -/

/-- The number of words of the command an op names (R90). -/
def cmdWords (op : Nat) : Nat :=
  match op with
  | 4 => 3 | 5 => 3 | 6 => 3 | 8 => 2 | 9 => 3 | 10 => 2 | _ => 1

/-- R89: Failure statuses that decoding itself gives. -/
inductive CmdErr where
  | illcmd | rsvd | align
  deriving DecidableEq, Repr

/-- R89: the head's fields that a command does not use are reserved. fu, lu, su, xu, cu say which are used. -/
def headRsv (w : Nat) (fu lu su xu cu : Bool) : Bool :=
  (fld w 48 38 != 0) || (!fu && fld w 55 52 != 0) || (!lu && fld w 51 50 != 0) || (!su && fld w 49 49 != 0) ||
  (!xu && fld w 37 32 != 0) || (!cu && fld w 31 0 != 0)

/-- R89, R90: a head word and its argument words as a command. The spec gives no order of the causes of failure: this one
is log entry 86. -/
def decodeCmd (w a1 a2 : Nat) : Except CmdErr Instr :=
  let f := fld w 55 52
  let n := fld w 31 0
  let chk (bad : Bool) (al : Bool) (i : Instr) : Except CmdErr Instr :=
    if bad then .error .rsvd else if al then .error .align else .ok i
  match fld w 63 56 with
  | 0 => chk (headRsv w false false false false false) false .cmdNop
  | 1 => chk (headRsv w false false false false true) false (.cmdSkip (BitVec.ofNat 32 n))
  | 2 => chk (headRsv w false true false false true) false (.cmdLoop (BitVec.ofNat 2 (fld w 51 50)) (BitVec.ofNat 32 n))
  | 3 => chk (headRsv w false true false false false) false (.cmdEndl (BitVec.ofNat 2 (fld w 51 50)))
  | 4 => if 7 < f then .error .illcmd
         else chk (headRsv w true false false false true) (a1 % 8 != 0) (.cmdCond (BitVec.ofNat 3 f) (BitVec.ofNat 32 n) (BitVec.ofNat 64 a1) (BitVec.ofNat 64 a2))
  | 5 => if 7 < f then .error .illcmd
         else chk (headRsv w true false false false true) (a1 % 8 != 0) (.cmdWait (BitVec.ofNat 3 f) (BitVec.ofNat 32 n) (BitVec.ofNat 64 a1) (BitVec.ofNat 64 a2))
  | 6 => if 2 < f then .error .illcmd
         else chk (headRsv w true false false false false) (a1 % 8 != 0) (.cmdSignal (BitVec.ofNat 2 f) (BitVec.ofNat 64 a1) (BitVec.ofNat 64 a2))
  | 7 => chk (headRsv w false false false false false) false .cmdWaitk
  | 8 => chk (headRsv w false false true false false) (a1 % 64 != 0) (.cmdLaunch (bitAt w 49) (BitVec.ofNat 64 a1))
  | 9 => chk (headRsv w false false true false false) (a1 % 64 != 0 || a2 % 16 != 0)
           (.cmdLaunchi (bitAt w 49) (BitVec.ofNat 64 a1) (BitVec.ofNat 64 a2))
  | 10 =>
    let c := BitVec.ofNat 6 (fld w 37 32)
    let bad := headRsv w true false false true false
    match f with
    | 0 => chk bad (a1 % 8 != 0) (.cmdCtxCreate c (BitVec.ofNat 64 a1))
    | 1 => chk bad (a1 % 8 != 0) (.cmdCtxPreempt c (BitVec.ofNat 64 a1))
    | 2 => chk bad (a1 % 8 != 0) (.cmdCtxResume c (BitVec.ofNat 64 a1))
    | 3 => chk bad (a1 % 8 != 0) (.cmdCtxDestroy c (BitVec.ofNat 64 a1))
    | _ => .error .illcmd
  | _ => .error .illcmd

/-- R89: the head word of a command. -/
def headWord (op f l : Nat) (serial : Bool) (c n : Nat) : Nat :=
  mkRec [(63, 56, op), (55, 52, f), (51, 50, l), (49, 49, serial.toNat), (37, 32, c), (31, 0, n)]

/-- R90: the words of a queue command; none for any other row. -/
def encodeCmd (i : Instr) : Option (List W64) :=
  let hd (op f l : Nat) (sr : Bool) (c n : Nat) : W64 := BitVec.ofNat 64 (headWord op f l sr c n)
  match i with
  | .cmdNop => some [hd 0 0 0 false 0 0]
  | .cmdSkip n => some [hd 1 0 0 false 0 n.toNat]
  | .cmdLoop l c => some [hd 2 0 l.toNat false 0 c.toNat]
  | .cmdEndl l => some [hd 3 0 l.toNat false 0 0]
  | .cmdCond f n a v => some [hd 4 f.toNat 0 false 0 n.toNat, a, v]
  | .cmdWait f t a v => some [hd 5 f.toNat 0 false 0 t.toNat, a, v]
  | .cmdSignal f a v => some [hd 6 f.toNat 0 false 0 0, a, v]
  | .cmdWaitk => some [hd 7 0 0 false 0 0]
  | .cmdLaunch s a => some [hd 8 0 0 s 0 0, a]
  | .cmdLaunchi s a g => some [hd 9 0 0 s 0 0, a, g]
  | .cmdCtxCreate c a => some [hd 10 0 0 false c.toNat 0, a]
  | .cmdCtxPreempt c a => some [hd 10 1 0 false c.toNat 0, a]
  | .cmdCtxResume c a => some [hd 10 2 0 false c.toNat 0, a]
  | .cmdCtxDestroy c a => some [hd 10 3 0 false c.toNat 0, a]
  | _ => none

/-- The words of an instruction: the one 96-bit word of a program instruction, or the 64-bit words of a command, each
as (bits, value). A step of the device has no word. -/
def encode (i : Instr) : List (Nat × Nat) :=
  match i.split with
  | some (o, p) => [(96, (encodeP o p).toNat)]
  | none => match encodeCmd i with
    | some l => l.map (fun x => (64, x.toNat))
    | none => []

/-- The decoder on a bare number: 64-bit words for a command (nbits 64, 128 or 192), one 96-bit word otherwise. The
group is taken to hold 128 registers per lane and a tile set. -/
def decodeTableWord (nbits w : Nat) : Option Instr :=
  if nbits == 64 || nbits == 128 || nbits == 192 then
    (decodeCmd (w % 2 ^ 64) (w / 2 ^ 64 % 2 ^ 64) (w / 2 ^ 128 % 2 ^ 64)).toOption
  else (decodeWord 128 true (BitVec.ofNat 96 w)).toOption

end Sys2Proof
end

