-- ==== Sys2Proof/Machine/State.lean ====
section
/-! DEFINITION. The state of one SLN-88 package as plain data: every piece that INVENTORY.md lists under '## State', the
reasons a step can stop, and the state right after reset. -/

namespace Sys2Proof.Machine

/-- Why a step stops with a fault. -/
inductive Fault where
  /-- Raised by a program instruction when no group is the agent of the step. `step` never raises it. Safe. -/
  | noGroup
  /-- Raised by a queue command when no hart with a running queue is the agent of the step. `step` never raises it. Safe. -/
  | noHart
  deriving DecidableEq, Repr

/-- Why a step refuses. -/
inductive Refusal where
  /-- Raised by an arm of exec that has no meaning yet. Safe. -/
  | notModelled (mnemonic : String)
  deriving DecidableEq, Repr

/-! ### Memory and caches (R207, R208, R228) -/

/-- A 128-byte sector in an L1 or in the guest part of a die cache (R207). Byte i of the sector is bits 8i+7:8i of data. -/
structure Sector where
  valid : BitVec 128 := 0
  dirty : BitVec 128 := 0
  data : BitVec 1024 := 0
  /-- L1 only: bit 48·(core mod 2) + slot for a group, bits 96 to 98 for the Pantograph, the Burin and the chain engine -/
  writers : BitVec 99 := 0
  /-- one bit per granule of 32 bytes -/
  poison : BitVec 4 := 0
  /-- the writer that last wrote each granule, as `writerTag` numbers it, 0 for none -/
  tag0 : Nat := 0
  tag1 : Nat := 0
  tag2 : Nat := 0
  tag3 : Nat := 0
  /-- the writers whose bytes are among the dirty ones -/
  hands : List Nat := []
  deriving DecidableEq, Repr

/-- Bytes of memory whose value the spec does not give: `len` bytes from `lo`; the byte at an address is Config.freeByte
`stamp` at the address plus `org`, so that a copy of the bytes reads alike. -/
structure Veil where
  lo : Nat
  len : Nat
  stamp : Nat
  org : Int := 0
  deriving DecidableEq, Repr

/-! ### Translation (R98, R163 to R167) -/

/-- An extent of a kernel's table or an entry of a core's translation cache. perm holds R, W, X, A, Priv, Mig from bit 0. -/
structure Tr where
  ctx : Nat
  va : Nat
  len : Nat
  pa : Nat
  perm : Nat
  /-- the level of the leaf: 0 to 3 -/
  level : Nat := 0
  draining : Bool := false
  deriving DecidableEq, Repr

/-- An entry of a die's walk cache (R163): the table that serves the walk of va's prefix below `level`. -/
structure WalkC where
  die : Nat
  ctx : Nat
  level : Nat
  prefix_ : Nat
  next : Nat
  draining : Bool := false
  deriving DecidableEq, Repr

/-- One lane of a returning atomic that waits in a side log (R170): lane, function (9 for cas), type, scope, address, operand,
compare value, and the destination register with 64 added for a uniform one, none without write-back. -/
structure LogA where
  lane : Nat
  f : Nat
  t : Nat
  scope : Nat
  va : Nat
  b : Nat
  cmp : Nat
  dst : Option Nat
  deriving DecidableEq, Repr

/-- An entry of a side log (R169): the logged bytes, or reduction operands, of one sector. -/
structure LogE where
  /-- its number, from the count that numbers operations: an operation with a larger one was issued after it -/
  id : Nat := 0
  gid : Nat
  ctx : Nat
  va : Nat
  /-- offset in the sector, byte -/
  bytes : List (Nat × Byte)
  /-- reductions: function, type, address, operand -/
  reds : List (Nat × Nat × Nat × Nat)
  /-- returning atomics that joined behind an entry of the sector (R170) -/
  atoms : List LogA := []
  /-- the scope of a release store: the bytes go through to its release point when they are replayed (R209) -/
  rel : Option Nat := none
  /-- the size code of the store (R211) -/
  size : Nat := 0
  deriving DecidableEq, Repr

/-- What a page's home keeps of a leaf mapping (R167, R172, R174). -/
structure Page where
  moves : Nat := 0
  /-- the 1 ms window is open, and what is left of it, in ns -/
  window : Bool := false
  windowLeft : Nat := 0
  settled : Bool := false
  /-- what is left of the settled time, in ns -/
  settleLeft : Nat := 0
  /-- remote accesses by requester: 0 to 3 dies of the package, 8 + n package n -/
  counts : AMap Nat := []
  /-- a move in progress: destination die, new frame, the leaf read at the trigger and its address -/
  moving : Option (Nat × Nat × Nat × Nat) := none
  /-- the mapping's context and virtual base, as the trigger saw them -/
  ctx : Nat := 0
  va : Nat := 0
  size : Nat := 0
  deriving DecidableEq, Repr

/-! ### Groups (R102, R110, R112, R145, R223) -/

/-- An entry of the divergence stack (R145). -/
structure DEntry where
  pending : Bool
  a : Nat
  j : Option Nat
  m : Lanes
  deriving DecidableEq, Repr

/-- What a Waiting group waits for (R112). -/
inductive WaitK where
  /-- bar.sync on a block barrier -/
  | bar (id : Nat)
  /-- bcwait on a record offset with a phase -/
  | bc (off phase : Nat)
  /-- batw: every operation of a batch at least this far away -/
  | bat (target : Nat)
  /-- mwait: address, comparison, type, value, destination (63 + 1 for none), acquire and scope -/
  | mw (va f t v d acq scope : Nat)
  deriving DecidableEq, Repr

/-- The states of a group (R112). -/
inductive GSt where
  | ready
  | stalled (reason : Nat)
  /-- its scroll instruction has passed the checks at issue, and the event is on its way to the home of a scroll (R440) -/
  | sent (scroll : Nat)
  | waiting (w : WaitK)
  | faulted
  | frozen
  | stopping
  | saved
  /-- the last lane has left and issued operations are still retiring (R106) -/
  | exiting
  | exited
  deriving DecidableEq, Repr

/-- A register written by a result that arrives after issue. -/
inductive RegW where
  | v (n lane : Nat) (x : W32)
  | s (n : Nat) (x : W64)
  | k (n : Nat) (x : Bool)
  deriving DecidableEq, Repr

/-- A split-phase result in flight (R114 reason 3): ready once its values are known. -/
structure Pend where
  ws : List RegW
  ready : Bool := true
  /-- the engine operation that will deliver it, when not ready -/
  op : Nat := 0
  /-- issued by the head or an instruction of the group's present burst (R46) -/
  burst : Bool := false
  /-- registers it will write when not ready: vector register, 1000 + uniform register or 2000 + k -/
  dst : List Nat := []
  /-- holds one of the 16 result slots (R216) -/
  slot : Bool := false
  deriving DecidableEq, Repr

/-- A reduction issued and not yet performed (R220). -/
structure RedP where
  f : Nat
  t : Nat
  va : Nat
  pa : Nat
  b : Nat
  scope : Nat
  deriving DecidableEq, Repr

/-- A bar arrival issued and not applied (R201): barrier, count, whether the group waits, and its number in the count that
numbers log entries, which tells the earlier writes of its group. -/
structure Arr where
  id : Nat
  count : Nat
  sync : Bool
  stamp : Nat := 0
  deriving DecidableEq, Repr

/-- A change of a byte-counting record issued and not applied (R202, R203): function 0 .init, 1 .exp or 2 an add, record
offset, bytes, number. -/
structure BcOp where
  f : Nat
  off : Nat
  n : Nat
  stamp : Nat := 0
  deriving DecidableEq, Repr

/-- The transaction of a lane (R223 to R227). -/
structure Tx where
  /-- the first abort code met, 0 while none -/
  code : Nat := 0
  /-- the txabt value -/
  value : Nat := 0
  /-- physical byte address, value read from memory -/
  reads : List (Nat × Byte) := []
  /-- lines read, own bytes included -/
  rlines : List Nat := []
  writes : List (Nat × Byte) := []
  deriving DecidableEq, Repr

/-- A txend on its way to the die (R226): its ticket, the register for the statuses (none without write-back), and the
lanes with their transactions; a lane whose code is not 0 only reports it. -/
structure Commit where
  ticket : Nat
  reg : Option Nat
  lanes : List (Nat × Tx)
  deriving DecidableEq, Repr

/-- A fault of a group that its record names (R69): code, sequence number, engine operation (0 for none). -/
structure FltI where
  code : Nat
  seq : Nat
  op : Nat
  deriving DecidableEq, Repr

/-- A sector that a group holds (R151): base address and what the fetch found. -/
inductive FetchR where
  /-- the sector's bytes, byte i in bits 8i+7:8i -/
  | ok (bits : BitVec 1024)
  /-- no translation: level and why of R171 -/
  | notPresent (level : Nat)
  /-- the leaf or the partition forbids the fetch: freeze reason -/
  | forbidden (reason : Nat)
  /-- a granule is poisoned: physical address, level -/
  | poisoned (pa : Nat) (level : Nat)
  deriving DecidableEq, Repr

/-- The region entry with the copy of E and of the divergence stack (R70, R149). -/
structure Region where
  entry : Nat
  e : Lanes
  stack : List DEntry
  deriving DecidableEq, Repr

/-- A group: what it owns and where it stands. -/
structure Group where
  block : Nat
  num : Nat
  core : Nat
  slot : Nat
  /-- the group sits on its core -/
  resident : Bool := true
  st : GSt := .ready
  pc : Nat
  region : Region
  e : Lanes := 0xFFFFFFFF
  active : Lanes := 0xFFFFFFFF
  stack : List DEntry := []
  /-- v0 to v127: key 32·n + lane, absent reads 0 -/
  v : AMap W32 := []
  /-- s0 to s63 -/
  sr : AMap W64 := []
  /-- p0 to p6 as lane sets -/
  p : AMap Lanes := []
  /-- k0 to k3 -/
  k : BitVec 4 := 0
  hmask : Lanes := 0
  /-- open batch number c (R199) -/
  batch : Nat := 0
  /-- the pipe that last wrote each latch for this group, and whether another group has issued on it since (R42) -/
  latchPipe : AMap (Nat × Bool) := []
  pend : List Pend := []
  reds : List RedP := []
  /-- bar arrivals issued and not applied -/
  arrivals : List Arr := []
  /-- bcset and bcadd issued and not applied -/
  bcs : List BcOp := []
  tx : AMap Tx := []
  /-- txends that await the die's commit -/
  commits : List Commit := []
  /-- writes of other writers have reached the group through an acquire -/
  seen : Bool := false
  sectors : List (Nat × FetchR) := []
  /-- faults reported by engines that wait for the next instruction boundary -/
  asyncF : List (Nat × Nat × Nat × Nat) := []
  flt : Option FltI := none
  /-- the freeze number while frozen -/
  frz : Option Nat := none
  /-- registers below this survive a yield (R81); none outside one -/
  live : Option Nat := none
  age : Nat := 0
  /-- one more than the cycle of its last issue -/
  lastIssue : Nat := 0
  /-- cycles spent Ready or Stalled since the last issue, and whether it was eligible in one of them (R116) -/
  waited : Nat := 0
  elig : Bool := false
  burst : Nat := 0
  /-- the pipe class that its last issue took as an instruction of a burst (R46, R114) -/
  burstPipe : Option Nat := none
  /-- the pipes that other work occupied when it last tried to issue and could not (R114) -/
  busy : BitVec 10 := 0
  /-- while it waits: the region entry from before its wait instruction (R68, R70, R72) -/
  prior : Option Region := none
  /-- last control transfer (R399) -/
  last : Nat := 0
  /-- the tile that its waiting readout names, and the readout's place in the count that numbers operations (R302) -/
  reads : Option (Nat × Nat) := none
  /-- the mode tag of that tile when the readout took its place (R287, R302) -/
  readInt : Bool := false
  /-- an sfil that the full channel holds back: scroll, bytes of a slot, fills that have entered (R341) -/
  fillIn : Option (Nat × Nat × Nat) := none
  /-- %time and %cycle never decrease between two reads (R82, R111) -/
  lastTime : Nat := 0
  deriving DecidableEq, Repr

/-! ### Blocks (R194, R287, R304, R321, R353 to R355) -/

/-- A block barrier (R194). n is 0 in Idle. -/
structure Bar where
  want : Nat := 0
  n : Nat := 0
  deriving DecidableEq, Repr

/-- An accumulator tile (R287, R304). Element (i, j) has key 256·i + j. -/
structure Tile where
  val : AMap W32 := []
  stick : AMap (BitVec 4) := []
  int : Bool := false
  /-- interval table: key 4·row block + interval, the 64-bit record; absent reads the start value of R304 -/
  iv : AMap W64 := []
  keyBase : Nat := 0
  written : Bool := false
  deriving DecidableEq, Repr

/-- A resident, saved or retired block. -/
structure Block where
  kernel : Nat
  num : Nat
  pair : Nat
  ngroups : Nat
  /-- scratchpad size in bytes and ways held on each core -/
  size : Nat
  ways : Nat
  scratch : AMap Byte := []
  /-- tile set 0 or 1 of the pair -/
  tiles : Option Nat := none
  ac : AMap Tile := []
  /-- scroll handles sh0 to sh7 and chain handles: identifier -/
  sh : AMap Nat := []
  ch : AMap Nat := []
  /-- committed-length mirrors: key 8·(core mod 2) + handle -/
  cl : AMap Nat := []
  bd : AMap W64 := []
  blim : W64 := 0
  bars : AMap Bar := []
  token : Option Nat := none
  saved : Bool := false
  /-- what of the block is still tagged in place: register chunks of its even and odd core, ways, tiles (R74) -/
  tagChunks0 : Nat := 0
  tagChunks1 : Nat := 0
  tagWays : Nat := 0
  tagTiles : Bool := false
  /-- a wresz in progress: the ways asked for, and its number in the count that numbers operations (R181) -/
  resize : Option (Nat × Nat) := none
  /-- poisoned granules of the scratchpad, by offset div 32 (R109, R300) -/
  poison : AMap Bool := []
  /-- the scratchpad bytes that a stationary bank, 0 or 1, was filled from, until one of them is written (R297) -/
  foots : AMap (List Nat) := []
  /-- reload in progress after Resume -/
  reloading : Bool := false
  done : Bool := false
  deriving DecidableEq, Repr

/-! ### Kernels (R94, R97, R104) -/

/-- The states of a kernel (R97). -/
inductive KSt where
  | pending | translating | dispatching | running | faulting | done
  deriving DecidableEq, Repr

/-- A kernel. -/
structure Kernel where
  ctx : Nat
  /-- the 512-byte launch record, grid replaced by an indirect one (R91) -/
  record : Nat
  st : KSt := .pending
  /-- the queue whose launch it is: 64·partition + queue; none for device-side launch -/
  queue : Option Nat := none
  blocks : Nat := 0
  placed : Nat := 0
  retired : Nat := 0
  exts : List Tr := []
  /-- the constant table's words (R40, R60), read when the extents are built -/
  consts : AMap W32 := []
  /-- guided mode: range unit and next unit of work (R104) -/
  unit : Option Nat := none
  next : Nat := 0
  status : Nat := 0
  deriving DecidableEq, Repr

/-! ### Contexts, partitions and queues (R62 to R64, R85, R88) -/

/-- The states of a context (R63, R64). -/
inductive CSt where
  | free | idle | running | draining | saved | destroying
  deriving DecidableEq, Repr

/-- What the device keeps of a context besides the descriptor in memory. -/
structure Ctx where
  st : CSt := .free
  faulted : Nat := 0
  frozen : Nat := 0
  fltProd : Nat := 0
  /-- next fault sequence number -/
  seq : Nat := 0
  /-- records that wait for a free ring entry, oldest first -/
  fltPend : List Nat := []
  /-- legend slots: image of 4096 bits -/
  lg : AMap Nat := []
  deadline : Nat := 0
  /-- pre-emption request open: %preq -/
  preq : Bool := false
  /-- status addresses of CTX commands still to be answered: function, address -/
  answer : List (Nat × Nat) := []
  deriving DecidableEq, Repr

/-- A request queued at a page-control block (R164). -/
structure RmReq where
  func : Nat
  va : Nat
  sizeLog : Nat
  ctx : Nat
  gen : Nat
  /-- Remove: 0 queued, 1 phase 1, 2 phase 2 -/
  phase : Nat := 0
  deriving DecidableEq, Repr

/-- A counter of a partition (R403). -/
structure Ctr where
  sel : Nat := 0
  /-- the slice in progress is among those counted -/
  inSlice : Bool := false
  raw : Nat := 0
  counted : Nat := 0
  elapsed : Nat := 0
  deriving DecidableEq, Repr

/-- The register blocks of a partition's window (R62, R164, R232, R317, R375, R382, R397, R403) and what they own. -/
structure Part where
  ctxBase : Nat := 0
  frzBase : Nat := 0
  frzLog : Nat := 4
  frzProd : Nat := 0
  frzCons : Nat := 0
  ceil : Nat := 0
  frzPend : List Nat := []
  frzNum : Nat := 0
  rmVa : Nat := 0
  rmSizeLog : Nat := 16
  rmCtx : Nat := 0
  rmFunc : Nat := 0
  rmGen : Nat := 0
  rmDone : Nat := 0
  rmq : List RmReq := []
  migThresh : Nat := 256
  migMax : Nat := 4
  migSettle : Nat := 16000
  /-- migration pool: (die or 8 + package, page size log, frame) -/
  migPool : List (Nat × Nat × Nat) := []
  dirBase : Nat := 0
  dirLog : Nat := 4
  donate : Nat := 0
  donateGo : Bool := false
  lowMark : Nat := 64
  /-- folio pool: free blocks (class, address), class 0 is 512 bytes -/
  pool : List (Nat × Nat) := []
  scrBase : Nat := 0
  scrLog : Nat := 4
  idxBase : Nat := 0
  idxLog : Nat := 4
  lookups : Nat := 0
  hits : Nat := 0
  collisions : Nat := 0
  stale : Nat := 0
  ordered : Nat := 0
  seqPkg : Nat := 0
  intStatus : Nat := 0
  /-- host windows 0 to 7 as 256-bit records -/
  windows : AMap Nat := []
  smpBase : Nat := 0
  smpLog : Nat := 8
  smpPeriod : Nat := 16
  smpEn : Bool := false
  smpProd : Nat := 0
  smpCons : Nat := 0
  smpDropped : Nat := 0
  ctrs : AMap Ctr := []
  deriving DecidableEq, Repr

/-- The states of a queue (R85, R88). -/
inductive QSt where
  | disabled | idle | ready | running | waiting | failed
  deriving DecidableEq, Repr

/-- What a Waiting queue waits for (R86, R88, R91). -/
inductive QWait where
  | none
  /-- read index may move to the target once Prod reaches it -/
  | target (t : Nat)
  /-- the command's words do not all lie before Prod -/
  | words
  /-- WAIT: the compare, with the device time in ns when it expires, 0 for none -/
  | sem (f addr val limit : Nat)
  /-- WAITK or Serial: every earlier launch completed; the flag says the command itself ends then -/
  | kernels (ends : Bool)
  deriving DecidableEq, Repr

/-- A queue: the hardware's view of its descriptor (R85). -/
structure Queue where
  st : QSt := .disabled
  prod : Nat := 0
  rd : Nat := 0
  cons : Nat := 0
  status : Nat := 0
  errAddr : Nat := 0
  /-- the owning context, taken when the queue is enabled -/
  ctx : Nat := 0
  /-- open loops, the outermost first: register, count, start -/
  loops : List (Nat × Nat × Nat) := []
  wait : QWait := .none
  /-- kernels launched and not completed -/
  launches : List Nat := []
  deriving DecidableEq, Repr

/-- A command processor hart (R85 to R87). -/
structure Hart where
  /-- the queue it runs: 64·partition + queue -/
  queue : Option Nat := none
  last : Nat := 0
  frz : Option Nat := none
  deriving DecidableEq, Repr

/-- A frozen agent (R76). -/
inductive Agent where
  | group (gid : Nat)
  | op (id : Nat)
  | hart (h : Nat)
  | requester (r : Nat)
  deriving DecidableEq, Repr

/-! ### Engine operations (R199, R273, R285, R300, R327, R362) -/

/-- The states an engine operation passes through. -/
inductive ESt where
  | queued | reading | publishing | retrying | parked | abandoned | held | frozen
  /-- waits for a block of the folio pool (R276, R327) -/
  | starved
  /-- chain run: checks passed, a step runs -/
  | stepping
  /-- work done, retirement outstanding -/
  | done
  deriving DecidableEq, Repr

/-- A byte, or a folio, that an operation has staged for its destination. -/
structure StByte where
  spad : Bool
  addr : Nat
  val : Byte
  deriving DecidableEq, Repr

/-- A folio image staged for a catalogued destination (R272, R276). -/
structure StFolio where
  /-- entry key (R234) -/
  key : Nat
  /-- the 256-bit entry at the lookup (R235) -/
  record : Nat := 0
  /-- the bytes, byte i in bits 8i+7:8i -/
  bits : Nat
  len : Nat
  tag : Nat
  crc : Nat
  segs : Nat := 0
  deriving DecidableEq, Repr

/-- What an engine operation does. Register values are those read at issue. -/
inductive EK where
  /-- mma, mmag: tile, format-block record, index pair lanes (64 values) or none, score word -/
  | mm (gath : Bool) (tile rec : Nat) (idx : List Nat) (score : Option Nat)
  | mld (rec : Nat)
  | mclr (tile : Nat) (int : Bool)
  | mint (tile : Nat) (image key : Nat)
  /-- xcpy (0), xqnt (2), xfil (3): records of 96 bytes, window registers -/
  | copy (f : Nat) (recs : List Nat) (win : List Nat) (cnt : Option Nat)
  /-- xgat: slot code, scratchpad base, tensor, (lane, coordinate) -/
  | gather (f base tensor : Nat) (cs : List (Nat × Nat)) (cnt : Option Nat)
  /-- xrow: destination, source or pattern, length -/
  | rowCpy (d a n : Nat)
  | rowIni (d pat n : Nat)
  | stamp (addr val : Nat)
  /-- fenc: coordinate word, tensor, legend slot, orientation, destination register (64 for none) -/
  | enc (c tensor slot : Nat) (col : Bool) (d : Nat)
  /-- fdec: coordinate word, tensor -/
  | dec (c tensor : Nat)
  /-- sfil: scroll, slot, epoch, segment bytes as packed slot, legend slot, stored, handle -/
  | fill (scroll slot epoch : Nat) (data : List Byte) (lg : Nat) (sto : Bool) (handle : Nat)
  /-- crun (single false), cstp: program base, run word, first half, chain handle, snapshot -/
  | chain (single : Bool) (base word half h chain : Nat) (bds : List W64) (lim : W64)
  deriving DecidableEq, Repr

/-- An engine operation. -/
structure EOp where
  gid : Nat
  block : Nat
  kernel : Nat
  ctx : Nat
  pair : Nat
  core : Nat
  batch : Nat
  /-- address of the instruction -/
  addr : Nat
  order : Nat := 0
  scope : Nat := 0
  /-- the reuse hint of its instruction (R297) -/
  reuse : Bool := false
  kind : EK
  st : ESt := .queued
  staged : List StByte := []
  folios : List StFolio := []
  /-- the 1 KiB units of a row command under the translation that its read phase found: destination, source -/
  units : List (Nat × Option Nat) := []
  /-- the destination footprint F (R272) -/
  foot : Nat := 0
  /-- chain run: the step it has reached, 16 while its checks have not passed after a fault (R362) -/
  step : Nat := 0
  /-- chain run: its record and its step records, as the checks read them (R362) -/
  prog : List Nat := []
  /-- the shadow bank: the tile before the operation (R289) -/
  shadow : Option Tile := none
  /-- the legend slots of its context as it captured them when it started (R251) -/
  lgs : Option (AMap Nat) := none
  /-- the fault reported for it: code, lanes, detail -/
  flt : Option (Nat × Nat × Nat) := none
  deriving DecidableEq, Repr

/-! ### Catalogue and scrolls (R235, R248, R318) -/

/-- A catalogue entry: the 256-bit record and, while Writing or Growing, where it came from. -/
structure Cat where
  record : Nat
  part : Nat
  /-- entry state that the present Writing or Growing was entered from -/
  from_ : Nat := 0
  /-- new storage while Writing or Growing: address, class, length, tag, crc, segs -/
  new : Option (Nat × Nat × Nat × Nat × Nat × Nat) := none
  /-- fref.dec of an ffre that wait for the end of Writing or Growing (R250, R261) -/
  decs : Nat := 0
  deriving DecidableEq, Repr

/-- A scroll (R318). -/
structure Scroll where
  tensor : Nat
  st : Nat
  owner : Nat
  epoch : Nat
  res : Nat
  com : Nat
  mapVa : Nat
  slotVa : Nat
  cap : Nat
  slotBytes : Nat
  format : Nat
  deriving DecidableEq, Repr

/-! ### Link, stacks, watch (R377 to R386, R391, R406 to R409) -/

/-- A flit as the sender numbers it: sequence number, kind, offset, payload, port, and the writer tag of a write (R229). -/
structure FlitS where
  seq : Nat := 0
  kind : Nat
  off : Nat := 0
  data : List Byte := []
  port : Nat := 0
  tag : Nat := 0
  /-- what the access wrote at its home, and what stood there before (R384) -/
  put : List Byte := []
  old : List Byte := []
  /-- operation and size code of a deferred record (R230) -/
  op : Nat := 1
  size : Nat := 0
  poison : Bool := false
  /-- the mode of its flow when it was sent (R379) -/
  ordered : Bool := false
  deriving DecidableEq, Repr

/-- A flit on a port's link: its destination, none for a keepalive, and its flow. -/
structure WireF where
  dst : Option Nat
  flow : Nat
  flit : FlitS
  deriving DecidableEq, Repr

/-- A fabric port (R383). -/
structure Port where
  st : Nat := 0
  lanes : Nat := 0
  dropped : Nat := 0
  attempts : Nat := 0
  /-- times it went to Retraining (R406) -/
  retrains : Nat := 0
  /-- while Degraded: it has been passed over once and takes the next flit that comes to it (R380) -/
  half : Bool := false
  /-- device times in ns of the port's last replays, newest first -/
  replays : List Nat := []
  /-- the flits last sent, newest last, at most 64 (R378) -/
  replayBuf : List WireF := []
  /-- the flits that it has put on its link since the last cycle began -/
  wire : List WireF := []
  /-- it has dropped a flit and asked for a replay, which has not begun (R378) -/
  asked : Bool := false
  /-- its measured path delay in ns (R386) -/
  delay : Nat := 0
  deriving DecidableEq, Repr

/-- A sending flow (R380). -/
structure FlowT where
  next : Nat := 0
  unacked : List FlitS := []
  deriving DecidableEq, Repr

/-- A receiving flow (R380): next sequence number, flits held beyond it by sequence number, those of them that have been
delivered, flits since the last acknowledgement, sequence number last acknowledged. -/
structure FlowR where
  next : Nat := 0
  held : List (Nat × BitVec 2048) := []
  seen : List Nat := []
  since : Nat := 0
  acked : Nat := 0
  deriving DecidableEq, Repr

/-- A stack-control block (R391) and what the controller is doing. -/
structure Stack where
  gang : W64 := 0
  gangNew : Option W64 := none
  rate : Nat := 0
  rateWant : Nat := 0
  rateGo : Bool := false
  rateStatus : Nat := 0
  scrubThresh : Nat := 8
  scrubHours : Nat := 24
  scrubPos : Nat := 0
  corrected : Nat := 0
  poisoned : Nat := 0
  /-- device time at which the present scrub pass began -/
  passStart : Nat := 0
  /-- R395: the deadline escalator is at work -/
  escal : Bool := false
  /-- the regions that a change of Gang initialises, until it is in effect (R392) -/
  gangMask : W64 := 0
  /-- the rate that the change in progress goes to (R396) -/
  rateTo : Nat := 0
  deriving DecidableEq, Repr

/-- What a core keeps beside its groups: the translation cache, the side log, the store buffer and the keep reservations (R43): pipe (0 to 5
ALU, 6 to 9 SFU) to the group and the cycle in which the reservation ends. -/
structure Core where
  tlb : List Tr := []
  log : List LogE := []
  /-- the store buffer of 64 sector entries (R216): the cycle in which each is free again -/
  sbuf : List Nat := []
  keep : AMap (Nat × Nat) := []
  deriving DecidableEq, Repr

/-- The configuration record of the flash (R12, R407): its version, the hash of the key that its signature verifies against, its trim
data, and the physical pairs that it enables on each compute die, in its order. -/
structure Conf where
  version : Nat := 0
  root : BitVec 256 := 0
  trims : List Nat := []
  pairs0 : List Nat := List.range 48
  pairs1 : List Nat := List.range 48
  pairs2 : List Nat := List.range 48
  pairs3 : List Nat := List.range 48
  deriving DecidableEq, Repr

/-- A firmware image of the flash (R407, R408): its hash, and the hash of the key that its signature verifies against. -/
structure Image where
  hash : BitVec 256
  root : BitVec 256 := 0
  deriving DecidableEq, Repr

/-- A histogram record (R406): its number, a stamp of Config.freeByte for the bytes whose place in the record the spec does not give,
the 16 bins of die temperature, module power and inlet, the counts per stack and per port. -/
structure Hist where
  num : Nat
  stamp : Nat
  temp : List Nat := []
  power : List Nat := []
  inlet : List Nat := []
  corrected : List Nat
  poisoned : List Nat
  retrains : List Nat
  deriving DecidableEq, Repr

/-- The package flash (R10, R406 to R408). -/
structure Flash where
  conf : Option Conf := some {}
  /-- the root key hash, which is part of the package's ROM and not of the flash -/
  rom : BitVec 256 := 0
  /-- the least version of a configuration record that boot accepts -/
  minVersion : Nat := 0
  images : List Image := [{ hash := 0 }]
  /-- does the CXL link train at boot (R407 step 6)? -/
  link : Bool := true
  sigIndex : Nat := 0
  /-- the ring of 64 histogram records, the number written and the newest that is committed -/
  ring : AMap Hist := []
  hist : Nat := 0
  newest : Nat := 0
  /-- the newest record when supply last returned: what it counts of before -/
  base : Option Hist := none
  deriving DecidableEq, Repr

/-- A stationary bank of a pair's arrays (R297): the block and context of its operation, and the B descriptor and ScaleB that
tag it. -/
structure Bank where
  block : Nat
  ctx : Nat
  tag : Nat
  /-- folio entries of B and their generations -/
  gens : List (Nat × Nat) := []
  latched : Bool := false
  /-- the operations that took it, the one that fills it last -/
  ops : List Nat := []
  /-- the number of the last of them -/
  used : Nat := 0
  /-- B as it was filled: lines and scale bytes of a plain operand, elements and scale bytes of each tile of another -/
  filled : Bool := false
  lines : List Nat := []
  scales : List Nat := []
  tiles : List (List Nat × List Nat) := []
  deriving DecidableEq, Repr

/-- Who acts next: a group on a core's slot with the pipes that other work occupies (bit per pipe), a hart, a step of
the device or an outside event, the passing of cycles, or an error in a granule of memory or scratchpad. -/
inductive Turn where
  | issue (core slot : Nat) (busy : BitVec 10)
  /-- a group's scroll instruction passes its checks, and its event sets out for the home (R321, R440) -/
  | send (core slot : Nat)
  | hart (h : Nat)
  | event (i : Instr)
  /-- the n-th of the steps that an engine operation may take -/
  | op (id n : Nat)
  | pass (cycles : Nat)
  | upset (granule : Nat) (uncorrectable : Bool)
  /-- an error in a granule of a sector that a die cache holds -/
  | upsetDc (die sector granule : Nat) (uncorrectable : Bool)
  /-- the replay that a port has asked for begins (R378) -/
  | replayBegins (port : Nat)
  /-- a port measures its path delay (R386) -/
  | pathDelay (port ns : Nat)
  /-- firmware lays out a partition's memory: base and size (R374) -/
  | hdm (part base size : Nat)
  /-- the sensors are read: die temperature in °C, module power in W, inlet temperature in °C (R406, R409) -/
  | sense (temp power inlet : Nat)
  /-- the power cap is set (R409) -/
  | setPowerCap (watts : Nat)
  /-- the firmware of a hart makes an access that its permitted regions do not hold (R77) -/
  | hartStray (h target access : Nat)
  /-- an uncorrectable error in a granule of a block's scratchpad -/
  | upsetSp (block granule : Nat)
  deriving DecidableEq, Repr

/-- The agent whose instruction runs. -/
inductive Cur where
  | none
  | group (gid : Nat) (busy : BitVec 10)
  | hart (h : Nat)
  deriving DecidableEq, Repr

/-- The machine. -/
structure State where
  /-- physical memory: HBM of every package and host memory (R159), absent bytes read 0 -/
  mem : List Host.Cell := []
  veils : List Veil := []
  /-- poisoned granules of memory, by address div 32 -/
  poison : AMap Bool := []
  /-- granules with an error that nothing has read: true when uncorrectable -/
  ecc : AMap Bool := []
  /-- errors in granules of die-cache sectors that nothing has read, key 4·(die-cache key) + granule: true when uncorrectable -/
  eccDc : AMap Bool := []
  /-- poisoned granules whose error was met in a die-cache array, by address div 32 (R228, R230) -/
  foundDc : AMap Bool := []
  /-- writer tags of granules in the home die caches, as `writerTag` numbers them -/
  tags : AMap Nat := []
  /-- L1 sectors, key 2^42·pair + sector number -/
  l1 : AMap Sector := []
  /-- die-cache sectors, key 2^42·die + sector number; the data of one at its home die is in `mem` -/
  dc : AMap Sector := []
  walkc : List WalkC := []
  /-- page state at the homes, key physical page address -/
  pages : AMap Page := []
  groups : AMap Group := []
  blocks : AMap Block := []
  kernels : AMap Kernel := []
  /-- contexts, key 64·partition + context -/
  ctxs : AMap Ctx := []
  parts : AMap Part := []
  queues : AMap Queue := []
  harts : AMap Hart := []
  cores : AMap Core := []
  /-- bypass latches, key ((10·core + pipe)·4 + latch)·32 + lane -/
  latches : AMap W32 := []
  ops : AMap EOp := []
  /-- catalogue entries, key of `entryKey` -/
  cat : AMap Cat := []
  /-- stationary banks, key 2·pair + bank -/
  banks : AMap Bank := []
  /-- registrations: entry key, generation, operation -/
  regs : List (Nat × Nat × Nat) := []
  /-- storage that waits for its registrations: entry key, generation, class, address -/
  limbo : List (Nat × Nat × Nat × Nat) := []
  /-- scrolls, key 2^16·partition + identifier -/
  scrolls : AMap Scroll := []
  /-- frozen agents, key 2^32·partition + freeze number, with the context or none -/
  frozen : AMap (Agent × Option Nat) := []
  /-- host requests held for a frozen requester -/
  heldReqs : List HostReq := []
  ports : AMap Port := []
  flowsT : AMap FlowT := []
  flowsR : AMap FlowR := []
  /-- next port in the round robin -/
  rr : Nat := 0
  unreachable : AMap Bool := []
  pkg : Nat := 0
  /-- each partition's memory: base within the package's HBM and size (R374) -/
  hdm : AMap (Nat × Nat) := []
  timeSource : Nat := 0
  timeMaster : Bool := false
  timeLocked : Bool := false
  /-- 1588 sync intervals in a row with the offset under 25 ns -/
  syncGood : Nat := 0
  timeOffset : W32 := 0
  /-- what is left to correct of the measured offset, and the part of a ns corrected, both in 0.1 ps (R386) -/
  slew : Int := 0
  slewFrac : Int := 0
  timeSet : Nat := 0
  time : Nat := 0
  cycle : Nat := 0
  stackCtl : AMap Stack := []
  slice : Nat := 0
  lfsr : AMap W32 := []
  booted : Bool := false
  bootStatus : Nat := 0
  flash : Flash := {}
  clockMHz : Nat := 700
  powerCap : Nat := 3200
  /-- the trim data in effect (R407 step 4) -/
  trims : List Nat := []
  /-- die temperature, module power and inlet temperature as last read (R406, R409) -/
  temp : Nat := 0
  power : Nat := 0
  inlet : Nat := 0
  /-- the histograms of these since power came: bin to count (R406) -/
  tempBins : AMap Nat := []
  powerBins : AMap Nat := []
  inletBins : AMap Nat := []
  tripped : Bool := false
  /-- the last attestation answer (R408): status 0 none yet, 1 signed, 2 EXHAUSTED -/
  attStatus : Nat := 0
  attIndex : Nat := 0
  attNonce : BitVec 256 := 0
  attHash : BitVec 256 := 0
  attImages : List (BitVec 256) := []
  attSig : BitVec 22560 := 0
  /-- number for the next block, kernel or operation -/
  fresh : Nat := 1
  /-- stamp of the next free value -/
  free : Nat := 0
  agenda : List Turn := []
  /-- rotor of the default order of agents -/
  rotor : Nat := 0
  cur : Cur := .none
  deriving DecidableEq, Repr

/-- The state right after reset: no context, no kernel, empty caches, every control register at its reset value (R62,
R164, R232, R317, R382, R385, R391, R397, R439), not yet booted (R407). -/
def State.reset : State := {}

end Sys2Proof.Machine
end

