-- ==== Sys2Proof/Machine/Maps.lean ====
section
/-! DEFINITION. The sparse maps of the state: one lookup, one update, one removal, and the same with a default value that
is never listed. -/

namespace Sys2Proof.Machine

/-- The value at a key. -/
def mfind {α : Type} (m : AMap α) (k : Nat) : Option α :=
  match m with
  | [] => none
  | (k', v) :: t => if k' = k then some v else mfind t k

/-- The map without a key. -/
def mdel {α : Type} (m : AMap α) (k : Nat) : AMap α :=
  match m with
  | [] => []
  | (k', v) :: t => if k' = k then mdel t k else (k', v) :: mdel t k

/-- A pair put before the first larger key. -/
def mins {α : Type} (m : AMap α) (k : Nat) (v : α) : AMap α :=
  match m with
  | [] => [(k, v)]
  | (k', v') :: t => if k < k' then (k, v) :: (k', v') :: t else (k', v') :: mins t k v

/-- The map with a key set. -/
def mset {α : Type} (m : AMap α) (k : Nat) (v : α) : AMap α := mins (mdel m k) k v

/-- The value at a key, d where none is listed. -/
def mget {α : Type} (d : α) (m : AMap α) (k : Nat) : α := (mfind m k).getD d

/-- The map with a key set; the default d is not listed. -/
def mput {α : Type} [DecidableEq α] (d : α) (m : AMap α) (k : Nat) (v : α) : AMap α :=
  if v = d then mdel m k else mset m k v

/-- The map with a function applied at a key that it lists. -/
def mupd {α : Type} (m : AMap α) (k : Nat) (f : α → α) : AMap α :=
  match mfind m k with
  | some v => mset m k (f v)
  | none => m

/-- The canonical form: keys strictly rising. -/
def sortedKeys {α : Type} (m : AMap α) : Bool :=
  match m with
  | [] => true
  | [_] => true
  | (k, _) :: (k', v') :: t => k < k' && sortedKeys ((k', v') :: t)

/-- The canonical form: keys strictly rising, no listed value equal to the default. -/
def wfMap {α : Type} [DecidableEq α] (d : α) (m : AMap α) : Bool :=
  sortedKeys m && m.all (fun x => x.2 != d)

/-- The numbers lo, lo + 1, … of a range of n. -/
def rng (lo n : Nat) : List Nat := (List.range n).map (lo + ·)

/-- The bytes of a number, least significant first (R2). -/
def toBytes (n x : Nat) : List Byte := (List.range n).map (fun i => BitVec.ofNat 8 (x >>> (8 * i)))
/-- The number whose little-endian bytes are given (R2). -/
def ofBytes (l : List Byte) : Nat :=
  match l with
  | [] => 0
  | b :: t => b.toNat + 256 * ofBytes t

end Sys2Proof.Machine
end

