-- ==== Sys2Proof/Machine/Num.lean ====
section
/-! DEFINITION. Numbers: the floating formats of R18 and R22, exact values, rounding (R26, R30, R31, R35, R36), integer
arithmetic (R32) and the mathematical functions of R138. -/

namespace Sys2Proof.Machine

/-- a ÷ b rounded up. -/
def ceilDiv (a b : Nat) : Nat := (a + b - 1) / b

/-- The encodings that a floating format gives up for infinities and NaNs (R19): all exponents of ones; the one pattern
of all ones; none. -/
inductive Spec where
  | ieee | nanOnly | none
  deriving DecidableEq, Repr

/-- A floating format: exponent bits, mantissa bits, special encodings. The bias is 2^(eb−1) − 1 for each of R18. -/
structure Fmt where
  eb : Nat
  mb : Nat
  sp : Spec
  deriving DecidableEq, Repr

/-- R19, R30. -/
def f32 : Fmt := ⟨8, 23, .ieee⟩
def f16 : Fmt := ⟨5, 10, .ieee⟩
def bf16 : Fmt := ⟨8, 7, .ieee⟩
def e4m3 : Fmt := ⟨4, 3, .nanOnly⟩
def e5m2 : Fmt := ⟨5, 2, .ieee⟩
def e3m4 : Fmt := ⟨3, 4, .nanOnly⟩
def e3m2 : Fmt := ⟨3, 2, .none⟩
def e2m3 : Fmt := ⟨2, 3, .none⟩
def e2m1 : Fmt := ⟨2, 1, .none⟩

def Fmt.bias (f : Fmt) : Nat := 2 ^ (f.eb - 1) - 1
def Fmt.width (f : Fmt) : Nat := 1 + f.eb + f.mb
/-- The largest finite magnitude as a bit pattern without sign. -/
def Fmt.maxBits (f : Fmt) : Nat :=
  match f.sp with
  | .ieee => (2 ^ f.eb - 1) * 2 ^ f.mb - 1
  | .nanOnly => 2 ^ (f.eb + f.mb) - 2
  | .none => 2 ^ (f.eb + f.mb) - 1
/-- The canonical NaN (R19); +0 for a format without NaN (R35). -/
def Fmt.nan (f : Fmt) : Nat :=
  match f.sp with
  | .ieee => (2 ^ f.eb - 1) * 2 ^ f.mb + 2 ^ (f.mb - 1)
  | .nanOnly => 2 ^ (f.eb + f.mb) - 1
  | .none => 0
/-- The magnitude pattern of infinity (ieee formats only). -/
def Fmt.infBits (f : Fmt) : Nat := (2 ^ f.eb - 1) * 2 ^ f.mb
/-- The least exponent of a subnormal's unit. -/
def Fmt.emin (f : Fmt) : Int := 1 - (f.bias : Int) - f.mb

/-- An exact value: not a number, an infinity, or (−1)^neg × m × 2^e. -/
inductive FV where
  | nan
  | inf (neg : Bool)
  | fin (neg : Bool) (m : Nat) (e : Int)
  deriving DecidableEq, Repr

/-- R19: the value of a pattern. -/
def decodeF (f : Fmt) (x : Nat) : FV :=
  let neg := (x >>> (f.eb + f.mb)) % 2 == 1
  let mag := x % 2 ^ (f.eb + f.mb)
  let ex := mag >>> f.mb
  let mt := mag % 2 ^ f.mb
  if f.maxBits < mag then (if f.sp == .ieee && mt == 0 then .inf neg else .nan)
  else if ex == 0 then .fin neg mt f.emin
  else .fin neg (mt + 2 ^ f.mb) (f.emin + ((ex : Int) - 1))

/-- Should a magnitude be raised by one unit? q is what was cut off against half a unit: twice the remainder, den. -/
def roundUp (mode : Nat) (neg odd : Bool) (rem2 den : Nat) : Bool :=
  match mode with
  | 0 => den < rem2 || (rem2 == den && odd)
  | 1 => false
  | 2 => !neg && rem2 != 0
  | _ => neg && rem2 != 0

/-- floor(log2(num ÷ den)) for num, den > 0. -/
def log2Q (num den : Nat) : Int :=
  let l : Int := (Nat.log2 num : Int) - (Nat.log2 den : Int)
  if 0 ≤ l then (if num < den * 2 ^ l.toNat then l - 1 else l)
  else (if num * 2 ^ (-l).toNat < den then l - 1 else l)

/-- A magnitude num ÷ den × 2^e rounded to precision mb + 1 with unit at least 2^emin: the rounded multiple and its unit. -/
def roundUnit (mb : Nat) (emin : Int) (mode : Nat) (neg : Bool) (num den : Nat) (e : Int) : Nat × Int :=
  if num = 0 then (0, emin) else
  let q := max (log2Q num den + e - mb) emin
  let sh := e - q
  let n := if 0 ≤ sh then num * 2 ^ sh.toNat else num
  let d := if 0 ≤ sh then den else den * 2 ^ (-sh).toNat
  let t := n / d
  (t + (if roundUp mode neg (t % 2 == 1) (2 * (n % d)) d then 1 else 0), q)

/-- The magnitude pattern of a rounded multiple t of 2^q, not bounded by the format's largest value. -/
def magBits (f : Fmt) (t : Nat) (q : Int) : Nat :=
  if t < 2 ^ f.mb then t
  else ((q - f.emin).toNat + 1) * 2 ^ f.mb + (t - 2 ^ f.mb)

/-- A signed pattern. -/
def signed (f : Fmt) (neg : Bool) (mag : Nat) : Nat := (if neg then 2 ^ (f.eb + f.mb) else 0) + mag

/-- R31, R35 steps 2 and 4: what an overflow gives. -/
def overflowF (f : Fmt) (mode : Nat) (sat neg : Bool) : Nat :=
  if sat || f.sp == .none then signed f neg f.maxBits
  else match f.sp with
    | .ieee =>
      if mode == 0 || (mode == 2 && !neg) || (mode == 3 && neg) then signed f neg f.infBits else signed f neg f.maxBits
    | _ => f.nan

/-- A finite value num ÷ den × 2^e rounded to a format (R35 steps 3 to 5). -/
def roundQ (f : Fmt) (mode : Nat) (sat neg : Bool) (num den : Nat) (e : Int) : Nat :=
  let r := roundUnit f.mb f.emin mode neg num den e
  let mag := magBits f r.1 r.2
  if f.maxBits < mag then overflowF f mode sat neg else signed f neg mag

/-- RoundToFormat (R35). -/
def roundF (f : Fmt) (mode : Nat) (sat : Bool) (x : FV) : Nat :=
  match x with
  | .nan => f.nan
  | .inf neg =>
    if f.sp == .ieee then signed f neg f.infBits
    else if sat then signed f neg f.maxBits else f.nan
  | .fin neg m e => roundQ f mode sat neg m 1 e

/-- R22: UE4M3, bits 6:0; bit 7 set decodes as NaN. -/
def decodeUE4M3 (x : Nat) : FV := if 127 ≤ x % 256 then .nan else decodeF e4m3 (x % 128)
/-- R22: E8M0. -/
def decodeE8M0 (x : Nat) : FV := if x % 256 == 255 then .nan else .fin false 1 ((x % 256 : Nat) - 127)

/-- R35: conversion of a positive num ÷ den × 2^e to UE4M3. -/
def toUE4M3 (mode : Nat) (x : FV) : Nat :=
  match x with
  | .nan => 0x7F
  | .inf neg => if neg then 0 else 0x7E
  | .fin neg m e => if neg || m = 0 then 0 else min (roundQ e4m3 mode true false m 1 e) 0x7E

/-- R35: conversion to E8M0: rounded among the powers of two, a tie under RNE to the even code. -/
def toE8M0 (mode : Nat) (x : FV) : Nat :=
  match x with
  | .nan => 0xFF
  | .inf neg => if neg then 0xFF else 0xFE
  | .fin neg m e =>
    if neg || m = 0 then 0xFF else
    let l := log2Q m 1
    let c := l + e + 127
    -- between 2^(c−127) and 2^(c−126): the midpoint is 1.5 units
    let exact := m == 2 ^ l.toNat
    let up := if exact then false else match mode with
      | 0 => 3 * 2 ^ l.toNat < 2 * m || (2 * m == 3 * 2 ^ l.toNat && c % 2 != 0)
      | 2 => true
      | _ => false
    (max 0 (min 254 (if up then c + 1 else c))).toNat

/-! ### Exact arithmetic on values (R26, R30) -/

/-- Exact sum of two finite magnitudes with sign, on a common unit. -/
def addFin (neg1 : Bool) (m1 : Nat) (e1 : Int) (neg2 : Bool) (m2 : Nat) (e2 : Int) (mode : Nat) : FV :=
  let e := min e1 e2
  let a : Int := (if neg1 then -1 else 1) * ((m1 * 2 ^ (e1 - e).toNat : Nat) : Int)
  let b : Int := (if neg2 then -1 else 1) * ((m2 * 2 ^ (e2 - e).toNat : Nat) : Int)
  let s := a + b
  if s = 0 then
    (if m1 = 0 && m2 = 0 && neg1 == neg2 then .fin neg1 0 0 else .fin (mode == 3) 0 0)
  else .fin (decide (s < 0)) s.natAbs e

/-- Exact sum, with the sign of a zero sum under a mode (R26). -/
def addV (x y : FV) (mode : Nat) : FV :=
  match x, y with
  | .nan, _ => .nan
  | _, .nan => .nan
  | .inf a, .inf b => if a == b then .inf a else .nan
  | .inf a, _ => .inf a
  | _, .inf b => .inf b
  | .fin a m e, .fin b n g => if m = 0 then (if n = 0 then addFin a m e b n g mode else .fin b n g)
      else if n = 0 then .fin a m e else addFin a m e b n g mode

/-- Exact product. -/
def mulV (x y : FV) : FV :=
  match x, y with
  | .nan, _ => .nan
  | _, .nan => .nan
  | .inf a, .inf b => .inf (a != b)
  | .inf a, .fin b n _ => if n = 0 then .nan else .inf (a != b)
  | .fin a m _, .inf b => if m = 0 then .nan else .inf (a != b)
  | .fin a m e, .fin b n g => .fin (a != b) (m * n) (e + g)

def negV (x : FV) : FV :=
  match x with
  | .nan => .nan
  | .inf a => .inf (!a)
  | .fin a m e => .fin (!a) m e

def FV.isNan (x : FV) : Bool := x == .nan
def FV.isInf (x : FV) : Bool := match x with | .inf _ => true | _ => false
def FV.isZero (x : FV) : Bool := match x with | .fin _ m _ => m == 0 | _ => false
def FV.neg (x : FV) : Bool := match x with | .nan => false | .inf a => a | .fin a _ _ => a

/-- Three-way comparison of two values that are not NaN, the two zeros equal: less, equal, greater as −1, 0, 1. -/
def cmpV (x y : FV) : Int :=
  match x, y with
  | .inf a, .inf b => if a == b then 0 else if a then -1 else 1
  | .inf a, _ => if a then -1 else 1
  | _, .inf b => if b then 1 else -1
  | .fin a m e, .fin b n g =>
    match addFin a m e (!b) n g 0 with
    | .fin c k _ => if k = 0 then 0 else if c then -1 else 1
    | _ => 0
  | _, _ => 0

/-- R137: minimumNumber (hi false) and maximumNumber (hi true) on patterns of a format. −0 orders below +0. -/
def minMaxF (f : Fmt) (hi : Bool) (a b : Nat) : Nat :=
  let x := decodeF f a
  let y := decodeF f b
  if x.isNan && y.isNan then f.nan
  else if x.isNan then b else if y.isNan then a
  else
    let c := cmpV x y
    let aLess := c < 0 || (c == 0 && x.neg && !y.neg)
    if aLess != hi then a else b

/-- R132, R137: a compare function on the order of two integers. -/
def cmpInt (fn : Nat) (a b : Int) : Bool :=
  match fn with
  | 0 => a == b | 1 => a != b | 2 => a < b | 3 => a ≤ b | 4 => b < a | _ => b ≤ a

/-- R137: a compare function on two patterns. -/
def cmpF (f : Fmt) (fn : Nat) (a b : Nat) : Bool :=
  let x := decodeF f a
  let y := decodeF f b
  let nan := x.isNan || y.isNan
  match fn with
  | 6 => !nan
  | 7 => nan
  | 1 => nan || cmpV x y != 0
  | _ => !nan && cmpInt fn (cmpV x y) 0

/-- R137: the class mask of a pattern. -/
def classF (f : Fmt) (a : Nat) : Nat :=
  match decodeF f a with
  | .nan => 256
  | .inf n => if n then 1 else 128
  | .fin n m _ =>
    if m = 0 then (if n then 8 else 16)
    else if m < 2 ^ f.mb then (if n then 4 else 32)
    else (if n then 2 else 64)

/-- An exact value rounded to an integer under a mode. -/
def toIntV (mode : Nat) (neg : Bool) (num den : Nat) (e : Int) : Int :=
  let n := if 0 ≤ e then num * 2 ^ e.toNat else num
  let d := if 0 ≤ e then den else den * 2 ^ (-e).toNat
  let t := n / d
  let r := t + (if roundUp mode neg (t % 2 == 1) (2 * (n % d)) d then 1 else 0)
  if neg then -(r : Int) else (r : Int)

/-- The bounds of an integer type of width w (R32). -/
def intMin (sg : Bool) (w : Nat) : Int := if sg then -((2 ^ (w - 1) : Nat) : Int) else 0
def intMax (sg : Bool) (w : Nat) : Int := if sg then ((2 ^ (w - 1) : Nat) : Int) - 1 else ((2 ^ w : Nat) : Int) - 1
def clampI (lo hi x : Int) : Int := max lo (min hi x)
/-- Clamping to a type's range (R32 .sat). -/
def satI (sg : Bool) (w : Nat) (x : Int) : Int := clampI (intMin sg w) (intMax sg w) x

/-- R36: a floating value to an integer type. -/
def toIntTy (mode : Nat) (sg : Bool) (w : Nat) (x : FV) : Int :=
  match x with
  | .nan => 0
  | .inf n => if n then intMin sg w else intMax sg w
  | .fin n m e => satI sg w (toIntV mode n m 1 e)

/-- An integer as an exact value. -/
def ofInt (x : Int) : FV := .fin (decide (x < 0)) x.natAbs 0

/-- An integral value of the format under a mode (frnd). -/
def roundIntegral (f : Fmt) (mode : Nat) (a : Nat) : Nat :=
  match decodeF f a with
  | .nan => f.nan
  | .inf n => signed f n f.infBits
  | .fin n m e =>
    let r := toIntV mode n m 1 e
    roundF f 0 false (.fin n r.natAbs 0)

/-- R136: .sat of floating arithmetic, on the rounded result. -/
def satUnit (f : Fmt) (r : Nat) : Nat :=
  match decodeF f r with
  | .nan => 0
  | .inf n => if n then 0 else roundF f 0 false (.fin false 1 0)
  | .fin n m e =>
    if n then 0 else if cmpV (.fin n m e) (.fin false 1 0) > 0 then roundF f 0 false (.fin false 1 0) else r

/-! ### Functions (R138) -/

/-- floor(√n), bit by bit from bit k. -/
def isqrtFrom (n k r : Nat) : Nat :=
  match k with
  | 0 => if (r + 1) * (r + 1) ≤ n then r + 1 else r
  | k + 1 => isqrtFrom n k (if (r + 2 ^ (k + 1)) * (r + 2 ^ (k + 1)) ≤ n then r + 2 ^ (k + 1) else r)
def isqrt (n : Nat) : Nat := isqrtFrom n (Nat.log2 n / 2 + 1) 0

/-- Fixed point with 320 fraction bits: the constants π and ln 2, cut off. -/
def fxBits : Nat := 320
def fxPi : Nat := 0x3243f6a8885a308d313198a2e03707344a4093822299f31d0082efa98ec4e6c89452821e638d01377
def fxLn2 : Nat := 0xb17217f7d1cf79abc9e3b39803f2f6af40f343267298b62d8a0d175b8baafa2be7b876206debac98

/-- Σ over k of y^k ÷ k!, with y in fixed point: exp(y) for 0 ≤ y < 1. -/
def fxExp (y : Nat) : Nat :=
  ((List.range 80).foldl (fun (a : Nat × Nat) k => (a.1 + a.2, a.2 * y / 2 ^ fxBits / (k + 1))) (0, 2 ^ fxBits)).1

/-- sin(y) (odd) or cos(y) for 0 ≤ y < 2 in fixed point, by its series. -/
def fxTrig (odd : Bool) (y : Nat) : Nat :=
  let y2 := y * y / 2 ^ fxBits
  let st : Nat := if odd then 1 else 0
  let t0 : Int := if odd then (y : Int) else ((2 ^ fxBits : Nat) : Int)
  (((List.range 40).foldl (fun (a : Int × Int) k =>
      (a.1 + a.2, -(a.2 * (y2 : Int) / ((2 ^ fxBits : Nat) : Int)) / (((2 * k + 1 + st) * (2 * k + 2 + st) : Nat) : Int)))
    ((0 : Int), t0)).1).toNat

/-- 160 fraction bits of log2(y) for 1 ≤ y < 2 in fixed point, by squaring. -/
def fxLog2 (y : Nat) : Nat :=
  ((List.range 160).foldl (fun (a : Nat × Nat) _ =>
      let s := a.2 * a.2 / 2 ^ fxBits
      if 2 ^ (fxBits + 1) ≤ s then (2 * a.1 + 1, s / 2) else (2 * a.1, s)) (0, y)).1

/-- A magnitude known to lie strictly between t and t + 1 units of 2^e: the odd half between them. -/
def between (neg : Bool) (t : Nat) (e : Int) : FV := .fin neg (2 * t + 1) (e - 1)

/-- √(m × 2^e), exact or strictly between two multiples of a unit far below any format's. -/
def sqrtV (m : Nat) (e : Int) : FV :=
  let m1 := if e % 2 == 0 then m else 2 * m
  let e1 := if e % 2 == 0 then e else e - 1
  let n := m1 * 2 ^ 128
  let r := isqrt n
  let q := e1 / 2 - 64
  if r * r == n then .fin false r q else between false r q

/-- 1 ÷ √(m × 2^e). -/
def rsqrtV (m : Nat) (e : Int) : FV :=
  let m1 := if e % 2 == 0 then m else 2 * m
  let e1 := if e % 2 == 0 then e else e - 1
  let n := 2 ^ 400 / m1
  let r := isqrt n
  let q := -(e1 / 2) - 200
  if r * r * m1 == 2 ^ 400 then .fin false r q else between false r q

/-- 2^x for finite x = (−1)^neg m 2^e: exact for an integer, otherwise between two units. -/
def ex2V (neg : Bool) (m : Nat) (e : Int) : FV :=
  if m = 0 then .fin false 1 0
  else if 20 < log2Q m 1 + e then (if neg then .fin false 1 (-100000) else .fin false 1 100000)
  else if log2Q m 1 + e < -60 then (if neg then .fin false (2 ^ 64 - 1) (-64) else .fin false (2 ^ 64 + 1) (-64))
  else
    -- x in fixed point with 128 fraction bits, exact since |x| has at most 24 bits from 2^-60 up
    let sc := e + 128
    let fx : Int := (if neg then -1 else 1) * ((if 0 ≤ sc then m * 2 ^ sc.toNat else m / 2 ^ (-sc).toNat : Nat) : Int)
    let ip := fx / ((2 ^ 128 : Nat) : Int)
    let fp := (fx % ((2 ^ 128 : Nat) : Int)).toNat
    if fp = 0 then .fin false 1 ip
    else between false (fxExp (fp * fxLn2 / 2 ^ 128)) (ip - fxBits)

/-- log2(m × 2^e), m > 0. -/
def log2V (m : Nat) (e : Int) : FV :=
  let l := Nat.log2 m
  let ip : Int := (l : Int) + e
  if m == 2 ^ l then ofInt ip
  else
    let y := m * 2 ^ (fxBits - l)
    let t : Int := ip * ((2 ^ 160 : Nat) : Int) + (fxLog2 y : Int)
    -- the logarithm lies between t and t + 1 units
    let h := 2 * t + 1
    .fin (decide (h < 0)) h.natAbs (-161)

/-- sin(π·r) for the exact quarter-turn remainder: n ÷ d half-turns in 0..1/2, exact at the ends. -/
def sinTurn (num : Nat) (den : Nat) : FV :=
  if num = 0 then .fin false 0 0
  else if 2 * num = den then .fin false 1 0
  else between false (fxTrig true (num * fxPi / den)) (-(fxBits : Int))

/-- sin(π·x) for finite x; cos likewise with a half-turn's half added. The sign of a zero follows R138. -/
def sinPiV (cosine neg : Bool) (m : Nat) (e : Int) : FV :=
  if m = 0 then (if cosine then .fin false 1 0 else .fin neg 0 0)
  else if 1 ≤ e then (if cosine then .fin false 1 0 else .fin neg 0 0)
  else
    let den := 2 ^ (-e).toNat
    -- x mod 2 as num ÷ den, for |x|; cos adds one half
    let num0 := m % (2 * den)
    let num := if cosine then (2 * num0 + den) % (4 * den) else (2 * num0) % (4 * den)
    let d := 2 * den
    -- now an angle num ÷ d in [0, 2) half-turns
    let up := num < d
    let r := num % d
    let q := if 2 * r ≤ d then r else d - r
    let v := sinTurn q d
    match v with
    | .fin _ k g =>
      if k = 0 then (if cosine then .fin false 0 0 else .fin neg 0 0)
      else .fin ((!up) != (neg && !cosine)) k g
    | _ => v

/-- tanh for finite x = (−1)^neg m 2^e, m > 0, as a magnitude num ÷ den with the input itself where it is nearer than
any format of the SFU can tell. -/
def tanhQ (m : Nat) (e : Int) : Nat × Nat × Int :=
  if log2Q m 1 + e < -20 then (if 0 ≤ e then (m, 1, e) else (m * 2 ^ 60 - 1, 1, e - 60))
  else if 5 ≤ log2Q m 1 + e then (2 ^ 64 - 1, 1, -64)
  else
    -- 2x in fixed point; e^(2x) = 2^k · exp(r)
    let sc := e + 1 + fxBits
    let y := if 0 ≤ sc then m * 2 ^ sc.toNat else m / 2 ^ (-sc).toNat
    let k := y / fxLn2
    let ex := fxExp (y % fxLn2) * 2 ^ k
    (ex - 2 ^ fxBits, ex + 2 ^ fxBits, 0)

/-- The exact result of an SFU function (opcode 0x3C + fn) on a finite or special value, as a rounding of it to a format.
fn: 0 rcp, 1 rsqrt, 2 sqrt, 3 ex2, 4 log2, 5 sin, 6 cos, 7 tanh. -/
def sfuRound (fn : Nat) (f : Fmt) (mode : Nat) (x : FV) : Nat :=
  let one := roundF f 0 false (.fin false 1 0)
  match x with
  | .nan => f.nan
  | .inf n =>
    match fn with
    | 0 => signed f n 0
    | 1 => if n then f.nan else 0
    | 2 => if n then f.nan else f.infBits
    | 3 => if n then 0 else f.infBits
    | 4 => if n then f.nan else f.infBits
    | 7 => signed f n one
    | _ => f.nan
  | .fin n m e =>
    match fn with
    | 0 => if m = 0 then signed f n f.infBits else roundQ f mode false n 1 m (-e)
    | 1 => if m = 0 then signed f n f.infBits else if n then f.nan else roundF f 0 false (rsqrtV m e)
    | 2 => if m = 0 then signed f n 0 else if n then f.nan else roundF f mode false (sqrtV m e)
    | 3 => roundF f 0 false (ex2V n m e)
    | 4 => if m = 0 then signed f true f.infBits else if n then f.nan else roundF f 0 false (log2V m e)
    | 5 => roundF f 0 false (sinPiV false n m e)
    | 6 => roundF f 0 false (sinPiV true n m e)
    | _ => if m = 0 then signed f n 0
      else let q := tanhQ m e; roundQ f 0 false n q.1 q.2.1 q.2.2

/-- The value that an SFU function of R138 approximates, for a finite operand where it is neither special nor exact by
rule, up to a relative error of 2^-100; none where the result is fixed. -/
def sfuExact (fn : Nat) (x : FV) : Option FV :=
  match x with
  | .fin n m e =>
    match fn with
    | 1 => if m = 0 || n then none else some (rsqrtV m e)
    | 3 => some (ex2V n m e)
    | 4 => if m = 0 || n then none else some (log2V m e)
    | 5 => match sinPiV false n m e with | .fin a 0 g => (let _ := a; let _ := g; none) | v => some v
    | 6 => match sinPiV true n m e with | .fin a 0 g => (let _ := a; let _ := g; none) | v => some v
    | 7 => if m = 0 then none else let q := tanhQ m e
           some (if q.2.1 = 1 then .fin n q.1 q.2.2 else .fin n (q.1 * 2 ^ 200 / q.2.1) (q.2.2 - 200))
    | _ => none
  | _ => none

/-- R138: does a candidate lie within the accuracy of the table for the exact value r? Units of 2 ulp are counted at the
exact value's binade. -/
def sfuWithin (fn : Nat) (x r : FV) (c : Nat) : Bool :=
  match decodeF f32 c, r with
  | .fin cn cm ce, .fin rn rm re =>
    let bound : FV :=
      let ulp : Int := max (log2Q rm 1 + re - 23) (-149)
      let ax := match x with | .fin _ m e => FV.fin false m e | v => v
      let near := decide (cmpV ax (.fin false 1 (-1)) ≥ 0) && decide (cmpV ax (.fin false 2 0) ≤ 0)
      if fn == 1 then .fin false 1 ulp
      else if fn == 5 || fn == 6 || (fn == 4 && near) then .fin false 1 (-22)
      else .fin false 2 ulp
    match addFin cn cm ce (!rn) rm re 0 with
    | .fin _ dm de => decide (cmpV (.fin false dm de) bound ≤ 0)
    | _ => false
  | _, _ => false

/-- R138: the SFU on an element. rcp and sqrt, and every function on 16-bit formats, are the rounded exact result. For
binary32 the other functions give the free candidate of Config where it meets the table's accuracy, otherwise the rounded
exact result (assumption log 3). -/
def sfuF (fn : Nat) (f : Fmt) (mode : Nat) (a : Nat) : Nat :=
  let x := decodeF f a
  let r := sfuRound fn f mode x
  if f.mb == 23 then
    match sfuExact fn x with
    | some v =>
      let c := (Config.sfu fn 0 (BitVec.ofNat 32 a)).toNat
      if r != f.infBits && sfuWithin fn x v c then c else r
    | none => r
  else r

/-! ### Integer arithmetic (R32, R129 to R134) -/

/-- Reads a w-bit pattern by signedness. -/
def rdInt (sg : Bool) (w x : Nat) : Int := if sg then toSigned w x else ((x % 2 ^ w : Nat) : Int)

/-- R32: quotient and remainder. -/
def divRem (sg : Bool) (w : Nat) (a b : Int) : Int × Int :=
  if b = 0 then ((if sg then -1 else ((2 ^ w : Nat) : Int) - 1), a)
  else let q := Int.tdiv a b
    (q, a - b * q)

/-- Number of ones in the low w bits. -/
def popW (w x : Nat) : Nat := ((List.range w).filter (fun i => x.testBit i)).length
/-- Leading zeros of a w-bit value. -/
def clzW (w x : Nat) : Nat := if x % 2 ^ w = 0 then w else w - 1 - Nat.log2 (x % 2 ^ w)
/-- Trailing zeros of a w-bit value. -/
def ctzW (w x : Nat) : Nat := ((List.range w).findIdx? (fun i => x.testBit i)).getD w
/-- Bits in reverse order. -/
def revW (w x : Nat) : Nat := (List.range w).foldl (fun r i => if x.testBit i then r + 2 ^ (w - 1 - i) else r) 0

end Sys2Proof.Machine
end

