-- ==== Sys2Proof/Machine/Mem.lean ====
section
/-! DEFINITION. Physical memory and the caches (R159, R207 to R209, R228, R229): one read and one write of each level,
write-back, release and acquire. -/

namespace Sys2Proof.Machine

abbrev Out := Host.Outcome State Fault Refusal

/-- The canonical form of memory: addresses strictly rising, no listed byte 0 (assumption log 4). -/
abbrev Memory.wf (m : List Host.Cell) : Bool := wfMap (0 : Byte) m

/-! ### Bytes of physical memory -/

/-- The byte at a physical address; a byte that nothing has written reads 0 (assumption log 4), a veiled byte reads a
free value. -/
def memByte (s : State) (a : Nat) : Byte :=
  match s.veils.find? (fun v => v.lo ≤ a && a < v.lo + v.len) with
  | some v => Config.freeByte v.stamp ((a : Int) + v.org).toNat
  | none => mget 0 s.mem a

/-- Veils without one address. -/
def unveil (vs : List Veil) (a : Nat) : List Veil :=
  vs.flatMap (fun v =>
    if v.lo ≤ a && a < v.lo + v.len then
      (if v.lo < a then [{ v with len := a - v.lo }] else []) ++
      (if a + 1 < v.lo + v.len then [{ v with lo := a + 1, len := v.lo + v.len - (a + 1) }] else [])
    else [v])

/-- Veils without a range of addresses. -/
def carve (vs : List Veil) (lo n : Nat) : List Veil :=
  vs.flatMap (fun v =>
    (if v.lo < lo then [{ v with len := min v.len (lo - v.lo) }] else []) ++
    (if lo + n < v.lo + v.len then [{ v with lo := max v.lo (lo + n), len := v.lo + v.len - max v.lo (lo + n) }] else []))
/-- One byte written. -/
def memPut (s : State) (a : Nat) (b : Byte) : State :=
  { s with mem := mput 0 s.mem a b, veils := unveil s.veils a }

/-- Bytes from an address. -/
def memBytes (s : State) (a n : Nat) : List Byte := (List.range n).map (fun i => memByte s (a + i))
/-- A little-endian number of n bytes (R2). -/
def memRead (s : State) (a n : Nat) : Nat := ofBytes (memBytes s a n)
/-- Bytes written from an address. -/
def memPuts (s : State) (a : Nat) (l : List Byte) : State :=
  match l with
  | [] => s
  | b :: t => memPuts (memPut s a b) (a + 1) t
/-- A little-endian number written in n bytes. -/
def memWrite (s : State) (a n x : Nat) : State := memPuts s a (toBytes n x)
/-- A range whose bytes the spec does not give. -/
def memVeil (s : State) (a n : Nat) : State :=
  if n = 0 then s else
    { s with veils := { lo := a, len := n, stamp := s.free } :: s.veils.filter (fun v => !(a ≤ v.lo && v.lo + v.len ≤ a + n)),
             free := s.free + 1 }

/-! ### Where an address lies (R11, R159) -/

def isHost (pa : Nat) : Bool := 2 ^ 48 ≤ pa
def paPkg (pa : Nat) : Nat := pa / 2 ^ 40 % 256
def paOff (pa : Nat) : Nat := pa % 2 ^ 40
/-- R159: HBM of a package of the domain, or host memory. -/
def paOk (pa : Nat) : Bool :=
  if isHost pa then pa < 2 ^ 49 else paPkg pa ≤ 143 && paOff pa < 768 * 2 ^ 30
/-- Memory whose home is a die of this package. -/
def isLocal (s : State) (pa : Nat) : Bool := !isHost pa && paPkg pa == s.pkg
/-- R159: the compute die that controls the stack of an HBM address. -/
def homeDie (pa : Nat) : Nat := paOff pa / (192 * 2 ^ 30)
/-- The die of a core, of a pair, the pair of a core (R12). -/
def coreDie (c : Nat) : Nat := c / 96
def pairDie (q : Nat) : Nat := q / 48
def corePair (c : Nat) : Nat := c / 2
/-- R390: the stack of an HBM address. -/
def stackOf (pa : Nat) : Nat := paOff pa / (64 * 2 ^ 30)
/-- R390: what the bits of a stack offset select: pseudo-channel, bank, subarray and region. -/
def stackOff (pa : Nat) : Nat := paOff pa % (64 * 2 ^ 30)
def pseudoOf (pa : Nat) : Nat := stackOff pa / 2 ^ 10 % 64
def dramBank (pa : Nat) : Nat := stackOff pa / 2 ^ 16 % 16
def dramRow (pa : Nat) : Nat := stackOff pa / 2 ^ 20
def subarrayOf (pa : Nat) : Nat := dramRow pa / 2 ^ 9
def regionOf (pa : Nat) : Nat := stackOff pa / 2 ^ 30
/-- R390: the pseudo-channels that hold the atom at an address: the pair that bits 15:11 select in a ganged region, one otherwise. -/
def channelsOf (ganged : Bool) (pa : Nat) : List Nat :=
  if ganged then [pseudoOf pa / 2 * 2, pseudoOf pa / 2 * 2 + 1] else [pseudoOf pa]
/-- R393: do two units share a subarray? -/
def sameSubarray (a b : Nat) : Bool :=
  paOff a / (64 * 2 ^ 30) == paOff b / (64 * 2 ^ 30) && pseudoOf a == pseudoOf b && dramBank a == dramBank b && subarrayOf a == subarrayOf b
def sectorOf (pa : Nat) : Nat := pa / 128
def granOf (pa : Nat) : Nat := pa / 32

/-- R384: can this package reach the memory? -/
def portLive (s : State) (q : Nat) : Bool :=
  match mfind s.ports q with
  | some p => p.st == 2 || p.st == 3
  | none => false
def reachable (s : State) (pa : Nat) : Bool :=
  isHost pa || isLocal s pa ||
  (mfind s.unreachable (paPkg pa) == none && (List.range 24).any (portLive s))

/-! ### ECC and poison (R228, R394) -/

def updStack (s : State) (t : Nat) (f : Stack → Stack) : State :=
  { s with stackCtl := mset s.stackCtl t (f ((mfind s.stackCtl t).getD {})) }

/-- R394: a granule of memory is marked poisoned, and counted where it was not and lies in a stack of this package. -/
def markPoison (s : State) (gr : Nat) : State :=
  if mfind s.poison gr == some true then s
  else
    let s := if isLocal s (32 * gr) then updStack s (stackOf (32 * gr)) (fun k => { k with poisoned := (k.poisoned + 1) % 2 ^ 32 }) else s
    { s with poison := mset s.poison gr true }

/-- A read at the home meets the errors of a granule: an uncorrectable one poisons it, a correctable one is corrected. -/
def eccTouch (s : State) (gr : Nat) : State :=
  match mfind s.ecc gr with
  | none => s
  | some unc =>
    let s := { s with ecc := mdel s.ecc gr }
    if unc then markPoison s gr
    else updStack s (stackOf (32 * gr)) (fun k => { k with corrected := (k.corrected + 1) % 2 ^ 32 })

def eccTouches (s : State) (gr n : Nat) : State := (rng gr n).foldl eccTouch s
def dcKey (die sec : Nat) : Nat := 2 ^ 42 * die + sec
/-- R228: a read meets the error in a granule of a die cache's array: an uncorrectable one leaves the granule poisoned there and in
HBM, where the poison pattern is written. -/
def dcTouch (s : State) (die sec i : Nat) : State :=
  match mfind s.eccDc (4 * dcKey die sec + i) with
  | none => s
  | some unc =>
    let s := { s with eccDc := mdel s.eccDc (4 * dcKey die sec + i) }
    if unc then
      let s := markPoison s (4 * sec + i)
      { s with foundDc := mset s.foundDc (4 * sec + i) true,
               dc := mupd s.dc (dcKey die sec) (fun k => { k with poison := k.poison ||| BitVec.ofNat 4 (2 ^ i) }) }
    else s
def dcTouches (s : State) (die sec : Nat) : State :=
  if s.eccDc.isEmpty then s else (List.range 4).foldl (fun s i => dcTouch s die sec i) s
/-- Is a granule of memory poisoned? Memory that the package cannot reach reads poisoned (R384). -/
def grPoison (s : State) (gr : Nat) : Bool := mfind s.poison gr == some true || !reachable s (32 * gr)

/-! ### Sector masks -/

/-- The mask of n bytes from byte o of a sector. -/
def byteMask (o n : Nat) : BitVec 128 := BitVec.ofNat 128 ((2 ^ n - 1) * 2 ^ o)
/-- A byte mask as a bit mask. -/
def expandMask (m : BitVec 128) : BitVec 1024 :=
  BitVec.ofNat 1024 ((List.range 128).foldl (fun r i => if m.getLsbD i then r + 255 * 2 ^ (8 * i) else r) 0)
/-- New bytes laid over old ones. -/
def overlay (old new : BitVec 1024) (m : BitVec 128) : BitVec 1024 :=
  let e := expandMask m
  (old &&& ~~~e) ||| (new &&& e)
/-- Is granule i of a sector covered whole by a mask? -/
def granFull (m : BitVec 128) (i : Nat) : Bool := (m.extractLsb' (32 * i) 32) == BitVec.allOnes 32
def granAny (m : BitVec 128) (i : Nat) : Bool := (m.extractLsb' (32 * i) 32) != 0
def setBit4 (x : BitVec 4) (i : Nat) (b : Bool) : BitVec 4 :=
  if b then x ||| BitVec.ofNat 4 (2 ^ i) else x &&& ~~~(BitVec.ofNat 4 (2 ^ i))
/-- The byte of sector data. -/
def secByte (d : BitVec 1024) (i : Nat) : Byte := d.extractLsb' (8 * i) 8

/-! ### The home: HBM with its die cache, other packages, the host -/

/-- A sector at its home with its poison marks. -/
def homeSector (s : State) (sec : Nat) : BitVec 1024 × BitVec 4 :=
  (BitVec.ofNat 1024 (memRead s (128 * sec) 128),
   (List.range 4).foldl (fun p i => setBit4 p i (grPoison s (4 * sec + i))) 0)

/-! ### Sectors (R207, R208, R228) -/

def l1Key (pair sec : Nat) : Nat := 2 ^ 42 * pair + sec
def setTag (k : Sector) (i t : Nat) : Sector :=
  match i with
  | 0 => { k with tag0 := t } | 1 => { k with tag1 := t } | 2 => { k with tag2 := t } | _ => { k with tag3 := t }
def getTag (k : Sector) (i : Nat) : Nat :=
  match i with | 0 => k.tag0 | 1 => k.tag1 | 2 => k.tag2 | _ => k.tag3
/-- R207: the writer tag of a group's place: context, core and slot; 0 stands for no writer. -/
def writerTag (ctx core slot : Nat) : Nat := 1 + slot + 64 * core + 64 * 512 * ctx

/-- A sector fetched from the next level: the fetched bytes lie under the dirty ones (R208), so no clean byte is older
than the fetch and an aligned word of another writer is met whole (R184). -/
def fillSector (k : Sector) (d : BitVec 1024) (pz : BitVec 4) : Sector :=
  { k with valid := BitVec.allOnes 128, data := overlay d k.data k.dirty,
           poison := (List.range 4).foldl (fun p i => if granFull k.dirty i then p else setBit4 p i (pz.getLsbD i)) k.poison }
/-- Bytes written into a cached sector: valid and dirty, poison set anew in granules covered whole (R208, R228), with the
writer's tag on each granule written and the writers noted whose bytes the sector now holds. -/
def putSector (k : Sector) (m : BitVec 128) (d : BitVec 1024) (pz : BitVec 4) (tag : Nat) (hands : List Nat) : Sector :=
  let k := { k with valid := k.valid ||| m, dirty := k.dirty ||| m, data := overlay k.data d m,
                    hands := hands.foldl (fun l h => if l.contains h then l else h :: l) k.hands,
                    poison := (List.range 4).foldl (fun p i => if granFull m i then setBit4 p i (pz.getLsbD i) else p) k.poison }
  (List.range 4).foldl (fun k i => if granAny m i then setTag k i tag else k) k
/-- A poison mark stands while the granule holds a byte that came with it, or was covered by poisoned bytes only. -/
def trimPoison (k : Sector) : Sector :=
  { k with poison := (List.range 4).foldl (fun p i =>
      if granAny (k.valid &&& ~~~k.dirty) i || granFull k.dirty i then p else setBit4 p i false) k.poison }
/-- Bytes of a cached sector that another level now holds newer: no longer valid here (R208). -/
def forgetBytes (k : Sector) (m : BitVec 128) : Sector :=
  trimPoison { k with valid := k.valid &&& ~~~m, dirty := k.dirty &&& ~~~m }
/-- Bytes of a cached sector that have been written at a farther level: valid here and clean. -/
def patchBytes (k : Sector) (m : BitVec 128) (d : BitVec 1024) : Sector :=
  { k with valid := k.valid ||| m, dirty := k.dirty &&& ~~~m, data := overlay k.data d m }
/-- R209: the clean bytes of a sector discarded; none is left of one without dirty bytes. -/
def dropClean (k : Sector) : Option Sector := if k.dirty = 0 then none else some (trimPoison { k with valid := k.dirty })

/-! ### The home die cache (R207, R208)

The bytes of a sector at its home are those of `State.mem`, whichever of the die cache and HBM holds them; the masks of its
entry in `State.dc` say what the die cache holds and what HBM has not yet been given. -/

/-- Masks of the home die cache after a write of bytes; memory outside the package is in no die cache (R208). -/
def homeMark (s : State) (sec : Nat) (m : BitVec 128) : State :=
  if isLocal s (128 * sec) then
    let key := dcKey (homeDie (128 * sec)) sec
    let k := (mfind s.dc key).getD {}
    { s with dc := mset s.dc key { k with valid := k.valid ||| m, dirty := k.dirty ||| m } }
  else s
/-- R63: the bits of a context record's byte that a write can change; every other bit is RO or RZ. -/
def ctxWritable (o : Nat) : Byte :=
  match o with
  | 0 => 0 | 1 => 3 | 2 => 0x0F | 3 => 0 | 16 => 0 | 17 => 0xF0 | 32 => 0xC0 | 40 => 0x0F | 41 => 0 | 42 => 0 | 43 => 0 | 46 => 0 | 47 => 0
  | _ => if (28 ≤ o && o < 32) || 56 ≤ o then 0 else 0xFF
/-- R85: the same for a queue record, whose Context can be written only while its Enable is 0. -/
def queueWritable (o : Nat) (enabled : Bool) : Byte :=
  match o with
  | 0 => 0xC0 | 8 => 0x1F | 9 => 0x0F | 10 => if enabled then 0 else 0x3F | 11 => 0
  | _ => if o < 16 then 0xFF else 0
/-- R233: the same for a record of the tensor directory. -/
def dirWritable (o : Nat) : Byte :=
  match o with
  | 0 => 0xE0 | 6 => 0 | 7 => 0 | 13 => 1 | 15 => 0
  | _ => if o < 15 then 0xFF else 0
/-- R232: log2 of the records of a directory, as it acts. -/
def dirLogEff (q : Part) : Nat := if 4 ≤ q.dirLog && q.dirLog ≤ 20 then q.dirLog else 4
/-- The bits of a byte of memory that a write can change where it lies in a record of a partition: R63, R85, R233. A base of 0
names no table: DESIGN CHOICE (assumption log 105). -/
def recMask (s : State) (a : Nat) (x : Part) : Option Byte :=
  if x.ctxBase != 0 && x.ctxBase ≤ a && a < x.ctxBase + 0x2000 then
    let o := a - x.ctxBase
    some (if o < 0x1000 then ctxWritable (o % 64) else queueWritable (o % 64) ((memByte s (a / 64 * 64 + 9)).getLsbD 3))
  else if x.dirBase != 0 && x.dirBase ≤ a && a < x.dirBase + 32 * 2 ^ dirLogEff x then some (dirWritable ((a - x.dirBase) % 32))
  else none
/-- R5: what a byte of memory becomes when a value is written to it: in the records of a partition only the bits that a write can
change take it. -/
def recByte (s : State) (a : Nat) (b : Byte) : Byte :=
  match s.parts.findSome? (fun x => recMask s a x.2) with
  | none => b
  | some w => (memByte s a &&& ~~~w) ||| (b &&& w)
/-- Has a partition records of this kind in memory? -/
def hasRecs (s : State) : Bool := s.parts.any (fun x => x.2.ctxBase != 0 || x.2.dirBase != 0)
/-- R5: bytes from an address as a write leaves them, at whichever level it lands. -/
def recList (s : State) (a : Nat) (l : List Byte) : List Byte :=
  if hasRecs s then l.zipIdx.map (fun x => recByte s (a + x.2) x.1) else l
/-- R5: masked bytes of a sector as a write leaves them. -/
def recData (s : State) (sec : Nat) (m : BitVec 128) (d : BitVec 1024) : BitVec 1024 :=
  if hasRecs s then
    BitVec.ofNat 1024 (ofBytes ((List.range 128).map (fun i =>
      if m.getLsbD i then recByte s (128 * sec + i) (secByte d i) else secByte d i)))
  else d
/-- Masked bytes of a sector put at its home. A granule covered whole takes the writer's poison mark; any other keeps
its own (R228). tag is the writer for R229. -/
def homePut (s : State) (sec : Nat) (m : BitVec 128) (d : BitVec 1024) (pz : BitVec 4) (tag : Nat) : State :=
  let s := homeMark s sec m
  let s := (List.range 128).foldl (fun s i =>
    if m.getLsbD i then memPut s (128 * sec + i) (secByte d i) else s) s
  (List.range 4).foldl (fun s i =>
    if granAny m i then
      let gr := 4 * sec + i
      let s := { s with tags := mput 0 s.tags gr tag }
      if granFull m i then
        let s := if pz.getLsbD i then markPoison s gr else { s with poison := mdel s.poison gr }
        { s with ecc := mdel s.ecc gr,
                 eccDc := mdel s.eccDc (4 * dcKey (homeDie (128 * sec)) sec + i), foundDc := mdel s.foundDc gr }
      else s
    else s) s
/-- A write that comes to the home of a sector (R5, R208). -/
def homeWrite (s : State) (sec : Nat) (m : BitVec 128) (d : BitVec 1024) (pz : BitVec 4) (tag : Nat) : State :=
  homePut s sec m (recData s sec m d) pz tag
/-- A read of a sector at its home: it meets the errors of its granules, and the home die cache holds it whole after. -/
def homeRead (s : State) (sec : Nat) : State × BitVec 1024 × BitVec 4 :=
  let s := dcTouches (eccTouches s (4 * sec) 4) (homeDie (128 * sec)) sec
  let h := homeSector s sec
  if isLocal s (128 * sec) then
    let key := dcKey (homeDie (128 * sec)) sec
    let k := (mfind s.dc key).getD {}
    ({ s with dc := mset s.dc key { k with valid := BitVec.allOnes 128 } }, h.1, h.2)
  else (s, h.1, h.2)

/-! ### Die caches: guest sectors (R207, R208) -/

/-- Is the sector's home another die of the package? -/
def isGuest (s : State) (die sec : Nat) : Bool := isLocal s (128 * sec) && homeDie (128 * sec) != die

/-- A read of a sector by a die: through its guest copy when it is a guest, at the home otherwise. -/
def dieRead (s : State) (die sec : Nat) : State × BitVec 1024 × BitVec 4 :=
  let r := homeRead (if isGuest s die sec then dcTouches s die sec else s) sec
  if isGuest s die sec then
    let k := fillSector ((mfind r.1.dc (dcKey die sec)).getD {}) r.2.1 r.2.2
    ({ r.1 with dc := mset r.1.dc (dcKey die sec) k }, k.data, k.poison)
  else r

/-- A write that reaches a die: into a guest sector, or at the home. -/
def dieWrite (s : State) (die sec : Nat) (m : BitVec 128) (d : BitVec 1024) (pz : BitVec 4) (tag : Nat) (hands : List Nat) : State :=
  if isGuest s die sec then
    { s with dc := mset s.dc (dcKey die sec) (putSector ((mfind s.dc (dcKey die sec)).getD {}) m (recData s sec m d) pz tag hands),
             eccDc := s.eccDc.filter (fun x => !(x.1 / 4 == dcKey die sec && granFull m (x.1 % 4))) }
  else homeWrite s sec m d pz tag

/-- The dirty bytes of a sector handed on granule by granule, each with the tag of its last writer. -/
def handOn (s : State) (k : Sector) (put : State → BitVec 128 → Nat → State) : State :=
  (List.range 4).foldl (fun s i =>
    let m := k.dirty &&& byteMask (32 * i) 32
    if m = 0 then s else put s m (getTag k i)) s
/-- A guest sector's dirty bytes written back to the home die, a home sector's to HBM (R208). -/
def dcBack (s : State) (die sec : Nat) : State :=
  let s := dcTouches s die sec
  match mfind s.dc (dcKey die sec) with
  | none => s
  | some k =>
    let s := if isGuest s die sec then handOn s k (fun s m t => homeWrite s sec m k.data k.poison t) else s
    { s with dc := mset s.dc (dcKey die sec) { k with dirty := 0, hands := [] } }

/-! ### L1 -/

/-- An L1 sector's dirty bytes written back to the die cache (R208). -/
def l1Back (s : State) (pair sec : Nat) : State :=
  match mfind s.l1 (l1Key pair sec) with
  | none => s
  | some k =>
    let s := handOn s k (fun s m t => dieWrite s (pairDie pair) sec m k.data k.poison t k.hands)
    { s with l1 := mset s.l1 (l1Key pair sec) { k with dirty := 0, writers := 0, hands := [] } }

/-- The sector of a pair's L1 with every byte valid, fetched where it is not. -/
def l1Fill (s : State) (pair sec : Nat) : State × Sector :=
  let k := (mfind s.l1 (l1Key pair sec)).getD {}
  if k.valid = BitVec.allOnes 128 then (s, k) else
    let r := dieRead s (pairDie pair) sec
    let k := fillSector k r.2.1 r.2.2
    ({ r.1 with l1 := mset r.1.l1 (l1Key pair sec) k }, k)

/-- R210: the pair's copy of a line, its two sectors, leaves the L1, dirty bytes written back. -/
def dropLine (s : State) (pair sec : Nat) : State :=
  [sec / 2 * 2, sec / 2 * 2 + 1].foldl (fun s x => let s := l1Back s pair x; { s with l1 := mdel s.l1 (l1Key pair x) }) s

/-- A read of n bytes within one sector through the pair's L1: cache hint 0 default, 1 no line allocated, 2 line dropped
after the read (R210). A line that the L1 holds already takes the bytes that a read with hint 1 fetches, so that no later read
meets older ones (R187). The Bool says that a granule read is poisoned. -/
def l1Read (s : State) (pair pa n hint : Nat) : State × List Byte × Bool :=
  let sec := sectorOf pa
  let o := pa % 128
  let need := byteMask o n
  let k0 := (mfind s.l1 (l1Key pair sec)).getD {}
  let r : State × Sector :=
    if k0.valid &&& need = need then (s, k0)
    else if hint == 1 then
      (let d := dieRead s (pairDie pair) sec
       let k := fillSector k0 d.2.1 d.2.2
       ({ d.1 with l1 := mupd d.1.l1 (l1Key pair sec) (fun _ => k) }, k))
    else l1Fill s pair sec
  let bs := (List.range n).map (fun i => secByte r.2.data (o + i))
  let pz := (List.range 4).any (fun i => r.2.poison.getLsbD i && granAny need i)
  let s := r.1
  let s := if hint == 2 then dropLine s pair sec else s
  (s, bs, pz)

/-- The bytes of a list as sector data from byte o. -/
def secData (o : Nat) (l : List Byte) : BitVec 1024 := BitVec.ofNat 1024 (ofBytes l * 2 ^ (8 * o))

/-- A store within one sector into the pair's L1, with the writer's bit and tag (R207, R208). -/
def l1Write (s : State) (pair wbit tag pa : Nat) (l : List Byte) : State :=
  let sec := sectorOf pa
  let o := pa % 128
  let k := putSector ((mfind s.l1 (l1Key pair sec)).getD {}) (byteMask o l.length) (secData o (recList s pa l)) 0 tag [tag]
  { s with l1 := mset s.l1 (l1Key pair sec) { k with writers := k.writers ||| BitVec.ofNat 99 (2 ^ wbit) } }

/-- The dirty sector numbers of a pair's L1 that carry one of the writer bits. -/
def dirtyOf (s : State) (pair : Nat) (w : BitVec 99) : List Nat :=
  s.l1.filterMap (fun x => if x.1 / 2 ^ 42 == pair && x.2.dirty != 0 && x.2.writers &&& w != 0 then some (x.1 % 2 ^ 42) else none)
/-- The dirty guest sector numbers of a die that hold bytes of a writer; every one of them for none. -/
def guestOf (s : State) (die : Nat) (tag : Option Nat) : List Nat :=
  s.dc.filterMap (fun x =>
    if x.1 / 2 ^ 42 == die && isGuest s die (x.1 % 2 ^ 42) && x.2.dirty != 0 &&
        (match tag with | none => true | some t => x.2.hands.contains t)
    then some (x.1 % 2 ^ 42) else none)

/-- R209: clean bytes of the pair's L1 are discarded. -/
def dropCleanL1 (s : State) (pair : Nat) : State :=
  { s with l1 := s.l1.filterMap (fun x => if x.1 / 2 ^ 42 == pair then (dropClean x.2).map (fun k => (x.1, k)) else some x) }
/-- R209: clean guest bytes of the die cache are discarded. -/
def dropCleanDc (s : State) (die : Nat) : State :=
  { s with dc := s.dc.filterMap (fun x =>
      if x.1 / 2 ^ 42 == die && isGuest s die (x.1 % 2 ^ 42) then (dropClean x.2).map (fun k => (x.1, k)) else some x) }

/-- An engine's write within one sector: at the die, the written bytes invalid in its own pair's L1 (R208). -/
def l1Inval (s : State) (pair sec : Nat) (m : BitVec 128) : State :=
  { s with l1 := mupd s.l1 (l1Key pair sec) (fun k => forgetBytes k m) }

def engWriteSec (s : State) (pair pa : Nat) (l : List Byte) (tag : Nat) : State :=
  let sec := sectorOf pa
  let m := byteMask (pa % 128) l.length
  dieWrite (l1Inval s pair sec m) (pairDie pair) sec m (secData (pa % 128) l) 0 tag [tag]

/-- Bytes at rising addresses grouped into runs that stay within a sector. -/
def runs (l : List (Nat × Byte)) : List (Nat × List Byte) :=
  match l with
  | [] => []
  | (a, b) :: t =>
    match runs t with
    | (a', bs) :: r => if a + 1 = a' && a' % 128 != 0 then (a, b :: bs) :: r else (a, [b]) :: (a', bs) :: r
    | [] => [(a, [b])]

/-- An engine's write of bytes in the order given (R208, R268). -/
def engWrite (s : State) (pair : Nat) (l : List (Nat × Byte)) (tag : Nat) : State :=
  (runs l).foldl (fun s r => engWriteSec s pair r.1 r.2 tag) s

/-- Bytes that a level holds: all of them where every one is valid there, else the dirty ones over what is below (R184, R208). -/
def overBytes (k : Sector) (o : Nat) (below : List (Byte × Bool)) : List (Byte × Bool) :=
  let need := byteMask o below.length
  below.zipIdx.map (fun x =>
    if (k.valid &&& need = need) || k.dirty.getLsbD (o + x.2) then (secByte k.data (o + x.2), k.poison.getLsbD ((o + x.2) / 32)) else x.1)
/-- A byte as a die sees it: its guest copy where that is valid, the home otherwise; with the poison of its granule. -/
def dieByteAt (s : State) (die pa : Nat) : Byte × Bool :=
  let home := (memByte s pa, grPoison s (granOf pa))
  if isGuest s die (sectorOf pa) then
    match mfind s.dc (dcKey die (sectorOf pa)) with
    | some k => if k.valid.getLsbD (pa % 128) then (secByte k.data (pa % 128), k.poison.getLsbD (pa % 128 / 32)) else home
    | none => home
  else home
/-- An engine's read of one byte: the pair's L1 where it holds it, the die otherwise. -/
def engRead1 (s : State) (pair pa : Nat) : Byte × Bool :=
  match mfind s.l1 (l1Key pair (sectorOf pa)) with
  | some k => if k.valid.getLsbD (pa % 128) then (secByte k.data (pa % 128), k.poison.getLsbD (pa % 128 / 32))
    else dieByteAt s (pairDie pair) pa
  | none => dieByteAt s (pairDie pair) pa

/-- An engine's read of an element: whole where it lies in one sector (R184). -/
def engReadN (s : State) (pair pa n : Nat) : List (Byte × Bool) :=
  if 128 < pa % 128 + n then (List.range n).map (fun i => engRead1 s pair (pa + i))
  else
    let home := (List.range n).map (fun i => (memByte s (pa + i), grPoison s (granOf (pa + i))))
    let die := if isGuest s (pairDie pair) (sectorOf pa) then
        (match mfind s.dc (dcKey (pairDie pair) (sectorOf pa)) with | some k => overBytes k (pa % 128) home | none => home)
      else home
    match mfind s.l1 (l1Key pair (sectorOf pa)) with | some k => overBytes k (pa % 128) die | none => die

/-! ### The fabric's sending side (R379, R380) -/

def flowKey (dst flow : Nat) : Nat := 64 * dst + flow
/-- The ports in round-robin order from the rotor on. -/
def portRing (s : State) : List Nat := (rng s.rr 24).map (· % 24)
/-- R380: the next port of the round robin: one that is Up, or a Degraded one at its second turn; of Degraded ones alone the
first. -/
def nextPort (s : State) : Option Nat :=
  ((portRing s).find? (fun q => match mfind s.ports q with | some p => p.st == 2 || (p.st == 3 && p.half) | none => false)).orElse
    (fun _ => (portRing s).find? (portLive s))
/-- The turn of a port is used: the Degraded ports before it have been passed over once. -/
def usePort (s : State) (q : Nat) : State :=
  let past := (portRing s).takeWhile (· != q)
  { s with rr := (q + 1) % 24,
           ports := s.ports.map (fun x => (x.1, { x.2 with half := x.1 != q && (x.2.half || (x.2.st == 3 && past.contains x.1)) })) }

/-- A flit goes out on the link of a port, which keeps its last 64 (R378). -/
def toWire (s : State) (q : Nat) (w : WireF) : State :=
  let p := (mfind s.ports q).getD {}
  { s with ports := mset s.ports q { p with wire := p.wire ++ [w], replayBuf := (p.replayBuf ++ [w]).drop (p.replayBuf.length + 1 - 64) } }
/-- R379: the mode of a flow of this package: that of the partition's Ordered for the classes 0 to 3. -/
def flowMode (s : State) (flow : Nat) : Bool := flow % 8 < 4 && (((mfind s.parts (flow / 8)).getD {}).ordered).testBit (flow % 8)
/-- R379, R380: a flit handed to a flow: numbered, in the flow's present mode, on the next port. One that is kept awaits its
acknowledgement; an access that completes with its response has arrived (assumption log 65). -/
def sendFlit (s : State) (dst flow : Nat) (f : FlitS) (keep : Bool) : State :=
  match nextPort s with
  | none => s
  | some q =>
    let s := usePort s q
    let t := (mfind s.flowsT (flowKey dst flow)).getD {}
    let f := { f with seq := t.next, port := q, ordered := flowMode s flow }
    let t := { t with next := (t.next + 1) % 2 ^ 24, unacked := if keep then t.unacked ++ [f] else t.unacked }
    toWire { s with flowsT := mset s.flowsT (flowKey dst flow) t } q ⟨some dst, flow, f⟩
/-- Memory of another package that can be reached. -/
def isFar (s : State) (pa : Nat) : Bool := !isHost pa && !isLocal s pa && reachable s pa

/-- R192: is a write of the partition to a reachable package, sent on an unordered flow, still without acknowledgement? -/
def unackedFlows (s : State) (part : Nat) : Bool :=
  s.flowsT.any (fun x => x.1 % 64 / 8 == part && mfind s.unreachable (x.1 / 64) == none &&
    x.2.unacked.any (fun f => (f.kind == 0 || f.kind == 3) && !f.ordered))

end Sys2Proof.Machine
end

