-- ==== Sys2Proof/Machine/Ops.lean ====
section
/-! DEFINITION. The named operations of the machine: access to groups, blocks, kernels and contexts; translation (R98,
R99, R158 to R166); taking a fault and a freeze (R66 to R69, R76 to R78), each ONE operation, and returning from one (R71,
R84). -/

namespace Sys2Proof.Machine

/-! ### Objects -/

def getPart (s : State) (p : Nat) : Part := (mfind s.parts p).getD {}
def updPart (s : State) (p : Nat) (f : Part → Part) : State := { s with parts := mset s.parts p (f (getPart s p)) }
def getCtx (s : State) (k : Nat) : Ctx := (mfind s.ctxs k).getD {}
def updCtx (s : State) (k : Nat) (f : Ctx → Ctx) : State := { s with ctxs := mset s.ctxs k (f (getCtx s k)) }
def getCore (s : State) (c : Nat) : Core := (mfind s.cores c).getD {}
def updCore (s : State) (c : Nat) (f : Core → Core) : State := { s with cores := mset s.cores c (f (getCore s c)) }
def updG (s : State) (gid : Nat) (f : Group → Group) : State := { s with groups := mupd s.groups gid f }
def updB (s : State) (b : Nat) (f : Block → Block) : State := { s with blocks := mupd s.blocks b f }
def updK (s : State) (k : Nat) (f : Kernel → Kernel) : State := { s with kernels := mupd s.kernels k f }
def updOp (s : State) (k : Nat) (f : EOp → EOp) : State := { s with ops := mupd s.ops k f }
def updQ (s : State) (k : Nat) (f : Queue → Queue) : State := { s with queues := mset s.queues k (f ((mfind s.queues k).getD {})) }
def getQ (s : State) (k : Nat) : Queue := (mfind s.queues k).getD {}

/-- The number of a group: 32·block + its number in the block. -/
def gidOf (block num : Nat) : Nat := 32 * block + num
def gBlock (s : State) (g : Group) : Option Block := mfind s.blocks g.block
def gKernel (s : State) (g : Group) : Option Kernel := (gBlock s g).bind (fun b => mfind s.kernels b.kernel)
def gKid (s : State) (g : Group) : Nat := match gBlock s g with | some b => b.kernel | none => 0
/-- The context of a group: 64·partition + context. -/
def gCtx (s : State) (g : Group) : Nat := match gKernel s g with | some k => k.ctx | none => 0
def gPart (s : State) (g : Group) : Nat := gCtx s g / 64
def gDie (g : Group) : Nat := coreDie g.core
def gPair (g : Group) : Nat := corePair g.core
/-- The writer bit of a group in its pair's L1 (R207). -/
def gBit (g : Group) : Nat := 48 * (g.core % 2) + g.slot

/-- The writer tag of a group (R207). -/
def gTag (s : State) (g : Group) : Nat := writerTag (gCtx s g) g.core g.slot

/-- The meaning of an instruction for the group that issues it: group number, pipes that other work occupies, group. -/
def withG (s : State) (f : Nat → BitVec 10 → Group → Out) : Out :=
  match s.cur with
  | .group gid busy => match mfind s.groups gid with
    | some g => f gid busy g
    | none => .fault .noGroup
  | _ => .fault .noGroup

/-! ### Descriptors in memory (R62, R63, R85) -/

def ctxDescA (s : State) (key : Nat) : Nat := (getPart s (key / 64)).ctxBase + 64 * (key % 64)
/-- The 512-bit descriptor as memory holds it. -/
def ctxDesc (s : State) (key : Nat) : Nat := memRead s (ctxDescA s key) 64
def cstCode (c : CSt) : Nat :=
  match c with | .free => 0 | .idle => 1 | .running => 2 | .draining => 3 | .saved => 4 | .destroying => 5
/-- The RO fields of a context's descriptor brought up to date. -/
def mirrorCtx (s : State) (key : Nat) : State :=
  let a := ctxDescA s key
  let c := getCtx s key
  let s := memWrite s a 1 (cstCode c.st)
  let s := memWrite s (a + 42) 2 c.fltProd
  let s := memWrite s (a + 56) 2 c.faulted
  memWrite s (a + 58) 2 c.frozen
/-- A context changed and its descriptor with it. -/
def setCtx (s : State) (key : Nat) (f : Ctx → Ctx) : State := mirrorCtx (updCtx s key f) key

/-- R63: bit i of the rights that a context holds: 0 RightSched, 1 RightMgr, 2 RightCtr, 3 RightLaunch. -/
def holdsRight (s : State) (key i : Nat) : Bool :=
  bitAt (ctxDesc s key) (16 + i) && (getPart s (key / 64)).ceil.testBit i
def ctxClass (s : State) (key : Nat) : Nat := fld (ctxDesc s key) 9 8
def ctxRoot (s : State) (key : Nat) : Nat := fld (ctxDesc s key) 127 64 / 2 ^ 16 * 2 ^ 16

/-! ### Counters and interrupts (R374, R403) -/

/-- The counters of a partition that count in the present slice (R403). -/
def ctrActive (s : State) (p : Nat) : List Nat :=
  let sel := (getPart s p).ctrs.filterMap (fun x => if x.2.sel != 0 then some x.1 else none)
  let k := sel.length
  if k ≤ 16 then sel
  else (List.range 16).filterMap (fun i => sel[(16 * s.slice + i) % k]?)
/-- n events of a selection code. -/
def bumpCtr (s : State) (p ev n : Nat) : State :=
  let act := ctrActive s p
  if (getPart s p).ctrs.any (fun x => x.2.sel == ev) then
    updPart s p (fun q => { q with ctrs := q.ctrs.map (fun x =>
      if x.2.sel == ev && act.contains x.1 then (x.1, { x.2 with raw := x.2.raw + n }) else x) })
  else s
/-- An interrupt vector of a partition: its status bit is set (R374). -/
def setInt (s : State) (p v : Nat) : State := updPart s p (fun q => { q with intStatus := q.intStatus ||| 2 ^ v })
def setIntAll (s : State) (v : Nat) : State := (List.range 8).foldl (fun s p => setInt s p v) s

/-! ### Translation -/

/-- What translation of an access gives. -/
inductive TrR where
  | ok (pa : Nat)
  /-- the access waits for a Remove or a move -/
  | wait
  /-- not present: level and Why of R171 -/
  | np (level why : Nat)
  /-- a violation: freeze reason -/
  | forbid (reason : Nat)
  deriving DecidableEq, Repr

/-- Bits of a level's index and the size of a leaf there, as logs (R160). -/
def lvlLo (l : Nat) : Nat := match l with | 0 => 16 | 1 => 21 | 2 => 29 | _ => 35
def lvlN (l : Nat) : Nat := match l with | 0 => 5 | 1 => 8 | 2 => 6 | _ => 13
/-- The size of the table that the entries of a level sit in. -/
def tblSize (l : Nat) : Nat := 8 * 2 ^ lvlN l

/-- What a walk finds. -/
inductive WalkR where
  | leaf (pte level addr : Nat)
  | np (level why : Nat)
  deriving DecidableEq, Repr

/-- R160 to R162: the walk from a level's table, with the walk-cache entries it adds. -/
def walkFrom (s : State) (die ctx va l base : Nat) (acc : List WalkC) : WalkR × List WalkC :=
  let addr := base + 8 * (va / 2 ^ lvlLo l % 2 ^ lvlN l)
  let e := memRead s addr 8
  match l with
  | 0 =>
    if !bitAt e 0 then (.np 0 0, acc)
    else if fld e 63 49 != 0 || !bitAt e 1 || fld e 15 8 != 0 then (.np 0 1, acc)
    else (.leaf e 0 addr, acc)
  | l' + 1 =>
    match s.walkc.find? (fun w => w.die == die && w.ctx == ctx && w.level == l && w.prefix_ == va / 2 ^ lvlLo l && !w.draining) with
    | some w => walkFrom s die ctx va l' w.next acc
    | none =>
      if !bitAt e 0 then (.np l 0, acc)
      else if fld e 63 49 != 0 then (.np l 1, acc)
      else if bitAt e 1 then
        (if fld e 15 8 != 0 || (fld e 48 16 * 2 ^ 16) % 2 ^ lvlLo l != 0 then (.np l 1, acc) else (.leaf e l addr, acc))
      else
        let nx := fld e 48 8 * 2 ^ 8
        if nx % tblSize l' != 0 then (.np l 1, acc)
        else walkFrom s die ctx va l' nx ({ die := die, ctx := ctx, level := l, prefix_ := va / 2 ^ lvlLo l, next := nx } :: acc)

/-- R163: the walk cache of a die holds 256 entries; the entries that walks add push out the oldest. -/
def addWalkc (s : State) (die : Nat) (acc : List WalkC) : State :=
  if acc.isEmpty then s else
  { s with walkc := ((acc ++ s.walkc).filter (fun w => w.die == die)).take 256 ++ s.walkc.filter (fun w => w.die != die) }
/-- A context's walk. -/
def walk (s : State) (die ctx va : Nat) : WalkR × List WalkC := walkFrom s die ctx va 3 (ctxRoot s ctx) []

/-- R165: does a walk from a die meet an entry of its walk cache that is draining, for whatever range? -/
def walkDrains (s : State) (die ctx va : Nat) : Bool :=
  s.walkc.any (fun w => w.draining && w.die == die && w.ctx == ctx && w.prefix_ == va / 2 ^ lvlLo w.level)
/-- The translation that a good leaf gives (R161). -/
def leafTr (ctx va pte level : Nat) : Tr :=
  { ctx := ctx, va := va / 2 ^ lvlLo level * 2 ^ lvlLo level, len := 2 ^ lvlLo level, pa := fld pte 48 16 * 2 ^ 16,
    perm := fld pte 7 2, level := level }

def Tr.covers (t : Tr) (va : Nat) : Bool := t.va ≤ va && va < t.va + t.len
/-- Is a running Remove of the context's partition over the address (R165)? -/
def removeOver (s : State) (ctx va : Nat) : Bool :=
  (getPart s (ctx / 64)).rmq.any (fun r => r.func == 0 && 1 ≤ r.phase && r.ctx == ctx % 64 && r.va ≤ va && va < r.va + 2 ^ r.sizeLog)
/-- Is the page at a physical base being moved (R173)? -/
def movingAt (s : State) (frame : Nat) : Bool :=
  match mfind s.pages frame with | some p => p.moving.isSome | none => false

/-- R392, R396: does the region of an address wait for the end of its ganging, or its stack for that of a rate change? -/
def stackBusy (s : State) (pa : Nat) : Bool :=
  isLocal s pa && (match mfind s.stackCtl (stackOf pa) with
    | some k => k.rateStatus == 1 || k.gangMask.getLsbD (regionOf pa)
    | none => false)
/-- A physical address that a granted access reaches, waits for, or that does not exist. -/
def paTr (s : State) (pa : Nat) : TrR := if !paOk pa then .forbid 2 else if stackBusy s pa then .wait else .ok pa

/-- R162: a permission bit (0 R, 1 W, 2 X, 3 A) of an entry; a Priv page forbids all. -/
def permits (t : Tr) (need : Nat) : Bool := t.perm.testBit need && !t.perm.testBit 4

/-- An access of a context from a core, at an address, needing a permission; ext are the kernel's extents, empty for a
fetch (R99). Translation by extent, translation cache, walk, in that order; a draining entry makes the access wait (R165). A walk whose page is moving installs nothing
and waits for the end of the move (R166, R173). An access is translated by its first byte (assumption log 95). -/
def translate (s : State) (core ctx : Nat) (ext : List Tr) (va need : Nat) : State × TrR :=
  if 2 ^ 48 ≤ va then (s, .forbid 2) else
  let fin (s : State) (t : Tr) : State × TrR :=
    if movingAt s t.pa then (s, .wait)
    else if !permits t need then (s, .forbid 1)
    else (s, paTr s (t.pa + (va - t.va)))
  match ext.find? (fun t => t.covers va) with
  | some t => if t.draining then (s, .wait) else fin s t
  | none =>
    match (getCore s core).tlb.find? (fun t => t.ctx == ctx && t.covers va) with
    | some t => if t.draining then (s, .wait) else fin s t
    | none =>
      if removeOver s ctx va || walkDrains s (coreDie core) ctx va then (s, .wait) else
      match walk s (coreDie core) ctx va with
      | (.np l w, acc) => (addWalkc s (coreDie core) acc, .np l w)
      | (.leaf e l _, acc) =>
        let t := leafTr ctx va e l
        let s := addWalkc s (coreDie core) acc
        if movingAt s t.pa then (s, .wait)
        else fin (updCore s core (fun c => { c with tlb := (t :: c.tlb).take 512 })) t

/-- A translation at a context's page table by hardware outside the cores; the caller says which leaves grant the access. -/
def homeTranslate (s : State) (ctx va : Nat) (grant : Tr → Bool) : TrR :=
  if 2 ^ 48 ≤ va then .forbid 2
  else if removeOver s ctx va then .wait
  else match (walk s 4 ctx va).1 with
    | .np l w => .np l w
    | .leaf e l _ =>
      let t := leafTr ctx va e l
      let pa := t.pa + (va - t.va)
      if movingAt s t.pa then .wait
      else if !grant t then .forbid 1 else paTr s pa
/-- A read or write by firmware: a hart or the scheduler under a context's table, Priv pages included (R90, R95). -/
def hartTranslate (s : State) (ctx va need : Nat) : TrR := homeTranslate s ctx va (fun t => t.perm.testBit need)
/-- The scheduler's check of a completion word or a fix-up flag: a Priv page grants nothing (R95, R103). -/
def taskTranslate (s : State) (ctx va need : Nat) : TrR := homeTranslate s ctx va (fun t => permits t need)

/-- The extents of a group's kernel. -/
def gExts (s : State) (g : Group) : List Tr := match gKernel s g with | some k => k.exts | none => []
def gTranslate (s : State) (g : Group) (va need : Nat) : State × TrR :=
  translate s g.core (gCtx s g) (gExts s g) va need

/-! ### Records and rings (R69, R78) -/

/-- A full ring: producer minus consumer modulo 2^16 equals the size. -/
def ringFull (prod cons log : Nat) : Bool := (prod + 2 ^ 16 - cons) % 2 ^ 16 == 2 ^ log
def ringLog (x : Nat) : Nat := if 4 ≤ x && x ≤ 12 then x else 4

/-- One fault record written to its context's ring (R69). -/
def writeFault (s : State) (key rec : Nat) : State :=
  let d := ctxDesc s key
  let log := ringLog (fld d 323 320)
  let base := fld d 319 256 / 64 * 64
  let c := getCtx s key
  let s := memWrite s (base + 64 * (c.fltProd % 2 ^ log)) 64 rec
  let s := setCtx s key (fun c => { c with fltProd := (c.fltProd + 1) % 2 ^ 16 })
  setInt (bumpCtr s (key / 64) 0x0C 1) (key / 64) 0
/-- Is a context's fault ring full? -/
def fltFull (s : State) (key : Nat) : Bool :=
  let d := ctxDesc s key
  ringFull (getCtx s key).fltProd (fld d 367 352) (ringLog (fld d 323 320))
/-- A fault record to its ring, or behind the records that wait (R69). -/
def pushFault (s : State) (key rec : Nat) : State :=
  if !(getCtx s key).fltPend.isEmpty || fltFull s key then updCtx s key (fun c => { c with fltPend := c.fltPend ++ [rec] })
  else writeFault s key rec

/-- One freeze record written (R78). -/
def writeFreeze (s : State) (p rec : Nat) : State :=
  let q := getPart s p
  let log := ringLog q.frzLog
  let s := memWrite s (q.frzBase / 64 * 64 + 64 * (q.frzProd % 2 ^ log)) 64 rec
  setInt (updPart s p (fun q => { q with frzProd := (q.frzProd + 1) % 2 ^ 16 })) p 1
def frzFull (s : State) (p : Nat) : Bool := let q := getPart s p; ringFull q.frzProd q.frzCons (ringLog q.frzLog)
def pushFreeze (s : State) (p rec : Nat) : State :=
  if !(getPart s p).frzPend.isEmpty || frzFull s p then updPart s p (fun q => { q with frzPend := q.frzPend ++ [rec] })
  else writeFreeze s p rec

/-- R66: the codes whose fault can be resumed. -/
def resumable (code : Nat) : Bool := [0x06, 0x07, 0x10, 0x21, 0x22, 0x23, 0x31].contains code

/-- A record of R69 for a place: context, core, slot and region entry. -/
def placeRec (s : State) (key core slot entry code : Nat) (async : Bool) (batch addr lanes seq detail : Nat) : Nat :=
  mkRec [(7, 0, code), (8, 8, async.toNat), (18, 16, key / 64), (24, 19, key % 64), (40, 32, core), (46, 41, slot),
    (63, 48, batch), (127, 64, entry), (191, 128, addr), (223, 192, lanes), (255, 224, seq), (319, 256, s.time),
    (511, 320, detail)]
/-- A record of R69 for a group. -/
def faultRec (s : State) (g : Group) (code : Nat) (async : Bool) (batch addr lanes seq detail : Nat) : Nat :=
  placeRec s (gCtx s g) g.core g.slot g.region.entry code async batch addr lanes seq detail

/-- The next fault number of a context is used. -/
def nextSeq (s : State) (key : Nat) : State × Nat :=
  let n := (getCtx s key).seq
  (updCtx s key (fun c => { c with seq := (c.seq + 1) % 2 ^ 32 }), n)

/-- R229: a record that stops nobody, for the place that a writer tag names; its entry address is that of the group that sits
there (assumption log 96). -/
def tagRecord (s : State) (tag code detail : Nat) : State :=
  if tag = 0 then s else
  let slot := (tag - 1) % 64
  let core := (tag - 1) / 64 % 512
  let key := (tag - 1) / (64 * 512)
  let entry := match s.groups.find? (fun x => x.2.resident && x.2.core == core && x.2.slot == slot && gCtx s x.2 == key) with
    | some x => x.2.region.entry
    | none => 0
  let sq := nextSeq s key
  pushFault sq.1 key (placeRec sq.1 key core slot entry code false 0 0 0 sq.2 detail)

/-- R223: a lane's transaction is doomed; the first code stays. Its lines count to the limits of R225 no more (assumption log 111). -/
def doom (t : Tx) (code : Nat) : Tx := if t.code = 0 then { t with code := code, reads := [], rlines := [], writes := [] } else t
/-- R194: a group's arrival is withdrawn from a barrier. -/
def barWithdraw (b : Block) (id : Nat) : Block :=
  { b with bars := mput {} b.bars id (let r := mget {} b.bars id; if r.n ≤ 1 then {} else { r with n := r.n - 1 }) }

/-- R68, R70, R72: a wait instruction that counts as not issued leaves the region entry as it was. -/
def unmark (g : Group) : Group :=
  match g.st, g.prior with | .waiting _, some r => { g with region := r } | _, _ => g
/-- R195, R227, R302: what stopping takes from a group that waits or holds transactions: its barrier arrival, its monitor, its place
among the operations on a tile, every open transaction doomed with STOPPED. -/
def stopEffects (s : State) (gid : Nat) : State :=
  match mfind s.groups gid with
  | none => s
  | some g =>
    let s := match g.st with
      | .waiting (.bar id) =>
        if g.arrivals.any (fun a => a.id == id && a.sync) then s else updB s g.block (fun b => barWithdraw b id)
      | _ => s
    updG s gid (fun g => { unmark g with
      arrivals := g.arrivals.filter (fun a => !a.sync), reads := none,
      tx := g.tx.map (fun x => (x.1, doom x.2 11)) })

/-! ### Engine operations: what holds one back (R68, R270, R300, R362) -/

/-- The engine of an operation: 0 Pantograph, 1 Burin, 2 Loupe, 3 arrays, 4 chain engine. -/
def EK.cls (k : EK) : Nat :=
  match k with
  | .copy .. | .gather .. | .rowCpy .. | .rowIni .. | .stamp .. => 0
  | .enc .. | .fill .. => 1
  | .dec .. => 2
  | .mm .. | .mld .. | .mclr .. | .mint .. => 3
  | .chain .. => 4
/-- The accumulator tile that an operation of the arrays writes; none for mld. -/
def EK.tile (k : EK) : Option Nat := match k with | .mm _ t _ _ _ => some t | .mclr t _ => some t | .mint t _ _ => some t | _ => none
def EK.isFill (k : EK) : Bool := match k with | .fill .. => true | _ => false
/-- An operation that R68 holds back behind its group's abandoned one, or that waits for frel. -/
def EOp.stopped (o : EOp) : Bool := o.st == .abandoned || o.st == .frozen || o.st == .held
/-- Does an earlier operation hold back a later one? A channel of the Pantograph or of the chain engine runs its commands in
order (R270, R274, R362); fills leave the Burin in issue order (R341); operations on one tile act in array order and
those on other tiles proceed (R300, R302); on the other engines a stopped operation holds back its group's later ones (R68). -/
def holdsBack (x o : EOp) : Bool :=
  x.kind.cls == o.kind.cls &&
  ((x.gid == o.gid && x.stopped && o.kind.cls != 3) ||
   (match o.kind.cls with
    | 0 => x.pair == o.pair && x.ctx == o.ctx
    | 4 => x.pair == o.pair && x.ctx == o.ctx
    | 1 => x.kind.isFill && o.kind.isFill && x.pair == o.pair && x.ctx == o.ctx && x.st != .abandoned
    | 3 => x.block == o.block && x.kind.tile == o.kind.tile && o.kind.tile.isSome
    | _ => false))
/-- R297: an operation that stops uses no stationary bank any more. -/
def leaveBanks (s : State) (id : Nat) : State :=
  if s.banks.any (fun b => b.2.ops.contains id) then { s with banks := s.banks.map (fun b => (b.1, { b.2 with ops := b.2.ops.erase id })) }
  else s
/-- The engine operations of a group that have not retired. -/
def opsOf (s : State) (gid : Nat) : List (Nat × EOp) := s.ops.filter (fun x => x.2.gid == gid)

/-! ### Leaving (R106, R112) -/

/-- Has a group issued anything that has not finished? -/
def outstanding (s : State) (gid : Nat) (g : Group) : Bool :=
  !(opsOf s gid).isEmpty || !g.pend.isEmpty || !g.reds.isEmpty || !g.arrivals.isEmpty || !g.bcs.isEmpty ||
  !g.commits.isEmpty || (getCore s g.core).log.any (fun e => e.gid == gid) || !g.asyncF.isEmpty
/-- R106, R112: a group whose last lane has left becomes Exited once what it issued has finished; its slot is freed. -/
def exitCheck (s : State) (gid : Nat) : State :=
  match mfind s.groups gid with
  | some g => if g.st == .exiting && !outstanding s gid g then
      updG s gid (fun g => { g with st := .exited, resident := false, sectors := [] }) else s
  | none => s

/-! ### A kernel that ends with FAULTED (R97) -/

/-- R97: the operations of a Faulting kernel that are discarded: stopped ones whose fault has been reported, Frozen ones,
and those that have not started and are held back by a stopped one (R68). -/
def discardable (s : State) (kid : Nat) (x : Nat × EOp) : Bool :=
  x.2.kernel == kid &&
  ((x.2.stopped && !s.groups.any (fun g => g.2.asyncF.any (fun f => f.2.1 == x.1))) ||
   (x.2.st == .queued && s.ops.any (fun y => y.1 < x.1 && y.2.kernel == kid && y.2.stopped && holdsBack y.2 x.2)))
/-- An operation leaves without effect: its result is delivered to no register, its freeze is forgotten. -/
def dropOp (s : State) (id : Nat) : State :=
  match mfind s.ops id with
  | none => s
  | some o =>
    let frz := s.frozen.filter (fun f => f.2.1 == .op id)
    let s := if frz.isEmpty then s else setCtx { s with frozen := s.frozen.filter (fun f => f.2.1 != .op id) } o.ctx
      (fun c => { c with frozen := c.frozen - frz.length })
    let s := updG { leaveBanks s id with ops := mdel s.ops id } o.gid (fun g => { g with pend := g.pend.map (fun q =>
      if q.op == id && !q.ready then { q with ready := true } else q) })
    exitCheck s o.gid
def discardOps (s : State) (kid : Nat) : State :=
  (s.ops.filter (discardable s kid)).foldl (fun s x => dropOp s x.1) s
/-- A kernel is to end with status FAULTED: its other groups stop, what can no longer retire is discarded (R97). -/
def kernelFault (s : State) (kid : Nat) : State :=
  match mfind s.kernels kid with
  | none => s
  | some k =>
    if k.st == .dispatching || k.st == .running then
      let s := updK s kid (fun k => { k with st := .faulting, status := 1 })
      let s := s.groups.foldl (fun s x =>
        if gKid s x.2 == kid then
          match x.2.st with
          | .ready => updG (stopEffects s x.1) x.1 (fun g => { g with st := .stopping })
          | .stalled _ => updG (stopEffects s x.1) x.1 (fun g => { g with st := .stopping })
          | .sent _ => updG (stopEffects s x.1) x.1 (fun g => { g with st := .stopping })
          | .waiting _ => updG (stopEffects s x.1) x.1 (fun g => { g with st := .stopping })
          | _ => s
        else s) s
      discardOps s kid
    else s

/-- TAKING A FAULT (R66 to R69): the record with its number, the group stopped, the kernel ended when the code cannot be
resumed. async gives the engine operation's number, batch and issuing address; op 0 is a synchronous fault at the group's
own instruction. -/
def takeFault (s : State) (gid code : Nat) (async : Option (Nat × Nat × Nat)) (lanes detail : Nat) : State :=
  match mfind s.groups gid with
  | none => s
  | some g =>
    let key := gCtx s g
    let sq := nextSeq s key
    let s := sq.1
    let r := match async with
      | some (_, batch, addr) => faultRec s (unmark g) code true batch addr lanes sq.2 detail
      | none => faultRec s g code false 0 g.pc lanes sq.2 detail
    let s := stopEffects s gid
    let s := updG s gid (fun h => { h with
      st := .faulted, region := if async.isSome then h.region else g.region,
      flt := some { code := code, seq := sq.2, op := (match async with | some (o, _, _) => o | none => 0) } })
    let s := setCtx s key (fun c => { c with faulted := c.faulted + 1 })
    let s := pushFault s key r
    if resumable code then s else kernelFault s (gKid s g)

/-- A synchronous fault of a group at its own instruction. -/
def raise (s : State) (gid code lanes detail : Nat) : Out := .next (takeFault s gid code none lanes detail)
/-- All lanes, for a group-wide condition (R69). -/
def allLanes : Nat := 2 ^ 32 - 1

/-- A record that stops nobody: a logged write (R171) or deferred poison (R229). -/
def loggedRecord (s : State) (g : Group) (code lanes addr detail : Nat) : State :=
  let sq := nextSeq s (gCtx s g)
  pushFault sq.1 (gCtx s g) (faultRec sq.1 g code false 0 addr lanes sq.2 detail)

/-- Trap 0x01 at execution: the instruction word in the detail (R69). -/
def trapIllegal (s : State) (gid : Nat) (o : Op) (p : P) : Out := raise s gid 0x01 allLanes (encodeP o p).toNat
/-- Fault 0x02 raised at issue (R265). -/
def trapReserved (s : State) (gid : Nat) (o : Op) (p : P) : Out := raise s gid 0x02 allLanes (encodeP o p).toNat

/-- TAKING A FREEZE (R76 to R78): the agent keeps all of its state; the record goes to the partition's ring. -/
def takeFreeze (s : State) (p : Nat) (ctx : Option Nat) (ag : Agent) (kind wher reason addr target access : Nat) : State :=
  let q := getPart s p
  let n := q.frzNum
  let s := updPart s p (fun q => { q with frzNum := (q.frzNum + 1) % 2 ^ 32 })
  let s := { s with frozen := mset s.frozen (2 ^ 32 * p + n) (ag, ctx) }
  let s := match ctx with | some k => setCtx s k (fun c => { c with frozen := c.frozen + 1 }) | none => s
  pushFreeze s p (mkRec [(7, 0, reason), (10, 8, kind), (18, 16, p), (24, 19, match ctx with | some k => k % 64 | none => 0),
    (25, 25, ctx.isNone.toNat), (63, 32, wher), (127, 64, addr), (191, 128, target), (223, 192, n), (319, 256, s.time),
    (327, 320, access)])

/-- A group frozen at its own instruction: access is 1 read, 2 write, 3 fetch, 4 atomic, 5 engine command. -/
def freezeGroup (s : State) (gid reason target access : Nat) : State :=
  match mfind s.groups gid with
  | none => s
  | some g =>
    let key := gCtx s g
    let n := (getPart s (key / 64)).frzNum
    let s := stopEffects s gid
    let s := updG s gid (fun g => { g with st := .frozen, frz := some n })
    takeFreeze s (key / 64) (some key) (.group gid) 0 (g.core + 2 ^ 9 * g.slot) reason g.pc target access
def freeze (s : State) (gid reason target access : Nat) : Out := .next (freezeGroup s gid reason target access)

/-! ### Moving on (R50, R70, R151) -/

/-- The address after an instruction (R50). -/
def nextPc (a : Nat) : Nat :=
  if a % 128 / 12 = 9 then (a / 128 + 1) * 128 % 2 ^ 64 else (a + 12) % 2 ^ 64
/-- R51: the address off instructions from a. -/
def branchTarget (a : Nat) (off : Int) : Nat :=
  let t : Int := (((a / 128) * 10 + a % 128 / 12 : Nat) : Int) + off
  ((t / 10 * 128 + (t % 10) * 12) % ((2 ^ 64 : Nat) : Int)).toNat
/-- R50: an instruction address. -/
def isInstrAddr (a : Nat) : Bool := a % 128 % 12 == 0 && a % 128 < 120

/-- What the hints leave in the group after an instruction issues (R46). -/
def hintG (g : Group) (cycle : Nat) (h : Hdr) : Group :=
  { g with age := if h.yld then cycle else g.age, lastIssue := cycle + 1,
           waited := 0, elig := false,
           burst := if h.burst != 0 then h.burst.toNat else g.burst - 1 }

/-- The group goes on at an address. -/
def goTo (g : Group) (a : Nat) : Group := { g with pc := a, st := .ready }
/-- Has a group stopped or exited? -/
def isQuiet (g : Group) : Bool := match g.st with | .faulted => true | .frozen => true | .saved => true | .exited => true | _ => false
def allQuiet (s : State) (b : Nat) : Bool := s.groups.all (fun x => x.2.block != b || isQuiet x.2)
/-- R297: the latched banks that a condition selects are dropped. -/
def dropBanks (s : State) (f : Nat → Bank → Bool) : State :=
  { s with banks := s.banks.map (fun x => (x.1, if f x.1 x.2 then { x.2 with latched := false } else x.2)) }
/-- R297: before a group of a block goes on; when every group of it stood still, the block's banks are gone. -/
def wakeBanks (s : State) (b : Nat) : State := if allQuiet s b then dropBanks s (fun _ x => x.block == b) else s
/-- R297: a block of a context comes to a pair: the banks of other contexts are gone. -/
def claimBanks (s : State) (pair ctx : Nat) : State := dropBanks s (fun k x => k / 2 == pair && x.ctx != ctx)
/-- R97, R106: a group that goes on after a stop is Ready; in a Faulting kernel it stops again, and with no lane left it leaves. -/
def awake (s : State) (g : Group) : GSt :=
  if g.active = 0 then .exiting
  else match mfind s.kernels (gKid s g) with
    | some k => if k.st == .faulting then .stopping else .ready
    | none => .ready

/-- R70: the region is closed before an address. -/
def closeAt (g : Group) (a : Nat) : Group := { g with region := { entry := a, e := g.e, stack := g.stack } }

/-- The end of an instruction that goes on at the next one; it closes its region or not (R70). -/
def advance (s : State) (gid : Nat) (p : P) (close : Bool) : State :=
  updG s gid (fun g =>
    let a := nextPc g.pc
    let g := goTo (hintG g s.cycle p.h) a
    if close then closeAt g a else g)
def fin (s : State) (gid : Nat) (p : P) (close : Bool) : Out := .next (advance s gid p close)
/-- The instruction waits where it is, for a stall reason of R114; nothing else changes. -/
def stall (s : State) (gid reason : Nat) : Out := .next (updG s gid (fun g => { g with st := .stalled reason }))
/-- The instruction waits where it is, with the state changed. -/
def stallIn (s : State) (gid reason : Nat) : State := updG s gid (fun g => { g with st := .stalled reason })

/-! ### Returning from a fault (R66, R71, R84) -/

/-- R149: Rejoin entries with the same J on top, merged. -/
def absorb (j : Option Nat) (st : List DEntry) (e : Lanes) : List DEntry × Lanes :=
  match st with
  | top :: rest => if !top.pending && top.j == j then absorb j rest (e ||| top.m) else (st, e)
  | [] => ([], e)
/-- R149: where a group resumes when E has become empty. -/
def refill (st : List DEntry) : Option (List DEntry × Lanes × Nat) :=
  match st with
  | top :: rest =>
    if top.pending then
      (if top.m ≠ 0 then some ({ top with m := 0 } :: rest, top.m, top.a) else refill rest)
    else
      let r := absorb top.j rest top.m
      some (r.1, r.2, nextPc (top.j.getD top.a))
  | [] => none
/-- R106, R149: a stack copied at a region entry without the lanes that have exited since; a Rejoin entry that holds no lane any more
merges nothing. -/
def liveStack (active : Lanes) (st : List DEntry) : List DEntry :=
  (st.map (fun d => { d with m := d.m &&& active })).filter (fun d => d.pending || d.m != 0)
/-- The group continues after frel.res: at the next instruction for 0x06 and 0x07, at the region entry with its copy of E
and the stack for 0x10, without the lanes that have exited and from the stack when no other is left of E (R149), where it stopped for an
operation that replays. Its state is `awake`. -/
def resumeG (g : Group) (code : Nat) : Group :=
  let g := { g with flt := none }
  if code == 0x06 || code == 0x07 then { g with pc := nextPc g.pc }
  else if code == 0x10 then
    let e : Lanes := g.region.e &&& g.active
    let st := liveStack g.active g.region.stack
    let back := { g with pc := g.region.entry, e := e, stack := st, latchPipe := [] }
    if e ≠ 0 then back
    else match refill st with
      | some (st, m, a) => { back with pc := a, e := m, stack := st }
      | none => back
  else g

/-! ### Registers -/

def vKey (n lane : Nat) : Nat := 32 * n + lane
def rdV (g : Group) (n lane : Nat) : W32 := mget 0 g.v (vKey n lane)
def rdS (g : Group) (n : Nat) : W64 := mget 0 g.sr n
def rdSn (g : Group) (n : Nat) : Nat := (rdS g n).toNat
def wrV (g : Group) (n lane : Nat) (x : W32) : Group := { g with v := mput 0 g.v (vKey n lane) x }
def wrS (g : Group) (n : Nat) (x : W64) : Group := { g with sr := mput 0 g.sr n x }
def wrSn (g : Group) (n x : Nat) : Group := wrS g n (BitVec.ofNat 64 x)
/-- R40: p7 is true in every lane. -/
def rdP (g : Group) (n : Nat) : Lanes := if n = 7 then BitVec.allOnes 32 else mget 0 g.p n
/-- R40: a write to p7 is discarded. -/
def wrP (g : Group) (n lane : Nat) (x : Bool) : Group :=
  if n = 7 then g else
    let m : Lanes := BitVec.ofNat 32 (2 ^ lane)
    { g with p := mput 0 g.p n (if x then mget 0 g.p n ||| m else mget 0 g.p n &&& ~~~m) }
def rdK (g : Group) (n : Nat) : Bool := n == 7 || g.k.getLsbD n
def wrK (g : Group) (n : Nat) (x : Bool) : Group :=
  { g with k := if x then g.k ||| BitVec.ofNat 4 (2 ^ n) else g.k &&& ~~~(BitVec.ofNat 4 (2 ^ n)) }

/-- One register write of a result. -/
def applyW (g : Group) (w : RegW) : Group :=
  match w with | .v n l x => wrV g n l x | .s n x => wrS g n x | .k n x => wrK g n x
def applyWs (g : Group) (ws : List RegW) : Group := ws.foldl applyW g

/-- R39, R41: the uniform register of D that is written; none without D or with no-write-back. -/
def dstS (d : Dst) : Option Nat := match d with | .s nw _ n => if nw then none else some n.toNat | _ => none
/-- The number of a uniform register operand. -/
def sNum (x : Opnd) : Nat := match x with | .s n => n.toNat | _ => 0
def dNum (d : Dst) : Nat := match d with | .s _ _ n => n.toNat | .v _ _ n => n.toNat | _ => 0

/-- Lanes of a set, ascending. -/
def lanesOf (m : Lanes) : List Nat := (List.range 32).filter (fun i => m.getLsbD i)
def laneSet (l : List Nat) : Lanes := BitVec.ofNat 32 ((List.range 32).foldl (fun r i => if l.contains i then r + 2 ^ i else r) 0)

/-- R45: the lanes of E where the guard holds; all of E or none in the uniform form. -/
def guardLanes (g : Group) (h : Hdr) : Lanes :=
  if h.uni then (if (rdK g h.guard.toNat != h.neg) then g.e else 0)
  else g.e &&& (if h.neg then ~~~(rdP g h.guard.toNat) else rdP g h.guard.toNat)
/-- R79: does an instruction that acts once for the group act? -/
def actsOnce (g : Group) (h : Hdr) : Bool :=
  if h.uni then rdK g h.guard.toNat != h.neg else guardLanes g h != 0
/-- R109: the same for an instruction that elects a lane, which is never a helper. -/
def elects (g : Group) (h : Hdr) : Bool := actsOnce g h && (guardLanes g h &&& ~~~g.hmask) != 0

/-- A split-phase result: written when SPLIT_PHASE_RESULT delivers it. -/
def addPend (g : Group) (ws : List RegW) : Group := if ws.isEmpty then g else { g with pend := g.pend ++ [{ ws := ws }] }
/-- A value for D under a scoreboard, when D is present. -/
def pendS (g : Group) (d : Dst) (x : Nat) : Group :=
  match dstS d with | some n => addPend g [.s n (BitVec.ofNat 64 x)] | none => g

/-- A kind 9 or kind 1 operand as a signed value; a register is read whole. -/
def valI (g : Group) (x : Opnd) : Int :=
  match x with | .imm i => i.toInt | .s n => (rdSn g n.toNat : Int) | _ => 0
/-- The same as a natural number, an immediate modulo 2^64. -/
def valN (g : Group) (x : Opnd) : Nat := wrap 64 (valI g x)

/-! ### Scratchpad -/

def spByte (b : Block) (o : Nat) : Byte := mget 0 b.scratch o
def spRead (b : Block) (o n : Nat) : Nat := ofBytes ((List.range n).map (fun i => spByte b (o + i)))
/-- R297: a write drops every stationary bank that was filled from the byte. -/
def spPuts (b : Block) (o : Nat) (l : List Byte) : Block :=
  match l with
  | [] => b
  | x :: t => spPuts { b with scratch := mput 0 b.scratch o x, foots := b.foots.filter (fun f => !f.2.contains o) } (o + 1) t
def spWrite (b : Block) (o n x : Nat) : Block := spPuts b o (toBytes n x)
/-- R109, R300: does a range of scratchpad meet a poisoned granule? -/
def spPoison (b : Block) (o n : Nat) : Bool := b.poison.any (fun x => 32 * x.1 < o + n && o < 32 * x.1 + 32)
/-- R228: a granule that writes of (offset, length) cover whole is poisoned no more. -/
def spClear (b : Block) (l : List (Nat × Nat)) : Block :=
  if b.poison.isEmpty then b else
  { b with poison := b.poison.filter (fun x => !(rng (32 * x.1) 32).all (fun a => l.any (fun w => w.1 ≤ a && a < w.1 + w.2))) }

/-- A fresh number for a block, a kernel or an operation. -/
def takeFresh (s : State) : State × Nat := ({ s with fresh := s.fresh + 1 }, s.fresh)
/-- An engine operation enters its queue; its number. -/
def addOp (s : State) (o : EOp) : State × Nat :=
  let f := takeFresh s
  ({ f.1 with ops := mset f.1.ops f.2 o }, f.2)
/-! ### Transactions doomed (R223, R224) -/

def txOpen (g : Group) (lane : Nat) : Bool := (mfind g.tx lane).isSome
/-- Every open lane of a set is doomed. -/
def doomLanes (g : Group) (ls : List Nat) (code : Nat) : Group :=
  { g with tx := g.tx.map (fun x => if ls.contains x.1 then (x.1, doom x.2 code) else x) }
def doomAll (g : Group) (code : Nat) : Group := doomLanes g (List.range 32) code
/-- R224 ILLEGAL: an instruction that no transaction may hold, in the lanes that execute it. -/
def txIllegal (g : Group) (h : Hdr) : Group := doomLanes g (lanesOf (guardLanes g h)) 7
/-- The operation that a group's instruction starts, with the open batch. -/
def newOp (s : State) (gid : Nat) (g : Group) (p : P) (k : EK) (flags : Bool) : EOp :=
  { gid := gid, block := g.block, kernel := gKid s g, ctx := gCtx s g, pair := gPair g, core := g.core, batch := g.batch,
    addr := g.pc, order := if flags then p.order else 0, scope := if flags then p.scope else 0, reuse := p.h.reuse,
    kind := k }
/-- A group's instruction starts an engine operation; an open transaction may hold no engine command (R224). -/
def issueOp (s : State) (gid : Nat) (g : Group) (p : P) (k : EK) (flags : Bool) : State × Nat :=
  addOp (updG s gid (fun g => txIllegal g p.h)) (newOp s gid g p k flags)

/-! ### Acquire (R209) -/

/-- Does a read of a group meet, in its pair's L1 or its die's guest copy, a byte that another writer wrote and that has not
gone on? Its later releases must then carry that byte too (R187, R188). -/
def seesOthers (s : State) (g : Group) (pa n : Nat) : Bool :=
  let m := byteMask (pa % 128) n
  let k := (mfind s.l1 (l1Key (gPair g) (sectorOf pa))).getD {}
  let d := (mfind s.dc (dcKey (gDie g) (sectorOf pa))).getD {}
  let other := fun (k : Sector) => k.dirty &&& m != 0 && k.hands.any (· != gTag s g)
  other k || (isGuest s (gDie g) (sectorOf pa) && other d)
/-- R209: an acquire of a pair at a scope. -/
def acquireAt (s : State) (pair scope : Nat) : State :=
  if scope = 0 then s
  else
    let s := dropCleanL1 s pair
    if scope = 1 then s else dropCleanDc s (pairDie pair)
/-- An acquire by a group: later releases cover what it has seen. -/
def acquire (s : State) (gid : Nat) (g : Group) (scope : Nat) : State :=
  updG (acquireAt s (gPair g) scope) gid (fun g => { g with seen := true })

end Sys2Proof.Machine
end

