-- ==== Sys2Proof/Machine/Operands.lean ====
section
/-! DEFINITION. Operand forms (R39 to R43, R122 to R126): how each source is read, on which pipe an instruction issues, how
a result is written to registers and to a bypass latch, and the one mould of the arithmetic instructions. -/

namespace Sys2Proof.Machine

/-- The floating format of a type code (R47). -/
def fmtOf (t : Nat) : Fmt :=
  match t with | 8 => f32 | 9 => f16 | 10 => bf16 | 11 => e4m3 | 12 => e5m2 | _ => e3m4

/-- The width of a source or result of a type: a pair for 64 bits (R123, R126). -/
def patW (t : Nat) : Nat := if is64 t then 64 else 32
/-- One element value in every element of a pattern. -/
def replicate (w n x : Nat) : Nat := (List.range n).foldl (fun r i => r + x % 2 ^ w * 2 ^ (w * i)) 0
/-- R123: an immediate as an element of a type. -/
def immElem (t : Nat) (i : BitVec 12) : Nat :=
  if isInt t then wrap (tyW t) i.toInt else roundF (fmtOf t) 0 false (ofInt i.toInt)
/-- R123: an immediate in every element. -/
def immPat (t : Nat) (i : BitVec 12) : Nat := replicate (tyW t) (patW t / tyW t) (immElem t i)

/-- The constants of a group's kernel. -/
def gConsts (s : State) (g : Group) : AMap W32 := match gKernel s g with | some k => k.consts | none => []
/-- R40: a word of the constant table, 0 beyond its length. -/
def ctWord (cs : AMap W32) (n : Nat) : Nat := (mget 0 cs n).toNat
/-- The key of a lane of a bypass latch. -/
def latchKey (core pipe l lane : Nat) : Nat := ((10 * core + pipe) * 4 + l) * 32 + lane

/-- R123: the pattern that a source of a type gives a lane, 32 or 64 bits. The uniform form reads lane 0 of nothing: its
operands are uniform registers, immediates and constants. -/
def srcPat (s : State) (g : Group) (cs : AMap W32) (pipe t : Nat) (x : Opnd) (lane : Nat) : Nat :=
  match x with
  | .v n => (rdV g n.toNat lane).toNat + (if is64 t then 2 ^ 32 * (rdV g (n.toNat + 1) lane).toNat else 0)
  | .s n => rdSn g n.toNat % 2 ^ patW t
  | .latch l => (mget 0 s.latches (latchKey g.core pipe l.toNat lane)).toNat
  | .imm i => immPat t i
  | .ct n => ctWord cs n.toNat + (if is64 t then 2 ^ 32 * ctWord cs (n.toNat + 1) else 0)
  | _ => 0

/-- D read as the third source of an FMA-like instruction (R38, R41). -/
def dstSrc (d : Dst) : Opnd := match d with | .v _ _ n => .v n | .s _ _ n => .s n | .other x => x

/-! ### Pipes and latches (R41 to R43, R115) -/

/-- Pipes 0 to 5 are the ALU pipes, 6 to 9 the SFU pipes (R69). -/
def pipesOf (sfu : Bool) : List Nat := if sfu then [6, 7, 8, 9] else [0, 1, 2, 3, 4, 5]
/-- Rule 1 of R116: a group that has been Ready or Stalled for 4 × (N − 1) cycles or more since its last issue, and eligible in
one of them, is overdue and ends keep reservations. -/
def overdue (s : State) (g : Group) : Bool :=
  let n := (s.groups.filter (fun x => x.2.resident && x.2.core == g.core)).length
  g.elig && 4 * (n - 1) ≤ g.waited
/-- R43: is the pipe kept for another group? -/
def keptBy (s : State) (gid : Nat) (g : Group) (pipe : Nat) : Bool :=
  match mfind (getCore s g.core).keep pipe with
  | some k => k.1 != gid && decide (s.cycle < k.2) && !overdue s g
  | none => false

/-- Which pipe an instruction takes, or why it cannot issue. -/
inductive PipeR where
  | pipe (n : Nat)
  | wait (reason : Nat)
  | stale (latch pipe : Nat)
  deriving DecidableEq, Repr

/-- R42: the pipe of a latch that a group reads: none when the latch is stale for an instruction of the class. For a latch that
the group has not written since it became resident the spec names no pipe for the record: DESIGN CHOICE, pipe 0 (assumption
log 87). -/
def latchAt (g : Group) (sfu : Bool) (l : Nat) : Except Nat Nat :=
  match mfind g.latchPipe l with
  | none => .error 0
  | some (n, stale) => if stale || (pipesOf sfu).contains n == false then .error n else .ok n

/-- The latch operands among the sources. -/
def latchesOf (xs : List Opnd) : List Nat := xs.filterMap (fun x => match x with | .latch l => some l.toNat | _ => none)

/-- R42, R115: readers of a latch take the pipe that holds it; any other instruction takes the lowest free pipe of its
class. Two latches held in different pipes cannot both be read on one pipe: the second is stale (assumption log 12). -/
def pickPipe (s : State) (gid : Nat) (busy : BitVec 10) (g : Group) (sfu : Bool) (xs : List Opnd) : PipeR :=
  match latchesOf xs with
  | [] =>
    let free := (pipesOf sfu).filter (fun n => !busy.getLsbD n)
    match free.find? (fun n => !keptBy s gid g n) with
    | some n => .pipe n
    | none => if free.isEmpty then .wait 6 else .wait 8
  | l :: t =>
    match latchAt g sfu l with
    | .error n => .stale l n
    | .ok n =>
      match t.find? (fun l' => match latchAt g sfu l' with | .ok n' => n' != n | .error _ => true) with
      | some l' => .stale l' n
      | none => if busy.getLsbD n then .wait 7 else if keptBy s gid g n then .wait 8 else .pipe n

/-- R43, R116: a new instruction of the class ends the group's own reservation, and whatever reservation its pipe had has ended or
is ended by an overdue group; a keep hint makes one. -/
def keepNext (old : AMap (Nat × Nat)) (gid pipe cycle : Nat) (sfu keep : Bool) (occ : Nat) : AMap (Nat × Nat) :=
  let own := old.filter (fun x => x.1 != pipe && !(x.2.1 == gid && (pipesOf sfu).contains x.1))
  if keep then mset own pipe (gid, cycle + occ + 8) else own
def keepSet (s : State) (gid core pipe : Nat) (sfu keep : Bool) (occ : Nat) : State :=
  let old := (getCore s core).keep
  if keepNext old gid pipe s.cycle sfu keep occ = old then s
  else updCore s core (fun c => { c with keep := keepNext c.keep gid pipe s.cycle sfu keep occ })
/-- R42: what an issue of one group on a pipe does to the latch marks of the group of a number. -/
def staleMark (gid core pipe k : Nat) (x : Group) : Group :=
  if k != gid && x.resident && x.core == core then
    { x with latchPipe := x.latchPipe.map (fun y => (y.1, (y.2.1, y.2.2 || y.2.1 == pipe))) }
  else x
def staleOthers (s : State) (gid core pipe : Nat) : State :=
  { s with groups := s.groups.map (fun x => (x.1, staleMark gid core pipe x.1 x.2)) }
/-- What issuing on a pipe leaves: the keep reservations (R43), and the other groups' latches in that pipe stale (R42). -/
def issueOn (s : State) (gid : Nat) (g : Group) (pipe : Nat) (sfu keep : Bool) (occ : Nat) : State :=
  staleOthers (keepSet s gid g.core pipe sfu keep occ) gid g.core pipe

/-- The lanes' results written into a latch; a lane that does not execute leaves its part as it was (R45). -/
def latchWrite (s : State) (gid : Nat) (g : Group) (pipe l : Nat) (rs : List (Nat × Nat)) : State :=
  let s := { s with latches := rs.foldl (fun m r => mput 0 m (latchKey g.core pipe l r.1) (BitVec.ofNat 32 r.2)) s.latches }
  updG s gid (fun g => { g with latchPipe := mset g.latchPipe l (pipe, false) })

/-! ### Writing results (R41, R125, R126) -/

/-- R41: lane results of a type into D. -/
def wrLanes (g : Group) (d : Dst) (wide : Bool) (rs : List (Nat × Nat)) : Group :=
  match d with
  | .v false _ n => rs.foldl (fun g r =>
      let g := wrV g n.toNat r.1 (BitVec.ofNat 32 r.2)
      if wide then wrV g (n.toNat + 1) r.1 (BitVec.ofNat 32 (r.2 / 2 ^ 32)) else g) g
  | _ => g

/-- R125: the 64 bits that a uniform result of a type leaves. -/
def uniBits (t x : Nat) : Nat :=
  if is64 t then x % 2 ^ 64
  else if t = 2 then wrap 64 (toSigned 32 x)
  else x % 2 ^ 32
/-- R41, R125: a uniform result into D. -/
def wrUni (g : Group) (d : Dst) (t x : Nat) : Group :=
  match dstS d with
  | some n => wrSn g n (uniBits t x)
  | none => g

/-- A predicate by its index in kind 3: p0 to p7, then k0 to k3 (R39). -/
def wrPred (g : Group) (n lane : Nat) (x : Bool) : Group := if n < 8 then wrP g n lane x else wrK g (n - 8) x
/-- A predicate of kind 3 as a lane reads it; k0 to k3 read alike in every lane. -/
def rdPred (g : Group) (n lane : Nat) : Bool := if n < 8 then (rdP g n).getLsbD lane else rdK g (n - 8)
/-- The number of a predicate operand. -/
def predNo (x : Opnd) : Nat := match x with | .pred n => n.toNat | _ => 7
/-- The predicate that D names; p7, which discards, for any other kind. -/
def dstPred (d : Dst) : Nat := match d with | .other x => predNo x | _ => 7

/-- The result of one lane, or of a uniform form: the value for D, and predicate writes. -/
structure Res where
  val : Nat := 0
  preds : List (Nat × Bool) := []
  deriving DecidableEq, Repr

/-- How an arithmetic instruction reads its sources: the type of an operand, the operand; gives the pattern. -/
abbrev Src := Nat → Opnd → Nat

def wrPreds (g : Group) (lane : Nat) (l : List (Nat × Bool)) : Group := l.foldl (fun g x => wrPred g x.1 lane x.2) g

/-- THE MOULD of R131, for every instruction of the ALU and SFU pipes: `xs` are the sources that may be latches, `tr` the
result type, `hasV` whether D takes a value, `wide` a 64-bit result, `long` the pipe occupancy of 8 (R127); `f` gives one lane's result from its sources. A lane that does not execute
writes nothing; none of these instructions closes a region (R128). -/
def aluRun (p : P) (s : State) (sfu hasV : Bool) (xs : List Opnd) (tr : Nat) (wide long : Bool)
    (f : Group → Nat → Src → Res) : Out :=
  withG s (fun gid busy g =>
    let cs := gConsts s g
    if p.h.uni then
      if actsOnce g p.h then
        let r := f g 0 (fun t x => srcPat s g cs 0 t x 0)
        fin (updG s gid (fun g => wrPreds (if hasV then wrUni g p.d tr r.val else g) 0 r.preds)) gid p false
      else fin s gid p false
    else
      match pickPipe s gid busy g sfu xs with
      | .wait r => stall s gid r
      | .stale l n => raise s gid 0x03 allLanes (l + 2 ^ 4 * n)
      | .pipe n =>
        let rs := (lanesOf (guardLanes g p.h)).map (fun i => (i, f g i (fun t x => srcPat s g cs n t x i)))
        let vs := rs.map (fun r => (r.1, r.2.val))
        let s := issueOn s gid g n sfu p.h.keep (if long then 8 else 4)
        let s := updG s gid (fun g =>
          rs.foldl (fun g r => wrPreds g r.1 r.2.preds) (if hasV then wrLanes g p.d wide vs else g))
        let s := if hasV && !wide then latchWrite s gid g n p.d.latchBits vs else s
        fin s gid p false)

/-- The mould with sources A and B of given types and a value result: `f` has the patterns of a, b and d. -/
def aluOp (p : P) (s : State) (sfu : Bool) (ta tb td tr : Nat) (f : Nat → Nat → Nat → Nat) : Out :=
  aluRun p s sfu true [p.a, p.b.opnd] tr (is64 tr) (is64 ta || is64 tr)
    (fun _ _ src => { val := f (src ta p.a) (src tb p.b.opnd) (src td (dstSrc p.d)) })

/-! ### Elements (R21, R123) -/

/-- Element e of width w. -/
def elem (w e x : Nat) : Nat := x >>> (w * e) % 2 ^ w
/-- A pattern built from its elements. -/
def mapElems (w n : Nat) (f : Nat → Nat) : Nat := (List.range n).foldl (fun r e => r + f e % 2 ^ w * 2 ^ (w * e)) 0
/-- The number of elements of a type in its pattern. -/
def elemN (t : Nat) : Nat := patW t / tyW t

/-- R131: one integer element: the exact result clamped or reduced. -/
def intRes (t : Nat) (sat : Bool) (x : Int) : Nat := wrap (tyW t) (if sat then satI (tySigned t) (tyW t) x else x)
/-- R131: the integer mould on patterns. -/
def intMould (t : Nat) (sat : Bool) (f : Int → Int → Int → Int) (a b d : Nat) : Nat :=
  let w := tyW t
  let sg := tySigned t
  mapElems w (elemN t) (fun e => intRes t sat (f (rdInt sg w (elem w e a)) (rdInt sg w (elem w e b)) (rdInt sg w (elem w e d))))
/-- An integer instruction of R129 or R130 given by an exact result. -/
def intOp (p : P) (s : State) (f : Int → Int → Int → Int) : Out := aluOp p s false p.t p.t p.t p.t (intMould p.t p.sat f)
/-- The same with the 32-bit immediate as b: sign-extended to the width, and read as the type reads it (R123, R130). -/
def immOp (p : P) (s : State) (f : Int → Int → Int) : Out :=
  aluRun p s false true [p.a] p.t (is64 p.t) (is64 p.t)
    (fun _ _ src => { val := intMould p.t p.sat (fun a _ _ => f a (rdInt (tySigned p.t) (tyW p.t) (wrap (tyW p.t) p.imm32.toInt))) (src p.t p.a) 0 0 })
/-- An instruction on whole patterns as natural numbers, the result reduced to the type's width. -/
def bitOp (p : P) (s : State) (f : Nat → Nat → Nat → Nat → Nat) : Out :=
  aluOp p s false p.t p.t p.t p.t (fun a b d => f (tyW p.t) a b d % 2 ^ tyW p.t)

/-- R136: one floating element: the exact value rounded under the mode, with .sat on the rounded result. -/
def fltRes (t mode : Nat) (sat : Bool) (x : FV) : Nat :=
  let r := roundF (fmtOf t) mode false x
  if sat then satUnit (fmtOf t) r else r
/-- A floating instruction given by an exact value. -/
def fltOp (p : P) (s : State) (f : FV → FV → FV → FV) : Out :=
  aluOp p s false p.t p.t p.t p.t (fun a b d =>
    let w := tyW p.t
    let v := fun e x => decodeF (fmtOf p.t) (elem w e x)
    mapElems w (elemN p.t) (fun e => fltRes p.t p.rnd p.sat (f (v e a) (v e b) (v e d))))
/-- A floating instruction given on patterns of an element. -/
def fltPat (p : P) (s : State) (sfu : Bool) (f : Fmt → Nat → Nat → Nat) : Out :=
  aluOp p s sfu p.t p.t p.t p.t (fun a b _ =>
    let w := tyW p.t
    mapElems w (elemN p.t) (fun e => f (fmtOf p.t) (elem w e a) (elem w e b)))

/-! ### Special registers (R82, R111) -/

/-- The launch record of a group's kernel (R94). -/
def gRecord (s : State) (g : Group) : Nat := match gKernel s g with | some k => k.record | none => 0
/-- R94: the register chunks of each group of a launch record, and whether it has tiles. -/
def krChunks (r : Nat) : Nat := fld r 148 144
def krTiles (r : Nat) : Bool := bitAt r 169
/-- R403: the estimate of a counter. -/
def ctrVal (s : State) (part i : Nat) : Nat :=
  let c := mget {} (getPart s part).ctrs i
  if c.counted = 0 then 0 else c.raw * c.elapsed / c.counted % 2 ^ 64
/-- R111: the value of a special register in a lane; %chunk is read by `execRdsrChunk` alone. -/
def srVal (s : State) (g : Group) (n lane : Nat) : Nat :=
  let key := gCtx s g
  let b := gBlock s g
  match n with
  | 0x00 => lane
  | 0x01 => lane / 4
  | 0x02 => g.num
  | 0x03 => (b.map (·.num)).getD 0
  | 0x04 => pairDie (gPair g)
  | 0x05 => max g.lastTime s.time
  | 0x06 => (getCtx s key).preq.toNat
  | 0x07 => (g.hmask.getLsbD lane).toNat
  | 0x08 => g.hmask.toNat
  | 0x0A => g.core
  | 0x0B => g.slot
  | 0x0C => key
  | 0x0D => ctxClass s key
  | 0x0E => ((b.bind (·.token)).getD 0xFF)
  | 0x0F => g.region.entry
  | 0x10 => s.cycle
  | 0x11 => g.active.toNat
  | 0x12 => fld (gRecord s g) 223 192
  | 0x13 => fld (gRecord s g) 255 224
  | 0x14 => fld (gRecord s g) 287 256
  | 0x15 => fld (gRecord s g) 319 288
  | 0x16 => (getCtx s key).deadline
  | 0x17 => (getPart s (key / 64)).frzProd
  | 0x18 => (getPart s (key / 64)).frzCons
  | _ => if 0x40 ≤ n && n < 0x80 && (fld (ctxDesc s key) 447 384).testBit (n - 0x40) then ctrVal s (key / 64) (n - 0x40) else 0
/-- R111: the registers that differ from lane to lane. -/
def srPerLane (n : Nat) : Bool := n == 0 || n == 1 || n == 7
/-- R111: the registers that need the partition-manager right. -/
def srPriv (n : Nat) : Bool := n == 0x17 || n == 0x18
/-- R82: the lane that stands for the group: the lowest of the lanes given. -/
def lowLane (m : Lanes) : Nat := (lanesOf m).headD 0

/-- R82, R111: what reading a special register does: %time never goes back for a group, %frzprod is an acquire at .sys. -/
def srTouch (s : State) (gid : Nat) (g : Group) (n : Nat) : State :=
  if n = 0x05 then updG s gid (fun g => { g with lastTime := max g.lastTime s.time })
  else if n = 0x17 then acquire s gid g 3
  else s

end Sys2Proof.Machine
end

