-- ==== Sys2Proof/Machine/Flags.lean ====
section
/-! DEFINITION. Predicate results: compare functions (R132, R137), carry and borrow (R134), predicate logic, votes and
lane masks (R152, R153). -/

namespace Sys2Proof.Machine

/-- R132: the comparison of one integer element. -/
def cmpElem (t fn a b : Nat) : Bool :=
  if isInt t then cmpInt fn (rdInt (tySigned t) (tyW t) a) (rdInt (tySigned t) (tyW t) b)
  else cmpF (fmtOf t) fn a b
/-- set and fset: all ones or 0 in every element. -/
def setPat (t fn a b : Nat) : Nat :=
  let w := tyW t
  mapElems w (elemN t) (fun e => if cmpElem t fn (elem w e a) (elem w e b) then 2 ^ w - 1 else 0)
/-- setp and fsetp: element 0. -/
def setpBit (t fn a b : Nat) : Bool := cmpElem t fn (elem (tyW t) 0 a) (elem (tyW t) 0 b)

/-- R132: the predicate of sel as a lane reads it: bits 74:72 select, bit 75 negates. -/
def selPred (g : Group) (p : P) (lane : Nat) : Bool :=
  let n := p.f % 8
  (if p.h.uni then rdK g n else rdPred g n lane) != (p.f / 8 == 1)

/-- R134: the input and output predicates of addc and subb. -/
def carryIn (p : P) : Nat := p.ext.toNat % 16
def carryOut (p : P) : Nat := p.ext.toNat / 16 % 16
/-- R134: sum and carry, difference and borrow, of width w. -/
def addCarry (w a b c : Nat) : Nat × Bool := ((a + b + c) % 2 ^ w, decide (2 ^ w ≤ a + b + c))
def subBorrow (w a b c : Nat) : Nat × Bool := ((a + 2 * 2 ^ w - b - c) % 2 ^ w, decide (a < b + c))
/-- addc and subb in the mould. -/
def carryOp (p : P) (s : State) (f : Nat → Nat → Nat → Nat → Nat × Bool) : Out :=
  aluRun p s false true [p.a, p.b.opnd] p.t (is64 p.t) (is64 p.t) (fun g lane src =>
    let r := f (tyW p.t) (src p.t p.a) (src p.t p.b.opnd) (rdPred g (carryIn p) lane).toNat
    { val := r.1, preds := [(carryOut p, r.2)] })

/-- R152: the function of two predicates. -/
def plopFn (f : Nat) (a b : Bool) : Bool :=
  match f with
  | 0 => a && b | 1 => a || b | 2 => a != b | 3 => a && !b | 4 => a || !b | 5 => !(a && b) | 6 => !(a || b) | _ => a == b
/-- R153: the vote over the participating lanes. -/
def censusFn (f : Nat) (part : Lanes) (a : Lanes) : Bool :=
  let n := (lanesOf (part &&& a)).length
  match f with
  | 0 => part &&& a == part | 1 => n != 0 | 2 => n == 0 || part &&& a == part | _ => n % 2 == 1
/-- A predicate operand over all lanes. -/
def predLanes (g : Group) (n : Nat) : Lanes := if n < 8 then rdP g n else if rdK g (n - 8) then BitVec.allOnes 32 else 0

end Sys2Proof.Machine
end

