-- ==== Sys2Proof/Machine/Alu.lean ====
section
/-! DEFINITION. Integer and address instructions, opcodes 0x00 to 0x2D (R129 to R135). -/

namespace Sys2Proof.Machine

def execAdd (p : P) (s : State) : Out := intOp p s (fun a b _ => a + b)
def execSub (p : P) (s : State) : Out := intOp p s (fun a b _ => a - b)
def execMul (p : P) (s : State) : Out := intOp p s (fun a b _ => a * b)
/-- floor(a × b ÷ 2^w). -/
def execMulhi (p : P) (s : State) : Out := intOp p s (fun a b _ => a * b / ((2 ^ tyW p.t : Nat) : Int))
def execMad (p : P) (s : State) : Out := intOp p s (fun a b d => a * b + d)
def execMadhi (p : P) (s : State) : Out := intOp p s (fun a b d => a * b / ((2 ^ tyW p.t : Nat) : Int) + d)

/-- div and rem issue on an SFU pipe (R127); R32 fixes the corners. -/
def divOp (p : P) (s : State) (f : Int × Int → Int) : Out :=
  aluOp p s true p.t p.t p.t p.t (intMould p.t false (fun a b _ => f (divRem (tySigned p.t) (tyW p.t) a b)))
def execDiv (p : P) (s : State) : Out := divOp p s (·.1)
def execRem (p : P) (s : State) : Out := divOp p s (·.2)

def execMin (p : P) (s : State) : Out := intOp p s (fun a b _ => min a b)
def execMax (p : P) (s : State) : Out := intOp p s (fun a b _ => max a b)

/-- An instruction of one source. -/
def unOp (p : P) (s : State) (tr : Nat) (f : Nat → Nat) : Out :=
  aluRun p s false true [p.a] tr (is64 tr) (is64 p.t || is64 tr) (fun _ _ src => { val := f (src p.t p.a) })
def execAbs (p : P) (s : State) : Out := unOp p s p.t (fun a => intMould p.t p.sat (fun a _ _ => a.natAbs) a 0 0)
def execNeg (p : P) (s : State) : Out := unOp p s p.t (fun a => intMould p.t p.sat (fun a _ _ => -a) a 0 0)

def execAnd (p : P) (s : State) : Out := bitOp p s (fun _ a b _ => a &&& b)
def execOr (p : P) (s : State) : Out := bitOp p s (fun _ a b _ => a ||| b)
def execXor (p : P) (s : State) : Out := bitOp p s (fun _ a b _ => a ^^^ b)
def execNot (p : P) (s : State) : Out := unOp p s p.t (fun a => 2 ^ tyW p.t - 1 - a % 2 ^ tyW p.t)
def execShl (p : P) (s : State) : Out := bitOp p s (fun w a b _ => a * 2 ^ (b % w))
def execShr (p : P) (s : State) : Out := bitOp p s (fun w a b _ => a / 2 ^ (b % w))
def execSha (p : P) (s : State) : Out := bitOp p s (fun w a b _ => wrap w (toSigned w a / ((2 ^ (b % w) : Nat) : Int)))
def execRot (p : P) (s : State) : Out := bitOp p s (fun w a b _ => a * 2 ^ (b % w) + a / 2 ^ (w - b % w))

/-- R133: position and length of a field as b gives them. -/
def bfPos (b : Nat) : Nat := b % 256
def bfLen (w b : Nat) : Nat := min (b / 256 % 256) w
/-- R133: bits pos + len − 1 : pos of a, extended by the type. -/
def bfxVal (sg : Bool) (w a b : Nat) : Nat :=
  let len := bfLen w b
  if len = 0 then 0
  else if sg then wrap w (toSigned len (wrap len (toSigned w a / ((2 ^ bfPos b : Nat) : Int))))
  else a % 2 ^ w / 2 ^ bfPos b % 2 ^ len
/-- R133: d with a field replaced by the low bits of a. -/
def bfiVal (w a b d : Nat) : Nat :=
  let pos := bfPos b
  let len := bfLen w b
  let m := (2 ^ len - 1) * 2 ^ pos % 2 ^ w
  (d &&& (2 ^ w - 1 - m)) ||| (a % 2 ^ len * 2 ^ pos &&& m)
/-- R133: pos and len are read from the low 16 bits of b as an unsigned pattern. -/
def execBfx (p : P) (s : State) : Out := bitOp p s (fun w a b _ => bfxVal (tySigned p.t) w a b)
def execBfi (p : P) (s : State) : Out := bitOp p s (fun w a b d => bfiVal w a b d)

/-- A count, whose D is one register whatever the width (R129). -/
def execPopc (p : P) (s : State) : Out := unOp p s 6 (fun a => popW (tyW p.t) a)
def execClz (p : P) (s : State) : Out := unOp p s 6 (fun a => clzW (tyW p.t) a)
def execCtz (p : P) (s : State) : Out := unOp p s 6 (fun a => ctzW (tyW p.t) a)
def execBrev (p : P) (s : State) : Out := unOp p s p.t (fun a => revW (tyW p.t) a)

/-- R133: one byte of perm, from its selector nibble. -/
def permByte (a b nib : Nat) : Nat :=
  let x := elem 8 (nib % 8 % 4) (if nib % 8 < 4 then a else b)
  if nib / 8 = 1 then (if 128 ≤ x then 255 else 0) else x
/-- R133: perm, its four selectors in the extension. -/
def permVal (sel a b : Nat) : Nat := mapElems 8 4 (fun j => permByte a b (elem 4 j sel))
def execPerm (p : P) (s : State) : Out := bitOp p s (fun _ a b _ => permVal p.ext.toNat a b)

/-- R132: a where the predicate holds, b elsewhere. -/
def execSel (p : P) (s : State) : Out :=
  aluRun p s false true [p.a, p.b.opnd] p.t (is64 p.t) (is64 p.t)
    (fun g lane src => { val := if selPred g p lane then src p.t p.a else src p.t p.b.opnd })
def execSet (p : P) (s : State) : Out := aluOp p s false p.t p.t p.t p.t (fun a b _ => setPat p.t p.f a b)
/-- R132, R137: one predicate per lane, or once in the uniform form. -/
def setpOp (p : P) (s : State) : Out :=
  aluRun p s false false [p.a, p.b.opnd] p.t (is64 p.t) (is64 p.t)
    (fun _ _ src => { val := 0, preds := [(dstPred p.d, setpBit p.t p.f (src p.t p.a) (src p.t p.b.opnd))] })
def execSetp (p : P) (s : State) : Out := setpOp p s

/-- R135: a source, or a special register read as rdsr reads it; the privileged ones freeze a group without the right. -/
def execMov (p : P) (s : State) : Out :=
  match p.a with
  | .sr n => withG s (fun gid _ g =>
      if srPriv n.toNat && actsOnce g p.h && !holdsRight s (gCtx s g) 1 then freeze s gid 3 0 0
      else aluRun p (if actsOnce g p.h then srTouch s gid g n.toNat else s) false true [] (if p.h.uni then 7 else p.t) (is64 p.t) (is64 p.t)
        (fun g lane _ => { val := srVal s g n.toNat (if p.h.uni then lowLane g.e else lane) }))
  | _ => unOp p s p.t (fun a => a)
/-- R135: the 32-bit immediate; sign-extended in the uniform form. -/
def execMovi (p : P) (s : State) : Out :=
  aluRun p s false true [] (if p.h.uni then 2 else 6) false false (fun _ _ _ => { val := p.imm32.toNat })

def execAddi (p : P) (s : State) : Out := immOp p s (fun a b => a + b)
/-- Bitwise with the sign-extended immediate (R130). -/
def immBit (p : P) (s : State) (f : Nat → Nat → Nat) : Out :=
  unOp p s p.t (fun a => f a (wrap (tyW p.t) p.imm32.toInt))
def execAndi (p : P) (s : State) : Out := immBit p s (· &&& ·)
def execOri (p : P) (s : State) : Out := immBit p s (· ||| ·)
def execXori (p : P) (s : State) : Out := immBit p s (· ^^^ ·)

def execShladd (p : P) (s : State) : Out :=
  intOp p s (fun a b _ => a * ((2 ^ (p.ext.toNat % 64 % tyW p.t) : Nat) : Int) + b)
/-- R130: a 64-bit base, a signed 32-bit index. -/
def execLea (p : P) (s : State) : Out :=
  aluOp p s false 7 2 7 7 (fun a b _ => wrap 64 ((a : Int) + toSigned 32 b * ((2 ^ (p.ext.toNat % 8) : Nat) : Int)))
def execAddc (p : P) (s : State) : Out := carryOp p s addCarry
def execSubb (p : P) (s : State) : Out := carryOp p s subBorrow

/-- R130: D is one 32-bit value; the differences of all elements are added to it. -/
def sadVal (t a b d : Nat) : Nat :=
  let w := tyW t
  let sg := tySigned t
  ((List.range (elemN t)).foldl (fun r e => r + (rdInt sg w (elem w e a) - rdInt sg w (elem w e b)).natAbs) d) % 2 ^ 32
def execSad (p : P) (s : State) : Out :=
  aluOp p s false p.t p.t 6 (if p.t = 2 then 2 else 6) (sadVal p.t)
def execClamp (p : P) (s : State) : Out := intOp p s (fun a b d => min (max d a) b)
/-- R130: the exact product in 64 bits. -/
def execMulw (p : P) (s : State) : Out :=
  aluOp p s false p.t p.t p.t (if p.t = 2 then 3 else 7)
    (fun a b _ => wrap 64 (rdInt (tySigned p.t) 32 a * rdInt (tySigned p.t) 32 b))
/-- R130: extension of element 0 to 32 (function 0) or 64 bits (function 1). -/
def execExt (p : P) (s : State) : Out :=
  let tr := if p.f = 1 then (if tySigned p.t then 3 else 7) else (if tySigned p.t then 2 else 6)
  unOp p s tr (fun a => wrap (tyW tr) (rdInt (tySigned p.t) (tyW p.t) a))

/-- R130: bit i is truth[a_i + 2 b_i + 4 d_i]. -/
def ternVal (w truth a b d : Nat) : Nat :=
  (List.range w).foldl (fun r i =>
    if truth.testBit ((a.testBit i).toNat + 2 * (b.testBit i).toNat + 4 * (d.testBit i).toNat) then r + 2 ^ i else r) 0
def execTern (p : P) (s : State) : Out := bitOp p s (fun w a b d => ternVal w (p.ext.toNat % 256) a b d)
/-- R133: funnel shift of a:b. -/
def execShf (p : P) (s : State) : Out :=
  bitOp p s (fun _ a b _ =>
    if p.f = 0 then (a * 2 ^ 32 + b) * 2 ^ (p.ext.toNat % 32) % 2 ^ 64 / 2 ^ 32
    else (a * 2 ^ 32 + b) / 2 ^ (p.ext.toNat % 32) % 2 ^ 32)

end Sys2Proof.Machine
end

