-- ==== Sys2Proof/Machine/Wait.lean ====
section
/-! DEFINITION. What groups wait for and what ends a wait: block barriers (R194, R195), byte-counting records (R196, R197)
and batches (R199, R206). -/

namespace Sys2Proof.Machine

/-- A wait ends: the group goes on at the next instruction, its region closed or not; the return is an acquire at .blk. -/
def returned (g : Group) (close : Bool) : Group :=
  let h := { goTo g (nextPc g.pc) with seen := true }
  if close then closeAt h (nextPc g.pc) else h
def returnWait (s : State) (gid : Nat) (close : Bool) : State := updG s gid (fun g => returned g close)
/-- Every group of a block that a condition selects goes on. -/
def wakeAll (s : State) (b : Nat) (sel : Group → Bool) (close : Bool) : State :=
  { s with groups := s.groups.map (fun x => (x.1, if x.2.block == b && sel x.2 then returned x.2 close else x.2)) }

/-- The groups of a block with their numbers. -/
def groupsOf (s : State) (b : Nat) : List (Nat × Group) := s.groups.filter (fun x => x.2.block == b)
/-- R194: a group that has left no longer counts. -/
def hasLeft (g : Group) : Bool := g.st == .exiting || g.st == .exited
def liveGroups (s : State) (b : Nat) : Nat := ((groupsOf s b).filter (fun x => !hasLeft x.2)).length

/-! ### Block barriers -/

/-- R194: does a barrier's phase complete? -/
def barMet (live : Nat) (r : Bar) : Bool := r.n != 0 && (if r.want = 0 then live ≤ r.n else r.want ≤ r.n)
/-- R194: the completion check of one barrier; waiters whose arrival was applied return. -/
def barCheck (s : State) (b id : Nat) : State :=
  match mfind s.blocks b with
  | none => s
  | some k =>
    if barMet (liveGroups s b) (mget {} k.bars id) then
      wakeAll (updB s b (fun k => { k with bars := mdel k.bars id })) b
        (fun g => g.st == .waiting (.bar id) && !g.arrivals.any (fun a => a.id == id && a.sync)) true
    else s
/-- R194: an arrival applied. -/
def barArrive (s : State) (b id c : Nat) : State :=
  barCheck (updB s b (fun k => { k with
    bars := mset k.bars id (let r := mget {} k.bars id; if r.n = 0 then { want := c, n := 1 } else { r with n := r.n + 1 }) })) b id
/-- R194: a group of the block has exited: live-count barriers are checked. -/
def barExit (s : State) (b : Nat) : State :=
  (List.range 16).foldl (fun s id =>
    match mfind s.blocks b with
    | some k => if (mget {} k.bars id).want = 0 then barCheck s b id else s
    | none => s) s

/-! ### Byte-counting records -/

/-- R196: a record's fields. -/
structure BcRec where
  expected : Nat
  arrived : Nat
  phase : Nat
  deriving DecidableEq, Repr
def bcRead (b : Block) (o : Nat) : BcRec := { expected := spRead b o 4, arrived := spRead b (o + 4) 4, phase := spRead b (o + 8) 2 }
def bcWrite (b : Block) (o : Nat) (r : BcRec) : Block :=
  spWrite (spWrite (spWrite b o 4 r.expected) (o + 4) 4 r.arrived) (o + 8) 2 r.phase
/-- R197: the completion loop: Arrived ÷ Expected phases complete. -/
def bcLoop (r : BcRec) : BcRec :=
  if r.expected = 0 then r
  else { r with arrived := r.arrived % r.expected, phase := (r.phase + r.arrived / r.expected) % 65536 }
def cap32 (x : Nat) : Nat := min x (2 ^ 32 - 1)
/-- R202, R203: function 0 .init, 1 .exp, 2 an add. -/
def bcEvent (f n : Nat) (r : BcRec) : BcRec :=
  match f with
  | 0 => { expected := n, arrived := 0, phase := 0 }
  | 1 => { r with expected := cap32 (r.expected + n) }
  | _ => { r with arrived := cap32 (r.arrived + n) }
/-- R197: an event with its completion loop. -/
def bcApply (f n : Nat) (r : BcRec) : BcRec := bcLoop (bcEvent f n r)
/-- R197: does the loop after an event complete a phase? -/
def bcDone (r : BcRec) : Bool := r.expected != 0 && r.expected ≤ r.arrived
/-- R204: the groups of a block whose record's phase now differs return, whichever access changed it (R196). -/
def bcWake (s : State) (blk : Nat) : State :=
  match mfind s.blocks blk with
  | none => s
  | some b => wakeAll s blk (fun g => match g.st with | .waiting (.bc o ph) => (bcRead b o).phase != ph | _ => false) false
/-- R197: a record changed. Where a phase completes, the waiters of the record return as their phase ends, whichever number the last
phase has. -/
def bcUpdate (s : State) (blk f o n : Nat) : State :=
  match mfind s.blocks blk with
  | none => s
  | some b =>
    let r := bcEvent f n (bcRead b o)
    let s := updB s blk (fun _ => bcWrite b o (bcLoop r))
    let s := if bcDone r then
        wakeAll s blk (fun g => match g.st with | .waiting (.bc x ph) => x == o && ph == r.phase | _ => false) false
      else s
    bcWake s blk
/-- R170, R191: a core's log still holds writes of a group that precede a number of the count in group order. -/
def loggedBefore (s : State) (gid core n : Nat) : Bool := (getCore s core).log.any (fun e => e.gid == gid && e.id < n)
/-- R203: the group's oldest byte-counting operation cannot be applied: it adds, and a write before it is not visible yet. -/
def bcHeld (s : State) (gid : Nat) (g : Group) : Bool :=
  match g.bcs with
  | o :: _ => o.f == 2 && loggedBefore s gid g.core o.stamp
  | [] => false
/-- The oldest byte-counting operation of a group is applied, unless it is held. -/
def popBc (s : State) (gid : Nat) : State :=
  match mfind s.groups gid with
  | some g => match g.bcs with
    | o :: t => if bcHeld s gid g then s else bcUpdate (updG s gid (fun g => { g with bcs := t })) g.block o.f o.off o.n
    | [] => s
  | none => s
/-- The byte-counting operations that the group has issued are applied before its next scratchpad access. -/
def flushBcs (s : State) (gid : Nat) (g : Group) : State := (List.range g.bcs.length).foldl (fun s _ => popBc s gid) s
/-- Does a group still have a byte-counting operation to be applied? -/
def bcsLeft (s : State) (gid : Nat) : Bool := match mfind s.groups gid with | some g => !g.bcs.isEmpty | none => false

/-! ### Batches -/

/-- R199: the distance of a batch. -/
def batDist (c b : Nat) : Nat := (c + 65536 - b % 65536) % 65536
/-- R206: has every operation of the group at least as far as the target retired? -/
def batMet (s : State) (gid : Nat) (g : Group) (target : Nat) : Bool :=
  32768 ≤ batDist g.batch target || !(opsOf s gid).any (fun o => batDist g.batch target ≤ batDist g.batch o.2.batch)
/-- A group that waits for batches goes on when they are met. -/
def batCheck (s : State) (gid : Nat) : State :=
  match mfind s.groups gid with
  | some g => match g.st with
    | .waiting (.bat t) => if batMet s gid g t then returnWait s gid false else s
    | _ => s
  | none => s
/-- An engine operation is over: it leaves the machine, its group's wait and exit are checked. -/
def removeOp (s : State) (id : Nat) : State :=
  match mfind s.ops id with
  | some o => exitCheck (batCheck { s with ops := mdel s.ops id } o.gid) o.gid
  | none => s

end Sys2Proof.Machine
end

