-- ==== Sys2Proof/Machine/Access.lean ====
section
/-! DEFINITION. Operations of the memory pipe: the checks of an access (R67, R212, R213), page access counts and migration
triggers (R172, R174), the side log (R169, R170), release and acquire (R209), atomics at their execution point (R218,
R219) and transactional access (R225). -/

namespace Sys2Proof.Machine

/-! ### Pages: counts and triggers (R167, R172, R174) -/

/-- MigMax as it acts (R164). -/
def migMaxEff (p : Part) : Nat := if 7 < p.migMax then 7 else p.migMax
/-- R165 step 1: every cached translation of a range of a context is marked draining; transactions with a line there are
doomed with CONFLICT (R224). -/
def drainRange (s : State) (ctx va len : Nat) : State :=
  let hit := fun (t : Tr) => t.ctx == ctx && t.va < va + len && va < t.va + t.len
  let whit := fun (w : WalkC) => w.ctx == ctx &&
    w.prefix_ * 2 ^ lvlLo w.level < va + len && va < (w.prefix_ + 1) * 2 ^ lvlLo w.level
  let lines := (s.cores.flatMap (fun c => c.2.tlb.filter hit)) ++ (s.kernels.flatMap (fun k => k.2.exts.filter hit))
  let hitPa := fun (pa : Nat) => lines.any (fun t => t.pa ≤ pa && pa < t.pa + t.len)
  { s with
    cores := s.cores.map (fun c => (c.1, { c.2 with tlb := c.2.tlb.map (fun t => if hit t then { t with draining := true } else t) })),
    kernels := s.kernels.map (fun k => (k.1, { k.2 with exts := k.2.exts.map (fun t => if hit t then { t with draining := true } else t) })),
    walkc := s.walkc.map (fun w => if whit w then { w with draining := true } else w),
    groups := s.groups.map (fun x =>
      if gCtx s x.2 == ctx then
        (x.1, { x.2 with tx := x.2.tx.map (fun y =>
          if (y.2.reads ++ y.2.writes).any (fun b => hitPa b.1) then (y.1, doom y.2 1) else y) })
      else x) }
/-- Entries marked draining are removed (R165 phase 2); an extent goes back to the walker's path. -/
def dropDraining (s : State) (ctx va len : Nat) : State :=
  let keep := fun (t : Tr) => !(t.draining && t.ctx == ctx && t.va < va + len && va < t.va + t.len)
  { s with
    cores := s.cores.map (fun c => (c.1, { c.2 with tlb := c.2.tlb.filter keep })),
    kernels := s.kernels.map (fun k => (k.1, { k.2 with exts := k.2.exts.filter keep })),
    walkc := s.walkc.filter (fun w => !(w.draining && w.ctx == ctx &&
      w.prefix_ * 2 ^ lvlLo w.level < va + len && va < (w.prefix_ + 1) * 2 ^ lvlLo w.level)) }

def getPage (s : State) (frame : Nat) : Page := (mfind s.pages frame).getD {}
def setPage (s : State) (frame : Nat) (f : Page → Page) : State := { s with pages := mset s.pages frame (f (getPage s frame)) }

/-- R168: is a Remove of the context's range that holds the address about to start? It then ranks before every other event
of the page. -/
def removeDue (s : State) (ctx va : Nat) : Bool :=
  let q := (getPart s (ctx / 64)).rmq.filter (·.func == 0)
  !q.any (fun r => 1 ≤ r.phase) &&
  (match q.find? (·.phase == 0) with
   | some r => r.ctx == ctx % 64 && r.va ≤ va && va < r.va + 2 ^ r.sizeLog
   | none => false)
/-- R167, R168: the timers of a page that have run out take effect before a trigger. -/
def pageExpire (p : Page) : Page :=
  let p := if p.settled && p.settleLeft = 0 then { p with settled := false, window := false, windowLeft := 0, moves := 0 } else p
  if p.window && p.windowLeft = 0 then { p with window := false, moves := 0 } else p
/-- R172: the place of a frame in a migration pool: a die of this package, or 8 + 4 times another package and its die. -/
def poolPlace (s : State) (pa : Nat) : Nat := if isLocal s pa then homeDie pa else 8 + 4 * paPkg pa + homeDie pa
/-- Does a place of the pool serve a requester, a die of this package or 8 + another package? -/
def placeOf (place req : Nat) : Bool := if req < 8 then place == req else 8 ≤ place && (place - 8) / 4 == req - 8
/-- R167: a migration trigger on a Present page. -/
def migTrigger (s : State) (part ctx va frame size req leaf addr : Nat) : State :=
  let q := getPart s part
  let pg := pageExpire (getPage s frame)
  let mx := migMaxEff q
  if mx = 0 || pg.settled || pg.moving.isSome || removeOver s ctx va || removeDue s ctx va then s
  else if mx ≤ pg.moves then
    setPage s frame (fun _ => { pg with settled := true, settleLeft := 1000 * q.migSettle, moves := 0, window := false,
                                        windowLeft := 0, ctx := ctx, va := va, size := size })
  else match q.migPool.find? (fun e => placeOf e.1 req && e.2.1 == size) with
    | none => s
    | some e =>
      let s := updPart s part (fun q => { q with migPool := q.migPool.erase e })
      let s := setPage s frame (fun _ => { pg with moving := some (e.1, e.2.2, leaf, addr), ctx := ctx, va := va, size := size })
      drainRange s ctx va (2 ^ size)

/-- R172: k accesses of a requester (0 to 3 a die of the package, 8 + n package n) through a leaf are counted at the page's home;
the count that reaches MigThresh triggers a move. -/
def countLeaf (s : State) (k req ctx va e l addr : Nat) : State :=
  if !bitAt e 7 || bitAt e 6 || 2 ≤ l then s else
  let frame := fld e 48 16 * 2 ^ 16
  let part := ctx / 64
  let n := mget 0 (getPage s frame).counts req
  let s := setPage s frame (fun p => { p with counts := mset p.counts req (n + k) })
  let th := (getPart s part).migThresh
  if n < th && th ≤ n + k then
    migTrigger s part ctx (va / 2 ^ lvlLo l * 2 ^ lvlLo l) frame (lvlLo l) req e addr
  else s
/-- R172: k accesses from a die to a page of another die of the package. -/
def countRemotes (s : State) (k die ctx va pa : Nat) : State :=
  if !isLocal s pa || homeDie pa == die then s else
  match (walk s die ctx va).1 with
  | .np _ _ => s
  | .leaf e l addr => countLeaf s k die ctx va e l addr
def countRemote (s : State) (die ctx va pa : Nat) : State := countRemotes s 1 die ctx va pa
/-- R172: an access from another package; the mapping is the one that a translation of this package's cores holds. -/
def countPackage (s : State) (pkg pa : Nat) : State :=
  match (s.cores.flatMap (fun c => c.2.tlb)).find? (fun t => t.pa ≤ pa && pa < t.pa + t.len && !t.draining) with
  | none => s
  | some t => match (walk s 4 t.ctx (t.va + (pa - t.pa))).1 with
    | .np _ _ => s
    | .leaf e l addr => countLeaf s 1 (8 + pkg) t.ctx (t.va + (pa - t.pa)) e l addr

/-! ### Checks -/

/-- What the checks of one lane's access find. -/
inductive Chk where
  | ok (pa : Nat)
  | wait
  | forbid (reason : Nat)
  | np (level why : Nat)
  | mis
  /-- scratchpad range -/
  | range
  deriving DecidableEq, Repr

/-- One lane's access: lane, address, finding, and whether the address is misaligned whatever translation finds (R213). -/
structure Acc where
  lane : Nat
  va : Nat
  c : Chk
  mis : Bool := false
  deriving DecidableEq, Repr

/-- A group's translation under several permissions (0 R, 1 W, 2 X, 3 A); the first that is not granted decides. -/
def needAll (s : State) (g : Group) (va : Nat) (needs : List Nat) : State × TrR :=
  needs.foldl (fun r n => match r.2 with
    | .ok _ => gTranslate r.1 g va n
    | _ => r) (s, .ok 0)
/-- R67, R212: one access of a width: a violation first, then not present, then misaligned. -/
def chkVa (s : State) (g : Group) (va n : Nat) (needs : List Nat) : State × Chk :=
  let r := needAll s g va needs
  match r.2 with
  | .ok pa => if va % n != 0 then (r.1, .mis) else (countRemote r.1 (gDie g) (gCtx s g) va pa, .ok pa)
  | .wait => (r.1, .wait)
  | .np l w => (r.1, .np l w)
  | .forbid k => (r.1, .forbid k)
/-- R212: one scratchpad access; the offset is exact, `hi` says that the base register had high bits. -/
def chkSp (b : Block) (o : Int) (n : Nat) (hi : Bool) : Chk :=
  if o % (n : Int) != 0 then .mis
  else if hi || o < 0 || (b.size : Int) < o + n then .range
  else .ok o.toNat

/-- The checks of all lanes, in lane order. -/
def chkAll (s : State) (g : Group) (n : Nat) (needs : Nat → List Nat) (xs : List (Nat × Nat)) : State × List Acc :=
  xs.foldl (fun r x =>
    let c := chkVa r.1 g x.2 n (needs x.1)
    (c.1, r.2 ++ [{ lane := x.1, va := x.2, c := c.2, mis := x.2 % n != 0 }])) (s, [])

/-- What an instruction does after its lanes are checked. -/
inductive Verdict where
  | go
  | wait
  | freeze (reason va : Nat)
  /-- fault code, lanes, address, level, why -/
  | fault (code : Nat) (lanes : Lanes) (va level why : Nat)
  deriving DecidableEq, Repr

/-- The lanes with a finding and the lowest of them. -/
def hits (l : List Acc) (f : Chk → Bool) : List Acc := l.filter (fun a => f a.c)
/-- R67, R213: the condition that ranks first; not-present lanes count only when they are not logged, and a misaligned lane
raises 0x11 also where its page is not present. -/
def judge (l : List Acc) (npOk : Bool) : Verdict :=
  match l.find? (fun a => match a.c with | .forbid _ => true | _ => false) with
  | some a => .freeze (match a.c with | .forbid r => r | _ => 0) a.va
  | none =>
    if l.any (fun a => a.c == .wait) then .wait else
    let nps := hits l (fun c => match c with | .np _ _ => true | _ => false)
    match npOk, nps with
    | false, a :: _ =>
      (match a.c with
       | .np lv w => .fault 0x10 (laneSet (nps.map (·.lane))) a.va lv w
       | _ => .go)
    | _, _ =>
      match l.filter (fun a => a.c == .mis || (npOk && a.mis && (match a.c with | .np _ _ => true | _ => false))) with
      | a :: t => .fault 0x11 (laneSet ((a :: t).map (·.lane))) a.va 0 0
      | [] => match hits l (· == .range) with
        | a :: t => .fault 0x12 (laneSet ((a :: t).map (·.lane))) a.va 0 0
        | [] => .go

/-- R171: the detail of fault 0x10. -/
def detNp (va level why : Nat) (logged : Bool) : Nat := mkRec [(47, 0, va), (49, 48, level), (51, 50, why), (52, 52, logged.toNat)]
/-- R230: the detail of faults 0x11, 0x12 and 0x41. -/
def detMem (addr size op : Nat) (deferred : Bool) (level phys : Nat) : Nat :=
  mkRec [(63, 0, addr), (67, 64, size), (71, 68, op), (72, 72, deferred.toNat), (74, 73, level), (128, 80, phys)]

/-- The lanes of a record: all ones for an access made once for the group (R69). -/
def recLanes (once : Bool) (m : Lanes) : Nat := if once then allLanes else m.toNat
/-- A verdict that ends the instruction before any effect; go continues. op is the code of R230, access that of R78. -/
def verdictOut (s : State) (gid : Nat) (once : Bool) (size op access : Nat) (v : Verdict) (go : Out) : Out :=
  match v with
  | .go => go
  | .wait => stall s gid 9
  | .freeze r va => freeze s gid r va access
  | .fault code m va lv w =>
    raise s gid code (recLanes once m) (if code = 0x10 then detNp va lv w false else detMem va size op false 0 0)

/-! ### Poison of what was read (R228, R230) -/

/-- R230: where the error of a poisoned granule was found, for a reader: 2 L1, 1 die cache, 0 HBM, 3 fabric. -/
def poisonLevel (s : State) (pair pa : Nat) : Nat :=
  let i := pa % 128 / 32
  let inL1 := match mfind s.l1 (l1Key pair (sectorOf pa)) with | some k => k.poison.getLsbD i && !(grPoison s (granOf pa)) | none => false
  let inDc := isGuest s (pairDie pair) (sectorOf pa) && match mfind s.dc (dcKey (pairDie pair) (sectorOf pa)) with | some k => k.poison.getLsbD i && !(grPoison s (granOf pa)) | none => false
  if !reachable s pa then 3 else if inL1 then 2 else if inDc || (mfind s.foundDc (granOf pa)).isSome then 1 else 0
/-- R230: fault 0x41 for the lanes whose reads met poison; the lowest names the address. -/
def raisePoison (s : State) (gid : Nat) (g : Group) (once : Bool) (size op : Nat) (l : List (Nat × Nat × Nat)) : Out :=
  match l with
  | [] => .next s
  | (_, va, pa) :: _ =>
    raise s gid 0x41 (recLanes once (laneSet (l.map (·.1)))) (detMem va size op false (poisonLevel s (gPair g) pa) (pa / 32 * 32))

/-- R379: an access to another package joins the partition's flow of its class, 0 for groups, 1 for engines, 2 for harts and 3 for the
host: its flit is numbered and counted (R404). -/
def sendAccess (s : State) (part cls pa : Nat) (f : FlitS) (keep : Bool) : State :=
  if isFar s pa then bumpCtr (sendFlit s (paPkg pa) (8 * part + cls) { f with off := paOff pa } keep) part 0x0B 1 else s
/-- A write of bytes to another package, kept until it is acknowledged. -/
def sendWrite (s : State) (part cls pa : Nat) (l : List Byte) (tag size : Nat) : State :=
  sendAccess s part cls pa { kind := 0, data := l, put := l, old := memBytes s pa l.length, tag := tag, size := size } true
/-- The flits of a partition's flow to a package that await acknowledgement, and the reductions of its groups that will join them. -/
def flowLoad (s : State) (part cls dst : Nat) : Nat :=
  (match mfind s.flowsT (flowKey dst (8 * part + cls)) with | some f => f.unacked.length | none => 0) +
  (if cls = 0 then s.groups.foldl (fun n x => if gPart s x.2 == part then
    n + (x.2.reds.filter (fun r => isFar s r.pa && paPkg r.pa == dst)).length else n) 0 else 0)
/-- R380: have the flows of a class no room, 256 flits at most, for one flit to each of these addresses? -/
def windowFull (s : State) (part cls : Nat) (pas : List Nat) : Bool :=
  let far := (pas.filter (isFar s)).map paPkg
  far.any (fun d => decide (256 < flowLoad s part cls d + (far.filter (· == d)).length))
/-- R380: has the flow of a read to one of these addresses 256 flits without acknowledgement already? -/
def windowShut (s : State) (part cls : Nat) (pas : List Nat) : Bool := pas.any (fun pa => windowFull s part cls [pa])

/-- Does the pair's L1 hold the bytes of a read? -/
def l1Holds (s : State) (pair pa n : Nat) : Bool :=
  let need := byteMask (pa % 128) n
  match mfind s.l1 (l1Key pair (sectorOf pa)) with | some k => k.valid &&& need == need | none => false
/-- R404: sector misses of a read of n bytes by a partition from a pair: in L1, where a byte is not valid there; in the die cache; and
in HBM, where the home die cache has to fetch the sector (assumption log 13). A miss in memory of another package sends a read
request on the flow of its class (R379). -/
def countMissAt (s : State) (p cls pair pa n : Nat) : State :=
  let need := byteMask (pa % 128) n
  let holds := fun (k : Option Sector) => match k with | some k => k.valid &&& need == need | none => false
  let die := pairDie pair
  if l1Holds s pair pa n then s
  else
    let s := sendAccess (bumpCtr s p 0x06 1) p cls pa { kind := 1 } false
    if !isLocal s pa || holds (mfind s.dc (dcKey die (sectorOf pa))) then s
    else
      let s := bumpCtr s p 0x07 1
      if homeDie pa != die && holds (mfind s.dc (dcKey (homeDie pa) (sectorOf pa))) then s else bumpCtr s p 0x08 1
def countMiss (s : State) (g : Group) (pa n : Nat) : State := countMissAt s (gPart s g) 0 (gPair g) pa n
/-- The same for a group's load; an acquire load wider than .blk goes to the home of another package's line whatever L1 holds. -/
def countLoad (s : State) (g : Group) (acq : Option Nat) (pa n : Nat) : State :=
  match acq with
  | some (_ + 1) => if l1Holds s (gPair g) pa n then sendAccess s (gPart s g) 0 pa { kind := 1 } false else countMiss s g pa n
  | _ => countMiss s g pa n

/-! ### Eviction: always allowed, and used before an access at a wider place (R185, R187) -/

/-- The pair's copy of a sector leaves the L1, its dirty bytes written back. -/
def evictL1 (s : State) (pair sec : Nat) : State :=
  let s := l1Back s pair sec
  { s with l1 := mdel s.l1 (l1Key pair sec) }
/-- R229: the granules of a home sector that the die cache holds dirty and only in part: their write-back reads the granule
in HBM first, and one that cannot be corrected is written back poisoned, with a deferred record for its last writer. -/
def partBack (s : State) (sec : Nat) (k : Sector) (unc : Bool) : State :=
  (List.range 4).foldl (fun s i =>
    let gr := 4 * sec + i
    if granAny k.dirty i && !granFull k.valid i then
      let bad := unc || mfind s.ecc gr == some true
      let s := eccTouch (if unc then { s with ecc := mset s.ecc gr true } else s) gr
      if bad then tagRecord (markPoison s gr) (mget 0 s.tags gr) 0x41 (detMem 0 0 8 true 0 (32 * gr)) else s
    else s) s
/-- A home sector's dirty bytes go to HBM, which may meet an uncorrectable error. -/
def homeBack (s : State) (die sec : Nat) (unc : Bool) : State :=
  let s := dcTouches s die sec
  match mfind s.dc (dcKey die sec) with
  | some k => let s := partBack s sec k unc; { s with dc := mset s.dc (dcKey die sec) { k with dirty := 0, hands := [] } }
  | none => s
/-- A sector leaves a die cache: a guest's dirty bytes go to its home, a home's to HBM. -/
def dropDc (s : State) (die sec : Nat) (unc : Bool) : State :=
  let s := if isGuest s die sec then dcBack s die sec else homeBack s die sec unc
  { s with dc := mdel s.dc (dcKey die sec), eccDc := s.eccDc.filter (fun x => x.1 / 4 != dcKey die sec) }
/-- The die's copy of a sector leaves the die cache. -/
def evictDc (s : State) (die sec : Nat) : State := dropDc s die sec false
/-- The sector is at its home only, as this pair and die see it. -/
def evictHome (s : State) (pair sec : Nat) : State :=
  let s := evictL1 s pair sec
  if isGuest s (pairDie pair) sec then evictDc s (pairDie pair) sec else s

/-! ### Stores (R208, R209, R214) -/

/-- R229, R384: the deferred record of a write that met poison or an unreachable package, for the group that wrote. -/
def deferred (s : State) (g : Group) (op size level pa : Nat) : State :=
  loggedRecord s g 0x41 0 0 (detMem 0 size op true level (pa / 32 * 32))
/-- A write carried to its home at once; size is its code for a deferred record (R211, R230). -/
def writeHome (s : State) (g : Group) (pa : Nat) (l : List Byte) (size : Nat) : State :=
  if !reachable s pa then deferred s g 1 size 3 pa
  else homeWrite (sendWrite s (gPart s g) 0 pa l (gTag s g) size) (sectorOf pa) (byteMask (pa % 128) l.length) (secData (pa % 128) l) 0 (gTag s g)
/-- Bytes that have gone to a farther level, in the pair's copy where it has one. -/
def l1Patch (s : State) (pair pa : Nat) (l : List Byte) : State :=
  { s with l1 := mupd s.l1 (l1Key pair (sectorOf pa)) (fun k =>
      patchBytes k (byteMask (pa % 128) l.length) (secData (pa % 128) (recList s pa l))) }
/-- The same for the die's guest copy. -/
def dcPatch (s : State) (die pa : Nat) (l : List Byte) : State :=
  if isGuest s die (sectorOf pa) then
    { s with dc := mupd s.dc (dcKey die (sectorOf pa)) (fun k =>
        patchBytes k (byteMask (pa % 128) l.length) (secData (pa % 128) (recList s pa l))) }
  else s
/-- R174: does the address lie in a settled page? -/
def settledAt (s : State) (pa : Nat) : Bool := s.pages.any (fun x => x.2.settled && x.1 ≤ pa && pa < x.1 + 2 ^ x.2.size)
/-- R174, R208: does a store go to the home at once, for another package, the host or a settled page? -/
def storesHome (s : State) (g : Group) (pa : Nat) : Bool := !isLocal s pa || (settledAt s pa && homeDie pa != gDie g)
/-- R208: one lane's store within a sector: into L1; through to the home for another package, the host or a settled page;
through to the die cache for .nc (R215). -/
def storeOne (s : State) (g : Group) (pa : Nat) (l : List Byte) (nc : Bool) (size : Nat) : State :=
  if storesHome s g pa then
    let t := writeHome s g pa l size
    if !reachable s pa then t else l1Patch (dcPatch t (gDie g) pa l) (gPair g) pa l
  else if nc then
    let s := dieWrite s (gDie g) (sectorOf pa) (byteMask (pa % 128) l.length) (secData (pa % 128) l) 0 (gTag s g) [gTag s g]
    l1Patch s (gPair g) pa l
  else l1Write s (gPair g) (gBit g) (gTag s g) pa l
/-- The mask of the bytes of one sector that a list of writes covers. -/
def coverMask (sec : Nat) (l : List (Nat × Nat)) : BitVec 128 :=
  l.foldl (fun m x => if sectorOf x.1 == sec then m ||| byteMask (x.1 % 128) x.2 else m) 0
/-- R228: a write of all 32 bytes of a granule, made by the lanes of one instruction together, clears its poison where it
lands. The writes are (address, length), each within a sector. -/
def clearCovered (s : State) (g : Group) (l : List (Nat × Nat)) (nc : Bool) : State :=
  ((l.map (fun x => sectorOf x.1)).eraseDups).foldl (fun s sec =>
    let m := coverMask sec l
    if !(List.range 4).any (granFull m) then s else
    let clr := fun (k : Sector) => { k with poison := (List.range 4).foldl (fun p i => if granFull m i then setBit4 p i false else p) k.poison }
    let s := { s with l1 := mupd s.l1 (l1Key (gPair g) sec) clr }
    let home := storesHome s g (128 * sec)
    let s := if (home || nc) && isGuest s (gDie g) sec then { s with dc := mupd s.dc (dcKey (gDie g) sec) clr } else s
    if home || (nc && !isGuest s (gDie g) sec) then
      { s with poison := (List.range 4).foldl (fun p i => if granFull m i then mdel p (4 * sec + i) else p) s.poison }
    else s) s

/-- R209: the bytes of a release store carried to the release point of a scope. -/
def writeThrough (s : State) (g : Group) (scope pa : Nat) : State :=
  if scope = 0 then s
  else
    let s := l1Back s (gPair g) (sectorOf pa)
    if scope = 1 || !isGuest s (gDie g) (sectorOf pa) then s else dcBack s (gDie g) (sectorOf pa)

/-! ### The store buffer (R216) -/

/-- R216: the largest number of distinct 4-byte words that accesses of n bytes address in one bank. -/
def bankWords (l : List Nat) (n : Nat) : Nat :=
  let ws := (l.flatMap (fun a => rng (a / 4) (max 1 (n / 4)))).eraseDups
  (List.range 64).foldl (fun m b => max m (ws.filter (fun w => w % 64 == b)).length) 0
/-- The entries of a core's store buffer in use. -/
def sbufLive (s : State) (core : Nat) : List Nat := (getCore s core).sbuf.filter (fun t => s.cycle < t)
/-- Has the store buffer room for the sectors of a store? -/
def sbufRoom (s : State) (core : Nat) (l : List Nat) : Bool := (sbufLive s core).length + (l.map (· / 128)).eraseDups.length ≤ 64
/-- The sectors of a store enter the buffer until the store is visible. -/
def sbufPush (s : State) (core : Nat) (l : List Nat) (n : Nat) : State :=
  let add := List.replicate (l.map (· / 128)).eraseDups.length (s.cycle + 8 + (bankWords l n - 1))
  updCore s core (fun c => { c with sbuf := sbufLive s core ++ add })

/-! ### Atomics (R218 to R220) -/

/-- R218: the new value of an atomic function, on patterns of the type's width. -/
def atomNew (f t old b : Nat) : Nat :=
  let w := if is64 t then 64 else 32
  let fl (h : Fmt → Nat → Nat → Nat) : Nat :=
    mapElems (tyW t) (32 / tyW t) (fun e => h (fmtOf t) (elem (tyW t) e old) (elem (tyW t) e b))
  let x := rdInt (tySigned t) w old
  let y := rdInt (tySigned t) w b
  match f with
  | 0 => if isInt t then (old + b) % 2 ^ w
         else fl (fun m a b => roundF m 0 false (addV (decodeF m a) (decodeF m b) 0))
  | 1 => if isInt t then (if x ≤ y then old else b) else fl (fun m a b => minMaxF m false a b)
  | 2 => if isInt t then (if y ≤ x then old else b) else fl (fun m a b => minMaxF m true a b)
  | 3 => old &&& b
  | 4 => old ||| b
  | 5 => old ^^^ b
  | 6 => b
  | 7 => if b ≤ old then 0 else (old + 1) % 2 ^ w
  | _ => if old = 0 || b < old then b else old - 1

/-- R209: the scope an atomic acts at: outside the package's own memory the narrow scopes act as .sys. -/
def atomScope (s : State) (scope pa : Nat) : Nat := if !isLocal s pa && scope < 2 then 3 else scope
/-- One read at the execution point of a scope, with a cache hint (R210): the state, the bytes, poison. What the pair and the die hold of the sector
goes to that point first (R187, R189). -/
def execReadH (s : State) (g : Group) (scope pa n hint : Nat) : State × List Byte × Bool :=
  if scope = 0 then l1Read s (gPair g) pa n hint
  else
    let sec := sectorOf pa
    let s := if hint == 2 then dropLine s (gPair g) sec else s
    let s := if scope = 1 then evictL1 s (gPair g) sec else evictHome s (gPair g) sec
    let r := if scope = 1 then dieRead s (gDie g) sec else homeRead s sec
    let m := byteMask (pa % 128) n
    (r.1, (List.range n).map (fun i => secByte r.2.1 (pa % 128 + i)), (List.range 4).any (fun i => r.2.2.getLsbD i && granAny m i))
/-- The same without a cache hint. -/
def execRead (s : State) (g : Group) (scope pa n : Nat) : State × List Byte × Bool := execReadH s g scope pa n 0
/-- One write at the execution point of a scope. -/
def execWrite (s : State) (g : Group) (scope pa : Nat) (l : List Byte) : State :=
  if scope = 0 then l1Write s (gPair g) (gBit g) (gTag s g) pa l
  else if scope = 1 then
    dieWrite s (gDie g) (sectorOf pa) (byteMask (pa % 128) l.length) (secData (pa % 128) l) 0 (gTag s g) [gTag s g]
  else homeWrite s (sectorOf pa) (byteMask (pa % 128) l.length) (secData (pa % 128) l) 0 (gTag s g)
/-- R187, R188: a read of a group that meets another writer's byte makes later releases carry it. -/
def noteRead (s : State) (gid : Nat) (g : Group) (pa n : Nat) : State :=
  if seesOthers s g pa n then updG s gid (fun g => { g with seen := true }) else s
/-- An atomic step at its execution point: nothing is written when the read meets poison. At another package its flit carries the
operand; that of a reduction awaits its acknowledgement, a returning atomic completes with its response (R379, R380). -/
def atomStep (s : State) (gid : Nat) (g : Group) (scope pa n : Nat) (new : Nat → Nat) (t b : Nat) (ret : Bool) : State × Nat × Bool :=
  let sc := atomScope s scope pa
  let r := execRead (noteRead s gid g pa n) g sc pa n
  let old := ofBytes r.2.1
  let put := if r.2.2 then r.2.1 else toBytes n (new old)
  let s := sendAccess r.1 (gPart s g) 0 pa
    { kind := 3, data := toBytes n b, put := put, old := memBytes r.1 pa n, tag := gTag s g, op := 3, size := t } (!ret)
  if r.2.2 then (s, old, true)
  else (execWrite s g sc pa put, old, false)

/-- R220, R228: a reduction performed as a write of its group; one that meets poison only leaves a deferred record. -/
def performRed (s : State) (gid : Nat) (r : RedP) : State :=
  match mfind s.groups gid with
  | none => s
  | some g =>
    if !reachable s r.pa then deferred s g 3 r.t 3 r.pa else
    let x := atomStep s gid g r.scope r.pa (if is64 r.t then 8 else 4) (fun old => atomNew r.f r.t old r.b) r.t r.b false
    if x.2.2 then deferred x.1 g 3 r.t (poisonLevel x.1 (gPair g) r.pa) r.pa else x.1
/-- The oldest reduction of a group leaves its queue and is performed. -/
def popRed (s : State) (gid : Nat) : State :=
  match mfind s.groups gid with
  | some g => match g.reds with
    | r :: t => performRed (updG s gid (fun g => { g with reds := t })) gid r
    | [] => s
  | none => s
def popReds (s : State) (gid n : Nat) : State := (List.range n).foldl (fun s _ => popRed s gid) s

/-! ### Release and acquire (R209) -/

/-- The writes that a release of a group carries to the release point of a scope: its own, and every writer's of the pair
and die once an acquire has made others' writes its own. -/
def releaseWrites (s : State) (gid : Nat) (g : Group) (scope : Nat) : State :=
  let s := popReds s gid g.reds.length
  if scope = 0 then s else
  let pair := gPair g
  let mask : BitVec 99 := if g.seen then BitVec.allOnes 99 else BitVec.ofNat 99 (2 ^ gBit g)
  let s := (dirtyOf s pair mask).foldl (fun s sec => l1Back s pair sec) s
  if scope = 1 then s else
  (guestOf s (gDie g) (if g.seen then none else some (gTag s g))).foldl (fun s sec => dcBack s (gDie g) sec) s
/-- R170, R192: has everything that the release waits for arrived? A txend before it has committed: no releasing instruction issues
before (`commitFirst`). -/
def releaseDone (s : State) (gid : Nat) (g : Group) (scope : Nat) : Bool :=
  !(getCore s g.core).log.any (fun e => e.gid == gid) && !(scope == 3 && unackedFlows s (gPart s g))
/-- A release by an engine or the scheduler, on behalf of every writer of a pair. -/
def releasePair (s : State) (pair scope : Nat) : State :=
  if scope = 0 then s else
  let s := (dirtyOf s pair (BitVec.allOnes 99)).foldl (fun s sec => l1Back s pair sec) s
  if scope = 1 then s else (guestOf s (pairDie pair) none).foldl (fun s sec => dcBack s (pairDie pair) sec) s

/-! ### The side log (R169, R170) -/

def sameSector (e : LogE) (ctx va : Nat) : Bool := e.ctx == ctx && e.va / 128 == va / 128
/-- Is a store to the address to join the log, not present or behind an entry of its sector? -/
def inLog (s : State) (g : Group) (va : Nat) : Bool := (getCore s g.core).log.any (fun e => sameSector e (gCtx s g) va)
/-- The page of an address as log 2 of its size: the leaf's that maps it, the smallest where none does. -/
def pageLog (s : State) (ctx va : Nat) : Nat := match (walk s 4 ctx va).1 with | .leaf _ l _ => lvlLo l | .np _ _ => 16
/-- Do two addresses of a context lie in one page? -/
def samePage (s : State) (ctx a b : Nat) : Bool := let n := 2 ^ pageLog s ctx a; a / n == b / n
/-- R170: a load to a page with logged entries waits. -/
def pageLogged (s : State) (g : Group) (va : Nat) : Bool :=
  (getCore s g.core).log.any (fun e => e.ctx == gCtx s g && samePage s e.ctx e.va va)
/-- The distinct sectors of a list of addresses. -/
def sectorsOf (l : List Nat) : List Nat := (l.map (· / 128)).eraseDups
/-- R169, R170: entries for the sectors of an instruction's logged lanes, under one number. -/
def logEntries (s : State) (gid id : Nat) (g : Group) (bs : List (Nat × List Byte)) (rs : List (Nat × Nat × Nat × Nat))
    (xs : List LogA) (rel : Option Nat) (size : Nat) : List LogE :=
  (sectorsOf (bs.map (·.1) ++ rs.map (fun r => r.2.2.1) ++ xs.map (·.va))).map (fun sec =>
    { id := id, gid := gid, ctx := gCtx s g, va := 128 * sec, rel := rel, size := size,
      bytes := (bs.filter (fun b => b.1 / 128 == sec)).flatMap (fun b => (List.range b.2.length).map (fun i => (b.1 % 128 + i, b.2.getD i 0))),
      reds := rs.filter (fun r => r.2.2.1 / 128 == sec),
      atoms := xs.filter (fun a => a.va / 128 == sec) })
def logRoom (s : State) (g : Group) (n : Nat) : Bool := (getCore s g.core).log.length + n ≤ 32

/-! ### Transactions (R223 to R225) -/

/-- R225: the distinct lines of the open lanes' sets, with more lines added. -/
def txReadLines (g : Group) (add : List Nat) : Nat := ((g.tx.flatMap (fun x => x.2.rlines)) ++ add).eraseDups.length
def txWriteLines (g : Group) (add : List Nat) : Nat := ((g.tx.flatMap (fun (x : Nat × Tx) => x.2.writes.map (fun (w : Nat × Byte) => w.1 / 256))) ++ add).eraseDups.length

/-- R225: is an access of an open lane admitted? Otherwise the group with the lanes doomed. -/
def txAdmit (s : State) (g : Group) (lane pa : Nat) (read : Bool) : Group × Bool :=
  match mfind g.tx lane with
  | none => (g, false)
  | some t =>
    if t.code ≠ 0 then (g, false)
    else if !isLocal s pa || homeDie pa != gDie g then (doomLanes g [lane] 5, false)
    else if read && 64 < txReadLines g [pa / 256] then (doomAll g 3, false)
    else if !read && 32 < txWriteLines g [pa / 256] then (doomAll g 4, false)
    else (g, true)
/-- R225: a transactional read at .die, the lane's own bytes laid over memory's. A doomed lane reads 0. Every value that a
byte gave is recorded, so two reads that saw different values cannot both be validated. -/
def txRead (s : State) (gid lane pa n : Nat) : State × List Byte :=
  match mfind s.groups gid with
  | none => (s, [])
  | some g =>
    let zero : List Byte := List.replicate n 0
    match txAdmit s g lane pa true with
    | (g', false) => (updG s gid (fun _ => g'), zero)
    | (_, true) =>
      let r := execRead (noteRead s gid g pa n) g 1 pa n
      if r.2.2 then (updG r.1 gid (fun g => doomLanes g [lane] 10), zero)
      else
        let t := (mfind g.tx lane).getD {}
        let own := fun a => (t.writes.find? (fun w => w.1 == a)).map (·.2)
        let bs := (List.range n).map (fun i => (pa + i, r.2.1.getD i 0))
        let t := { t with rlines := (pa / 256 :: t.rlines).eraseDups,
                          reads := t.reads ++ bs.filter (fun b => (own b.1).isNone && !t.reads.contains b) }
        (updG r.1 gid (fun g => { g with tx := mset g.tx lane t }), bs.map (fun b => (own b.1).getD b.2))
/-- R225: a transactional write into the lane's write set; the newest value of a byte counts. -/
def txWrite (s : State) (gid lane pa : Nat) (l : List Byte) : State :=
  match mfind s.groups gid with
  | none => s
  | some g =>
    match txAdmit s g lane pa false with
    | (g', false) => updG s gid (fun _ => g')
    | (_, true) =>
      let t := (mfind g.tx lane).getD {}
      let bs := (List.range l.length).map (fun i => (pa + i, l.getD i 0))
      let t := { t with writes := t.writes.filter (fun w => !bs.any (fun b => b.1 == w.1)) ++ bs }
      updG s gid (fun g => { g with tx := mset g.tx lane t })

end Sys2Proof.Machine
end

