-- ==== Sys2Proof/Machine/Line.lean ====
section
/-! DEFINITION. Line: loads, stores, atomics, reductions, monitor waits, transactions and fences, opcodes 0x70 to 0x7E
(R207 to R230). -/

namespace Sys2Proof.Machine

/-- R213: the lanes that make an access; lane 0 stands for the one access of a uniform form. -/
def accLanes (g : Group) (h : Hdr) : List Nat := if h.uni then (if actsOnce g h then [0] else []) else lanesOf (guardLanes g h)
/-- R109: is the lane a helper? The one access of a uniform form is nobody's lane. -/
def isHelper (g : Group) (h : Hdr) (lane : Nat) : Bool := !h.uni && g.hmask.getLsbD lane
/-- R212: the effective address of a lane. -/
def effAddr (g : Group) (p : P) (lane : Nat) : Nat :=
  let base : Int := match p.a with
    | .v n => (((rdV g n.toNat lane).toNat + 2 ^ 32 * (rdV g (n.toNat + 1) lane).toNat : Nat) : Int)
    | .s n => (rdSn g n.toNat : Int)
    | _ => 0
  let ix : Int := match p.b with | .op (.v n) => (rdV g n.toNat lane).toInt | _ => 0
  wrap 64 (base + ix + p.off)
/-- The effective address of an instruction whose B is data. -/
def effAddr0 (g : Group) (p : P) (lane : Nat) : Nat := effAddr g { p with b := .raw 0 } lane
/-- R212: the exact scratchpad offset of a lane, and whether the base register has high bits. -/
def spOffset (g : Group) (p : P) (lane : Nat) : Int × Bool :=
  match p.a with
  | .v n => ((rdV g n.toNat lane).toNat + p.off, false)
  | .s n => ((rdSn g n.toNat % 2 ^ 32 : Nat) + p.off, decide (2 ^ 32 ≤ rdSn g n.toNat))
  | _ => (p.off, false)

/-- R216: the 16 result slots. -/
def slotsFull (g : Group) : Bool := 16 ≤ (g.pend.filter (·.slot)).length
/-- A result under a slot. -/
def addSlot (g : Group) (ws : List RegW) : Group := if ws.isEmpty then g else { g with pend := g.pend ++ [{ ws := ws, slot := true }] }
/-- Every reduction that the group has issued is performed before its next access. -/
def flushReds (s : State) (gid : Nat) (g : Group) : State := popReds s gid g.reds.length

/-- R211: the value extended to 32 or 64 bits by the signedness of the code. -/
def extLoad (t w x : Nat) : Nat := if tySigned t && sizeB t < w / 8 then wrap w (toSigned (8 * sizeB t) x) else x
/-- R211: the register writes of one loaded value. -/
def loadWs (d : Dst) (t lane x : Nat) : List RegW :=
  match d with
  | .v false _ n =>
    if sizeB t ≤ 4 then [.v n.toNat lane (BitVec.ofNat 32 (extLoad t 32 x))]
    else (List.range (sizeB t / 4)).map (fun i => .v (n.toNat + i) lane (BitVec.ofNat 32 (x / 2 ^ (32 * i))))
  | .s false _ n =>
    if sizeB t ≤ 8 then [.s n.toNat (BitVec.ofNat 64 (extLoad t 64 x))]
    else [.s n.toNat (BitVec.ofNat 64 x), .s (n.toNat + 1) (BitVec.ofNat 64 (x / 2 ^ 64))]
  | _ => []
/-- R211, R214: the stored value of a lane. -/
def stData (s : State) (g : Group) (p : P) (lane : Nat) : Nat :=
  match p.t, p.b.opnd with
  | 8, .v n => (List.range 4).foldl (fun r i => r + 2 ^ (32 * i) * (rdV g (n.toNat + i) lane).toNat) 0
  | 8, .s n => rdSn g n.toNat + 2 ^ 64 * rdSn g (n.toNat + 1)
  | t, x => srcPat s g (gConsts s g) 0 t x lane

/-- R215: the transaction that an access belongs to: its lane's, or for the uniform form that of the lowest lane of E with
an open transaction. -/
def txLane (g : Group) (h : Hdr) (lane : Nat) : Option Nat :=
  if h.uni then (lanesOf g.e).find? (txOpen g) else if txOpen g lane then some lane else none
def isNp (c : Chk) : Bool := match c with | .np _ _ => true | _ => false
def isOk (c : Chk) : Bool := match c with | .ok _ => true | _ => false

/-- The physical addresses that lanes' checks found. -/
def okPas (l : List Acc) : List Nat := l.filterMap (fun a => match a.c with | .ok pa => some pa | _ => none)
/-- R214: the reads of a load, lane by lane: state, (lane, bytes), (lane, address, physical address) of poisoned reads. An
acquire load reads at the execution point of its scope, so that all such loads see writes in one order (R189). -/
def readLanes (s : State) (gid : Nat) (g : Group) (h : Hdr) (n hint : Nat) (acq : Option Nat) (l : List Acc) :
    State × List (Nat × List Byte) × List (Nat × Nat × Nat) :=
  l.foldl (fun r a =>
    let zero : List Byte := List.replicate n 0
    match a.c with
    | .ok pa =>
      match txLane g h a.lane with
      | some t =>
        let x := txRead r.1 gid t pa n
        (x.1, r.2.1 ++ [(a.lane, x.2)], r.2.2)
      | none =>
        let s := noteRead (countLoad r.1 g acq pa n) gid g pa n
        let x := match acq with | some sc => execReadH s g sc pa n hint | none => l1Read s (gPair g) pa n hint
        if x.2.2 then
          (if isHelper g h a.lane then (x.1, r.2.1 ++ [(a.lane, zero)], r.2.2)
           else (x.1, r.2.1 ++ [(a.lane, zero)], r.2.2 ++ [(a.lane, a.va, pa)]))
        else (x.1, r.2.1 ++ [(a.lane, x.2.1)], r.2.2)
    | _ => (r.1, r.2.1 ++ [(a.lane, zero)], r.2.2)) (s, [], [])

/-- R213, R215: the findings that can stop an instruction: a not-present page in a transaction dooms its lane instead, unless
the lane is misaligned. -/
def condLanes (g : Group) (h : Hdr) (l : List Acc) : List Acc :=
  l.filterMap (fun a => if isNp a.c && (txLane g h a.lane).isSome then (if a.mis then some { a with c := .mis } else none) else some a)
/-- ld and ldu. -/
def loadRun (p : P) (s : State) : Out :=
  withG s (fun gid _ g =>
    let ls := accLanes g p.h
    if ls.isEmpty then fin s gid p false
    else if slotsFull g then stall s gid 9
    else
      let s := flushReds s gid g
      let n := sizeB p.t
      let xs := ls.map (fun i => (i, effAddr g p i))
      if xs.any (fun x => pageLogged s g x.2) then stall s gid 9 else
      let r := chkAll s g n (fun i => if (txLane g p.h i).isSome then [0, 3] else [0]) xs
      let tnp := r.2.filter (fun a => isNp a.c && (txLane g p.h a.lane).isSome)
      let cond := condLanes g p.h (r.2.filter (fun a => !(isHelper g p.h a.lane) || a.c == .wait))
      verdictOut r.1 gid p.h.uni p.t 0 1 (judge cond false)
        (if windowShut r.1 (gPart r.1 g) 0 ((okPas r.2).filter (fun pa => p.order = 1 || !l1Holds r.1 (gPair g) pa n)) then stall r.1 gid 9 else
         let s := updG r.1 gid (fun g => doomLanes g (tnp.filterMap (fun a => txLane g p.h a.lane)) 9)
         let x := readLanes s gid g p.h n p.f (if p.order = 1 then some p.scope else none) r.2
         if x.2.2.isEmpty then
           let s := if p.order = 1 then acquire x.1 gid g p.scope else x.1
           fin (updG s gid (fun g => addSlot g (x.2.1.flatMap (fun v => loadWs p.d p.t v.1 (ofBytes v.2))))) gid p false
         else raisePoison x.1 gid g p.h.uni p.t 0 x.2.2))
def execLd (p : P) (s : State) : Out := loadRun p s
def execLdu (p : P) (s : State) : Out := loadRun p s

/-- The writes of a store, lane by lane, ascending (R182). -/
def writeLanes (s : State) (gid : Nat) (g : Group) (p : P) (n : Nat) (l : List Acc) : State :=
  l.foldl (fun s a =>
    match a.c with
    | .ok pa =>
      let bs := toBytes n (stData s g p a.lane)
      match txLane g p.h a.lane with
      | some t => txWrite s gid t pa bs
      | none => storeOne s g pa bs (p.f == 1) p.t
    | _ => s) s
/-- R169: the entries and the record of an instruction's logged lanes. -/
def logLanes (s : State) (g : Group) (p : P) (es : List LogE) (l : List Acc) : State :=
  match l with
  | [] => s
  | a :: _ =>
    let lw := match a.c with | .np lv w => (lv, w) | _ => (0, 0)
    let s := updCore { s with fresh := s.fresh + 1 } g.core (fun c => { c with log := c.log ++ es })
    loggedRecord s g 0x10 (recLanes p.h.uni (laneSet (l.map (·.lane)))) g.pc (detNp a.va lw.1 lw.2 true)
/-- R169: the log has no room: a synchronous fault 0x10. -/
def logFull (s : State) (gid : Nat) (p : P) (l : List Acc) : Out :=
  match l with
  | [] => .next s
  | a :: _ => raise s gid 0x10 (recLanes p.h.uni (laneSet (l.map (·.lane)))) (detNp a.va (match a.c with | .np lv _ => lv | _ => 0) 2 false)

/-- st and stu. -/
def storeRun (p : P) (s : State) : Out :=
  withG s (fun gid _ g =>
    let ls := accLanes g p.h
    if ls.isEmpty then fin s gid p false
    else
      let s := flushReds s gid g
      let n := sizeB p.t
      let xs := ls.map (fun i => (i, effAddr0 g p i))
      let r := chkAll s g n (fun i => if (txLane g p.h i).isSome then [1, 3] else [1]) xs
      let tnp := r.2.filter (fun a => isNp a.c && (txLane g p.h a.lane).isSome)
      verdictOut r.1 gid p.h.uni p.t 1 2 (judge (condLanes g p.h r.2) true)
        (let s := r.1
         let act := r.2.filter (fun a => !isHelper g p.h a.lane)
         let free := act.filter (fun a => (txLane g p.h a.lane).isNone)
         let lgd := free.filter (fun a => isNp a.c || inLog s g a.va)
         let now := act.filter (fun a => isOk a.c && ((txLane g p.h a.lane).isSome || !inLog s g a.va))
         let es := logEntries s gid s.fresh g (lgd.map (fun a => (a.va, toBytes n (stData s g p a.lane)))) [] [] (if p.order = 2 then some p.scope else none) p.t
         if !logRoom s g es.length then logFull s gid p lgd
         else if !sbufRoom s g.core (free.map (·.va)) || windowFull s (gPart s g) 0 (okPas now) then stall s gid 9
         else
           let s := if p.order = 2 then releaseWrites s gid g p.scope else s
           if p.order = 2 && !releaseDone s gid g p.scope then stall s gid 9
           else
             let s := updG s gid (fun g => doomLanes g (tnp.filterMap (fun a => txLane g p.h a.lane)) 9)
             let s := logLanes (writeLanes s gid g p n now) g p es lgd
             let done := now.filterMap (fun a => match a.c with
               | .ok pa => if (txLane g p.h a.lane).isNone then some (pa, n) else none | _ => none)
             let s := sbufPush (clearCovered s g done (p.f == 1)) g.core (free.map (·.va)) n
             let s := if p.order = 2 then done.foldl (fun s a => writeThrough s g p.scope a.1) s else s
             fin s gid p false))
def execSt (p : P) (s : State) : Out := storeRun p s
def execStu (p : P) (s : State) : Out := storeRun p s

/-! ### Scratchpad (R212, R214) -/

/-- The block of a group, as scratchpad instructions see it. -/
def withB (s : State) (g : Group) (f : Block → Out) : Out := match gBlock s g with | some b => f b | none => .fault .noGroup
/-- R181: is the block's scratchpad being resized? New accesses wait until the end. -/
def spadBusy (s : State) (g : Group) : Bool := match gBlock s g with | some b => b.resize.isSome | none => false
/-- A scratchpad access of a group: its byte-counting operations come first, and a wresz of its block. -/
def withSp (s : State) (gid : Nat) (g : Group) (f : State → Block → Out) : Out :=
  let s := flushBcs s gid g
  if bcsLeft s gid || spadBusy s g then stall s gid 9 else withB s g (f s)
/-- The checks of a scratchpad access by lanes. -/
def chkSpAll (g : Group) (p : P) (b : Block) (n : Nat) (ls : List Nat) : List Acc :=
  ls.map (fun i =>
    let o := spOffset g p i
    { lane := i, va := wrap 64 o.1, c := chkSp b o.1 n o.2 })
/-- The lanes, helpers apart, whose scratchpad read meets a poisoned granule (R109, R300). -/
def spBad (g : Group) (h : Hdr) (b : Block) (n : Nat) (l : List Acc) : List Acc :=
  l.filter (fun a => !isHelper g h a.lane && (match a.c with | .ok o => spPoison b o n | _ => false))
/-- Fault 0x41 of a read of scratchpad, which has no physical address; its level is given as that of L1, whose array holds
the scratchpad (assumption log 100). -/
def raiseSpPoison (s : State) (gid : Nat) (once : Bool) (size op : Nat) (l : List Acc) : Out :=
  raise s gid 0x41 (recLanes once (laneSet (l.map (·.lane)))) (detMem (match l with | a :: _ => a.va | [] => 0) size op false 2 0)
def execLds (p : P) (s : State) : Out :=
  withG s (fun gid _ g => withSp s gid g (fun s b =>
    let ls := accLanes g p.h
    if ls.isEmpty then fin s gid p false
    else if slotsFull g then stall s gid 9
    else
      let n := sizeB p.t
      let l := chkSpAll g p b n ls
      verdictOut s gid p.h.uni p.t 0 1 (judge (l.filter (fun a => !isHelper g p.h a.lane)) false)
        (if !(spBad g p.h b n l).isEmpty then raiseSpPoison s gid p.h.uni p.t 0 (spBad g p.h b n l) else
         let ws := l.flatMap (fun a => loadWs p.d p.t a.lane (match a.c with | .ok o => if spPoison b o n then 0 else spRead b o n | _ => 0))
         let s := if p.order = 1 then acquire s gid g 0 else s
         fin (updG s gid (fun g => addSlot g ws)) gid p false)))
def execSts (p : P) (s : State) : Out :=
  withG s (fun gid _ g => withSp s gid g (fun s b =>
    let ls := accLanes g p.h
    if ls.isEmpty then fin s gid p false
    else
      let n := sizeB p.t
      let l := chkSpAll g p b n ls
      verdictOut s gid p.h.uni p.t 1 2 (judge l false)
        (let act := l.filter (fun a => !isHelper g p.h a.lane)
         let s := if p.order = 2 then releaseWrites s gid g 0 else s
         if !sbufRoom s g.core (act.map (·.va)) || (p.order = 2 && !releaseDone s gid g 0) then stall s gid 9
         else
           let s := act.foldl (fun s a => match a.c with
             | .ok o => updB s g.block (fun b => spWrite b o n (stData s g p a.lane))
             | _ => s) s
           let s := updB s g.block (fun b => spClear b (act.filterMap (fun a => match a.c with | .ok o => some (o, n) | _ => none)))
           fin (bcWake (sbufPush s g.core (act.map (·.va)) n) g.block) gid p false)))

/-! ### Atomics (R218 to R220) -/

/-- The width of an atomic type in bytes. -/
def atomB (t : Nat) : Nat := if is64 t then 8 else 4
/-- The register writes of one returned old value. -/
def atomWs (d : Dst) (t lane x : Nat) : List RegW :=
  match d with
  | .v false _ n =>
    if is64 t then [.v n.toNat lane (BitVec.ofNat 32 x), .v (n.toNat + 1) lane (BitVec.ofNat 32 (x / 2 ^ 32))]
    else [.v n.toNat lane (BitVec.ofNat 32 x)]
  | .s false _ n => [.s n.toNat (BitVec.ofNat 64 (uniBits t x))]
  | _ => []

/-- R219, R224: may a lane make an atomic access? Not inside an open transaction: it is aborted there with ILLEGAL. The one access of a
uniform form is inside when a lane of E has an open transaction, and each of those is aborted (assumption log 108). -/
def atomFree (g : Group) (h : Hdr) (lane : Nat) : Bool := (txLane g h lane).isNone
/-- The lanes whose transactions an atomic aborts. -/
def atomDoom (g : Group) (h : Hdr) (ls : List Nat) : Group := doomLanes g (if h.uni then lanesOf g.e else ls) 7
/-- R170: the lanes of a returning atomic that join the log behind an entry of their sector. -/
def logAtoms (p : P) (f : Nat) (cmp val : Nat → Nat) (l : List Acc) : List LogA :=
  l.map (fun a => { lane := a.lane, f := f, t := p.t, scope := p.scope + (if p.order = 1 || p.order = 3 then 4 else 0), va := a.va,
                    b := val a.lane, cmp := cmp a.lane,
                    dst := match p.d with | .v false _ n => some n.toNat | .s false _ n => some (1000 + n.toNat) | _ => none })
/-- The registers that lanes in the log will write. -/
def logDst (t : Nat) (l : List LogA) : List Nat :=
  (l.filterMap (·.dst)).eraseDups.flatMap (fun d => if d < 1000 && is64 t then [d, d + 1] else [d])
/-- R218: the new value of an atomic step: function 9 is cas, which writes b where the old value equals the compare value. -/
def atomStepNew (f t cmp b old : Nat) : Nat := if f = 9 then (if old = cmp then b else old) else atomNew f t old b
/-- atom and cas: f is the function, 9 for cas; cmp and val give a lane's compare value and operand. -/
def atomRun (p : P) (s : State) (op f : Nat) (cmp val : State → Group → Nat → Nat) : Out :=
  withG s (fun gid _ g =>
    let ls := accLanes g p.h
    if ls.isEmpty then fin s gid p true
    else if slotsFull g then stall s gid 9
    else
      let s := flushReds s gid g
      let n := atomB p.t
      let xs := ls.map (fun i => (i, effAddr0 g p i))
      let r := chkAll s g n (fun _ => [3]) xs
      verdictOut r.1 gid p.h.uni p.t op 4 (judge r.2 false)
        (let s := r.1
         let act := r.2.filter (fun a => !isHelper g p.h a.lane && atomFree g p.h a.lane)
         let now := act.filter (fun a => !inLog s g a.va)
         let lgd := act.filter (fun a => inLog s g a.va)
         let as := logAtoms p f (cmp s g) (val s g) lgd
         let es := logEntries s gid s.fresh g [] [] as none p.t
         let pr := now.foldl (fun (q : State × List (Nat × Nat × Nat)) a => match a.c with
           | .ok pa =>
             let x := execRead q.1 g (atomScope q.1 p.scope pa) pa n
             (x.1, if x.2.2 then q.2 ++ [(a.lane, a.va, pa)] else q.2)
           | _ => q) (s, [])
         if windowShut s (gPart s g) 0 (okPas now) then stall s gid 9
         else if !pr.2.isEmpty then raisePoison pr.1 gid g p.h.uni p.t op pr.2
         else
           let rel := p.order = 2 || p.order = 3
           let s := if rel then releaseWrites pr.1 gid g p.scope else pr.1
           if (rel && !releaseDone s gid g p.scope) || !logRoom s g es.length then stall s gid 9
           else
             let y := now.foldl (fun (q : State × List (Nat × Nat)) a => match a.c with
               | .ok pa =>
                 let x := atomStep q.1 gid g p.scope pa n (atomStepNew f p.t (cmp s g a.lane) (val s g a.lane)) p.t (val s g a.lane) true
                 (x.1, q.2 ++ [(a.lane, x.2.1)])
               | _ => q) (s, [])
             let s := if p.order = 1 || p.order = 3 then acquire y.1 gid g p.scope else y.1
             let old := fun i => ((y.2.find? (fun v => v.1 == i)).map (·.2)).getD 0
             let ws := (ls.filter (fun i => !lgd.any (fun a => a.lane == i))).flatMap (fun i => atomWs p.d p.t i (old i))
             let dl := fun (g : Group) => atomDoom g p.h ls
             if lgd.isEmpty then fin (updG s gid (fun g => addSlot (dl g) ws)) gid p true
             else
               let id := s.fresh
               let es := es.map (fun e => { e with id := id })
               let s := updCore { s with fresh := id + 1 } g.core (fun c => { c with log := c.log ++ es })
               fin (updG s gid (fun g => let g := dl g
                 { g with pend := g.pend ++ [{ ws := ws, ready := false, op := id, dst := logDst p.t as, slot := true }] })) gid p true))
/-- The value operand of an atomic. -/
def atomVal (s : State) (g : Group) (p : P) (lane : Nat) : Nat := srcPat s g (gConsts s g) 0 p.t p.b.opnd lane
def execAtom (p : P) (s : State) : Out := atomRun p s 2 p.f (fun _ _ _ => 0) (fun s g i => atomVal s g p i)
/-- b where the old value equals D bit for bit, the old value elsewhere. -/
def execCas (p : P) (s : State) : Out :=
  atomRun p s 4 9 (fun s g i => srcPat s g [] 0 p.t (dstSrc p.d) i) (fun s g i => atomVal s g p i)

/-- R218, R219: a reduction is queued and performed later; lanes to pages that are not present are logged. -/
def execRed (p : P) (s : State) : Out :=
  withG s (fun gid _ g =>
    let ls := accLanes g p.h
    if ls.isEmpty then fin s gid p true
    else
      let n := atomB p.t
      let xs := ls.map (fun i => (i, effAddr0 g p i))
      let r := chkAll s g n (fun _ => [1, 3]) xs
      let act0 := r.2.filter (fun a => atomFree g p.h a.lane)
      verdictOut r.1 gid p.h.uni p.t 3 4 (judge r.2 true)
        (let s := r.1
         let act := act0.filter (fun a => !isHelper g p.h a.lane)
         let lgd := act.filter (fun a => isNp a.c || inLog s g a.va)
         let now := act.filter (fun a => isOk a.c && !inLog s g a.va)
         let es := logEntries s gid s.fresh g [] (lgd.map (fun a => (p.f, p.t + 16 * p.scope, a.va, atomVal s g p a.lane))) [] none p.t
         if !logRoom s g es.length then logFull s gid p lgd
         else if !sbufRoom s g.core (act.map (·.va)) || windowFull s (gPart s g) 0 (okPas now) then stall s gid 9
         else
           let s := if p.order = 2 then releaseWrites s gid g p.scope else s
           if p.order = 2 && !releaseDone s gid g p.scope then stall s gid 9
           else
             let s := sbufPush (logLanes s g p es lgd) g.core (act.map (·.va)) n
             let rs : List RedP := now.filterMap (fun a => match a.c with
               | .ok pa => some { f := p.f, t := p.t, va := a.va, pa := pa, b := atomVal s g p a.lane, scope := p.scope }
               | _ => none)
             fin (updG s gid (fun g =>
               let g := atomDoom g p.h ls
               { g with reds := g.reds ++ rs })) gid p true))

/-- Atomics on scratchpad, ascending; a helper lane receives 0. R219 names atom, red and cas: in a lane with an open transaction atoms
takes effect at once like lds and sts (R215), and no lane is aborted (assumption log 109). -/
def execAtoms (p : P) (s : State) : Out :=
  withG s (fun gid _ g => withSp s gid g (fun s b =>
    let ls := accLanes g p.h
    if ls.isEmpty then fin s gid p true
    else if slotsFull g then stall s gid 9
    else
      let n := atomB p.t
      let l := chkSpAll g p b n ls
      verdictOut s gid p.h.uni p.t 2 4 (judge l false)
        (if !(spBad g p.h b n l).isEmpty then raiseSpPoison s gid p.h.uni p.t 2 (spBad g p.h b n l) else
         let rel := p.order = 2 || p.order = 3
         let s := if rel then releaseWrites s gid g 0 else s
         if rel && !releaseDone s gid g 0 then stall s gid 9 else
         let y := l.foldl (fun (q : Block × List (Nat × Nat)) a => match a.c with
           | .ok o =>
             if isHelper g p.h a.lane then (q.1, q.2 ++ [(a.lane, 0)])
             else
               let old := spRead q.1 o n
               (spWrite q.1 o n (atomNew p.f p.t old (atomVal s g p a.lane)), q.2 ++ [(a.lane, old)])
           | _ => q) (((gBlock s g).getD b), [])
         let s := bcWake (updB s g.block (fun _ => y.1)) g.block
         let s := if p.order = 1 || p.order = 3 then acquire s gid g 0 else s
         fin (updG s gid (fun g => addSlot g (y.2.flatMap (fun v => atomWs p.d p.t v.1 v.2)))) gid p true)))

/-- R220: the oldest reduction of a group is performed at its execution point. -/
def execRedPerformed (gid : Nat) (s : State) : Out := .next (exitCheck (popRed s gid) gid)

/-! ### Write-back on eviction (R208, R229) -/

/-- R208, R229: a sector leaves its cache, its dirty bytes written to the next level; a home sector's write-back of a granule
that the die cache holds in part reads HBM first, and meets an uncorrectable error or not. -/
def execStoreWriteBack (loc : CacheLoc) (sector : Nat) (uncorrectable : Bool) (s : State) : Out :=
  match loc with
  | .l1 pair => .next (if (mfind s.l1 (l1Key pair sector)).isSome then evictL1 s pair sector else s)
  | .die d => .next (if (mfind s.dc (dcKey d sector)).isSome then dropDc s d sector uncorrectable else s)

/-! ### Fences (R217) -/

/-- R217: kinds 0 .rel, 1 .acq, 2 .ar, 3 .sc. A release waits for the group's log entries and for acknowledgements. -/
def execFence (p : P) (s : State) : Out :=
  withG s (fun gid _ g =>
    if actsOnce g p.h then
      let rel := p.f != 1
      let s := if rel then releaseWrites s gid g p.scope else s
      if rel && !releaseDone s gid g p.scope then stall s gid 9
      else
        let s := if p.f != 0 then acquire s gid g p.scope else s
        fin s gid p false
    else fin s gid p false)

/-! ### Monitor waits (R221, R222) -/

/-- R221: the comparison of the word with the value, both of a type. -/
def mwCmp (f t m v : Nat) : Bool :=
  match f with
  | 6 => m &&& v != 0
  | 7 => m &&& v == 0
  | _ => cmpInt f (rdInt (tySigned t) (tyW t) m) (rdInt (tySigned t) (tyW t) v)
/-- What one compare at the home finds. -/
inductive MwR where
  | met (m : Nat)
  | unmet
  | verdict (v : Verdict)
  | poison (va pa : Nat)
  deriving DecidableEq, Repr
/-- R221: the checks, then one read at the home. -/
def mwTry (s : State) (g : Group) (va f t v : Nat) : State × MwR :=
  let n := tyW t / 8
  let r := chkVa s g va n [0]
  match r.2 with
  | .ok pa =>
    if windowShut r.1 (gPart s g) 0 [pa] then (r.1, .verdict .wait) else
    let x := execRead (sendAccess r.1 (gPart s g) 0 pa { kind := 1 } false) g 2 pa n
    if x.2.2 then (x.1, .poison va pa)
    else if mwCmp f t (ofBytes x.2.1) v then (x.1, .met (ofBytes x.2.1)) else (x.1, .unmet)
  | c => (r.1, .verdict (judge [{ lane := 0, va := va, c := c }] false))
/-- The register that mwait writes: 64 for none. -/
def mwDest (d : Dst) : Nat := (dstS d).getD 64
/-- R221: the wait ends: the word, the acquire, the region closed, on to the next instruction. -/
def mwDone (s : State) (gid : Nat) (g : Group) (t d m : Nat) (acq : Bool) (scope : Nat) : State :=
  let s := if acq then acquire s gid g scope else s
  updG s gid (fun g =>
    let g := if d < 64 then wrSn g d (if tySigned t then wrap 64 (toSigned (tyW t) m) else m) else g
    closeAt (goTo g (nextPc g.pc)) (nextPc g.pc))
/-- The outcome of a compare for a group that issues or waits. -/
def mwOut (r : State × MwR) (gid : Nat) (g : Group) (t d : Nat) (acq : Bool) (scope : Nat) (unmet : State → Out) : Out :=
  match r.2 with
  | .met m => .next (mwDone r.1 gid g t d m acq scope)
  | .unmet => unmet r.1
  | .verdict v => verdictOut r.1 gid true t 5 1 v (unmet r.1)
  | .poison va pa => raisePoison r.1 gid g true t 5 [(0, va, pa)]
def execMwait (p : P) (s : State) : Out :=
  withG s (fun gid _ g =>
    if !actsOnce g p.h then fin s gid p true
    else if slotsFull g then stall s gid 9
    else
      let s := flushReds s gid g
      let va := effAddr0 g p 0
      let v := match p.b.opnd with
        | .imm i => wrap (tyW p.t) i.toInt
        | x => srcPat s g [] 0 p.t x 0
      let s := updG s gid (fun g => { hintG (doomAll g 7) s.cycle p.h with burst := 0 })
      let d := mwDest p.d
      mwOut (mwTry s g va p.f p.t v) gid g p.t d (p.order == 1) p.scope (fun s =>
        .next (updG s gid (fun g => { g with st := .waiting (.mw va p.f p.t v d (p.order == 1).toNat p.scope) }))))
/-- A waiting monitor compares again: on a write applied at the home, or on a tick (R221, R222). -/
def mwPoll (gid : Nat) (s : State) : Out :=
  match mfind s.groups gid with
  | some g =>
    match g.st with
    | .waiting (.mw va f t v d acq scope) => mwOut (mwTry s g va f t v) gid g t d (acq == 1) scope (fun s => .next s)
    | _ => .next s
  | none => .next s
def execMwaitWriteWake (gid : Nat) (s : State) : Out := mwPoll gid s
def execMwaitTick (gid : Nat) (s : State) : Out := mwPoll gid s

/-! ### Transactions (R223 to R227) -/

def execTxbeg (p : P) (s : State) : Out :=
  withG s (fun gid _ g =>
    let ls := lanesOf (guardLanes g p.h)
    let f := fun (g : Group) => ls.foldl (fun g i =>
      if txOpen g i then doomLanes g [i] 8 else { g with tx := mset g.tx i {} }) g
    fin (updG (flushReds s gid g) gid f) gid p false)
/-- R223: a value outside 0 to 255 in a register raises trap 0x01 at execution. -/
def execTxabt (p : P) (s : State) : Out :=
  withG s (fun gid _ g =>
    let ls := lanesOf (guardLanes g p.h)
    let v := valN g p.a
    if ls.isEmpty then fin s gid p true
    else if 255 < v then trapIllegal s gid .txabt p
    else fin (updG s gid (fun g => { g with tx := g.tx.map (fun x =>
      if ls.contains x.1 && x.2.code = 0 then (x.1, { doom x.2 6 with value := v }) else x) })) gid p true)

/-- R226 step 1: does a lane lose to a lower lane that is still committing? -/
def txLoses (lo hi : Tx) : Bool :=
  let touch := fun (a b : List (Nat × Byte)) => a.any (fun x => b.any (fun y => x.1 == y.1))
  touch lo.writes (hi.reads ++ hi.writes) || touch lo.reads hi.writes
/-- R226 step 1: lanes in ascending order; the losers carry INGROUP. -/
def txInGroup (l : List (Nat × Tx)) (won : List Tx) : List (Nat × Tx) :=
  match l with
  | [] => []
  | (i, t) :: rest =>
    if t.code ≠ 0 then (i, t) :: txInGroup rest won
    else if won.any (fun w => txLoses w t) then (i, doom t 2) :: txInGroup rest won
    else (i, t) :: txInGroup rest (won ++ [t])
/-- R224: the status word of a lane. -/
def txStatus (t : Tx) : Nat := t.code + 256 * (if t.code = 6 then t.value else 0)
def txWs (reg : Option Nat) (l : List (Nat × Tx)) : List RegW :=
  match reg with | some n => l.map (fun x => .v n x.1 (BitVec.ofNat 32 (txStatus x.2))) | none => []
/-- R404: the lanes of a txend that abort. -/
def txAborts (l : List (Nat × Tx)) : Nat := (l.filter (fun x => x.2.code ≠ 0 && x.2.code != 12)).length
def execTxend (p : P) (s : State) : Out :=
  withG s (fun gid _ g =>
    let ls := lanesOf (guardLanes g p.h)
    if ls.isEmpty then fin s gid p true
    else
      let s := flushReds s gid g
      let reg := match p.d with | .v false _ n => some n.toNat | _ => none
      let l := txInGroup (ls.map (fun i =>
        let t := (mfind g.tx i).getD { code := 12 }
        (i, if g.hmask.getLsbD i then { t with writes := [] } else t))) []
      let shut := fun (g : Group) => { g with tx := g.tx.filter (fun x => !ls.contains x.1) }
      if l.all (fun x => x.2.code ≠ 0) then fin (updG (bumpCtr s (gPart s g) 0x0D (txAborts l)) gid (fun g => addPend (shut g) (txWs reg l))) gid p true
      else
        let f := takeFresh s
        fin (updG f.1 gid (fun g =>
          let g := { shut g with commits := g.commits ++ [{ ticket := f.2, reg := reg, lanes := l }] }
          match reg with
          | some n => { g with pend := g.pend ++ [{ ws := [], ready := false, op := f.2, dst := [n] }] }
          | none => g)) gid p true)

/-- The commit of a die with the lowest ticket: group and commit. -/
def nextCommit (s : State) (die : Nat) : Option (Nat × Commit) :=
  (s.groups.flatMap (fun x => if gDie x.2 == die then x.2.commits.map (fun c => (x.1, c)) else [])).foldl
    (fun r c => match r with | some b => if c.2.ticket < b.2.ticket then some c else r | none => some c) none
/-- One byte at .die, as validation reads it. -/
def dieByte (s : State) (die pa : Nat) : Byte := secByte (dieRead s die (sectorOf pa)).2.1 (pa % 128)
/-- R226 steps 3 and 4: validation by value, and the writes of the lanes that survive; an abort is counted (R404). -/
def execTxCommit (die : Nat) (s : State) : Out :=
  match nextCommit s die with
  | none => .next s
  | some (gid, c) =>
    match mfind s.groups gid with
    | none => .next s
    | some g =>
      let s := releaseWrites s gid g 1
      if !releaseDone s gid g 1 then .next s else
      let l := c.lanes.map (fun x =>
        if x.2.code = 0 && x.2.reads.any (fun b => dieByte s die b.1 != b.2) then (x.1, doom x.2 1) else x)
      let won := l.filter (fun x => x.2.code = 0)
      let ws := won.flatMap (fun x => x.2.writes)
      let s := ((ws.map (fun b => sectorOf b.1)).eraseDups).foldl (fun s sec =>
        let bs := ws.filter (fun b => sectorOf b.1 == sec)
        dieWrite (evictL1 s (gPair g) sec) die sec (coverMask sec (bs.map (fun b => (b.1, 1))))
          (bs.foldl (fun d b => overlay d (secData (b.1 % 128) [b.2]) (byteMask (b.1 % 128) 1)) 0) 0 (gTag s g) [gTag s g]) s
      let s := if won.isEmpty then s else acquire s gid g 1
      let s := bumpCtr s (gPart s g) 0x0D (txAborts l)
      .next (exitCheck (updG s gid (fun g => { g with
        commits := g.commits.filter (fun k => k.ticket != c.ticket),
        pend := g.pend.map (fun q => if q.op == c.ticket && !q.ready then { q with ws := txWs c.reg l, ready := true } else q) })) gid)

end Sys2Proof.Machine
end

