-- ==== Sys2Proof/Machine/Barrier.lean ====
section
/-! DEFINITION. Barriers and batches, opcodes 0x90 to 0x95 (R194 to R206). -/

namespace Sys2Proof.Machine

/-- R201: the limits of the operands; a count above the block's groups is illegal. -/
def barOk (s : State) (g : Group) (id c : Nat) : Bool :=
  id ≤ 15 && c ≤ 32 && (match gBlock s g with | some b => c ≤ b.ngroups | none => true)
/-- R201: the group's earlier writes are made visible at .blk, then the arrival is on its way, with a number that tells the
writes before it. -/
def barIssue (s : State) (gid : Nat) (g : Group) (id c : Nat) (sync : Bool) : State :=
  let s := flushBcs (releaseWrites s gid g 0) gid g
  updG { s with fresh := s.fresh + 1 } gid (fun g => { g with arrivals := g.arrivals ++ [{ id := id, count := c, sync := sync, stamp := s.fresh }] })
def execBarSync (p : P) (s : State) : Out :=
  withG s (fun gid _ g =>
    if !actsOnce g p.h then fin s gid p true
    else
      let id := valN g p.a
      let c := valN g p.b.opnd
      if barOk s g id c then
        .next (updG (barIssue s gid g id c true) gid (fun g => { hintG g s.cycle p.h with burst := 0, st := .waiting (.bar id) }))
      else trapIllegal s gid .barSync p)
def execBarArv (p : P) (s : State) : Out :=
  withG s (fun gid _ g =>
    if !actsOnce g p.h then fin s gid p true
    else
      let id := valN g p.a
      let c := valN g p.b.opnd
      if barOk s g id c then fin (barIssue s gid g id c false) gid p true
      else trapIllegal s gid .barArv p)
/-- R201: the oldest arrival of a group reaches its barrier, once its earlier writes are visible at .blk. -/
def execBarArrivalApplied (gid : Nat) (s : State) : Out :=
  match mfind s.groups gid with
  | some g => match g.arrivals with
    | a :: t =>
      if loggedBefore s gid g.core a.stamp || g.bcs.any (fun o => o.stamp < a.stamp) then .next s
      else .next (exitCheck (barArrive (updG s gid (fun g => { g with arrivals := t })) g.block a.id a.count) gid)
    | [] => .next s
  | none => .next s

/-- R196, R200: the record that a byte-counting instruction names, checked; then the instruction goes on. -/
def bcRun (p : P) (s : State) (o : Op) (lim : Nat) (close : Bool) (go : Nat → BitVec 10 → Group → Nat → Nat → Out) : Out :=
  withG s (fun gid busy g => withB s g (fun b =>
    if !actsOnce g p.h then fin s gid p close
    else if spadBusy s g then stall s gid 9
    else
      let v := valN g p.b.opnd
      if lim ≤ v then trapIllegal s gid o p
      else
        let x := spOffset g p 0
        let c := chkSp b x.1 16 x.2
        verdictOut s gid true 8 7 (if close then 2 else 1) (judge [{ lane := 0, va := wrap 64 x.1, c := c }] false)
          (match c with | .ok off => go gid busy g off v | _ => .next s)))
/-- bcset and bcadd: the change is applied later. -/
def bcIssue (p : P) (s : State) (o : Op) (f : Nat) : Out :=
  bcRun p s o (2 ^ 32) true (fun gid _ g off v =>
    let s := if f = 2 then releaseWrites s gid g 0 else s
    fin (updG { s with fresh := s.fresh + 1 } gid (fun g => { g with bcs := g.bcs ++ [{ f := f, off := off, n := v, stamp := s.fresh }] })) gid p true)
def execBcsetInit (p : P) (s : State) : Out := bcIssue p s .bcsetInit 0
def execBcsetExp (p : P) (s : State) : Out := bcIssue p s .bcsetExp 1
def execBcadd (p : P) (s : State) : Out := bcIssue p s .bcadd 2
/-- The oldest pending change of a group, when it is of the kind the step applies. -/
def bcStep (gid : Nat) (add : Bool) (s : State) : Out :=
  match mfind s.groups gid with
  | some g => match g.bcs with
    | o :: _ => if (o.f == 2) == add then .next (exitCheck (popBc s gid) gid) else .next s
    | [] => .next s
  | none => .next s
def execBcaddApplied (gid : Nat) (s : State) : Out := bcStep gid true s
def execBcsetApplied (gid : Nat) (s : State) : Out := bcStep gid false s
/-- R204: goes on when the record's phase differs from the operand. -/
def execBcwait (p : P) (s : State) : Out :=
  bcRun p s .bcwait (2 ^ 16) false (fun gid _ g off v =>
    let s := flushBcs s gid g
    if bcsLeft s gid then stall s gid 9 else
    match gBlock s g with
    | some b =>
      if (bcRead b off).phase = v then
        .next (updG s gid (fun g => { hintG g s.cycle p.h with burst := 0, st := .waiting (.bc off v) }))
      else fin (acquire s gid g 0) gid p false
    | none => .fault .noGroup)

/-- R199: closed batches of a group that are incomplete. -/
def openBatches (s : State) (gid : Nat) (g : Group) : Nat :=
  ((opsOf s gid).map (fun o => o.2.batch)).eraseDups.filter (fun b => b != g.batch) |>.length
def execBatf (p : P) (s : State) : Out :=
  withG s (fun gid _ g =>
    if !actsOnce g p.h then fin s gid p true
    else if 32767 ≤ openBatches s gid g && (opsOf s gid).any (fun o => o.2.batch == g.batch) then stall s gid 13
    else fin (updG s gid (fun g =>
      let g := match dstS p.d with | some n => wrSn g n g.batch | none => g
      { g with batch := (g.batch + 1) % 65536 })) gid p true)
def execBatw (p : P) (s : State) : Out :=
  withG s (fun gid _ g =>
    if !actsOnce g p.h then fin s gid p false
    else
      let n := valN g p.a
      if 65536 ≤ n then trapIllegal s gid .batw p
      else
        let t := if p.f = 0 then n else (g.batch + 2 * 65536 - 1 - n) % 65536
        if batMet s gid g t then fin (acquire s gid g 0) gid p false
        else .next (updG s gid (fun g => { hintG g s.cycle p.h with burst := 0, st := .waiting (.bat t) })))

end Sys2Proof.Machine
end

