-- ==== Sys2Proof/Machine/Page.lean ====
section
/-! DEFINITION. Page instructions, opcodes 0x7F to 0x82, the walk, the side log's replay and page migration (R158 to R181). -/

namespace Sys2Proof.Machine

/-- A context's address translated without regard to permissions, as icinv and pgq ask. -/
def lookupPa (s : State) (g : Group) (va : Nat) : Option Nat :=
  if 2 ^ 48 ≤ va then none else
  match (gExts s g).find? (fun t => t.covers va && !t.draining) with
  | some t => some (t.pa + (va - t.va))
  | none => match (walk s 4 (gCtx s g) va).1 with
    | .leaf e l _ => let t := leafTr 0 va e l; some (t.pa + (va - t.va))
    | .np _ _ => none

/-- R178: each lane's line, or one line for a uniform base, brought into L1 or the die cache; nothing is raised. -/
def execPfetch (p : P) (s : State) : Out :=
  withG s (fun gid _ g =>
    let ls := accLanes g p.h
    let ls := match p.a with | .s _ => ls.take 1 | _ => ls
    let s := ls.foldl (fun s i =>
      let va := effAddr0 g p i
      let r := gTranslate s g va 0
      match r.2 with
      | .ok pa =>
        let sec := pa / 256 * 2
        if p.f = 0 then (l1Fill (l1Fill r.1 (gPair g) sec).1 (gPair g) (sec + 1)).1
        else (dieRead (dieRead r.1 (gDie g) sec).1 (gDie g) (sec + 1)).1
      | _ => r.1) s
    fin s gid p false)

/-- R179: sectors of the pair's L1 between two addresses of a 64 KiB page leave it, and every group of the core drops its
prefetched copies of them, under whatever address and context it fetched them. -/
def invalPage (s : State) (g : Group) (lo hi page : Nat) : State :=
  match lookupPa s g (page * 2 ^ 16) with
  | none => s
  | some pa =>
    let a := max lo (page * 2 ^ 16)
    let b := min hi ((page + 1) * 2 ^ 16)
    let first := (pa + (a - page * 2 ^ 16)) / 128
    let last := (pa + (b - page * 2 ^ 16) + 127) / 128
    let secs := s.l1.filterMap (fun x =>
      if x.1 / 2 ^ 42 == gPair g && first ≤ x.1 % 2 ^ 42 && x.1 % 2 ^ 42 < last then some (x.1 % 2 ^ 42) else none)
    let s := secs.foldl (fun s sec => evictL1 s (gPair g) sec) s
    let ctx := gCtx s g
    let gone := fun (x : Group) (va : Nat) =>
      (gCtx s x == ctx && a / 128 ≤ va / 128 && va / 128 < (b + 127) / 128) ||
      (match lookupPa s x va with | some q => first ≤ q / 128 && q / 128 < last | none => false)
    { s with groups := s.groups.map (fun x =>
        if x.2.core == g.core then
          (x.1, { x.2 with sectors := x.2.sectors.filter (fun f => !gone x.2 f.1 || f.1 == x.2.pc / 128 * 128) })
        else x) }
def execIcinv (p : P) (s : State) : Out :=
  withG s (fun gid _ g =>
    if !actsOnce g p.h then fin s gid p true
    else
      let len := valN g p.b.opnd
      if 2 ^ 32 ≤ len then trapIllegal s gid .icinv p
      else
        let base := effAddr0 g p 0
        let n := if len = 0 then 0 else (base % 2 ^ 16 + len + 2 ^ 16 - 1) / 2 ^ 16
        fin ((rng (base / 2 ^ 16) n).foldl (fun s q => invalPage s g base (base + len) q) s) gid p true)

/-- R180: the answer of a page's home. What is left of the settled time is rounded up to a µs, and HomeDie and HomePkg are 0 for a
page of host memory: DESIGN CHOICE (assumption log 112). -/
def pgqVal (s : State) (g : Group) (va : Nat) : Nat :=
  let ctx := gCtx s g
  if 2 ^ 48 ≤ va then 0 else
  match (walk s 4 ctx va).1 with
  | .np _ _ => mkRec [(1, 1, (removeOver s ctx va).toNat)]
  | .leaf e l _ =>
    let t := leafTr ctx va e l
    let pa := t.pa + (va - t.va)
    if !paOk pa then 0 else
    let pg := getPage s t.pa
    mkRec [(0, 0, 1), (1, 1, (removeOver s ctx va || pg.moving.isSome).toNat), (3, 2, l), (9, 4, fld e 7 2),
      (10, 10, pg.settled.toNat), (13, 11, min pg.moves (migMaxEff (getPart s (ctx / 64)))),
      (17, 16, if isHost pa then 0 else homeDie pa), (25, 18, if isHost pa then 0 else paPkg pa), (26, 26, (isHost pa).toNat),
      (47, 32, (pg.settleLeft + 999) / 1000)]
def execPgq (p : P) (s : State) : Out :=
  withG s (fun gid _ g =>
    if actsOnce g p.h then fin (updG s gid (fun g' => pendS g' p.d (pgqVal s g (effAddr0 g p 0)))) gid p false
    else fin s gid p false)

/-! ### The way split (R175, R181) -/

/-- The blocks that hold resources of a pair: placed, not retired, not saved. -/
def pairBlocks (s : State) (pair : Nat) : List (Nat × Block) :=
  s.blocks.filter (fun x => x.2.pair == pair && !x.2.done && !x.2.saved)
/-- The saved blocks whose ways are still tagged in place (R74). -/
def taggedWays (s : State) (pair : Nat) : List (Nat × Block) :=
  s.blocks.filter (fun x => x.2.pair == pair && x.2.saved && x.2.tagWays != 0 && !x.2.done)
def sumNat (l : List Nat) : Nat := l.foldl (· + ·) 0
/-- The ways that a block holds: those that a wresz in progress asks for count already (R181). -/
def heldWays (b : Block) : Nat := max b.ways (match b.resize with | some r => r.1 | none => 0)
/-- R175: the least number of cache ways, with a further kernel's Ways. -/
def minWays (s : State) (pair extra : Nat) : Nat :=
  (pairBlocks s pair).foldl (fun r x => match mfind s.kernels x.2.kernel with
    | some k => max r (fld k.record 156 152) | none => r) (max 2 extra)
/-- Bytes of a record of the device, 32 bytes or less, put at its home (R233, R234, R319). -/
def recWrite (s : State) (pa n x : Nat) : State :=
  homePut s (sectorOf pa) (byteMask (pa % 128) n) (BitVec.ofNat 1024 (x % 2 ^ (8 * n) * 2 ^ (8 * (pa % 128)))) 0 0
/-- R379, R384: a write of bytes by a hart: on the flow of its class for another package, discarded where that cannot be reached. -/
def hartWrite (s : State) (part pa n x : Nat) : State :=
  if !reachable s pa then s
  else homeWrite (sendWrite s part 2 pa (toBytes n x) 0 0) (sectorOf pa) (byteMask (pa % 128) n) (secData (pa % 128) (toBytes n x)) 0 0
/-- A hart's atomic on 8 bytes: its operand goes out, the new value stands at the home. -/
def hartAtomic (s : State) (part pa b x : Nat) : State :=
  if !reachable s pa then s
  else homeWrite (sendAccess s part 2 pa { kind := 3, data := toBytes 8 b, put := toBytes 8 x, old := memBytes s pa 8, op := 3 } true)
    (sectorOf pa) (byteMask (pa % 128) 8) (secData (pa % 128) (toBytes 8 x)) 0 0
/-- A range of home memory set to 0. -/
def memZero (s : State) (pa n : Nat) : State :=
  { s with mem := s.mem.filter (fun c => !(pa ≤ c.1 && c.1 < pa + n)),
           veils := carve s.veils pa n,
           poison := s.poison.filter (fun x => !(ceilDiv pa 32 ≤ x.1 && x.1 < (pa + n) / 32)) }
/-- A folio's bytes, and no others (R238, R240), written into its storage, one granule after the other. -/
def putImage (s : State) (pa len bits : Nat) : State :=
  (List.range (ceilDiv len 32)).foldl (fun s i =>
    recWrite s (pa + 32 * i) (min 32 (len - 32 * i)) (fld bits (256 * i + 255) (256 * i))) s
/-- The context of a block. -/
def blockCtx (s : State) (b : Block) : Nat := match mfind s.kernels b.kernel with | some k => k.ctx | none => 0
/-- R73: the eight legend images of a context, an Empty slot's zero. -/
def legendsAt (s : State) (key pa : Nat) : State :=
  (getCtx s key).lg.foldl (fun s x => putImage s (pa + 512 * (x.1 % 8)) 512 x.2) (memZero s pa 4096)
/-- R287: the image of a tile: values, the working words, which are zero, and stickies. -/
def tileAt (s : State) (pa : Nat) (t : Tile) : State :=
  let s := t.val.foldl (fun s x => recWrite s (pa + 4 * x.1) 4 x.2.toNat) (memZero s pa 278528)
  t.stick.foldl (fun s x =>
    recWrite s (pa + 262144 + x.1 / 2) 1 ((mget 0 t.stick (x.1 / 2 * 2)).toNat + 16 * (mget 0 t.stick (x.1 / 2 * 2 + 1)).toNat)) s
/-- The tiles of a context that have been spilled. -/
def spilledTiles (s : State) (key : Nat) : List Tile :=
  (s.blocks.filter (fun b => b.2.saved && !b.2.tagTiles && blockCtx s b.2 == key)).flatMap (fun b =>
    (b.2.ac.map (·.2)).filter (fun t => !t.val.isEmpty || !t.stick.isEmpty))
/-- R73, R74: what a save or a spill writes into the context's save area: the legend images of a Saved context and its spilled tiles,
one after the other from a free place on; every other byte takes a free value, for the spec does not give the area's layout
(assumption log 11). -/
def saveVeil (s : State) (key : Nat) : State :=
  let d := ctxDesc s key
  let pa := fld d 191 128 / 4096 * 4096
  let size := 1024 * fld d 223 192
  let s := memVeil s pa size
  let lg := if (getCtx s key).st == .saved then 4096 else 0
  let ts := spilledTiles s key
  let need := lg + 278528 * ts.length
  if need = 0 || size < need then s
  else
    let at0 := pa + 32 * (Config.savePlace key % ((size - need) / 32 + 1))
    let s := if lg = 0 then s else legendsAt s key at0
    ts.zipIdx.foldl (fun s x => tileAt s (at0 + lg + 278528 * x.2) x.1) s
/-- R396: a save waits while the rate of the stack that holds its save area changes. -/
def saveWaits (s : State) (key : Nat) : Bool :=
  let pa := fld (ctxDesc s key) 191 128 / 4096 * 4096
  stackBusy s pa
/-- R74: n of a saved block's tagged ways are spilled to its save area. -/
def spillWays (s : State) (b n : Nat) : State :=
  match mfind s.blocks b with
  | none => s
  | some k => saveVeil (updB s b (fun k => { k with tagWays := k.tagWays - n })) (blockCtx s k)
/-- Tagged ways are spilled until a number of scratchpad ways fits beside the cache's minimum, and no more of them. -/
def claimWays (s : State) (pair used need minc : Nat) : State :=
  (taggedWays s pair).foldl (fun s x =>
    let over_ := used + need + minc + sumNat ((taggedWays s pair).map (fun y => y.2.tagWays)) - 16
    if over_ = 0 then s else spillWays s x.1 (min over_ x.2.tagWays)) s
/-- R181: the block resized: kept bytes below the smaller size, the rest zero. -/
def resize (b : Block) (ways : Nat) : Block :=
  let n := ways * 131072
  { b with size := n, ways := ways, resize := none, scratch := b.scratch.filter (fun x => x.1 < min b.size n),
           poison := b.poison.filter (fun x => 32 * x.1 < min b.size n),
           foots := b.foots.filter (fun f => f.2.all (· < min b.size n)) }
/-- The scratchpad ways of a pair's blocks other than one. -/
def otherWays (s : State) (pair b : Nat) : Nat :=
  sumNat (((pairBlocks s pair).filter (fun x => x.1 != b)).map (fun x => heldWays x.2))
/-- R181: does the scratchpad rest, for a wresz with a number: no earlier engine operation of the block, no earlier
byte-counting change? -/
def spadQuiet (s : State) (b id : Nat) : Bool :=
  !s.ops.any (fun o => o.2.block == b && o.1 < id) &&
  !s.groups.any (fun x => x.2.block == b && x.2.bcs.any (fun o => o.stamp < id))
/-- R181: the wresz of a block completes once its scratchpad rests: tagged ways are spilled, and a joining way's lines are
written back and invalidated. Which lines a way holds is not stated: the pair's whole L1 is emptied (assumption log 97). -/
def resizeStep (s : State) (b : Nat) : State :=
  match mfind s.blocks b with
  | none => s
  | some k => match k.resize with
    | none => s
    | some (n, id) =>
      if !spadQuiet s b id || (taggedWays s k.pair).any (fun x => saveWaits s (blockCtx s x.2)) then s else
      let s := claimWays s k.pair (otherWays s k.pair b) n (minWays s k.pair 0)
      let s := if n ≤ k.ways then s else
        (s.l1.filter (fun x => x.1 / 2 ^ 42 == k.pair)).foldl (fun s x => evictL1 s k.pair (x.1 % 2 ^ 42)) s
      let s := updB s b (fun k => resize k n)
      { s with groups := s.groups.map (fun x => if x.2.block == b then
          (x.1, { x.2 with pend := x.2.pend.map (fun q => if q.op == id && !q.ready then { q with ready := true } else q) }) else x) }
/-- R181: RANGE, BUSY and NOROOM at once; otherwise the resize is in progress until the scratchpad rests, and its status
follows then. -/
def execWresz (p : P) (s : State) : Out :=
  withG s (fun gid _ g => withB s g (fun b =>
    if !actsOnce g p.h then fin s gid p true
    else
      let n := valN g p.a
      let done := fun (st : Nat) => fin (updG s gid (fun g => pendS g p.d st)) gid p true
      if 14 < n then done 3
      else if b.resize.isSome then done 2
      else if 16 < otherWays s (gPair g) g.block + n + minWays s (gPair g) 0 then done 1
      else
        let f := takeFresh s
        let s := updB f.1 g.block (fun b => { b with resize := some (n, f.2) })
        fin (updG s gid (fun g => { g with pend := g.pend ++
          [{ ws := (match dstS p.d with | some d => [.s d 0] | none => []), ready := false, op := f.2 }] })) gid p true))

/-! ### The walk and the side log (R166, R169, R170) -/

/-- The register writes of a lane's atomic that waited in the log. -/
def logAWs (a : LogA) (x : Nat) : List RegW :=
  match a.dst with
  | none => []
  | some n =>
    if 1000 ≤ n then [.s (n - 1000) (BitVec.ofNat 64 (uniBits a.t x))]
    else if is64 a.t then [.v n a.lane (BitVec.ofNat 32 x), .v (n + 1) a.lane (BitVec.ofNat 32 (x / 2 ^ 32))]
    else [.v n a.lane (BitVec.ofNat 32 x)]
/-- R170: one lane of an atomic of an entry is performed; what it returns joins the instruction's result. One that meets poison
stops its group where it is (R228, assumption log 94). -/
def replayAtom (s : State) (gid id : Nat) (pa : Nat) (a : LogA) : State :=
  match mfind s.groups gid with
  | none => s
  | some g =>
    let pa := pa + a.va % 128
    let n := atomB a.t
    let x := atomStep s gid g (a.scope % 4) pa n (atomStepNew a.f a.t a.cmp a.b) a.t a.b true
    if x.2.2 then
      takeFault x.1 gid 0x41 none (2 ^ a.lane) (detMem a.va a.t (if a.f = 9 then 4 else 2) false (poisonLevel x.1 (gPair g) pa) (pa / 32 * 32))
    else
      let s := if 4 ≤ a.scope then acquire x.1 gid g (a.scope - 4) else x.1
      updG s gid (fun g => { g with pend := g.pend.map (fun q =>
        if q.op == id && !q.ready then { q with ws := q.ws ++ logAWs a x.2.1 } else q) })
/-- R170: one logged entry tried against the present page table: none when it must stay. The bytes of a release store go on to its
release point (R209). A leaf that forbids the replay freezes the group; the record's Target is the base of the entry's sector
(assumption log 110). -/
def replayOne (s : State) (core : Nat) (e : LogE) : State × Bool :=
  match mfind s.groups e.gid with
  | none => (s, true)
  | some g =>
    let needs := (if e.bytes.isEmpty then [] else [1]) ++ (if e.reds.isEmpty then [] else [1, 3]) ++ (if e.atoms.isEmpty then [] else [3])
    let r := needs.foldl (fun (q : State × TrR) n => match q.2 with
      | .ok _ => translate q.1 core e.ctx [] e.va n | _ => q) (s, .ok 0)
    match r.2 with
    | .ok pa =>
      if windowFull r.1 (gPart s g) 0 (List.replicate (e.bytes.length + e.reds.length + e.atoms.length) pa) then (r.1, false) else
      let rs := runs (e.bytes.map (fun b => (pa + b.1, b.2)))
      let s := rs.foldl (fun s x => storeOne s g x.1 x.2 false e.size) r.1
      let s := clearCovered s g (rs.map (fun x => (x.1, x.2.length))) false
      let s := match e.rel with | some sc => rs.foldl (fun s x => writeThrough s g sc x.1) s | none => s
      let s := e.reds.foldl (fun s d => performRed s e.gid
        { f := d.1, t := d.2.1 % 16, scope := d.2.1 / 16, va := d.2.2.1, pa := pa + d.2.2.1 % 128, b := d.2.2.2 }) s
      (e.atoms.foldl (fun s a => replayAtom s e.gid e.id pa a) s, true)
    | .forbid k =>
      if g.frz.isSome then (r.1, false)
      else (freezeGroup r.1 e.gid (if k = 2 then 2 else 1) e.va (if e.bytes.isEmpty then 4 else 2), false)
    | _ => (r.1, false)
/-- The atomic of a number has its whole result once no entry of the log holds a lane of it. -/
def atomsArrive (s : State) (core : Nat) (ids : List Nat) : State :=
  let left := (getCore s core).log.filterMap (fun e => if e.atoms.isEmpty then none else some e.id)
  { s with groups := s.groups.map (fun x => if x.2.core == core then
      (x.1, { x.2 with pend := x.2.pend.map (fun q =>
        if !q.ready && ids.contains q.op && !left.contains q.op then { q with ready := true } else q) }) else x) }
/-- R170: the entries of a core's log that a test selects, in log order; an entry stays behind an earlier one of its page
that stays. -/
def replayLog (s : State) (core : Nat) (sel : LogE → Bool) : State :=
  let old := (getCore s core).log
  let r := old.foldl (fun (q : State × List LogE) e =>
    if sel e && !q.2.any (fun k => k.ctx == e.ctx && samePage s e.ctx k.va e.va) then
      (let x := replayOne q.1 core e
       (x.1, if x.2 then q.2 else q.2 ++ [e]))
    else (q.1, q.2 ++ [e])) (s, [])
  let gids := (old.map (·.gid)).eraseDups
  let s := atomsArrive (updCore r.1 core (fun c => { c with log := r.2 })) core
    (old.filterMap (fun e => if e.atoms.isEmpty then none else some e.id))
  gids.foldl exitCheck s

/-- R166: a walk installs its translation unless a Remove or a move covers it; a good leaf replays the page's logged writes. -/
def execWalkComplete (core ctx va : Nat) (s : State) : Out :=
  if 2 ^ 48 ≤ va || removeOver s ctx va || walkDrains s (coreDie core) ctx va then .next s
  else match walk s (coreDie core) ctx va with
    | (.np _ _, acc) => .next (addWalkc s (coreDie core) acc)
    | (.leaf e l _, acc) =>
      let t := leafTr ctx va e l
      let s := addWalkc s (coreDie core) acc
      if movingAt s t.pa then .next s else
      let s := updCore s core (fun c => { c with tlb := (t :: c.tlb.filter (fun u => !(u.ctx == ctx && u.va == t.va))).take 512 })
      .next (replayLog s core (fun x => x.ctx == ctx && t.covers x.va))
/-- R170: every 65,536 cycles the core's logged pages are walked again. -/
def execSideLogRetryTick (core : Nat) (s : State) : Out :=
  if (getCore s core).log.isEmpty then .next s else .next (replayLog s core (fun _ => true))

/-! ### Migration (R172 to R174) -/

def execMigCountClear (s : State) : Out :=
  .next { s with pages := s.pages.map (fun x => (x.1, { x.2 with counts := [] })) }

/-- Every cached byte of a physical range goes home: from the L1s, then from the guest copies, then from the home die cache. -/
def flushRange (s : State) (lo len : Nat) : State :=
  let inR := fun (k : Nat) => lo / 128 ≤ k % 2 ^ 42 && k % 2 ^ 42 < (lo + len) / 128
  let s := (s.l1.filter (fun x => inR x.1)).foldl (fun s x => evictL1 s (x.1 / 2 ^ 42) (x.1 % 2 ^ 42)) s
  let guest := fun (k : Nat) => isGuest s (k / 2 ^ 42) (k % 2 ^ 42)
  let s := (s.dc.filter (fun x => inR x.1 && guest x.1)).foldl (fun s x => evictDc s (x.1 / 2 ^ 42) (x.1 % 2 ^ 42)) s
  (s.dc.filter (fun x => inR x.1)).foldl (fun s x => evictDc s (x.1 / 2 ^ 42) (x.1 % 2 ^ 42)) s
/-- Memory of a range copied to another: bytes, bytes without a value, poison and writer tags. -/
def memCopy (s : State) (src dst len : Nat) : State :=
  let inR := fun (b a n : Nat) => b ≤ a && a < b + n
  let s := (s.ecc.filter (fun x => inR (src / 32) x.1 (len / 32))).foldl (fun s x => eccTouch s x.1) s
  let cells := s.mem.filter (fun c => inR src c.1 len)
  let base := s.mem.filter (fun c => !inR dst c.1 len)
  let vs := s.veils.filterMap (fun v =>
    let a := max v.lo src
    let b := min (v.lo + v.len) (src + len)
    if a < b then some { v with lo := a - src + dst, len := b - a, org := v.org + src - dst } else none)
  let mv := fun {α : Type} (m : AMap α) =>
    (m.filter (fun x => inR (src / 32) x.1 (len / 32))).foldl (fun r x => mset r (x.1 - src / 32 + dst / 32) x.2)
      (m.filter (fun x => !inR (dst / 32) x.1 (len / 32)))
  let fresh := (s.poison.filter (fun x => inR (src / 32) x.1 (len / 32) && mfind s.poison (x.1 - src / 32 + dst / 32) != some true)).length
  let s := if isLocal s dst && fresh != 0 then updStack s (stackOf dst) (fun k => { k with poisoned := (k.poisoned + fresh) % 2 ^ 32 }) else s
  { s with mem := cells.foldl (fun m c => mput 0 m (c.1 - src + dst) c.2) base,
           veils := vs ++ carve s.veils dst len,
           poison := mv s.poison, foundDc := s.foundDc.filter (fun x => !inR (dst / 32) x.1 (len / 32)), tags := mv s.tags, ecc := s.ecc.filter (fun x => !inR (dst / 32) x.1 (len / 32)) }
/-- A frame goes to a partition's migration pool, unless the pool of its die and size is full (R172). -/
def poolFrame (s : State) (part die size frame : Nat) : State :=
  updPart s part (fun q =>
    if 256 ≤ (q.migPool.filter (fun e => e.1 == die && e.2.1 == size)).length then q
    else { q with migPool := q.migPool ++ [(die, size, frame)] })
/-- R173 step 3: is a write translated under the old mapping still on its way: of a transfer command that publishes, or of
a transaction that commits? -/
def moveBusy (s : State) (page len : Nat) : Bool :=
  let inP := fun (a : Nat) => page ≤ a && a < page + len
  s.ops.any (fun x => x.2.st == .publishing &&
    (x.2.staged.any (fun b => !b.spad && inP b.addr) || x.2.units.any (fun u => inP u.1 || (match u.2 with | some a => inP a | none => false)))) ||
  s.groups.any (fun x => x.2.commits.any (fun c => c.lanes.any (fun l => (l.2.reads ++ l.2.writes).any (fun b => inP b.1))))
/-- R379: the copy of a page to a frame of another package: flits of class 4 of 240 bytes each, which have all arrived when the copy is
done. -/
def sendCopy (s : State) (part frame len : Nat) : State :=
  if !isFar s frame then s
  else
    let n := ceilDiv len 240
    let t := (mfind s.flowsT (flowKey (paPkg frame) (8 * part + 4))).getD {}
    bumpCtr { s with flowsT := mset s.flowsT (flowKey (paPkg frame) (8 * part + 4)) { t with next := (t.next + n) % 2 ^ 24 } } part 0x0B n
/-- Every reduction that would reach the page is performed. -/
def popRange (s : State) (page len : Nat) : State :=
  s.groups.foldl (fun s x => if x.2.reds.any (fun d => page ≤ d.pa && d.pa < page + len) then popReds s x.1 x.2.reds.length else s) s
end Sys2Proof.Machine
end

