-- ==== Sys2Proof/Machine/Codec.lean ====
section
/-! DEFINITION. Matrix formats (R18 to R23), legends (R242, R243), folios and their segments (R237 to R241, R244, R277) and
the checks of a Loupe (R246, R252): functions on numbers and bytes, without state. -/

namespace Sys2Proof.Machine

/-! ### Formats (R18, R22, R264) -/

/-- R18, R264: the element width of a format code. -/
def fmtBits (c : Nat) : Nat :=
  if [0x00, 0x01, 0x22].contains c then 16
  else if [0x04, 0x05, 0x0E, 0x0F, 0x13].contains c then 6
  else if [0x06, 0x09, 0x0A, 0x10, 0x12, 0x14].contains c then 4
  else if c = 0x0B then 2
  else if c = 0x20 || c = 0x23 then 32
  else if c = 0x24 then 64
  else 8
/-- R23: the block length, 0 for a format without scales. -/
def fmtBlk (c : Nat) : Nat := if 0x0C ≤ c && c ≤ 0x11 then 32 else if (0x12 ≤ c && c ≤ 0x15) || c = 0x17 then 16 else 0
/-- R24: the integer formats. -/
def fmtInt (c : Nat) : Bool := 0x07 ≤ c && c ≤ 0x0B
/-- R18: products per cell per cycle. -/
def fmtProd (c : Nat) : Nat := match fmtBits c with | 16 => 1 | 8 => 2 | 6 => 2 | _ => 8
/-- R19, R20: the exact value of an element code. -/
def elemV (c x : Nat) : FV :=
  let i := fun (w : Nat) (e : Int) => let v := toSigned w x; FV.fin (decide (v < 0)) v.natAbs e
  match c with
  | 0x00 => decodeF bf16 x
  | 0x01 => decodeF f16 x
  | 0x02 | 0x0C | 0x17 => decodeF e4m3 x
  | 0x03 | 0x0D => decodeF e5m2 x
  | 0x04 | 0x0E => decodeF e3m2 x
  | 0x05 | 0x0F | 0x13 => decodeF e2m3 x
  | 0x06 | 0x10 | 0x12 => decodeF e2m1 x
  | 0x07 | 0x15 => i 8 0
  | 0x08 => .fin false (x % 256) 0
  | 0x09 | 0x14 => i 4 0
  | 0x0A => .fin false (x % 16) 0
  | 0x0B => i 2 0
  | 0x11 => i 8 (-6)
  | 0x16 => decodeF e3m4 x
  | _ => decodeF f32 x
/-- R20: the integer of an element in integer mode. -/
def elemI (c x : Nat) : Int :=
  match c with
  | 0x07 => toSigned 8 x | 0x08 => (x % 256 : Nat) | 0x09 => toSigned 4 x | 0x0A => (x % 16 : Nat) | _ => toSigned 2 x
/-- R22, R23: the value of a scale byte under a format. -/
def scaleV (c s : Nat) : FV := if fmtBlk c = 32 then decodeE8M0 s else decodeUE4M3 s
/-- R23: an element under its scale. -/
def scaled (c x s : Nat) : FV := mulV (scaleV c s) (elemV c x)

/-! ### Legends (R242, R243) -/

def lgOrder (img i : Nat) : Nat := fld img (8 * i + 7) (8 * i)
def lgCount (img n : Nat) : Nat := fld img (2048 + 9 * (n - 1) + 8) (2048 + 9 * (n - 1))
def lgTag (img : Nat) : Nat := fld img 2175 2160
def lgTotal (img : Nat) : Nat := sumNat ((rng 1 12).map (lgCount img))
/-- R242: is an image valid? -/
def lgValid (img : Nat) : Bool :=
  let a := fld img 2183 2176 + 1
  let k := lgTotal img
  let ord := (List.range k).map (lgOrder img)
  lgTag img != 0 && fld img 2159 2156 == 0 && fld img 4095 2184 == 0 &&
  (rng 1 12).all (fun n => lgCount img n ≤ 256) && 1 ≤ k && k ≤ a &&
  sumNat ((rng 1 12).map (fun n => lgCount img n * 2 ^ (12 - n))) ≤ 4096 &&
  ord.eraseDups.length == k && ord.all (· < a) && (rng k (256 - k)).all (fun i => lgOrder img i == 0)
/-- A code word: symbol, code, length. -/
structure CodeW where
  sym : Nat
  code : Nat
  len : Nat
  deriving DecidableEq, Repr
/-- R243: the codes of length n from a first code and a first index on. -/
def lgCodesAt (img n code i : Nat) : List CodeW :=
  (List.range (lgCount img n)).map (fun c => { sym := lgOrder img (i + c), code := code + c, len := n })
def lgCodesFrom (img n left code i : Nat) : List CodeW :=
  match left with
  | 0 => []
  | l + 1 => lgCodesAt img n code i ++ lgCodesFrom img (n + 1) l (2 * (code + lgCount img n)) (i + lgCount img n)
/-- R243: the canonical code. -/
def lgCodes (img : Nat) : List CodeW := lgCodesFrom img 1 12 0 0
def codeOf (cs : List CodeW) (sym : Nat) : Option CodeW := cs.find? (fun w => w.sym == sym)

/-! ### Bit streams (R239) -/

/-- A code as stream bits, most significant bit first, as a number whose bit k is stream bit k. -/
def streamBits (len code : Nat) : Nat := revW len code
/-- Pieces (bits, length) laid one behind the other. -/
def joinBits (l : List (Nat × Nat)) : Nat × Nat := l.foldl (fun r x => (r.1 + x.1 * 2 ^ r.2, r.2 + x.2)) (0, 0)
/-- The n bits of a stream at a position, the first one most significant. -/
def windowAt (img pos n : Nat) : Nat := revW n (img >>> pos % 2 ^ n)
/-- A code word at a position, from a 12-bit window (R246). -/
def codeAt (cs : List CodeW) (img pos : Nat) : Option CodeW :=
  let w := windowAt img pos 12
  cs.find? (fun c => w / 2 ^ (12 - c.len) == c.code)

/-! ### Symbols (R237) -/

/-- Width of a symbol and elements per symbol. -/
def symW (c : Nat) : Nat := if fmtBits c = 6 then 6 else 8
def symPer (c : Nat) : Nat := match fmtBits c with | 4 => 2 | 2 => 4 | _ => 1
/-- Elements into symbols, and the raw section. -/
def packSyms (w k : Nat) (els : List Nat) (fuel : Nat) : List Nat :=
  match fuel, els with
  | _, [] => []
  | 0, _ => []
  | f + 1, els => (joinBits ((els.take k).map (fun x => (x % 2 ^ w, w)))).1 :: packSyms w k (els.drop k) f
def toSyms (c : Nat) (els : List Nat) : List Nat :=
  match fmtBits c with
  | 16 => els.map (fun x => x / 256 % 256)
  | 4 => packSyms 4 2 els els.length
  | 2 => packSyms 2 4 els els.length
  | _ => els
def rawSec (c : Nat) (els : List Nat) : List Nat := if fmtBits c = 16 then els.map (· % 256) else []
/-- Symbols and raw section back into elements. A 6-bit symbol that a legend makes larger than 63 has no stated element
(assumption log 3). -/
def fromSyms (c : Nat) (syms raw : List Nat) : List Nat :=
  match fmtBits c with
  | 16 => syms.zipIdx.map (fun x => 256 * x.1 + raw.getD x.2 0)
  | 6 => syms.map (fun x => if x < 64 then x else (Config.wideSymbol x).toNat)
  | 4 => syms.flatMap (fun x => [x % 16, x / 16])
  | 2 => syms.flatMap (fun x => [x % 4, x / 4 % 4, x / 16 % 4, x / 64])
  | _ => syms

/-! ### Tile folios (R238, R244, R246) -/

/-- R238: the length of the scale section. -/
def scaleLen (c : Nat) : Nat := match fmtBlk c with | 32 => 128 | 16 => 256 | _ => 0
/-- R237: symbols of a tile. -/
def tileSyms (c : Nat) : Nat := 4096 / symPer c
/-- R241: symbols of a slot of n bytes. -/
def segSyms (c n : Nat) : Nat := match fmtBits c with | 16 => n / 2 | 6 => 8 * n / 6 | _ => n
def rawLen (c : Nat) : Nat := if fmtBits c = 16 then 4096 else 0

/-- A folio as bytes: its bits as a number, its length, its tag (0 when stored) and its CRC (R235). -/
structure Fol where
  bits : Nat
  len : Nat
  tag : Nat
  crc : Nat
  segs : Nat := 0
  deriving DecidableEq, Repr

/-- R246: CRC-16, polynomial 0x1021, initial 0xFFFF, most significant bit first. -/
def crcBit (r : Nat) : Nat := if 0x8000 ≤ r then (r * 2 % 65536) ^^^ 0x1021 else r * 2
def crcByte (r b : Nat) : Nat := crcBit (crcBit (crcBit (crcBit (crcBit (crcBit (crcBit (crcBit (r ^^^ (b * 256)))))))))
def crc16 (bits n : Nat) : Nat := (List.range n).foldl (fun r i => crcByte r (fld bits (8 * i + 7) (8 * i))) 0xFFFF

/-- The pieces of substream s, coded or plain; none when a symbol has no code. -/
def subPieces (cs : Option (List CodeW)) (w : Nat) (syms : List Nat) : Option (List (Nat × Nat)) :=
  match cs with
  | none => some (syms.map (fun x => (streamBits w x, w)))
  | some cs => if syms.all (fun x => (codeOf cs x).isSome) then
      some (syms.filterMap (fun x => (codeOf cs x).map (fun c => (streamBits c.len c.code, c.len)))) else none
def substream (l : List Nat) (s : Nat) : List Nat := (l.zipIdx.filter (fun x => x.2 % 64 == s)).map (·.1)
/-- Every substream of a tile under a code, as (bits, length). -/
def tileStreams (cs : Option (List CodeW)) (w : Nat) (syms : List Nat) : Option (List (Nat × Nat)) :=
  let l := (List.range 64).map (fun s => (subPieces cs w (substream syms s)).map joinBits)
  if l.all Option.isSome then some (l.filterMap id) else none
/-- R238, R244: the folio of a tile: coded with a legend where that is allowed and shorter, stored otherwise. -/
def makeTile (c tensor row col slot orient : Nat) (lg : Option Nat) (els scales : List Nat) : Fol :=
  let syms := toSyms c els
  let w := symW c
  let plain := (tileStreams none w syms).getD []
  let coded := match lg with
    | some img => (tileStreams (some (lgCodes img)) w syms).filter (fun (l : List (Nat × Nat)) => sumNat (l.map (fun (x : Nat × Nat) => x.2)) < syms.length * w)
    | none => none
  let st := coded.getD plain
  let tag := match coded, lg with | some _, some img => lgTag img | _, _ => 0
  let sl := scaleLen c
  let head := mkRec ([(7, 0, c), (10, 8, slot), (11, 11, coded.isNone.toNat), (15, 12, 1), (31, 16, tag), (63, 32, tensor),
    (79, 64, row), (95, 80, col), (106, 96, sl), (107, 107, orient)] ++
    st.zipIdx.map (fun x => (128 + 10 * x.2 + 9, 128 + 10 * x.2, x.1.2)))
  let body := joinBits st
  let nb := ceilDiv body.2 8
  let sc := (joinBits ((List.range sl).map (fun i => (scales.getD i 0, 8)))).1
  let raw := (joinBits ((rawSec c els).map (fun x => (x, 8)))).1
  let bits := head + sc * 2 ^ 768 + body.1 * 2 ^ (8 * (96 + sl)) + raw * 2 ^ (8 * (96 + sl + nb))
  let len := 96 + sl + nb + rawLen c
  { bits := bits, len := len, tag := tag, crc := crc16 bits len }

/-- What a Loupe compares a folio's header with: the entry's fields (none for a gathered image). -/
structure Ent where
  fmt : Nat
  tensor : Nat
  row : Nat
  col : Nat
  len : Nat
  tag : Nat
  crc : Nat
  gen : Nat
  deriving DecidableEq, Repr

/-- R252: the detail of a folio fault. -/
def folDetail (tensor row col stream port off reason slot append gen tag stag opc : Nat) : Nat :=
  mkRec [(31, 0, tensor), (47, 32, row), (63, 48, col), (69, 64, stream), (71, 70, port), (89, 72, off), (99, 96, reason),
    (102, 100, slot), (103, 103, append), (135, 104, gen), (151, 136, tag), (167, 152, stag), (175, 168, opc)]

/-- What a Loupe finds wrong: fault code, reason, stream and bit offset. -/
structure LErr where
  code : Nat := 0x21
  reason : Nat
  stream : Nat := 0
  off : Nat
  deriving DecidableEq, Repr
/-- The detail of a Loupe's finding. -/
def loupeDetail (e : Option Ent) (bits port opc : Nat) (lg : Option Nat) (append : Nat) (x : LErr) : Nat :=
  let id := match e with
    | some e => (e.tensor, e.row, e.col, e.gen)
    | none => (fld bits 63 32, fld bits 79 64, fld bits 95 80, 0)
  folDetail id.1 id.2.1 id.2.2.1 x.stream port x.off x.reason (fld bits 10 8) append id.2.2.2 (fld bits 31 16)
    (match lg with | some img => lgTag img | none => 0) opc

/-- R246 check 1: the lowest bad field of a header; `kind` is 1 for a tile folio, 2 for an append-mode folio. -/
def badHeader (e : Option Ent) (kind bits : Nat) : Option Nat :=
  let c := fld bits 7 0
  let own := if kind = 1 then [(96, fld bits 106 96 != scaleLen c), (108, fld bits 127 108 != 0)]
    else [(104, fld bits 255 104 != 0)]
  let ent := match e with
    | some e => [(32, fld bits 63 32 != e.tensor), (64, fld bits 79 64 != e.row), (80, fld bits 95 80 != e.col)]
    | none => []
  let fmtBad := 0x17 < c || (match e with | some e => c != e.fmt | none => false)
  (((0, fmtBad) :: (12, fld bits 15 12 != kind) :: ent ++ own).find? (·.2)).map (·.1)
/-- R246 checks 1 and 2. -/
def headErr (e : Option Ent) (kind bits : Nat) (lg : Option Nat) : Option LErr :=
  match badHeader e kind bits with
  | some off => some { reason := 4, off := off }
  | none =>
    if bitAt bits 11 then none
    else match lg with
      | none => some { code := 0x23, reason := 8, off := 0 }
      | some img =>
        if fld bits 31 16 != lgTag img || (match e with | some e => fld bits 31 16 != e.tag | none => false)
        then some { reason := 2, off := 16 } else none

/-- Symbols decoded one after the other from a position: the symbols and the position behind them, or the bad window. -/
def decodeSyms (cs : Option (List CodeW)) (w bits pos n : Nat) : Except Nat (List Nat × Nat) :=
  match n with
  | 0 => .ok ([], pos)
  | k + 1 =>
    match cs with
    | none => (match decodeSyms none w bits (pos + w) k with
      | .ok (l, q) => .ok (windowAt bits pos w :: l, q) | .error q => .error q)
    | some t => match codeAt t bits pos with
      | none => .error pos
      | some c => (match decodeSyms (some t) w bits (pos + c.len) k with
        | .ok (l, q) => .ok (c.sym :: l, q) | .error q => .error q)

/-- A decoded tile: element codes in row-major order and its scale bytes. -/
structure TileD where
  els : List Nat
  scales : List Nat
  deriving DecidableEq, Repr

/-- R239: where substream s starts. -/
def subStart (bits sl s : Nat) : Nat := 8 * (96 + sl) + sumNat ((List.range s).map (fun t => fld bits (128 + 10 * t + 9) (128 + 10 * t)))
/-- R246 on a tile folio: the elements, or the first failure. -/
def readTile (e : Option Ent) (bits : Nat) (lg : Option Nat) : Except LErr TileD :=
  match headErr e 1 bits lg with
  | some x => .error x
  | none =>
    let c := fld bits 7 0
    let sl := scaleLen c
    let per := tileSyms c / 64
    let cs := if bitAt bits 11 then none else some (lgCodes (lg.getD 0))
    let rs := (List.range 64).map (fun s => (s, decodeSyms cs (symW c) bits (subStart bits sl s) per))
    match rs.findSome? (fun r => match r.2 with | .error q => some (r.1, q) | .ok _ => none) with
    | some (s, q) => .error { reason := 0, stream := s, off := q }
    | none =>
      let got := rs.filterMap (fun r => match r.2 with | .ok x => some (r.1, x) | .error _ => none)
      match got.find? (fun r => r.2.2 != subStart bits sl (r.1 + 1)) with
      | some r => .error { reason := 1, stream := r.1, off := r.2.2 }
      | none =>
        let nb := ceilDiv (subStart bits sl 64) 8
        let len := nb + rawLen c
        if (match e with | some e => len != e.len | none => false) then .error { reason := 1, off := 0 }
        else if (match e with | some e => crc16 bits e.len != e.crc | none => false) then .error { reason := 3, off := 0 }
        else
          let syms := (List.range (tileSyms c)).map (fun j => ((got.getD (j % 64) (0, [], 0)).2.1).getD (j / 64) 0)
          let raw := (List.range (rawLen c)).map (fun i => fld bits (8 * (nb + i) + 7) (8 * (nb + i)))
          .ok { els := fromSyms c syms raw, scales := (List.range sl).map (fun i => fld bits (8 * (96 + i) + 7) (8 * (96 + i))) }

/-! ### Gathered images (R277) -/

def upTo (a b : Nat) : Nat := ceilDiv a b * b
/-- R277: the height in words of the substream region. -/
def gatherRows (bits : Nat) : Nat :=
  (List.range 64).foldl (fun r s => max r (ceilDiv (fld bits (128 + 10 * s + 9) (128 + 10 * s)) 32)) 0
/-- R277: the image of a folio: its bytes and its length. -/
def gatherImage (f : Fol) : Nat × Nat :=
  if fld f.bits 15 12 != 1 then (f.bits % 2 ^ (8 * f.len), f.len)
  else
    let sl := fld f.bits 106 96
    let head := 96 + sl
    let region := upTo head 256
    let words := (List.range 64).flatMap (fun s =>
      let n := fld f.bits (128 + 10 * s + 9) (128 + 10 * s)
      let x := f.bits >>> subStart f.bits sl s % 2 ^ n
      (List.range (ceilDiv n 32)).map (fun t => (x >>> (32 * t) % 2 ^ 32) * 2 ^ (8 * (region + 256 * t + 4 * s))))
    let nb := ceilDiv (subStart f.bits sl 64) 8
    let rawAt := region + 256 * gatherRows f.bits
    (f.bits % 2 ^ (8 * head) + sumNat words + (f.bits >>> (8 * nb) % 2 ^ (8 * (f.len - nb))) * 2 ^ (8 * rawAt),
      rawAt + (f.len - nb))
/-- R296: the folio that a gathered tile image holds. -/
def ungather (img : Nat) : Nat :=
  if fld img 15 12 != 1 then img
  else
    let sl := fld img 106 96
    let head := 96 + sl
    let region := upTo head 256
    let st := (List.range 64).map (fun s =>
      let n := fld img (128 + 10 * s + 9) (128 + 10 * s)
      ((sumNat ((List.range (ceilDiv n 32)).map (fun t => (img >>> (8 * (region + 256 * t + 4 * s)) % 2 ^ 32) * 2 ^ (32 * t)))) % 2 ^ n, n))
    let body := joinBits st
    img % 2 ^ (8 * head) + body.1 * 2 ^ (8 * head) + (img >>> (8 * (region + 256 * gatherRows img))) * 2 ^ (8 * (head + ceilDiv body.2 8))

/-! ### Append-mode folios (R240, R241, R327) -/

/-- Elements of n bytes. -/
def slotEls (c n bits : Nat) : List Nat := (List.range (8 * n / fmtBits c)).map (fun i => elem (fmtBits c) i bits)
/-- The symbols of a slot: elements, and for a count that is no multiple of a symbol the bits that remain. -/
def slotSyms (c n bits : Nat) : List Nat :=
  match fmtBits c with
  | 16 => toSyms c (slotEls c n bits)
  | 6 => slotEls c n bits
  | _ => (List.range n).map (fun i => elem 8 i bits)
/-- R241: the segment of a slot's bytes, coded or stored: its bits and its length in bytes. -/
def makeSeg (c n bits : Nat) (lg : Option Nat) (sto : Bool) : Nat × Nat :=
  let syms := slotSyms c n bits
  let raw := (rawSec c (slotEls c n bits)).map (fun x => (x, 8))
  let plain := joinBits (((subPieces none (symW c) syms).getD []) ++ raw)
  let coded := match sto, lg with
    | false, some img => ((subPieces (some (lgCodes img)) (symW c) syms).map (fun l => joinBits (l ++ raw))).filter (fun (b : Nat × Nat) => b.2 < 8 * n)
    | _, _ => none
  let b := coded.getD plain
  (b.2 + 2 ^ 15 * coded.isNone.toNat + b.1 * 2 ^ 16, 2 + 2 * ceilDiv b.2 16)
/-- R240: a folio with no segment. -/
def newAppend (tensor col sb c slot tag : Nat) : Nat :=
  mkRec [(7, 0, c), (10, 8, slot), (11, 11, (decide (tag = 0)).toNat), (15, 12, 2), (31, 16, tag), (63, 32, tensor),
    (95, 80, col), (103, 96, sb)]
def slotOff (bits s : Nat) : Nat := fld bits (256 + 16 * s + 15) (256 + 16 * s)
def segHead (bits o : Nat) : Nat := bits >>> (8 * o) % 2 ^ 16
def segEnd (bits o : Nat) : Nat := o + 2 + 2 * ceilDiv (segHead bits o % 2 ^ 15) 16
/-- R240: Length from the offsets. -/
def appendLen (bits : Nat) : Nat :=
  (List.range 64).foldl (fun r s => if slotOff bits s = 0 then r else max r (segEnd bits (slotOff bits s))) 160
def appendSegs (bits : Nat) : Nat := ((List.range 64).filter (fun s => slotOff bits s != 0)).length
/-- R240: slots cleared, and every byte behind the furthest kept segment with them. -/
def clearSlots (bits : Nat) (drop : Nat → Bool) : Nat :=
  let b := (List.range 64).foldl (fun b s => if drop s then setFld b (256 + 16 * s + 15) (256 + 16 * s) 0 else b) bits
  b % 2 ^ (8 * appendLen b)
/-- A folio image with its entry's fields. -/
def appendFol (bits : Nat) : Fol :=
  { bits := bits, len := appendLen bits, tag := fld bits 31 16, crc := crc16 bits 32, segs := appendSegs bits }

/-- R246 on one slot of an append-mode folio: its bytes as a number, or the failure; the Bool says that it comes with
check 3 (or 0x23), before the lengths. -/
def readSeg (c n bits : Nat) (lg : Option Nat) (s : Nat) : Except (Bool × LErr) Nat :=
  let o := slotOff bits s
  let bad : LErr := { reason := 1, stream := s, off := 8 * (32 + 2 * s) }
  if o = 0 || o % 2 = 1 || o < 160 || appendLen bits ≤ o then .error (false, bad)
  else
    let h := segHead bits o
    let p0 := 8 * (o + 2)
    let nsym := (slotSyms c n 0).length
    let nraw := if fmtBits c = 16 then nsym else 0
    let go := fun (cs : Option (List CodeW)) =>
      match decodeSyms cs (symW c) bits p0 nsym with
      | .error q => .error (true, { reason := 0, stream := s, off := q })
      | .ok (syms, q) =>
        if q + 8 * nraw != p0 + h % 2 ^ 15 then .error (false, { reason := 1, stream := s, off := q })
        else
          let raw := (List.range nraw).map (fun i => bits >>> (q + 8 * i) % 256)
          let w := if fmtBits c = 16 then 16 else symW c
          let els := if fmtBits c = 16 then fromSyms c syms raw else if fmtBits c = 6 then fromSyms c syms [] else syms
          let x := joinBits (els.map (fun e => (e, w)))
          .ok (x.1 + ((Config.freeByte 0 n).toNat / 2 ^ (x.2 % 8) * 2 ^ x.2) % 2 ^ (8 * n) * (decide (x.2 < 8 * n)).toNat)
    if 2 ^ 15 ≤ h then go none
    else match lg with
      | some img => go (some (lgCodes img))
      | none => .error (true, { code := 0x23, reason := 8, stream := s, off := 0 })
/-- R246 on the slots that an operation reads, ascending: their bytes, or the first failure. -/
def readSegs (e : Ent) (sb bits : Nat) (lg : Option Nat) (slots : List Nat) : Except LErr (List Nat) :=
  match headErr (some e) 2 bits lg with
  | some x => .error x
  | none =>
    let rs := slots.map (readSeg (fld bits 7 0) sb bits lg)
    let errs := rs.filterMap (fun r => match r with | .error x => some x | .ok _ => none)
    match errs.find? (·.1) with
    | some x => .error x.2
    | none => match errs with
      | x :: _ => .error x.2
      | [] =>
        if appendLen bits != e.len then .error { reason := 1, off := 0 }
        else if crc16 bits 32 != e.crc then .error { reason := 3, off := 0 }
        else .ok (rs.filterMap (fun r => match r with | .ok x => some x | .error _ => none))

end Sys2Proof.Machine
end

