-- ==== Sys2Proof/Machine/Engine.lean ====
section
/-! DEFINITION. What the engines share (R68, R191, R199): queues and what holds an operation back, faults and freezes of an
operation, memory as an engine reaches it, the tensor directory and the catalogue (R231 to R236, R248 to R250), the folio
pool (R247). -/

namespace Sys2Proof.Machine

/-! ### Engines and what holds an operation back (R68, R270) -/

/-- R68, R181, R191: does an earlier operation hold this one back, a wresz of its block that is in progress, or a write of its
group before it that still waits in the side log? -/
def opBlocked (s : State) (id : Nat) (o : EOp) : Bool :=
  s.ops.any (fun x => x.1 < id && holdsBack x.2 o) || loggedBefore s o.gid o.core id ||
  (match mfind s.blocks o.block with
   | some b => (match b.resize with | some r => decide (r.2 < id) | none => false)
   | none => false)
/-- The operations in a channel of an engine. -/
def channelOf (s : State) (cls pair ctx : Nat) : List (Nat × EOp) :=
  s.ops.filter (fun x => x.2.kind.cls == cls && x.2.pair == pair && x.2.ctx == ctx)

/-- A result that an operation will deliver to a register of its group. -/
def pendOp (g : Group) (op : Nat) (dst : List Nat) : Group :=
  if dst.isEmpty then g else { g with pend := g.pend ++ [{ ws := [], ready := false, op := op, dst := dst }] }
/-- The operation delivers. -/
def pendReady (s : State) (gid op : Nat) (ws : List RegW) : State :=
  updG s gid (fun g => { g with pend := g.pend.map (fun q => if q.op == op && !q.ready then { q with ws := ws, ready := true } else q) })

/-! ### Registrations and the folio pool (R247, R248) -/

def freeBytes (pool : List (Nat × Nat)) : Nat := sumNat (pool.map (fun b => 512 * 2 ^ b.1))
/-- The lowest address of a class. -/
def lowestOf (pool : List (Nat × Nat)) (c : Nat) : Option Nat :=
  (pool.filterMap (fun b => if b.1 == c then some b.2 else none)).foldl
    (fun r a => match r with | none => some a | some x => some (min x a)) none
/-- R247: the smallest class from c on with a free block. -/
def pickClass (pool : List (Nat × Nat)) (c : Nat) : Option (Nat × Nat) :=
  (rng c (13 - c)).findSome? (fun k => (lowestOf pool k).map (fun a => (k, a)))
/-- R247: a block taken, split down to the class wanted, the lower half at each split. -/
def poolTake (pool : List (Nat × Nat)) (c : Nat) : Option (List (Nat × Nat) × Nat) :=
  (pickClass pool c).map (fun b =>
    (pool.erase b ++ (rng c (b.1 - c)).map (fun k => (k, b.2 + 512 * 2 ^ k)), b.2))
/-- R247: a block freed, merged with its free buddies. -/
def poolGive (pool : List (Nat × Nat)) (c a fuel : Nat) : List (Nat × Nat) :=
  match fuel with
  | 0 => (c, a) :: pool
  | f + 1 =>
    let size := 512 * 2 ^ c
    let buddy := if a / size % 2 = 0 then a + size else a - size
    if c < 12 && pool.contains (c, buddy) then poolGive (pool.erase (c, buddy)) (c + 1) (min a buddy) f
    else (c, a) :: pool
def freeBlock (s : State) (part c a : Nat) : State := updPart s part (fun q => { q with pool := poolGive q.pool c a 12 })
/-- R247, R441: a request for a class; the LowMark interrupt follows a failure and an allocation that leaves too little. -/
def allocBlock (s : State) (part c : Nat) : State × Option Nat :=
  match poolTake (getPart s part).pool c with
  | none => (setInt s part 2, none)
  | some (pool, a) =>
    let s := updPart s part (fun q => { q with pool := pool })
    (if freeBytes pool / 16384 < (getPart s part).lowMark then setInt s part 2 else s, some a)
/-- R247: the smallest class that holds a length. -/
def classFor (len : Nat) : Option Nat := (List.range 6).find? (fun c => len ≤ 512 * 2 ^ c)

/-- R248: storage that a change left: free now, or once no registration holds its generation. -/
def dropStorage (s : State) (part key gen c a : Nat) : State :=
  if s.regs.any (fun r => r.1 == key && r.2.1 == gen) then { s with limbo := s.limbo ++ [(key, gen, c, a)] }
  else freeBlock s part c a
def keyPart (key : Nat) : Nat := key / 2 ^ 64
/-- R234: the key of an entry. -/
def entryKey (part t row col : Nat) : Nat := part * 2 ^ 64 + t % 2 ^ 32 * 2 ^ 32 + row % 65536 * 65536 + col % 65536
def keyTensor (key : Nat) : Nat := key / 2 ^ 32 % 2 ^ 32
def keyRow (key : Nat) : Nat := key / 65536 % 65536
def keyCol (key : Nat) : Nat := key % 65536
/-- R248: the registrations of an operation end; storage that none holds any more is freed. -/
def unregister (s : State) (id : Nat) : State :=
  let regs := s.regs.filter (fun r => r.2.2 != id)
  let held := fun (l : Nat × Nat × Nat × Nat) => regs.any (fun r => r.1 == l.1 && r.2.1 == l.2.1)
  let gone := s.limbo.filter (fun l => !held l)
  gone.foldl (fun s l => freeBlock s (keyPart l.1) l.2.2.1 l.2.2.2) { s with regs := regs, limbo := s.limbo.filter held }

/-! ### Faults and freezes of an operation (R68, R77, R84) -/

/-- R68: the operation is abandoned with no effect, or a chain run held (R362); the group is told at its next instruction
boundary. -/
def opFault (s : State) (id code lanes detail : Nat) : State :=
  match mfind s.ops id with
  | none => s
  | some o =>
    let s := updOp (leaveBanks (unregister s id) id) id (fun o =>
      { o with lgs := none, st := if o.kind.cls == 4 && code != 0x32 then .held else .abandoned, staged := [], folios := [], flt := some (code, lanes, detail) })
    updG s o.gid (fun g => { g with asyncF := g.asyncF ++ [(code, id, lanes, detail)] })
/-- R78: the engine number in a freeze record. The table has none for the arrays and the Loupe: DESIGN CHOICE, that of the Burin
(assumption log 113). -/
def engNo (k : EK) : Nat := match k.cls with | 0 => 0 | 4 => 2 | _ => 1
def opFreeze (s : State) (id reason target : Nat) : State :=
  match mfind s.ops id with
  | none => s
  | some o =>
    let s := updOp (leaveBanks (unregister s id) id) id (fun o => { o with st := .frozen, staged := [], folios := [] })
    takeFreeze s (o.ctx / 64) (some o.ctx) (.op id) 1 (o.pair + 2 ^ 8 * engNo o.kind) reason o.addr target 5

/-! ### Memory as an engine reaches it (R163, R208, R271) -/

/-- The extents of an operation's kernel. -/
def opExts (s : State) (o : EOp) : List Tr := match mfind s.kernels o.kernel with | some k => k.exts | none => []
/-- The first address in each 64 KiB page that a list of addresses touches. -/
def pageFirsts (vas : List Nat) : List Nat :=
  (vas.foldl (fun r a => if r.any (fun b => b / 65536 == a / 65536) then r else a :: r) []).reverse
/-- A violation ranks first, then a wait, then a missing page. -/
def obstacles (l : List (Option (Nat × TrR))) : Option (Nat × TrR) :=
  let xs := l.filterMap id
  (xs.find? (fun x => match x.2 with | .forbid _ => true | _ => false)).orElse (fun _ =>
    (xs.find? (fun x => match x.2 with | .wait => true | _ => false)).orElse (fun _ => xs.head?))
/-- What translating the pages of a list of addresses gives: page numbers and their frames, or the obstacle that ranks first. -/
def framesOf (s : State) (core ctx : Nat) (ext : List Tr) (need : Nat) (vas : List Nat) : State × List (Nat × Nat) × Option (Nat × TrR) :=
  (pageFirsts vas).foldl (fun r va =>
    let t := translate r.1 core ctx ext va need
    match t.2 with
    | .ok pa => (t.1, r.2.1 ++ [(va / 65536, pa - va % 65536)], r.2.2)
    | x => (t.1, r.2.1, obstacles [r.2.2, some (va, x)])) (s, [], none)
/-- The physical address under a list of frames. -/
def inFrames (fs : List (Nat × Nat)) (va : Nat) : Nat :=
  match fs.find? (fun f => f.1 == va / 65536) with | some f => f.2 + va % 65536 | none => 0
/-- The writer tag of an operation: that of its group's place (R207). -/
def opTag (s : State) (o : EOp) : Nat := writerTag o.ctx o.core (match mfind s.groups o.gid with | some g => g.slot | none => 0)
/-- R404: the sectors that an operation reads, looked for in the caches of its pair and die. -/
def missVas (s : State) (o : EOp) (fs : List (Nat × Nat)) (vas : List Nat) : State :=
  let pas := vas.map (inFrames fs)
  (pas.map (· / 128)).eraseDups.foldl (fun s sec =>
    let mine := pas.filter (· / 128 == sec)
    let lo := mine.foldl min (128 * sec + 127)
    countMissAt s (o.ctx / 64) 1 o.pair lo (mine.foldl max lo + 1 - lo)) s
/-- R172: the accesses that an operation makes from its die, one for each sector of a list of addresses, counted page by page. -/
def countVas (s : State) (o : EOp) (fs : List (Nat × Nat)) (vas : List Nat) : State :=
  let secs := sectorsOf vas
  (pageFirsts vas).foldl (fun s va =>
    countRemotes s (secs.filter (fun x => x / 512 == va / 65536)).length (pairDie o.pair) o.ctx va (inFrames fs va)) s
/-- Records of n bytes read once for the group at issue, as group loads: over all of them together translation, alignment and
poison rank in that order (R67, R271). -/
def groupReads (s : State) (gid : Nat) (g : Group) (at_ : List Nat) (n align : Nat) (go : State → List Nat → Out) : Out :=
  let s := flushReds s gid g
  let vas := at_.flatMap (fun va => (List.range n).map (va + ·))
  let r := framesOf s g.core (gCtx s g) (gExts s g) 0 vas
  match r.2.2 with
  | some (_, .wait) => stall r.1 gid 9
  | some (a, .np l w) => raise r.1 gid 0x10 allLanes (detNp a l w false)
  | some (a, .forbid k) => freeze r.1 gid k a 1
  | some (_, .ok _) => .next r.1
  | none =>
    match at_.find? (· % align != 0) with
    | some va => raise r.1 gid 0x11 allLanes (detMem va 0 0 false 0 0)
    | none =>
      if vas.any (fun a => pageLogged r.1 g a) || windowShut r.1 (gPart r.1 g) 0 (vas.map (inFrames r.2.1)) then stall r.1 gid 9
      else
        let one := fun (q : State × List Byte × List Nat) (va i : Nat) =>
          let a := va + 32 * i
          let d := l1Read (countMiss q.1 g (inFrames r.2.1 a) (min 32 (n - 32 * i))) (gPair g) (inFrames r.2.1 a) (min 32 (n - 32 * i)) 0
          (d.1, q.2.1 ++ d.2.1, if d.2.2 then q.2.2 ++ [a] else q.2.2)
        let x := at_.foldl (fun (q : State × List Nat × List Nat) va =>
          let y := (List.range (ceilDiv n 32)).foldl (fun q i => one q va i) (q.1, [], q.2.2)
          (y.1, q.2.1 ++ [ofBytes y.2.1], y.2.2)) (r.1, [], [])
        match x.2.2 with
        | a :: _ => raisePoison x.1 gid g true 0 0 [(0, a, inFrames r.2.1 a)]
        | [] => go x.1 x.2.1
/-- One record. -/
def groupRead (s : State) (gid : Nat) (g : Group) (va n align : Nat) (go : State → Nat → Out) : Out :=
  groupReads s gid g [va] n align (fun s l => go s (l.getD 0 0))

/-- A folio's bytes as a Loupe of a pair reads them, with the first poisoned granule. What the pair and its die hold written of them,
a group's own plain stores among it, goes to the home first (R191, R427). -/
def getImage (s : State) (pair pa len : Nat) : State × Nat × Option Nat :=
  let s := eccTouches ((List.range (ceilDiv len 128)).foldl (fun s i => evictHome s pair (sectorOf pa + i)) s) (granOf pa) (ceilDiv len 32)
  (s, memRead s pa len, ((List.range (ceilDiv len 32)).map (fun i => pa + 32 * i)).find? (fun a => grPoison s (granOf a)))

/-! ### The tensor directory (R231 to R233) -/

def dirAddr (s : State) (part t : Nat) : Nat := (getPart s part).dirBase + 32 * t
/-- A directory record, Live or not. -/
def dirRaw (s : State) (part t : Nat) : Nat := memRead s (dirAddr s part t) 32
/-- R231: the record of a Live tensor. -/
def dirRec (s : State) (part t : Nat) : Option Nat :=
  if 2 ^ dirLogEff (getPart s part) ≤ t then none
  else let r := dirRaw s part t; if bitAt r 105 then some r else none
def dtVa (r : Nat) : Nat := fld r 47 0
def dtRows (r : Nat) : Nat := fld r 79 64
def dtCols (r : Nat) : Nat := fld r 95 80
def dtFmt (r : Nat) : Nat := fld r 103 96
def dtAppend (r : Nat) : Bool := bitAt r 104
def dtRetiring (r : Nat) : Bool := bitAt r 106
def dtSlot (r : Nat) : Nat := fld r 119 112
def dtOwner (r : Nat) : Nat := fld r 133 128

/-- R94: a handle of a launch record, whose words start at a byte: its identifier when it is Valid. -/
def handleOf (record byte h : Nat) : Option Nat :=
  let x := fld record (8 * byte + 64 * h + 63) (8 * byte + 64 * h)
  if bitAt x 63 then some (x % 2 ^ 32) else none
/-- R335: the detail of a handle fault. -/
def detHandle (scroll slot len epoch tag handle reason : Nat) : Nat :=
  mkRec [(31, 0, scroll), (63, 32, slot), (95, 64, len), (111, 96, epoch), (127, 112, tag), (130, 128, handle), (133, 131, reason)]
/-- R231: the tensor that an operand names: a handle or an identifier in a register. -/
def tensorOf (s : State) (g : Group) (x : Opnd) : Option Nat :=
  match x with
  | .imm i => handleOf (gRecord s g) 320 i.toNat
  | .s n => some (rdSn g n.toNat % 2 ^ 32)
  | _ => none
def thNo (x : Opnd) : Nat := match x with | .imm i => i.toNat | _ => 0
/-- Fault 0x2A for an unbound tensor handle. -/
def raiseUnbound (s : State) (gid h : Nat) : Out := raise s gid 0x2A allLanes (detHandle (2 ^ 32 - 1) 0 0 0 0 h 0)

/-! ### Entries (R234, R235, R249) -/

def enSector (e : Nat) : Nat := fld e 41 0 * 128
def enClass (e : Nat) : Nat := fld e 44 42
def enState (e : Nat) : Nat := fld e 47 45
def enLen (e : Nat) : Nat := fld e 62 48
def enFmt (e : Nat) : Nat := fld e 71 64
def enRef (e : Nat) : Nat := fld e 87 72
def enTag (e : Nat) : Nat := fld e 103 88
def enCrc (e : Nat) : Nat := fld e 119 104
def enGen (e : Nat) : Nat := fld e 151 120
def enSegs (e : Nat) : Nat := fld e 158 152
/-- Several fields of an entry set. -/
def enSet (e : Nat) (fs : List (Nat × Nat × Nat)) : Nat := fs.foldl (fun e f => setFld e f.1 f.2.1 f.2.2) e
def enSetState (e st : Nat) : Nat := setFld e 47 45 st

def getCat (s : State) (key : Nat) : Cat := (mfind s.cat key).getD { record := 0, part := keyPart key }
/-- The virtual address of an entry. -/
def entryVa (r row col : Nat) : Nat := dtVa r + 32 * (row * dtCols r + col)
/-- R234: the owner's translation of an entry for reading and writing; any core's table serves. -/
def entryPa (s : State) (part r row col : Nat) : TrR :=
  let va := entryVa r row col
  let ctx := 64 * part + dtOwner r
  if 2 ^ 48 ≤ va then .forbid 2
  else if removeOver s ctx va then .wait
  else match (walk s 4 ctx va).1 with
    | .np l w => .np l w
    | .leaf e l _ =>
      let t := leafTr ctx va e l
      let pa := t.pa + (va - t.va)
      if movingAt s t.pa then .wait
      else if !(permits t 0 && permits t 1) then .forbid 1
      else if paOk pa then .ok pa else .forbid 2
/-- Where an entry lies, whatever its page permits and though it may be on the move: the place that the catalogue itself writes. -/
def entryHome (s : State) (part r row col : Nat) : Option Nat :=
  let va := entryVa r row col
  let ctx := 64 * part + dtOwner r
  if 2 ^ 48 ≤ va then none
  else match (walk s 4 ctx va).1 with
    | .np _ _ => none
    | .leaf e l _ => let t := leafTr ctx va e l; let pa := t.pa + (va - t.va); if paOk pa then some pa else none
/-- An entry changed; its 32 bytes in memory follow. Whether the agent may change it has been asked before (R234). -/
def putCat (s : State) (key : Nat) (c : Cat) : State :=
  let s := { s with cat := mset s.cat key c }
  match dirRec s (keyPart key) (keyTensor key) with
  | none => s
  | some r => match entryHome s (keyPart key) r (keyRow key) (keyCol key) with
    | some pa => recWrite s pa 32 c.record
    | none => s
def updCat (s : State) (key : Nat) (f : Cat → Cat) : State := putCat s key (f (getCat s key))
def setEntry (s : State) (key e : Nat) : State := updCat s key (fun c => { c with record := e })

/-- R261: a Retiring tensor whose entries are all Empty leaves Live. -/
def settleTensor (s : State) (part t : Nat) : State :=
  match dirRec s part t with
  | none => s
  | some r =>
    if dtRetiring r && s.cat.all (fun c => !(c.1 / 2 ^ 32 == part * 2 ^ 32 + t) || enState c.2.record == 0) then
      recWrite s (dirAddr s part t) 32 (setFld r 106 105 0)
    else s
/-- R249: a reference count that reached 0: Retiring. -/
def refDec (e : Nat) : Nat :=
  let n := enRef e - 1
  enSet e ([(87, 72, n)] ++ if n = 0 then [(47, 45, 5)] else [])
/-- R249: the decrements that waited for a transition are applied, in the state that the transition leaves. -/
def applyDecs (c : Cat) : Cat :=
  if c.decs = 0 then c
  else { c with decs := 0, record := (List.range c.decs).foldl (fun e _ =>
    if enState e == 2 || enState e == 3 then refDec e else e) c.record }

/-- What a lookup finds (R249). -/
inductive LookR where
  | ok (e : Nat)
  /-- reason of R252 and the generation -/
  | miss (reason gen : Nat)
  | wait
  | forbid (reason va : Nat)
  | np (va level why : Nat)
  deriving DecidableEq, Repr
/-- An access to an entry, with its record. -/
def entryAt (s : State) (part t row col : Nat) : LookR :=
  match dirRec s part t with
  | none => .miss 7 0
  | some r =>
    if dtRows r ≤ row || dtCols r ≤ col then .miss 5 0
    else match entryPa s part r row col with
      | .forbid k => .forbid k (entryVa r row col)
      | .wait => .wait
      | .np l w => .np (entryVa r row col) l w
      | .ok _ => .ok (getCat s (entryKey part t row col)).record
/-- R249: can an entry be read now: not Empty, not Retiring, not Writing from Empty. -/
def readable (c : Cat) : Bool :=
  match enState c.record with
  | 0 => false | 5 => false | 1 => c.from_ != 0 | _ => true
/-- R207, R234: the die-cache slice where an entry has its home: 16 times the die, and the slice of its line. -/
def entrySlice (s : State) (key : Nat) : Option Nat :=
  match dirRec s (keyPart key) (keyTensor key) with
  | none => none
  | some r => match entryPa s (keyPart key) r (keyRow key) (keyCol key) with
    | .ok pa => some (16 * homeDie pa + pa / 256 % 16)
    | _ => none
/-- R248: are the 4,096 registrations of an entry's slice all in use? -/
def sliceFull (s : State) (key : Nat) : Bool :=
  4096 ≤ s.regs.length && 4096 ≤ (s.regs.filter (fun r => entrySlice s r.1 == entrySlice s key)).length
/-- R248, R249: a lookup; it waits while the table of registrations is full. -/
def lookup (s : State) (part t row col : Nat) : LookR :=
  match entryAt s part t row col with
  | .ok e =>
    if !readable (getCat s (entryKey part t row col)) then .miss 6 (enGen e)
    else if sliceFull s (entryKey part t row col) then .wait else .ok e
  | x => x
/-- R248: the operation holds the entry's generation. -/
def register (s : State) (id key e : Nat) : State := { s with regs := (key, enGen e, id) :: s.regs }
/-- The fields that a Loupe compares (R246). -/
def entOf (key e : Nat) : Ent :=
  { fmt := enFmt e, tensor := keyTensor key, row := keyRow key, col := keyCol key, len := enLen e, tag := enTag e,
    crc := enCrc e, gen := enGen e }

/-! ### Changes of storage (R236, R249) -/

/-- R249: a folio's bytes go into a new block and the entry to Writing (1) or Growing (4). -/
def beginChange (s : State) (key to_ a c : Nat) (f : Fol) : State :=
  let s := putImage s a f.len f.bits
  updCat s key (fun k => { k with record := enSetState k.record to_, from_ := enState k.record,
                                  new := some (a, c, f.len, f.tag, f.crc, f.segs) })
/-- R249, R236: Writing ends in Stored, Growing in Open or, with 64 segments, in Stored. -/
def endChange (s : State) (key : Nat) : State :=
  let c := getCat s key
  match c.new with
  | none => s
  | some (a, cls, len, tag, crc, segs) =>
    let e := c.record
    let grow := enState e == 4
    let fmt := match dirRec s (keyPart key) (keyTensor key) with | some r => dtFmt r | none => enFmt e
    let e' := enSet e [(41, 0, a / 128), (44, 42, cls), (47, 45, if grow && segs != 64 then 3 else 2), (62, 48, len),
      (71, 64, fmt), (87, 72, max 1 (enRef e)), (103, 88, tag), (119, 104, crc),
      (151, 120, enGen e + 1), (158, 152, segs), (191, 160, keyTensor key), (207, 192, keyRow key), (223, 208, keyCol key)]
    let s := putCat s key (applyDecs { c with record := e', new := none, from_ := 0 })
    if c.from_ == 0 then s else dropStorage s (keyPart key) key (enGen e) (enClass e) (enSector e)
/-- Nothing came of a change: its block is free again, and what waited for its end is applied (R250, R261). -/
def undoChange (s : State) (key : Nat) : State :=
  let c := getCat s key
  match c.new with
  | none => s
  | some (a, cls, _) =>
    let s := putCat s key (applyDecs { c with record := enSetState c.record c.from_, new := none, from_ := 0 })
    settleTensor (freeBlock s (keyPart key) cls a) (keyPart key) (keyTensor key)

/-! ### Legends as an operation captures them (R251) -/

/-- The image in a legend slot of a context, none while the slot is Empty. -/
def legendOf (s : State) (ctx k : Nat) : Option Nat := mfind (getCtx s ctx).lg k
/-- The slot that a folio's header names. -/
def legendFor (s : State) (ctx bits : Nat) : Option Nat := legendOf s ctx (fld bits 10 8)
/-- The image of a slot as an operation has captured it, else as the slot stands. -/
def legendCap (s : State) (o : EOp) (k : Nat) : Option Nat := match o.lgs with | some m => mfind m k | none => legendOf s o.ctx k
def legendCapFor (s : State) (o : EOp) (bits : Nat) : Option Nat := legendCap s o (fld bits 10 8)
/-- R251: an operation that starts a folio keeps the images that it finds. -/
def captured (s : State) (o : EOp) : Option (AMap Nat) := some (o.lgs.getD (getCtx s o.ctx).lg)

/-- A folio looked up, registered and read: its captured image, or what stopped the operation. -/
inductive FolR where
  | ok (f : StFolio)
  | wait
  | freeze (reason va : Nat)
  /-- fault code, detail -/
  | fault (code detail : Nat)
  deriving DecidableEq, Repr
/-- R252: is a tensor Live in append mode? -/
def isAppend (s : State) (part t : Nat) : Bool := match dirRec s part t with | some r => dtAppend r | none => false
/-- R236: a lookup by an operation is an acquire at .pkg. -/
def lookupAcquire (s : State) (id : Nat) : State := match mfind s.ops id with | some o => acquireAt s o.pair 2 | none => s
/-- R236: what an operation installs follows a release at .pkg. -/
def installRelease (s : State) (id : Nat) : State := match mfind s.ops id with | some o => releasePair s o.pair 2 | none => s
/-- R236, R248, R252: a folio looked up by an engine through a port, for an instruction's opcode, and registered: its key and
entry. -/
def findFolio (s : State) (id part t row col port opc : Nat) : State × Except FolR (Nat × Nat) :=
  match lookup s part t row col with
  | .miss r gen => (s, .error (.fault 0x22 (folDetail t row col 0 port 0 r 0 (isAppend s part t).toNat gen 0 0 opc)))
  | .wait => (s, .error .wait)
  | .np _ _ _ => (s, .error .wait)
  | .forbid k va => (s, .error (.freeze k va))
  | .ok e =>
    let key := entryKey part t row col
    (register (lookupAcquire s id) id key e, .ok (key, e))
/-- R230: a folio that was looked up is read, by an operation or by a group's srd on a pair. -/
def loadFolio (s : State) (pair key e : Nat) : State × FolR :=
  let s := (List.range (ceilDiv (enLen e) 128)).foldl (fun s i =>
    countMissAt s (keyPart key) 1 pair (enSector e + 128 * i) (min 128 (enLen e - 128 * i))) s
  let x := getImage s pair (enSector e) (enLen e)
  match x.2.2 with
  | some pa => (x.1, .fault 0x41 (detMem 0 0 6 false (if reachable x.1 pa then 0 else 3) (pa / 32 * 32)))
  | none => (x.1, .ok { key := key, record := e, bits := x.2.1, len := enLen e, tag := enTag e, crc := enCrc e, segs := enSegs e })
/-- A folio looked up and read. -/
def readFolio (s : State) (id pair part t row col port opc : Nat) : State × FolR :=
  match findFolio s id part t row col port opc with
  | (s, .error x) => (s, x)
  | (s, .ok (key, e)) => loadFolio s pair key e
/-- R296, R361: folios looked up and registered one after the other; the first failure stops it. -/
def findFolios (s : State) (id part t port opc : Nat) (l : List (Nat × Nat)) : State × Except FolR (List (Nat × Nat)) :=
  l.foldl (fun q x => match q.2 with
    | .error _ => q
    | .ok ks => match findFolio q.1 id part t x.1 x.2 port opc with
      | (s, .ok k) => (s, .ok (ks ++ [k]))
      | (s, .error e) => (s, .error e)) (s, .ok [])
/-- Folios that were looked up, read one after the other; the first that cannot be stops it. -/
def loadFolios (s : State) (pair : Nat) (l : List (Nat × Nat)) : State × Except FolR (List StFolio) :=
  l.foldl (fun q x => match q.2 with
    | .error _ => q
    | .ok fs => match loadFolio q.1 pair x.1 x.2 with
      | (s, .ok f) => (s, .ok (fs ++ [f]))
      | (s, e) => (s, .error e)) (s, .ok [])

end Sys2Proof.Machine
end

