-- ==== Sys2Proof/Machine/Folio.lean ====
section
/-! DEFINITION. Folios and legends, opcodes 0xA0 to 0xA9, and the steps of the Burin, the Loupe and the catalogue (R231 to
R263, R441). -/

namespace Sys2Proof.Machine

/-- R253: the instruction takes effect once, unless its guard holds in helper lanes only. -/
def onceE (p : P) (s : State) (close : Bool) (f : Nat → Group → Out) : Out :=
  withG s (fun gid _ g => if elects g p.h then f gid g else fin s gid p close)
/-- R253: offset, row and column of a packed coordinate. -/
def coOff (x : Nat) : Nat := x % 2 ^ 32
def coRow (x : Nat) : Nat := fld x 47 32
def coCol (x : Nat) : Nat := fld x 63 48
/-- The address of an A register and a signed extension. -/
def regAddr (g : Group) (p : P) : Nat := wrap 64 ((rdSn g (sNum p.a) : Int) + p.off)
/-- A range of scratchpad: aligned, then inside the block. -/
def spRange (b : Block) (o n align : Nat) : Chk :=
  if o % align != 0 then .mis else if b.size < o + n then .range else .ok o
/-- The status of an instruction into D under a scoreboard. -/
def finS (s : State) (gid : Nat) (p : P) (close : Bool) (x : Nat) : Out := fin (updG s gid (fun g => pendS g p.d x)) gid p close
/-- What an access to an entry that cannot be made does to the group (R234, R67). -/
def entryOut (s : State) (gid : Nat) (x : LookR) (other : Out) : Out :=
  match x with
  | .wait => stall s gid 9
  | .forbid k va => freeze s gid k va 5
  | .np va l w => raise s gid 0x10 allLanes (detNp va l w false)
  | _ => other

/-! ### Legends (R251, R254, R255) -/

def lgNo (x : Opnd) : Nat := match x with | .lg n => n.toNat | _ => 0
def execLgld (p : P) (s : State) : Out :=
  onceE p s true (fun gid g =>
    groupRead s gid g (regAddr g p) 512 64 (fun s img =>
      if lgValid img then finS (updCtx s (gCtx s g) (fun c => { c with lg := mset c.lg (lgNo p.b.opnd) img })) gid p true 0
      else finS s gid p true 1))
/-- A store made once for the group: 32-byte pieces, logged where a page is missing (R169, R214). -/
def groupWrite (p : P) (s : State) (gid : Nat) (g : Group) (va align : Nat) (l : List Byte) : Out :=
  let s := flushReds s gid g
  let n := ceilDiv l.length 32
  let xs := (List.range n).map (fun i => (i, va + 32 * i))
  let r := chkAll s g 1 (fun _ => [1]) xs
  let acc := if va % align != 0 then r.2.map (fun a => if isOk a.c then { a with c := Chk.mis } else a) else r.2
  verdictOut r.1 gid true 0 1 2 (judge acc true)
    (let s := r.1
     let bs := fun (a : Acc) => (l.drop (32 * a.lane)).take 32
     let lgd := acc.filter (fun a => isNp a.c || inLog s g a.va)
     let now := acc.filter (fun a => isOk a.c && !inLog s g a.va)
     let es := logEntries s gid s.fresh g (lgd.map (fun a => (a.va, bs a))) [] [] none 0
     if !logRoom s g es.length then
       (match lgd with
        | a :: _ => raise s gid 0x10 allLanes (detNp a.va (match a.c with | .np lv _ => lv | _ => 0) 2 false)
        | [] => .next s)
     else if !sbufRoom s g.core (acc.map (·.va)) || windowFull s (gPart s g) 0 (okPas now) then stall s gid 9
     else
       let s := now.foldl (fun s a => match a.c with | .ok pa => storeOne s g pa (bs a) false 0 | _ => s) s
       let s := clearCovered s g (now.filterMap (fun a => match a.c with | .ok pa => some (pa, (bs a).length) | _ => none)) false
       let s := sbufPush s g.core (acc.map (·.va)) 16
       let s := match lgd with
         | a :: _ =>
           let lw := match a.c with | .np lv w => (lv, w) | _ => (0, 0)
           loggedRecord (updCore { s with fresh := s.fresh + 1 } g.core (fun c => { c with log := c.log ++ es })) g 0x10 allLanes g.pc (detNp a.va lw.1 lw.2 true)
         | [] => s
       fin s gid p true)
def execLgst (p : P) (s : State) : Out :=
  onceE p s true (fun gid g =>
    groupWrite p s gid g (regAddr g p) 64 (toBytes 512 ((legendOf s (gCtx s g) (lgNo p.b.opnd)).getD 0)))
def execLgclr (p : P) (s : State) : Out :=
  onceE p s true (fun gid g =>
    let k := match p.d with | .other x => lgNo x | _ => 0
    fin (updCtx s (gCtx s g) (fun c => { c with lg := mdel c.lg k })) gid p true)

/-! ### Entries (R256, R259 to R262) -/

/-- The tensor that B names, or fault 0x2A for a handle that is not bound. -/
def withTensor (s : State) (gid : Nat) (g : Group) (x : Opnd) (f : Nat → Out) : Out :=
  match tensorOf s g x with | some t => f t | none => raiseUnbound s gid (thNo x)
/-- R256: a lookup without registration, an acquire at .pkg (R236). -/
def execFget (p : P) (s : State) : Out :=
  onceE p s false (fun gid g => withTensor s gid g p.b.opnd (fun t =>
    let c := rdSn g (sNum p.a)
    let x := entryAt s (gPart s g) t (coRow c) (coCol c)
    let done := fun (e : Nat) => match dstS p.d with
      | some n => fin (updG (acquire s gid g 2) gid (fun g =>
          addPend g ((List.range 4).map (fun i => .s (n + i) (BitVec.ofNat 64 (e >>> (64 * i))))))) gid p false
      | none => fin (acquire s gid g 2) gid p false
    match x with
    | .ok e => done e
    | .miss _ _ => done 0
    | _ => entryOut s gid x (done 0)))
/-- R259: the status word. -/
def frefSt (st n : Nat) : Nat := st + 2 ^ 16 * n
/-- R249, R250, R259: an increment or a decrement, after any Writing or Growing has ended. -/
def frefRun (p : P) (s : State) (inc : Bool) : Out :=
  onceE p s true (fun gid g => withTensor s gid g p.b.opnd (fun t =>
    let c := rdSn g (sNum p.a)
    let part := gPart s g
    let key := entryKey part t (coRow c) (coCol c)
    match entryAt s part t (coRow c) (coCol c) with
    | .miss _ _ => finS s gid p true (frefSt 3 0)
    | .ok e =>
      (match enState e with
       | 1 => stall s gid 9
       | 4 => stall s gid 9
       | 0 => finS s gid p true (frefSt 2 (enRef e))
       | 5 => finS s gid p true (frefSt 2 (enRef e))
       | _ =>
         if inc then
           (if enRef e = 65535 then finS s gid p true (frefSt 1 65535)
            else finS (setEntry s key (enSet e [(87, 72, enRef e + 1)])) gid p true (frefSt 0 (enRef e + 1)))
         else finS (setEntry s key (refDec e)) gid p true (frefSt 0 (enRef e - 1)))
    | x => entryOut s gid x (.next s)))
def execFrefInc (p : P) (s : State) : Out := frefRun p s true
def execFrefDec (p : P) (s : State) : Out := frefRun p s false

/-- A byte range cut at 64 KiB pages. -/
def piecesFrom (va n fuel : Nat) : List (Nat × Nat) :=
  match fuel with
  | 0 => []
  | f + 1 => if n = 0 then [] else
    let k := min n (65536 - va % 65536)
    (va, k) :: piecesFrom (va + k) (n - k) f
def pieces (va n : Nat) : List (Nat × Nat) := piecesFrom va n (n / 65536 + 2)
/-- A context's table translates one address for reading and writing by the device (R234, R319). -/
def ownerPa (s : State) (ctx va : Nat) : TrR :=
  if 2 ^ 48 ≤ va then .forbid 2
  else if removeOver s ctx va then .wait
  else match (walk s 4 ctx va).1 with
    | .np l w => .np l w
    | .leaf e l _ =>
      let t := leafTr ctx va e l
      let pa := t.pa + (va - t.va)
      if movingAt s t.pa then .wait
      else if !(permits t 0 && permits t 1) then .forbid 1
      else if paOk pa then .ok pa else .forbid 2
/-- The pages of a range under a context: physical pieces, or the first obstacle. -/
def ownerRange (s : State) (ctx va n : Nat) : List (Nat × Nat) × Option (Nat × TrR) :=
  (pieces va n).foldl (fun r x => match ownerPa s ctx x.1 with
    | .ok pa => (r.1 ++ [(pa, x.2)], r.2)
    | e => (r.1, r.2.orElse (fun _ => some (x.1, e)))) ([], none)
/-- An obstacle on the way to a table of the device, for the group that asked. -/
def ownerOut (s : State) (gid : Nat) (x : Nat × TrR) : Out :=
  match x.2 with
  | .forbid k => freeze s gid k x.1 5
  | .np l w => raise s gid 0x10 allLanes (detNp x.1 l w false)
  | _ => stall s gid 9
/-- R260: is a request in range, with 0 in the fields marked RZ or RO? -/
def falcOk (r : Nat) : Bool :=
  fld r 4 0 == 0 && fld r 63 48 == 0 && fld r 111 105 == 0 && fld r 255 120 == 0 &&
  dtRows r != 0 && dtCols r != 0 && dtFmt r ≤ 0x17 &&
  (if dtAppend r then 1 ≤ dtSlot r && dtSlot r ≤ 240 else dtSlot r == 0)
def execFalc (p : P) (s : State) : Out :=
  onceE p s true (fun gid g =>
    groupRead s gid g (regAddr g p) 32 32 (fun s r =>
      if !falcOk r then finS s gid p true 2
      else
        let part := gPart s g
        match (List.range (2 ^ dirLogEff (getPart s part))).find? (fun i => (dirRec s part i).isNone) with
        | none => finS s gid p true 1
        | some i =>
          let m := ownerRange s (gCtx s g) (dtVa r) (32 * dtRows r * dtCols r)
          match m.2 with
          | some x => ownerOut s gid x
          | none =>
            let s := m.1.foldl (fun s x => memZero s x.1 x.2) s
            let s := { s with cat := s.cat.filter (fun c => c.1 / 2 ^ 32 != part * 2 ^ 32 + i) }
            let s := recWrite s (dirAddr s part i) 32 (setFld (setFld r 105 105 1) 133 128 (gCtx s g % 64))
            finS s gid p true (i * 2 ^ 32)))
/-- R261: Retiring, one fref.dec for every entry; those in Writing or Growing get theirs after the transition. -/
def ffreEntries (s : State) (part t : Nat) : State :=
  (s.cat.filter (fun c => c.1 / 2 ^ 32 == part * 2 ^ 32 + t)).foldl (fun s c =>
    match enState c.2.record with
    | 2 => setEntry s c.1 (refDec c.2.record)
    | 3 => setEntry s c.1 (refDec c.2.record)
    | 1 => updCat s c.1 (fun k => { k with decs := k.decs + 1 })
    | 4 => updCat s c.1 (fun k => { k with decs := k.decs + 1 })
    | _ => s) s
/-- R234: what bars the way to the entries of a tensor that a test selects, the page of each by its owner's translation. -/
def entriesBar (s : State) (part t : Nat) (sel : Nat → Cat → Bool) : Option (Nat × TrR) :=
  match dirRec s part t with
  | none => none
  | some r => obstacles ((s.cat.filter (fun c => c.1 / 2 ^ 32 == part * 2 ^ 32 + t && sel c.1 c.2)).map (fun c =>
      match entryPa s part r (keyRow c.1) (keyCol c.1) with
      | .ok _ => none
      | x => some (entryVa r (keyRow c.1) (keyCol c.1), x)))
def execFfre (p : P) (s : State) : Out :=
  onceE p s true (fun gid g => withTensor s gid g p.b.opnd (fun t =>
    let part := gPart s g
    match dirRec s part t, entriesBar s part t (fun _ c => enState c.record == 2 || enState c.record == 3) with
    | none, _ => finS s gid p true 3
    | some _, some x => ownerOut s gid x
    | some r, none =>
      let s := recWrite s (dirAddr s part t) 32 (setFld r 106 106 1)
      finS (settleTensor (ffreEntries s part t) part t) gid p true 0))
/-- R262: free blocks of a class, and blocks that wait for registrations. -/
def execFqry (p : P) (s : State) : Out :=
  onceE p s false (fun gid g =>
    let c := valN g p.a
    if 5 < c then trapIllegal s gid .fqry p
    else
      let part := gPart s g
      let free := ((getPart s part).pool.filter (fun b => b.1 == c)).length
      let wait := (s.limbo.filter (fun l => keyPart l.1 == part && l.2.2.1 == c)).length +
        (s.cat.filter (fun x => keyPart x.1 == part && enState x.2.record == 5 && enClass x.2.record == c)).length
      finS s gid p false (free + 2 ^ 32 * wait))

/-! ### The Burin (R245, R257) -/

/-- R257: bytes of elements and scales of a tile in scratchpad. -/
def tileBytes (c : Nat) : Nat := 512 * fmtBits c + scaleLen c
/-- The elements and the scales of a tile at a scratchpad offset. -/
def spTile (b : Block) (c o : Nat) : List Nat × List Nat :=
  let w := fmtBits c
  let x := spRead b o (512 * w)
  ((List.range 4096).map (fun i => elem w i x), (List.range (scaleLen c)).map (fun i => (spByte b (o + 512 * w + i)).toNat))
/-- An operation of the Burin ends with a status. -/
def encEnd (s : State) (id d st : Nat) : State :=
  match mfind s.ops id with
  | some o => removeOp (pendReady s o.gid id (if d < 64 then [.s d (BitVec.ofNat 64 st)] else [])) id
  | none => s
/-- R257, R249: a queued fenc starts, unless its entry is in Writing or Growing (R250). -/
def encStart (s : State) (id : Nat) : State :=
  match mfind s.ops id with
  | none => s
  | some o =>
    match o.kind with
    | .enc c t slot col d =>
      let part := o.ctx / 64
      let row := coRow c
      let cc := coCol c
      let miss := fun (code reason gen : Nat) => opFault s id code allLanes (folDetail t row cc 0 3 0 reason slot 0 gen 0 0 0xA4)
      match dirRec s part t with
      | none => miss 0x22 7 0
      | some r =>
        if dtAppend r then encEnd s id d 3
        else match entryAt s part t row cc with
          | .miss reason gen => miss 0x22 reason gen
          | .forbid k va => opFreeze s id k va
          | .ok e =>
            if enState e == 1 || enState e == 4 then s
            else if dtRetiring r || enState e == 5 then encEnd s id d 2
            else match legendOf s o.ctx slot, mfind s.blocks o.block with
              | some img, some b =>
                if spPoison b (coOff c) (tileBytes (dtFmt r)) then opFault s id 0x41 allLanes (detMem (coOff c) 0 6 false 2 0) else
                let x := spTile b (dtFmt r) (coOff c)
                let f := makeTile (dtFmt r) t row cc slot col.toNat (some img) x.1 x.2
                let cls := (classFor f.len).getD 5
                let a := allocBlock s part cls
                (match a.2 with
                 | none => encEnd a.1 id d 1
                 | some pa => updOp (beginChange a.1 (entryKey part t row cc) 1 pa cls f) id (fun o => { o with st := .publishing }))
              | _, _ => miss 0x23 8 (enGen e)
          | _ => s
    | _ => s
def execFenc (p : P) (s : State) : Out :=
  withG s (fun gid _ g => if !elects g p.h then fin s gid p true else withSp s gid g (fun s b =>
    let c := rdSn g (sNum p.a)
    let id0 := tensorOf s g p.b.opnd
    let n := match id0.bind (dirRec s (gPart s g)) with | some r => tileBytes (dtFmt r) | none => 0
    verdictOut s gid true 0 6 5 (judge [{ lane := 0, va := coOff c, c := spRange b (coOff c) n 128 }] false)
      (match id0 with
       | none => raiseUnbound s gid (thNo p.b.opnd)
       | some t =>
         let s := flushReds s gid g
         let d := (dstS p.d).getD 64
         let k := EK.enc c t (p.ext.toNat % 8) (p.f == 1) d
         let a := issueOp s gid g p k false
         let s := updG a.1 gid (fun g => pendOp g a.2 (if d < 64 then [1000 + d] else []))
         fin (if opBlocked s a.2 (newOp s gid g p k false) then s else encStart s a.2) gid p true)))
/-- The format of a tensor. -/
def tensorFmt (s : State) (part t : Nat) : Nat := match dirRec s part t with | some r => dtFmt r | none => 0
/-- The Burin is done with a folio: it is installed (R249), once the entry's page lets it (R234); or a fenc that waited starts. -/
def execBurinDone (id : Nat) (s : State) : Out :=
  match mfind s.ops id with
  | none => .next s
  | some o =>
    match o.kind with
    | .enc c t _ _ d =>
      if o.st == .queued then .next (if opBlocked s id o then s else encStart s id)
      else if o.st == .publishing then
        let key := entryKey (o.ctx / 64) t (coRow c) (coCol c)
        (match entryAt s (o.ctx / 64) t (coRow c) (coCol c) with
         | .forbid k va => .next (opFreeze (undoChange s key) id k va)
         | .wait => .next s
         | .np _ _ _ => .next s
         | _ => .next (encEnd (bumpCtr (endChange (installRelease s id) key) (o.ctx / 64) 0x0A (tileSyms (tensorFmt s (o.ctx / 64) t))) id d 0))
      else .next s
    | _ => .next s
/-- The fill that made an entry Growing: it waits for the copy. -/
def growerOf (s : State) (key : Nat) : Option Nat :=
  (s.ops.find? (fun x => x.2.ctx / 64 == keyPart key && x.2.st == .publishing &&
    (match x.2.kind with
     | .fill scr slot .. => slot / 64 == keyCol key &&
       (match mfind s.scrolls (2 ^ 16 * keyPart key + scr % 2 ^ 16) with | some c => c.tensor == keyTensor key | none => false)
     | _ => false))).map (·.1)
/-- R249: the copy of a Growing entry is done. The entry's page must let it (R234): the fill that caused the access freezes where it
forbids it. -/
def execGrowingCopyDone (entry : Nat) (s : State) : Out :=
  if enState (getCat s entry).record == 4 then
    match dirRec s (keyPart entry) (keyTensor entry) with
    | none => .next (endChange s entry)
    | some r => match entryPa s (keyPart entry) r (keyRow entry) (keyCol entry), growerOf s entry with
      | .ok _, _ => .next (endChange s entry)
      | .forbid k, some id => .next (opFreeze s id k (entryVa r (keyRow entry) (keyCol entry)))
      | _, _ => .next s
  else .next s
/-- R249: a Retiring entry that nothing has registered any more: storage freed, every field but Generation 0. -/
def execEntryRetireFree (entry : Nat) (s : State) : Out :=
  let c := getCat s entry
  let e := c.record
  let barred : Bool := match dirRec s (keyPart entry) (keyTensor entry) with
    | some r => (match entryPa s (keyPart entry) r (keyRow entry) (keyCol entry) with | .ok _ => false | _ => true)
    | none => false
  if enState e == 5 && !s.regs.any (fun r => r.1 == entry) && !barred then
    let s := putCat (freeBlock s (keyPart entry) (enClass e) (enSector e)) entry { c with record := mkRec [(151, 120, enGen e)] }
    .next (settleTensor s (keyPart entry) (keyTensor entry))
  else .next s

/-! ### The Loupe of fdec (R258) -/

/-- Elements and scales as the bytes of scratchpad. -/
def tileStage (c o : Nat) (t : TileD) : List StByte :=
  let w := fmtBits c
  let x := (joinBits (t.els.map (fun e => (e % 2 ^ w, w)))).1
  ((List.range (512 * w)).map (fun i => { spad := true, addr := o + i, val := BitVec.ofNat 8 (x >>> (8 * i)) })) ++
  t.scales.zipIdx.map (fun q => { spad := true, addr := o + 512 * w + q.2, val := BitVec.ofNat 8 q.1 })
/-- R258: the checks of fenc as fault 0x22, an append tensor with the reason of R296, then lookup, registration and decode,
staged; a failure abandons the operation. -/
def decStart (s : State) (id : Nat) : State :=
  match mfind s.ops id with
  | none => s
  | some o =>
    match o.kind with
    | .dec c t =>
      if isAppend s (o.ctx / 64) t then
        opFault s id 0x22 allLanes (folDetail t (coRow c) (coCol c) 0 2 0 7 0 1 0 0 0 0xA5)
      else
      let r := readFolio s id o.pair (o.ctx / 64) t (coRow c) (coCol c) 2 0xA5
      match r.2 with
      | .wait => s
      | .freeze k va => opFreeze r.1 id k va
      | .fault code d => opFault r.1 id code allLanes d
      | .ok f =>
        let lg := legendFor r.1 o.ctx f.bits
        let e := entOf f.key f.record
        match readTile (some e) f.bits lg with
        | .error x => opFault r.1 id x.code allLanes (loupeDetail (some e) f.bits 2 0xA5 lg 0 x)
        | .ok y => updOp r.1 id (fun o => { o with st := .publishing, staged := tileStage (enFmt f.record) (coOff c) y })
    | _ => s
def execFdec (p : P) (s : State) : Out :=
  withG s (fun gid _ g => if !elects g p.h then fin s gid p false else withSp s gid g (fun s b =>
    let c := rdSn g (sNum p.a)
    let id0 := tensorOf s g p.b.opnd
    let n := match id0.bind (dirRec s (gPart s g)) with | some r => tileBytes (dtFmt r) | none => 0
    verdictOut s gid true 0 1 5 (judge [{ lane := 0, va := coOff c, c := spRange b (coOff c) n 128 }] false)
      (match id0 with
       | none => raiseUnbound s gid (thNo p.b.opnd)
       | some t =>
         let s := flushReds s gid g
         let a := issueOp s gid g p (.dec c t) false
         fin (if opBlocked a.1 a.2 (newOp s gid g p (.dec c t) false) then a.1 else decStart a.1 a.2) gid p false)))
/-- Staged scratchpad bytes written; groups that wait on a record among them are told (R196, R204). -/
def writeStaged (s : State) (o : EOp) : State :=
  bcWake (updB s o.block (fun b =>
    let l := o.staged.filter (fun x => x.spad && x.addr < b.size)
    spClear (l.foldl (fun b x => spPuts b x.addr [x.val]) b) (l.map (fun x => (x.addr, 1))))) o.block
/-- R258: the decoded tile reaches scratchpad and the batch; or an operation that waited starts. -/
def execFdecRetire (id : Nat) (s : State) : Out :=
  match mfind s.ops id with
  | none => .next s
  | some o =>
    match o.kind with
    | .dec _ t =>
      if o.st == .queued then .next (if opBlocked s id o then s else decStart s id)
      else if o.st == .publishing then
        .next (removeOp (unregister (bumpCtr (writeStaged s o) (o.ctx / 64) 0x09 (tileSyms (tensorFmt s (o.ctx / 64) t))) id) id)
      else .next s
    | _ => .next s

/-! ### The pool (R232, R441) -/

/-- R232: the queued donation joins the pool. -/
def takeDonation (s : State) (part : Nat) : State :=
  let q := getPart s part
  if q.donateGo then freeBlock (updPart s part (fun q => { q with donateGo := false })) part 12 (q.donate / 2 ^ 21 * 2 ^ 21) else s
def execFolioDonate (part : Nat) (s : State) : Out := .next (takeDonation s part)
/-- R441: every 1 ms while an operation waits for a block. -/
def execLowmarkTick (part : Nat) (s : State) : Out :=
  if s.ops.any (fun x => x.2.ctx / 64 == part && x.2.st == .starved) then .next (setInt s part 2) else .next s

end Sys2Proof.Machine
end

