-- ==== Sys2Proof/Machine/Transfer.lean ====
section
/-! DEFINITION. Transfer: layout records, windows and the Pantograph's commands, opcodes 0x98 to 0x9D, with the steps of a
command's life (R264 to R284). -/

namespace Sys2Proof.Machine

/-! ### Layout records (R264 to R266, R269) -/

def lrBase (r : Nat) : Nat := fld r 63 0
def lrFmt (r : Nat) : Nat := fld r 71 64
def lrRank (r : Nat) : Nat := fld r 75 72
def lrPerm (r i : Nat) : Nat := fld r (76 + 4 * i + 3) (76 + 4 * i)
def lrBank (r : Nat) : Nat := fld r 123 116
def lrFill (r : Nat) : Nat := fld r 155 124
def lrDec (r : Nat) : Bool := bitAt r 156
def lrEnc (r : Nat) : Bool := bitAt r 157
def lrKeep (r : Nat) : Bool := bitAt r 158
def lrCat (r : Nat) : Bool := lrDec r || lrEnc r || lrKeep r
def lrSpace (r : Nat) : Bool := bitAt r 159
def lrSlot (r : Nat) : Nat := fld r 162 160
def lrOri (r : Nat) : Nat := fld r 163 163
def lrExt (r i : Nat) : Nat := fld r (172 + 24 * i + 23) (172 + 24 * i)
def lrStr (r i : Nat) : Int := toSigned 32 (fld r (412 + 32 * i + 31) (412 + 32 * i))
def lrFmtOk (c : Nat) : Bool := c ≤ 0x17 || (0x20 ≤ c && c ≤ 0x24)
def lrRaw (c : Nat) : Bool := 0x21 ≤ c && c ≤ 0x24
def lrW (r : Nat) : Nat := fmtBits (lrFmt r)
/-- R269: k and m of a bank code. -/
def bankK (b : Nat) : Nat := b % 8 + 2
def bankM (b : Nat) : Nat := b / 16 % 8
/-- R269: where the byte at a computed offset is stored. -/
def swizzle (b a : Nat) : Nat := if b = 0 then a else a ^^^ (a / 256 % 2 ^ bankM b * 2 ^ bankK b)

/-- R265: the conditions that a record meets by itself; a Rank of 0 is for the instruction to allow. -/
def lrOk (r : Nat) : Bool :=
  let n := lrRank r
  let is := List.range n
  let up := rng n (10 - n)
  n ≤ 10 && is.all (fun k => is.any (fun i => lrPerm r i == k)) &&
  up.all (fun i => lrPerm r i == 0 && lrExt r i == 0 && lrStr r i == 0) && is.all (fun i => lrExt r i != 0) &&
  lrFmtOk (lrFmt r) && fld r 171 164 == 0 && fld r 767 732 == 0 &&
  (lrBank r == 0 || (lrSpace r && lrBank r % 16 < 8 && lrBank r < 128 && bankK (lrBank r) + bankM (lrBank r) ≤ 8)) &&
  (lrDec r).toNat + (lrEnc r).toNat + (lrKeep r).toNat ≤ 1 &&
  (lrEnc r || (lrSlot r == 0 && lrOri r == 0)) && (!lrSpace r || lrBase r < 2 ^ 21) &&
  (!lrCat r || (!lrSpace r && n == 2 && lrStr r 0 == 0 && lrStr r 1 == 0 &&
    (if bitAt r 63 then fld r 62 3 == 0 else fld r 62 32 == 0) &&
    (lrKeep r || lrFmt r ≤ 0x0B || lrFmt r == 0x16)))
/-- R266: the tensor that a record names; none when its handle is not bound. -/
def lrTensor (record r : Nat) : Option Nat := if bitAt r 63 then handleOf record 320 (r % 8) else some (r % 2 ^ 32)
/-- R265: a record against the tensor's directory record. -/
def lrFits (r d : Nat) : Bool := lrExt r 0 == 64 * dtCols d && lrExt r 1 == 64 * dtRows d && lrFmt r == dtFmt d

/-! ### Windows (R267, R268) -/

/-- The 256-bit value of four window registers. -/
def winVal (g : Group) (w j : Nat) : Nat := sumNat ((List.range 4).map (fun i => rdSn g (w + 4 * j + i) * 2 ^ (64 * i)))
def winDim (v i : Nat) : Nat := fld v (24 * i + 23) (24 * i)
/-- R267: a window value has nothing at or above the rank. -/
def winOk (v rank : Nat) : Bool := v < 2 ^ (24 * rank)
/-- The window indices of a size, dimension 0 fastest. -/
def winIdx (z : List Nat) : List (List Nat) :=
  match z with
  | [] => [[]]
  | n :: t => (winIdx t).flatMap (fun x => (List.range n).map (fun a => a :: x))
def winSize (v rank : Nat) : List Nat := (List.range rank).map (winDim v)
/-- R268: the element index of a record at a window index. -/
def elIdx (r o : Nat) (x : List Nat) : List Nat := (List.range (lrRank r)).map (fun i => winDim o i + x.getD (lrPerm r i) 0)
/-- R268: the bit address of the element, none beyond the extents. -/
def spot (r o : Nat) (x : List Nat) : Option Int :=
  let e := elIdx r o x
  if (List.range (lrRank r)).all (fun i => e.getD i 0 < lrExt r i) then
    some (8 * (lrBase r : Int) + (lrW r : Int) * ((List.range (lrRank r)).foldl (fun t i => t + (e.getD i 0 : Int) * lrStr r i) 0))
  else none
def spots (r o : Nat) (z : List Nat) : List (Option Int) := (winIdx z).map (spot r o)
/-- The bytes of an element: addresses in memory modulo 2^64, or stored offsets of scratchpad. -/
def elBytes (r : Nat) (b : Int) : List Nat :=
  let lo := b / 8
  let n := ((b % 8 + lrW r + 7) / 8).toNat
  (List.range n).map (fun (i : Nat) => let a := wrap 64 (lo + (i : Int)); if lrSpace r then swizzle (lrBank r) a else a)
/-- The distinct bytes of a list, in address order. -/
def distinct (l : List Nat) : List Nat := (l.foldl (fun (m : AMap Unit) a => mset m a ()) []).map (·.1)
def spotBytes (r : Nat) (ss : List (Option Int)) : List Nat := distinct (ss.flatMap (fun b => match b with | some b => elBytes r b | none => []))
/-- R268: an element address that breaks the first rule. -/
def spotMis (r : Nat) (ss : List (Option Int)) : Option Nat :=
  ss.findSome? (fun b => match b with | some b => if b % (min (lrW r) 8 : Nat) != 0 then some (wrap 64 (b / 8)) else none | none => none)
/-- R268: a scratchpad element outside the block. -/
def spotOut (size r : Nat) (ss : List (Option Int)) : Option Nat :=
  if lrSpace r then
    ss.findSome? (fun b => match b with
      | some b => if b < 0 || (size : Int) ≤ (b + lrW r - 1) / 8 then some (wrap 64 (b / 8)) else none
      | none => none)
  else none

/-! ### Acceptance (R270, R271, R275) -/

/-- One side of a command: record, spots, written or read. -/
structure Side where
  r : Nat
  ss : List (Option Int)
  wr : Bool
  deriving DecidableEq, Repr
/-- The memory bytes of a side. -/
def sideVas (x : Side) : List Nat := if lrSpace x.r || lrCat x.r then [] else spotBytes x.r x.ss
/-- R275: the byte-counting record of a command. -/
def cntOff (p : P) : Option Nat := if p.count then some (32 * p.ext.toNat) else none
/-- The command is issued only while its channel holds fewer than 16 (R270). -/
def xStart (p : P) (s : State) (f : Nat → Group → State → Block → Out) : Out :=
  withG s (fun gid _ g =>
    if !elects g p.h then fin s gid p true
    else if 16 ≤ (channelOf s 0 (gPair g) (gCtx s g)).length then stall s gid 9
    else withSp s gid g (fun s b => f gid g (flushReds s gid g) b))
/-- R77, R268, R271: the reason that freezes a command at an element address that it may not access. -/
def elemReason : Nat := 5
/-- R265, R158: the Base of a plain memory record outside the address space freezes with reason 0x02, before its elements are
asked for. -/
def lrHigh (r : Nat) : Option (Nat × TrR) :=
  if !lrSpace r && !lrCat r && lrRank r != 0 && 2 ^ 48 ≤ lrBase r then some (lrBase r, .forbid 2) else none
/-- What stands in the way of a command's pages: a Base outside the address space, then its pages read and written, all together.
The reason of a violation at a page is that of its element. -/
def pageBar (s : State) (core ctx : Nat) (ext : List Tr) (high reads writes : List Nat) : State × Option (Nat × TrR) :=
  let r := framesOf s core ctx ext 0 reads
  let w := framesOf r.1 core ctx ext 1 writes
  (w.1, match high.findSome? lrHigh with
    | some x => some x
    | none => match obstacles [r.2.2, w.2.2] with
      | some (va, .forbid _) => some (va, .forbid elemReason)
      | x => x)
/-- The conditions of a command that is not for its pages to decide: footprint, alignment, scratchpad range with the byte-counting
record, handles. -/
structure XCond where
  big : Bool := false
  mis : Option Nat := none
  out : Option Nat := none
  unb : Option Nat := none
  deriving DecidableEq, Repr
/-- R67: the fault of the first of them, in ascending order of codes. -/
def condFault (p : P) (o : Op) (s : State) (gid : Nat) (b : Block) (c : XCond) : Option Out :=
  if c.big then some (trapReserved s gid o p)
  else match c.mis with
    | some a => some (raise s gid 0x11 allLanes (detMem a 0 6 false 0 0))
    | none => match c.out with
      | some a => some (raise s gid 0x12 allLanes (detMem a 0 6 false 0 0))
      | none => match (cntOff p).filter (fun c => b.size < c + 16) with
        | some a => some (raise s gid 0x12 allLanes (detMem a 0 7 false 0 0))
        | none => c.unb.map (raiseUnbound s gid)
/-- R67, R271: the checks of a command whose records are read. Records that are not valid name no pages: fault 0x02. Then a violation,
over all of its pages together, puts the command into its channel frozen; then the footprint (0x02); then a page that is not present
(0x10), alignment, scratchpad range and handles in ascending order of their codes (assumption log 101). -/
def xCheck (p : P) (o : Op) (s : State) (gid : Nat) (g : Group) (b : Block) (bad : Bool) (c : XCond)
    (high : List Nat) (reads writes : List Nat) (k : EK) : Out :=
  if bad then trapReserved s gid o p
  else
    let w := pageBar s g.core (gCtx s g) (gExts s g) high reads writes
    let s := w.1
    match w.2 with
    | some (va, .forbid r) =>
      let a := issueOp s gid g p k true
      fin (opFreeze a.1 a.2 r va) gid p true
    | some (va, x) =>
      if c.big then trapReserved s gid o p
      else (match x with
        | .np l y => raise s gid 0x10 allLanes (detNp va l y false)
        | _ => stall s gid 9)
    | none => (condFault p o s gid b c).getD (fin (issueOp s gid g p k true).1 gid p true)
/-- The tensors that records name against their directory records: a bad one, and a handle that is not bound. -/
def catBad (s : State) (g : Group) (r : Nat) : Bool :=
  lrCat r && (match (lrTensor (gRecord s g) r).bind (dirRec s (gPart s g)) with | some d => !lrFits r d | none => false)
def catUnbound (s : State) (g : Group) (r : Nat) : Option Nat :=
  if lrCat r && (lrTensor (gRecord s g) r).isNone then some (r % 8) else none
/-- R266: the window of a record that names a tensor: whole folios inside the extents. -/
def winWhole (r o : Nat) (z : List Nat) : Bool :=
  !lrCat r || (List.range 2).all (fun i =>
    winDim o i % 64 == 0 && z.getD i 0 % 64 == 0 && winDim o i + z.getD (lrPerm r i) 0 ≤ lrExt r i)
/-- R276: may the two records be paired? A decoded or kept source is bound to the destination's format; any other may differ
from it where one of the two is raw and the widths agree. -/
def pairOk (a b : Nat) : Bool :=
  !lrEnc a && !lrDec b && lrKeep a == lrKeep b &&
  (lrFmt a == lrFmt b || ((lrRaw (lrFmt a) || lrRaw (lrFmt b)) && lrW a == lrW b && !lrCat a))

/-- The folios of a window of a record, as (row, column), in window order of the tiles. -/
def winFolios (r o : Nat) (z : List Nat) : List (Nat × Nat) :=
  (winIdx (z.map (· / 64))).map (fun t =>
    ((winDim o 1 + 64 * t.getD (lrPerm r 1) 0) / 64, (winDim o 0 + 64 * t.getD (lrPerm r 0) 0) / 64))
/-- R272: the compressed bytes of the source folios, for a copy that keeps them compressed. -/
def keepFoot (s : State) (part t : Nat) (l : List (Nat × Nat)) : Nat :=
  sumNat (l.map (fun x => enLen (getCat s (entryKey part t x.1 x.2)).record))

/-- The address register of a record. -/
def recVa (g : Group) (x : Opnd) : Nat := rdSn g (sNum x)
def execXfil (p : P) (s : State) : Out :=
  xStart p s (fun gid g s b =>
    groupRead s gid g (recVa g p.a) 96 32 (fun s r =>
      let n := lrRank r
      let w := dNum p.d
      let os := winVal g w 0
      let od := winVal g w 1
      let zv := winVal g w 2
      let bad := !(lrOk r && n != 0 && !lrCat r && os == 0 && winOk od n && winOk zv n)
      let sd := if bad then [] else spots r od (winSize zv n)
      xCheck p .xfil s gid g b bad { mis := spotMis r sd, out := spotOut b.size r sd } [r] [] (sideVas ⟨r, sd, true⟩)
        (.copy 3 [r] [os, od, zv] (cntOff p))))

/-- R279: the scale record's window for an orientation, 0 rows and 1 columns: origin and size. -/
def qOrigin (o l od : Nat) : Nat := if o = 0 then winDim od 0 / l + 2 ^ 24 * winDim od 1 else winDim od 0 + 2 ^ 24 * (winDim od 1 / l)
def qSize (o l : Nat) (z : List Nat) : List Nat :=
  if o = 0 then [ceilDiv (z.getD 0 0) l, z.getD 1 0] else [z.getD 0 0, ceilDiv (z.getD 1 0) l]
/-- R279: one orientation's records: both left out, or both right. -/
def qOk (t sc : Nat) : Bool :=
  (lrRank t == 0 && lrRank sc == 0) ||
  (lrRank t == 2 && lrRank sc == 2 && lrPerm t 0 == 0 && lrPerm sc 0 == 0 && fmtBlk (lrFmt t) != 0 && lrFmt t ≤ 0x17 &&
   lrFmt sc == 0x21 && !lrCat t && !lrCat sc)
/-- The sides of a quantisation. -/
def qSides (rs : List Nat) (os od : Nat) (z : List Nat) : List Side :=
  { r := rs.getD 0 0, ss := spots (rs.getD 0 0) os z, wr := false } ::
  [0, 1].flatMap (fun o =>
    let t := rs.getD (1 + 2 * o) 0
    let sc := rs.getD (2 + 2 * o) 0
    if lrRank t = 0 then [] else
    let l := fmtBlk (lrFmt t)
    [{ r := t, ss := spots t od z, wr := true }, { r := sc, ss := spots sc (qOrigin o l od) (qSize o l z), wr := true }])
/-- R272: the distinct bytes that the written sides of a command cover. -/
def sidesFoot (l : List Side) : Nat :=
  (distinct (l.flatMap sideVas)).length + (distinct ((l.filter (fun x => lrSpace x.r)).flatMap (fun x => spotBytes x.r x.ss))).length
def execXqnt (p : P) (s : State) : Out :=
  xStart p s (fun gid g s b =>
    groupReads s gid g ((List.range 5).map (fun i => recVa g p.a + 96 * i)) 96 32 (fun s rs =>
      let src := rs.getD 0 0
      let w := dNum p.d
      let os := winVal g w 0
      let od := winVal g w 1
      let zv := winVal g w 2
      let bad := !(rs.all lrOk && lrRank src == 2 && [0x20, 0x00, 0x01].contains (lrFmt src) && lrPerm src 0 == 0 && !lrCat src &&
        qOk (rs.getD 1 0) (rs.getD 2 0) && qOk (rs.getD 3 0) (rs.getD 4 0) && winOk os 2 && winOk od 2 && winOk zv 2 &&
        winDim od 0 % 32 == 0 && winDim od 1 % 32 == 0)
      let sides := if bad then [] else qSides rs os od (winSize zv 2)
      let wr := sides.filter (·.wr)
      xCheck p .xqnt s gid g b bad { big := 65536 < sidesFoot wr, mis := sides.findSome? (fun x => spotMis x.r x.ss),
                                     out := sides.findSome? (fun x => spotOut b.size x.r x.ss) } rs
        ((sides.filter (fun x => !x.wr)).flatMap sideVas) (wr.flatMap sideVas) (.copy 2 rs [os, od, zv] (cntOff p))))

/-- R277: an image slot for every participating lane. -/
def execXgat (p : P) (s : State) : Out :=
  xStart p s (fun gid g s b =>
    let ls := lanesOf (guardLanes g p.h &&& ~~~g.hmask)
    let slot := 512 * 2 ^ p.f
    let base := rdSn g (dNum p.d) % 2 ^ 32
    let n := match p.a with | .v n => n.toNat | _ => 0
    let last := base + slot * (ls.getLastD 0)
    let t := tensorOf s g p.b.opnd
    xCheck p .xgat s gid g b false { big := 65536 < ls.length * slot, mis := if base % 256 != 0 then some base else none,
                                     out := if b.size < last + slot then some last else none,
                                     unb := if t.isNone then some (thNo p.b.opnd) else none } [] [] []
      (.gather p.f base (t.getD 0) (ls.map (fun i => (i, (rdV g n i).toNat))) (cntOff p)))
/-- The 64-byte-granular addresses of a range, for translation of its pages. -/
def rangeVas (va n : Nat) : List Nat := (pieces va n).map (·.1)
/-- The pages of a row command, of a length that it may have or of the longest. -/
def rowVas (va n : Nat) : List Nat := rangeVas va (min n (2 ^ 32))
def xrowRun (p : P) (s : State) (o : Op) (ini : Bool) : Out :=
  xStart p s (fun gid g s b =>
    let d := rdSn g (dNum p.d)
    let a := rdSn g (sNum p.a)
    let n := rdSn g (sNum p.b.opnd)
    if ini && 2 ^ 32 ≤ a then trapIllegal s gid o p
    else
      let mis := if d % 1024 != 0 then some d else if !ini && a % 1024 != 0 then some a
        else if n % 1024 != 0 || 2 ^ 32 < n then some d else none
      xCheck p o s gid g b false { mis := mis } [] (if ini then [] else rowVas a n) (rowVas d n)
        (if ini then .rowIni d a n else .rowCpy d a n))
def execXrowCpy (p : P) (s : State) : Out := xrowRun p s .xrowCpy false
def execXrowIni (p : P) (s : State) : Out := xrowRun p s .xrowIni true
def execXsta (p : P) (s : State) : Out :=
  xStart p s (fun gid g s b =>
    let va := regAddr g p
    let q := { p with ty := 0, ext := 0 }
    xCheck { q with rs := p.rs } .xsta s gid g b false { mis := if va % 8 != 0 then some va else none } [] [] [va]
      (.stamp va (rdSn g (sNum p.b.opnd))))

/-! ### Reading (R268, R272, R276, R277, R279) -/

/-- What a command's read phase comes to. -/
inductive XRes where
  /-- the staged bytes, the folios and the footprint -/
  | ok (bytes : List StByte) (folios : List StFolio) (foot : Nat)
  /-- a page drains, or an entry cannot be reached yet -/
  | wait
  /-- a page is not present -/
  | np
  | freeze (reason va : Nat)
  | fault (code lanes detail : Nat)
  deriving DecidableEq, Repr

/-- An obstacle of translation, for a command. -/
def xObst (x : Option (Nat × TrR)) : Option XRes :=
  match x with
  | some (_, .wait) => some .wait
  | some (_, .np _ _) => some .np
  | some (va, .forbid _) => some (.freeze elemReason va)
  | _ => none
/-- The bytes of an element in memory, whole where they lie together in one sector (R184), else one by one. -/
def elRead (s : State) (pair : Nat) (pas : List Nat) : List (Byte × Bool) :=
  match pas with
  | [] => []
  | a :: _ => if pas.zipIdx.all (fun x => x.1 == a + x.2) then engReadN s pair a pas.length else pas.map (engRead1 s pair)
/-- One element read: its value, and the address of a poisoned granule. -/
def readEl (s : State) (o : EOp) (b : Block) (fs : List (Nat × Nat)) (r : Nat) (at_ : Int) : Nat × Option Nat :=
  let bs := elBytes r at_
  let xs := if lrSpace r then bs.map (fun a => (spByte b a, spPoison b a 1)) else elRead s o.pair (bs.map (inFrames fs))
  (ofBytes (xs.map (·.1)) >>> (at_ % 8).toNat % 2 ^ lrW r,
   if xs.any (·.2) then bs.head? else none)
/-- The fill of a record. -/
def fillOf (r : Nat) : Nat := lrFill r % 2 ^ lrW r
/-- The values of a plain side, in window order. -/
def readSide (s : State) (o : EOp) (b : Block) (r : Nat) (ss : List (Option Int)) : State × Except XRes (List Nat) :=
  let t := framesOf s o.core o.ctx (opExts s o) 0 (sideVas ⟨r, ss, false⟩)
  match xObst t.2.2 with
  | some e => (t.1, .error e)
  | none =>
    let vas := sideVas ⟨r, ss, false⟩
    if windowShut t.1 (o.ctx / 64) 1 (vas.map (inFrames t.2.1)) then (t.1, .error .wait) else
    let s := missVas (countVas ((vas.map (fun a => granOf (inFrames t.2.1 a))).eraseDups.foldl eccTouch t.1) o t.2.1 vas) o t.2.1 vas
    let xs := ss.map (fun x => match x with | some a => readEl s o b t.2.1 r a | none => (fillOf r, none))
    match xs.findSome? (·.2) with
    | some va =>
      let pa := inFrames t.2.1 va
      (s, .error (.fault 0x41 allLanes (if lrSpace r then detMem va 0 6 false 2 0
        else detMem va 0 6 false (poisonLevel s o.pair pa) (pa / 32 * 32))))
    | none => (s, .ok (xs.map (·.1)))
/-- The folios of a list of coordinates, looked up, registered and read; the first failure stops it. -/
def readFolios (s : State) (id pair part t opc : Nat) (l : List (Nat × Nat)) : State × Except XRes (List StFolio) :=
  match l with
  | [] => (s, .ok [])
  | (row, col) :: rest =>
    let r := readFolio s id pair part t row col 2 opc
    match r.2 with
    | .wait => (r.1, .error .wait)
    | .freeze k va => (r.1, .error (.freeze k va))
    | .fault c d => (r.1, .error (.fault c allLanes d))
    | .ok f =>
      match readFolios r.1 id pair part t opc rest with
      | (s, .ok fs) => (s, .ok (f :: fs))
      | x => x
/-- The tiles of folios, decoded by a Loupe (R246). -/
def decodeFolios (s : State) (ctx opc : Nat) (l : List StFolio) : Except XRes (List TileD) :=
  match l with
  | [] => .ok []
  | f :: rest =>
    let lg := legendFor s ctx f.bits
    let e := entOf f.key f.record
    match readTile (some e) f.bits lg with
    | .error x => .error (.fault x.code allLanes (loupeDetail (some e) f.bits 2 opc lg (isAppend s (ctx / 64) (keyTensor f.key)).toNat x))
    | .ok t => match decodeFolios s ctx opc rest with | .ok ts => .ok (t :: ts) | .error x => .error x
/-- R266: element (e0, e1) of decoded folios at given coordinates. -/
def tileEl (fs : List (Nat × Nat)) (ts : List TileD) (e : List Nat) : Nat :=
  let e0 := e.getD 0 0
  let e1 := e.getD 1 0
  match (fs.zip ts).find? (fun x => x.1.1 == e1 / 64 && x.1.2 == e0 / 64) with
  | some x => x.2.els.getD (64 * (e1 % 64) + e0 % 64) 0
  | none => 0

/-- Bits laid into a map of bytes: the mask and the value of each. -/
def layByte (m : AMap (Byte × Byte)) (a : Nat) (mask v : Byte) : AMap (Byte × Byte) :=
  let old := mget (0, 0) m a
  mset m a (old.1 ||| mask, (old.2 &&& ~~~mask) ||| (v &&& mask))
def layEl (m : AMap (Byte × Byte)) (r : Nat) (at_ : Int) (v : Nat) : AMap (Byte × Byte) :=
  let sh := (at_ % 8).toNat
  let bs := elBytes r at_
  let val := v % 2 ^ lrW r * 2 ^ sh
  let msk := (2 ^ lrW r - 1) * 2 ^ sh
  bs.zipIdx.foldl (fun m x => layByte m x.1 (BitVec.ofNat 8 (msk >>> (8 * x.2))) (BitVec.ofNat 8 (val >>> (8 * x.2)))) m
/-- R268: values laid at their spots; a later index wins; whole bytes are read, changed and written. -/
def stageSide (s : State) (o : EOp) (b : Block) (r : Nat) (ss : List (Option Int)) (vs : List Nat) : State × Except XRes (List StByte) :=
  let t := framesOf s o.core o.ctx (opExts s o) 1 (sideVas ⟨r, ss, true⟩)
  match xObst t.2.2 with
  | some e => (t.1, .error e)
  | none =>
    let m := (ss.zip vs).foldl (fun m x => match x.1 with | some a => layEl m r a x.2 | none => m) ([] : AMap (Byte × Byte))
    let sp := lrSpace r
    (countVas t.1 o t.2.1 (sideVas ⟨r, ss, true⟩), .ok (m.map (fun x =>
      let a := if sp then x.1 else inFrames t.2.1 x.1
      let old := if x.2.1 == 255 then (0 : Byte) else if sp then spByte b a else (engRead1 t.1 o.pair a).1
      { spad := sp, addr := a, val := (old &&& ~~~x.2.1) ||| x.2.2 })))

/-- R276 Encode: the folios of a destination window, coded by the Burin. -/
def encodeFolios (s : State) (o : EOp) (t r od : Nat) (z vs : List Nat) : Except XRes (List StFolio) :=
  let part := o.ctx / 64
  let fs := winFolios r od z
  match fs, legendOf s o.ctx (lrSlot r) with
  | [], _ => .ok []
  | (row, col) :: _, none =>
    .error (.fault 0x23 allLanes (folDetail t row col 0 3 0 8 (lrSlot r) 0 (enGen (getCat s (entryKey part t row col)).record) 0 0 0x98))
  | _, some img => .ok (fs.map (fun x =>
      let els := (List.range 4096).map (fun i =>
        let e := [64 * x.2 + i % 64, 64 * x.1 + i / 64]
        let at_ := fun (k : Nat) => (List.range 2).foldl (fun a j => if lrPerm r j == k then e.getD j 0 - winDim od j else a) 0
        vs.getD (at_ 0 + z.getD 0 0 * at_ 1) 0)
      let f := makeTile (lrFmt r) t x.1 x.2 (lrSlot r) (lrOri r) (some img) els []
      { key := entryKey part t x.1 x.2, bits := f.bits, len := f.len, tag := f.tag, crc := f.crc }))
/-- R276 Keep: a source folio under the destination's name. -/
def keepFolio (part t : Nat) (to_ : Nat × Nat) (f : StFolio) : StFolio :=
  let bits := setFld (setFld (setFld f.bits 63 32 t) 79 64 to_.1) 95 80 to_.2
  { f with key := entryKey part t to_.1 to_.2, bits := bits,
           crc := crc16 bits (if fld bits 15 12 = 1 then f.len else 32) }

/-- The tensor of a record of a command, from its kernel's handles. -/
def opTensor (s : State) (o : EOp) (r : Nat) : Nat :=
  (lrTensor (match mfind s.kernels o.kernel with | some k => k.record | none => 0) r).getD 0
/-- A tensor that a command names and that is not Live: fault 0x22 with reason 7 in the read phase, at the first folio of the
window; an empty window names none. -/
def missTensor (s : State) (o : EOp) (r org : Nat) (z : List Nat) (opc : Nat) : Option XRes :=
  if lrCat r && (dirRec s (o.ctx / 64) (opTensor s o r)).isNone then
    (winFolios r org z).head?.map (fun x =>
      .fault 0x22 allLanes (folDetail (opTensor s o r) x.1 x.2 0 (if lrEnc r then 3 else 2) 0 7 0 0 0 0 0 opc))
  else none
/-- xcpy: every read of the command, and what it stages. -/
def xcpyRead (s : State) (id : Nat) (o : EOp) (b : Block) (ra rb os od zv : Nat) : State × XRes :=
  let z := winSize zv (lrRank ra)
  let part := o.ctx / 64
  match (missTensor s o ra os z 0x98).orElse (fun _ => missTensor s o rb od z 0x98) with
  | some x => (s, x)
  | none =>
    let ta := opTensor s o ra
    if lrKeep ra then
      let fs := winFolios ra os z
      match readFolios s id o.pair part ta 0x98 fs with
      | (s, .error x) => (s, x)
      | (s, .ok l) =>
        let out := (winFolios rb od z).zip l |>.map (fun x => keepFolio part (opTensor s o rb) x.1 x.2)
        (s, .ok [] out (sumNat (out.map (·.len))))
    else
      let r : State × Except XRes (List Nat) :=
        if lrDec ra then
          let fs := winFolios ra os z
          match readFolios s id o.pair part ta 0x98 fs with
          | (s, .error x) => (s, .error x)
          | (s, .ok l) => match decodeFolios s o.ctx 0x98 l with
            | .error x => (s, .error x)
            | .ok ts => (s, .ok ((winIdx z).map (fun x => tileEl fs ts (elIdx ra os x))))
        else readSide s o b ra (spots ra os z)
      match r.2 with
      | .error x => (r.1, x)
      | .ok vs =>
        if lrEnc rb then
          match encodeFolios r.1 o (opTensor r.1 o rb) rb od z vs with
          | .error x => (r.1, x)
          | .ok l => (r.1, .ok [] l (sumNat (l.map (·.len))))
        else
          match stageSide r.1 o b rb (spots rb od z) vs with
          | (s, .error x) => (s, x)
          | (s, .ok l) => (s, .ok l [] l.length)

/-- R272: the compressed bytes that an encoding copy would write, from its source as it stands at issue; nothing is changed. -/
def encFoot (s : State) (o : EOp) (b : Block) (ra rb os od zv : Nat) : Nat :=
  if !lrEnc rb then 0 else match (xcpyRead s 0 o b ra rb os od zv).2 with | .ok _ _ n => n | _ => 0
def execXcpy (p : P) (s : State) : Out :=
  xStart p s (fun gid g s b =>
    groupReads s gid g [recVa g p.a, recVa g p.b.opnd] 96 32 (fun s rs =>
      let ra := rs.getD 0 0
      let rb := rs.getD 1 0
      let n := lrRank ra
      let w := dNum p.d
      let os := winVal g w 0
      let od := winVal g w 1
      let zv := winVal g w 2
      let z := winSize zv n
      let bad0 := !(lrOk ra && lrOk rb && n != 0 && lrRank rb == n && pairOk ra rb && winOk os n && winOk od n && winOk zv n)
        || catBad s g ra || catBad s g rb || !winWhole ra os z || !winWhole rb od z
      let sa := if bad0 || lrCat ra then [] else spots ra os z
      let sb := if bad0 || lrCat rb then [] else spots rb od z
      let k := EK.copy 0 [ra, rb] [os, od, zv] (cntOff p)
      let foot := if bad0 then 0 else if lrKeep rb then
          (match lrTensor (gRecord s g) ra with | some t => keepFoot s (gPart s g) t (winFolios ra os z) | none => 0)
        else if lrEnc rb then encFoot s (newOp s gid g p k true) b ra rb os od zv
        else (spotBytes rb sb).length
      xCheck p .xcpy s gid g b bad0 { big := 65536 < foot, mis := (spotMis ra sa).orElse (fun _ => spotMis rb sb),
                                      out := (spotOut b.size ra sa).orElse (fun _ => spotOut b.size rb sb),
                                      unb := (catUnbound s g ra).orElse (fun _ => catUnbound s g rb) } [ra, rb]
        (sideVas ⟨ra, sa, false⟩) (sideVas ⟨rb, sb, true⟩) k))

/-- xgat: the images of the participating lanes; the slots are written whole. -/
def xgatRead (s : State) (id : Nat) (o : EOp) (f base t : Nat) (cs : List (Nat × Nat)) : State × XRes :=
  let part := o.ctx / 64
  let slot := 512 * 2 ^ f
  let bad := fun (lane reason c : Nat) => XRes.fault 0x38 (2 ^ lane) (mkRec [(4, 0, lane), (7, 6, reason), (39, 8, c), (71, 40, t)])
  match dirRec s part t with
  | none =>
    let c := (cs.headD (0, 0)).2
    (s, .fault 0x22 allLanes (folDetail t (c / 65536 % 65536) (c % 65536) 0 0 0 7 0 0 0 0 0 0x99))
  | some r =>
    let place := fun (c : Nat) => (c / 65536 % 65536, c % 65536)
    -- every lane is checked before any folio is read
    let first := cs.findSome? (fun x =>
      let at_ := place x.2
      if dtRows r ≤ at_.1 || dtCols r ≤ at_.2 then some (bad x.1 0 x.2)
      else match lookup s part t at_.1 at_.2 with
        | .miss y gen => some (.fault 0x22 (2 ^ x.1) (folDetail t at_.1 at_.2 0 0 0 y 0 (dtAppend r).toNat gen 0 0 0x99))
        | .wait => some .wait
        | .np _ _ _ => some .wait
        | .forbid k va => some (.freeze k va)
        | .ok e =>
          if slot < (gatherImage { bits := memRead s (enSector e) (enLen e), len := enLen e, tag := enTag e, crc := enCrc e }).2
          then some (bad x.1 2 x.2) else none)
    match first with
    | some x => (s, x)
    | none =>
      let q := cs.foldl (fun (q : State × Except XRes (List StByte)) x =>
        match q.2 with
        | .error _ => q
        | .ok l =>
          let y := readFolio q.1 id o.pair part t (place x.2).1 (place x.2).2 0 0x99
          match y.2 with
          | .wait => (y.1, .error .wait)
          | .freeze k va => (y.1, .error (.freeze k va))
          | .fault c d => (y.1, .error (.fault c (2 ^ x.1) d))
          | .ok fo =>
            let im := gatherImage { bits := fo.bits, len := fo.len, tag := fo.tag, crc := fo.crc }
            (y.1, .ok (l ++ (List.range slot).map (fun i =>
              { spad := true, addr := base + slot * x.1 + i, val := BitVec.ofNat 8 (im.1 >>> (8 * i)) })))) (s, .ok [])
      match q.2 with
      | .error x => (q.1, x)
      | .ok l => (q.1, .ok l [] l.length)

/-- R279: the scale code of a block from its values inside the extents; the Bool says amax = 0. -/
def scaleFor (c : Nat) (vs : List FV) : Nat × Bool :=
  let e8 := fmtBlk c = 32
  if vs.any (fun v => v.isNan || v.isInf) then (if e8 then 0xFF else 0x7F, false)
  else
    let big := vs.foldl (fun (m : FV) v => match v with
      | .fin _ a e => if cmpV m (.fin false a e) < 0 then .fin false a e else m
      | _ => m) (.fin false 0 0)
    match big with
    | .fin _ m e =>
      if m = 0 then (0, true)
      else if e8 then
        let em : Int := match c with | 0x0C => 8 | 0x0D => 15 | 0x0E => 4 | 0x0F => 2 | 0x10 => 2 | _ => 0
        ((clampI 0 254 ((Nat.log2 m : Int) + e - em + 127)).toNat, false)
      else
        let mx : Nat × Nat := match c with | 0x12 => (6, 1) | 0x13 => (15, 2) | 0x14 => (7, 1) | 0x15 => (127, 1) | _ => (448, 1)
        (roundQ e4m3 2 true false (m * mx.2) mx.1 e, false)
    | _ => (0, true)
/-- The floating element format of a block-scaled format. -/
def blkFmt (c : Nat) : Fmt :=
  match c with | 0x0C => e4m3 | 0x17 => e4m3 | 0x0D => e5m2 | 0x0E => e3m2 | 0x0F => e2m3 | 0x13 => e2m3 | _ => e2m1
/-- R279: v ÷ sc rounded to the element format. -/
def quantEl (c : Nat) (v sc : FV) : Nat :=
  let int := c = 0x11 || c = 0x14 || c = 0x15
  let w := fmtBits c
  match v, sc with
  | .fin n m e, .fin _ sm se =>
    let up : Nat := if c = 0x11 then 64 else 1
    if int then wrap w (satI true w (toIntV 0 n (m * up) sm (e - se)))
    else roundQ (blkFmt c) 0 true n m sm (e - se)
  | v, _ => if int then wrap w (toIntTy 0 true w v) else roundF (blkFmt c) 0 true v
/-- xqnt: codes and scales of every block of each orientation. -/
def xqntRead (s : State) (o : EOp) (b : Block) (rs : List Nat) (os od zv : Nat) : State × XRes :=
  let z := winSize zv 2
  let src := rs.getD 0 0
  let ss := spots src os z
  match readSide s o b src ss with
  | (s, .error x) => (s, x)
  | (s, .ok raw) =>
    let vals := raw.map (elemV (lrFmt src))
    let xs := winIdx z
    let z0 := z.getD 0 0
    let pos := fun (x0 x1 : Nat) => x0 + z0 * x1
    let q := [0, 1].foldl (fun (q : State × Except XRes (List StByte)) ori =>
      match q.2 with
      | .error _ => q
      | .ok l =>
        let t := rs.getD (1 + 2 * ori) 0
        let sr := rs.getD (2 + 2 * ori) 0
        if lrRank t = 0 then q else
        let c := lrFmt t
        let len := fmtBlk c
        let blkOf := fun (bx : List Nat) =>
          (List.range len).filterMap (fun i =>
            let x0 := if ori = 0 then len * bx.getD 0 0 + i else bx.getD 0 0
            let x1 := if ori = 0 then bx.getD 1 0 else len * bx.getD 1 0 + i
            if x0 < z0 && x1 < z.getD 1 0 then some (pos x0 x1) else none)
        let blocks := winIdx (qSize ori len z)
        let scs := blocks.map (fun bx => scaleFor c ((blkOf bx).filterMap (fun k => if (ss.getD k none).isSome then vals[k]? else none)))
        let nb0 := (qSize ori len z).getD 0 0
        let codes := xs.map (fun x =>
          let x0 := x.getD 0 0
          let x1 := x.getD 1 0
          let sc := scs.getD (if ori = 0 then x0 / len + nb0 * x1 else x0 + nb0 * (x1 / len)) (0, true)
          let sv := scaleV c sc.1
          if sc.2 || sv.isNan then 0 else quantEl c (vals.getD (pos x0 x1) .nan) sv)
        match stageSide q.1 o b t (spots t od z) codes with
        | (s, .error x) => (s, .error x)
        | (s, .ok a) => match stageSide s o b sr (spots sr (qOrigin ori len od) (qSize ori len z)) (scs.map (·.1)) with
          | (s, .error x) => (s, .error x)
          | (s, .ok a2) => (s, .ok (l ++ a ++ a2))) (s, .ok [])
    match q.2 with
    | .error x => (q.1, x)
    | .ok l =>
      let at_ := fun (sp : Bool) => (distinct ((l.filter (fun y => y.spad == sp)).map (·.addr))).length
      (q.1, .ok l [] (at_ true + at_ false))

/-- The block of an operation as it stands. -/
def opBlock (s : State) (o : EOp) : Block :=
  (mfind s.blocks o.block).getD { kernel := 0, num := 0, pair := 0, ngroups := 0, size := 0, ways := 0 }
/-- R172: the accesses of a row command to a range, counted page by page. -/
def countRange (s : State) (o : EOp) (fs : List (Nat × Nat)) (va n : Nat) : State :=
  (pieces va n).foldl (fun s x => countRemotes s (x.2 / 128) (pairDie o.pair) o.ctx x.1 (inFrames fs x.1)) s
/-- The read phase of a command, or the writes that a command without one will make. -/
def xRead (s : State) (id : Nat) (o : EOp) : State × XRes :=
  let b := opBlock s o
  match o.kind with
  | .copy 0 [ra, rb] [os, od, zv] _ => xcpyRead s id o b ra rb os od zv
  | .copy 2 rs [os, od, zv] _ => xqntRead s o b rs os od zv
  | .copy 3 [r] [_, od, zv] _ =>
    let z := winSize zv (lrRank r)
    (match stageSide s o b r (spots r od z) ((winIdx z).map (fun _ => fillOf r)) with
     | (s, .error x) => (s, x)
     | (s, .ok l) => (s, .ok l [] l.length))
  | .gather f base t cs _ => xgatRead s id o f base t cs
  | .stamp va v =>
    let t := framesOf s o.core o.ctx (opExts s o) 1 [va]
    (match xObst t.2.2 with
     | some e => (t.1, e)
     | none => (countVas t.1 o t.2.1 [va], .ok ((List.range 8).map (fun i => { spad := false, addr := inFrames t.2.1 va + i, val := BitVec.ofNat 8 (v >>> (8 * i)) })) [] 8))
  | .rowCpy d a n =>
    let t := framesOf s o.core o.ctx (opExts s o) 0 (rangeVas a n)
    let w := framesOf t.1 o.core o.ctx (opExts s o) 1 (rangeVas d n)
    (match (xObst t.2.2).orElse (fun _ => xObst w.2.2) with
     | some e => (w.1, e)
     | none => (countRange (countRange w.1 o t.2.1 a n) o w.2.1 d n, .ok [] [] n))
  | .rowIni d _ n =>
    let w := framesOf s o.core o.ctx (opExts s o) 1 (rangeVas d n)
    (match xObst w.2.2 with
     | some e => (w.1, e)
     | none => (countRange w.1 o w.2.1 d n, .ok [] [] n))
  | _ => (s, .ok [] [] 0)

/-! ### Publishing and retirement (R272 to R274, R276, R281) -/

/-- Bytes of a command written at rising physical addresses; those to an unreachable package leave a deferred record. -/
def engPut (s : State) (o : EOp) (l : List (Nat × Byte)) : State :=
  (runs l).foldl (fun s r =>
    if reachable s r.1 then
      engWriteSec (sendWrite s (o.ctx / 64) 1 r.1 r.2 (opTag s o) 0) o.pair r.1 r.2 (opTag s o)
    else match mfind s.groups o.gid with
      | some g => deferred s g 1 0 3 r.1
      | none => s) s
/-- Every staged byte to its destination. -/
def publish (s : State) (o : EOp) : State :=
  engPut (writeStaged s o) o (o.staged.filterMap (fun x => if x.spad then none else some (x.addr, x.val)))
/-- R281, R393: is a unit copied or initialised in the DRAM? The source shares the destination's subarray, or the pattern is 0; no source
unit of the command is a destination; in a ganged region its partner goes to the partner of its destination. -/
def inDram (s : State) (all : List (Nat × Option Nat)) (dst : Nat) (src : Option Nat) (pat : Nat) : Bool :=
  isLocal s dst && (match src with
    | none => pat == 0
    | some a =>
      let ganged := match mfind s.stackCtl (stackOf dst) with | some k => k.gang.getLsbD (regionOf dst) | none => false
      isLocal s a && sameSubarray a dst && !all.any (fun u => all.any (fun v => some u.1 == v.2)) &&
        (!ganged || all.contains (dst ^^^ 0x400, some (a ^^^ 0x400))))
/-- R281, R393: the 128 bytes of a unit's source with their poison marks. In the DRAM they move with the errors that stand in them, which
nothing reads; the Pantograph reads them through ECC. -/
def rowSource (s : State) (o : EOp) (dram : Bool) (a : Nat) : State × BitVec 1024 × BitVec 4 :=
  let sec := sectorOf a
  let s := evictHome s o.pair sec
  let s := if dram then s else eccTouches (sendAccess s (o.ctx / 64) 1 a { kind := 1 } false) (4 * sec) 4
  (s, homeSector s sec)
/-- R394: the errors of a source sector's granules stand in its copy. -/
def eccAlong (s : State) (sec dsec : Nat) : State :=
  { s with ecc := (List.range 4).foldl (fun m i => match mfind m (4 * sec + i) with | some x => mset m (4 * dsec + i) x | none => m) s.ecc }
/-- R281: one 1 KiB unit of xrow, granule by granule with its poison mark; src none is the pattern. A unit of an unreachable
package is discarded with one deferred record (R384); one of a reachable package is sent there. -/
def rowUnit (s : State) (o : EOp) (all : List (Nat × Option Nat)) (dst : Nat) (src : Option Nat) (pat : Nat) : State :=
  if !reachable s dst then
    (match mfind s.groups o.gid with | some g => deferred s g 1 0 3 dst | none => s)
  else
    let dram := inDram s all dst src pat
    (rng 0 8).foldl (fun s i =>
      let dsec := sectorOf (dst + 128 * i)
      let rd : State × BitVec 1024 × BitVec 4 := match src with
        | some a => rowSource s o dram (a + 128 * i)
        | none => (s, BitVec.ofNat 1024 (replicate 32 32 pat), 0)
      let s := rd.1
      let s := { s with l1 := mdel s.l1 (l1Key o.pair dsec),
                        dc := (List.range 4).foldl (fun m die => mdel m (dcKey die dsec)) s.dc }
      let s := sendWrite s (o.ctx / 64) 1 (dst + 128 * i) (toBytes 128 rd.2.1.toNat) (opTag s o) 0
      let s := homeWrite s dsec (BitVec.allOnes 128) rd.2.1 rd.2.2 (opTag s o)
      match src with
      | some a => if dram then eccAlong s (sectorOf (a + 128 * i)) dsec else s
      | none => s) s
/-- The units of a row command under the present translation. -/
def rowUnits (s : State) (o : EOp) : List (Nat × Option Nat) :=
  let frames := fun (need va n : Nat) => (framesOf s o.core o.ctx (opExts s o) need (rangeVas va n)).2.1
  match o.kind with
  | .rowCpy d a n =>
    let fw := frames 1 d n
    let fr := frames 0 a n
    (List.range (n / 1024)).map (fun i => (inFrames fw (d + 1024 * i), some (inFrames fr (a + 1024 * i))))
  | .rowIni d _ n =>
    let fw := frames 1 d n
    (List.range (n / 1024)).map (fun i => (inFrames fw (d + 1024 * i), none))
  | _ => []
/-- R281: the dirty sectors of the source at every die and pair go home first. -/
def rowRun (s : State) (o : EOp) (all : List (Nat × Option Nat)) (pat : Nat) : State :=
  let s := o.units.foldl (fun s u => match u.2 with | some a => flushRange s a 1024 | none => s) s
  o.units.foldl (fun s u => rowUnit s o all u.1 u.2 pat) s
/-- R380: how many of a list of writes, each of as many flits to its address, the flows of class 1 have room for. -/
def fitWrites (s : State) (part n : Nat) (pas : List Nat) : Nat :=
  if !pas.any (isFar s) then pas.length
  else ((List.range pas.length).takeWhile (fun i => !windowFull s part 1 ((pas.take (i + 1)).flatMap (List.replicate n)))).length
/-- R380: what of a command's writes its flows have room for now, and what must wait. -/
def fitOp (s : State) (o : EOp) : EOp × List StByte × List (Nat × Option Nat) :=
  let part := o.ctx / 64
  let far := o.staged.filter (fun x => !x.spad)
  let rs := runs (far.map (fun x => (x.addr, x.val)))
  let nb := ((rs.take (fitWrites s part 1 (rs.map (·.1)))).map (·.2.length)).foldl (· + ·) 0
  let nu := fitWrites s part 8 (o.units.map (·.1))
  ({ o with staged := o.staged.filter (·.spad) ++ far.take nb, units := o.units.take nu }, far.drop nb, o.units.drop nu)
/-- R392, R396: does a byte that a command is to write or copy lie in a region or on a stack that changes? -/
def xferBusy (s : State) (o : EOp) : Bool :=
  o.staged.any (fun x => !x.spad && stackBusy s x.addr) ||
  o.units.any (fun u => stackBusy s u.1 || (match u.2 with | some a => stackBusy s a | none => false))

/-- What installing a folio comes to. -/
inductive InstR where
  | done
  /-- the entry, or its page, makes it wait -/
  | wait
  /-- the pool has no block -/
  | starved
  | freeze (reason va : Nat)
  deriving DecidableEq, Repr
/-- One coded folio installed with a release at .pkg (R234, R236, R247, R249). -/
def installFolio (s : State) (id : Nat) (f : StFolio) : State × InstR :=
  match dirRec s (keyPart f.key) (keyTensor f.key) with
  | none => (s, .done)
  | some r =>
    let st := enState (getCat s f.key).record
    if dtRetiring r || st == 5 then (s, .done)
    else match entryPa s (keyPart f.key) r (keyRow f.key) (keyCol f.key) with
      | .forbid k => (s, .freeze k (entryVa r (keyRow f.key) (keyCol f.key)))
      | .wait => (s, .wait)
      | .np _ _ => (s, .wait)
      | .ok _ =>
        if st == 1 || st == 4 then (s, .wait)
        else
          let c := (classFor f.len).getD 5
          let a := allocBlock s (keyPart f.key) c
          match a.2 with
          | none => (a.1, .starved)
          | some pa =>
            let s := beginChange a.1 f.key 1 pa c { bits := f.bits, len := f.len, tag := f.tag, crc := f.crc, segs := f.segs }
            (endChange (installRelease s id) f.key, .done)
/-- The folios of a command installed one after the other; the rest wait behind the first that cannot be. -/
def installAll (s : State) (id : Nat) (l : List StFolio) : State × List StFolio × InstR :=
  match l with
  | [] => (s, [], .done)
  | f :: t =>
    let x := installFolio s id f
    if x.2 == .done then installAll x.1 id t else (x.1, f :: t, x.2)

/-- The count record of a command. -/
def opCount (k : EK) : Option Nat := match k with | .copy _ _ _ c => c | .gather _ _ _ _ c => c | _ => none
/-- R404: the symbols that a copy's folios give the Loupes or the Burin. -/
def countCopy (s : State) (o : EOp) : State :=
  match o.kind with
  | .copy 0 [ra, rb] [os, od, zv] _ =>
    let z := winSize zv (lrRank ra)
    let syms := fun (r v : Nat) => (winFolios r v z).length * tileSyms (lrFmt r)
    if lrDec ra then bumpCtr s (o.ctx / 64) 0x09 (syms ra os)
    else if lrEnc rb then bumpCtr s (o.ctx / 64) 0x0A (syms rb od) else s
  | _ => s
/-- R274: after its last write: the release flag, the count, the batch. -/
def xFinish (s : State) (id : Nat) (o : EOp) : State :=
  let rel := o.order = 2 || o.order = 3
  let s := if rel then releasePair s o.pair o.scope else s
  if rel && o.scope == 3 && unackedFlows s (o.ctx / 64) then updOp s id (fun o => { o with st := .done })
  else
    let s := match opCount o.kind with | some c => bcUpdate s o.block 2 c o.foot | none => s
    removeOp (unregister s id) id
def EK.reads (k : EK) : Bool := match k with | .copy 3 _ _ _ => false | .copy .. => true | .gather .. => true | _ => false

/-- What a read phase leaves of the command: it has read its last byte, so its registrations end (R248). -/
def xApply (r : State × XRes) (id : Nat) : State :=
  match r.2 with
  | .ok bs fs n => updOp (unregister r.1 id) id (fun o => { o with st := .publishing, staged := bs, folios := fs, foot := n, units := rowUnits r.1 o })
  | .wait => updOp (unregister r.1 id) id (fun o => { o with st := .retrying })
  | .np => updOp (unregister r.1 id) id (fun o => { o with st := .parked })
  | .freeze k va => opFreeze r.1 id k va
  | .fault c l d => opFault r.1 id c l d
def XRes.isFault (x : XRes) : Bool := match x with | .fault .. => true | .freeze .. => true | _ => false

/-- R273: the command reaches its channel's head: the acquire flag, then its first read or, without a read phase, its writes. -/
def execXferChannelHead (id : Nat) (s : State) : Out :=
  match mfind s.ops id with
  | none => .next s
  | some o =>
    if o.kind.cls == 0 && o.st == .queued && !opBlocked s id o then
      let s := if o.order = 1 || o.order = 3 then acquireAt s o.pair o.scope else s
      if o.kind.reads then .next (updOp s id (fun o => { o with st := .reading }))
      else .next (xApply (xRead s id o) id)
    else .next s
/-- R273: the reads are done. A command that met a fault instead is left to XFER_ABANDON. -/
def execXferReadDone (id : Nat) (s : State) : Out :=
  match mfind s.ops id with
  | none => .next s
  | some o =>
    if o.kind.cls == 0 && o.st == .reading then
      let r := xRead s id o
      .next (if r.2.isFault then s else xApply r id)
    else .next s
/-- R273, R68: a fault, or a violation at an entry, in the read phase. -/
def execXferAbandon (id : Nat) (s : State) : Out :=
  match mfind s.ops id with
  | none => .next s
  | some o =>
    if o.kind.cls == 0 && o.st == .reading then
      let r := xRead s id o
      .next (if r.2.isFault then xApply r id else s)
    else .next s
/-- R282: is the command's own write the release, so that what it releases must arrive before it? -/
def xEarly (o : EOp) : Bool := (match o.kind with | .stamp .. => true | _ => false) && (o.order = 2 || o.order = 3)
/-- R272 to R274: everything is written, then the command retires. -/
def execXferRetire (id : Nat) (s : State) : Out :=
  match mfind s.ops id with
  | none => .next s
  | some o =>
    if o.kind.cls != 0 then .next s
    else if o.st == .done then .next (xFinish s id o)
    else if o.st == .publishing || o.st == .starved then
      let early := xEarly o
      let s := if early then releasePair s o.pair o.scope else s
      if xferBusy s o || (early && o.scope == 3 && unackedFlows s (o.ctx / 64)) then .next s
      else
        let w := fitOp s o
        let s := match o.kind with
          | .rowCpy _ _ _ => rowRun s w.1 o.units 0
          | .rowIni _ pat _ => rowRun s w.1 o.units pat
          | _ => publish s w.1
        if !(w.2.1.isEmpty && w.2.2.isEmpty) then .next (updOp s id (fun o => { o with staged := w.2.1, units := w.2.2 }))
        else
        let f := installAll s id o.folios
        match f.2.2 with
        | .done => .next (xFinish (countCopy f.1 o) id { o with folios := [] })
        | .freeze k va => .next (opFreeze f.1 id k va)
        | x => .next (updOp f.1 id (fun o => { o with folios := f.2.1, staged := [], units := [], st := if x == .starved then .starved else .publishing }))
    else .next s
/-- R273: a Retrying or Parked command starts again when every page is present. -/
def xTry (s : State) (id : Nat) : State :=
  match mfind s.ops id with
  | none => s
  | some o =>
    if o.kind.cls == 0 && (o.st == .parked || o.st == .retrying) then
      match (xRead s id o).2 with
      | .wait => s
      | .np => updOp s id (fun o => { o with st := .parked })
      | _ => updOp s id (fun o => { o with st := if o.kind.reads then .reading else .queued })
    else s
def execXferParkedTick (id : Nat) (s : State) : Out := .next (xTry s id)
/-- The layout records of a command. -/
def opRecs (k : EK) : List Nat := match k with | .copy _ rs _ _ => rs | _ => []
/-- The sides of a copying command. -/
def opSides (o : EOp) : List Side :=
  let side := fun (r v : Nat) (z : List Nat) (w : Bool) => Side.mk r (if lrCat r then [] else spots r v z) w
  match o.kind with
  | .copy 0 [ra, rb] [os, od, zv] _ => let z := winSize zv (lrRank ra); [side ra os z false, side rb od z true]
  | .copy 2 rs [os, od, zv] _ => qSides rs os od (winSize zv 2)
  | .copy 3 [r] [_, od, zv] _ => [side r od (winSize zv (lrRank r)) true]
  | _ => []
/-- The pages that a plain command touches, as bytes: read and written. -/
def xPages (o : EOp) : List Nat × List Nat :=
  match o.kind with
  | .stamp va _ => ([], [va])
  | .rowCpy d a n => (rowVas a n, rowVas d n)
  | .rowIni d _ n => ([], rowVas d n)
  | _ => let l := opSides o; ((l.filter (fun x => !x.wr)).flatMap sideVas, (l.filter (·.wr)).flatMap sideVas)
/-- The conditions of a command that a violation hid when it was issued. -/
def xHidden (s : State) (o : EOp) : XCond :=
  let b := opBlock s o
  let sides := opSides o
  let c : XCond := { mis := sides.findSome? (fun x => spotMis x.r x.ss), out := sides.findSome? (fun x => spotOut b.size x.r x.ss),
                     unb := (opRecs o.kind).findSome? (fun r =>
                       if lrCat r && (lrTensor (match mfind s.kernels o.kernel with | some k => k.record | none => 0) r).isNone then some (r % 8) else none) }
  let c := match opCount o.kind with | some x => if b.size < x + 16 then { c with out := some x } else c | none => c
  match o.kind with
  | .copy 0 [ra, rb] [os, od, zv] _ =>
    { c with big := 65536 < (if lrKeep rb then keepFoot s (o.ctx / 64) (opTensor s o ra) (winFolios ra os (winSize zv (lrRank ra)))
                             else if lrEnc rb then encFoot s o b ra rb os od zv else sidesFoot (sides.filter (·.wr))) }
  | .copy 2 .. => { c with big := 65536 < sidesFoot (sides.filter (·.wr)) }
  | .stamp va _ => { c with mis := if va % 8 != 0 then some va else none }
  | .rowCpy d a n => { c with mis := if d % 1024 != 0 || a % 1024 != 0 || n % 1024 != 0 || 2 ^ 32 < n then some d else none }
  | .rowIni d _ n => { c with mis := if d % 1024 != 0 || n % 1024 != 0 || 2 ^ 32 < n then some d else none }
  | _ => c
/-- R84: the re-check of a frozen command: the violation that still stands, of a Base or of a page; or another condition that the
violation hid, with which no command runs: it stays frozen (assumption log 101). -/
def xRecheck (s : State) (o : EOp) : Option (Nat × Nat) :=
  let v := xPages o
  match (pageBar s o.core o.ctx (opExts s o) (opRecs o.kind) v.1 v.2).2 with
  | some (va, .forbid r) => some (r, va)
  | _ =>
    let c := xHidden s o
    if c.big || c.mis.isSome || c.out.isSome || c.unb.isSome then
      some (elemReason, (c.mis.orElse (fun _ => c.out)).getD 0)
    else none

end Sys2Proof.Machine
end

