-- ==== Sys2Proof/Machine/Scroll.lean ====
section
/-! DEFINITION. Scrolls, opcodes 0xC0 to 0xCB, and the steps of their home (R317 to R351, R440). -/

namespace Sys2Proof.Machine

/-! ### Records (R317 to R320) -/

def scrLogEff (q : Part) : Nat := if 4 ≤ q.scrLog then q.scrLog else 4
def idxLogEff (q : Part) : Nat := if 4 ≤ q.idxLog && q.idxLog ≤ 14 then q.idxLog else 4
def scrKey (part id : Nat) : Nat := 2 ^ 16 * part + id % 2 ^ 16
/-- R318: the record of a scroll. -/
def scrRec (c : Scroll) : Nat :=
  mkRec [(31, 0, c.tensor), (33, 32, c.st), (39, 34, c.owner), (63, 48, c.epoch), (95, 64, c.res), (127, 96, c.com),
    (175, 128, c.mapVa), (239, 192, c.slotVa), (279, 256, c.cap), (287, 280, c.slotBytes), (295, 288, c.format)]
def putScroll (s : State) (part id : Nat) (c : Scroll) : State :=
  recWrite { s with scrolls := mset s.scrolls (scrKey part id) c } ((getPart s part).scrBase + 64 * id) 64 (scrRec c)
/-- A scroll that is Live. -/
def liveScroll (s : State) (part id : Nat) : Option Scroll :=
  if 2 ^ scrLogEff (getPart s part) ≤ id then none
  else match mfind s.scrolls (scrKey part id) with
    | some c => if c.st == 1 then some c else none
    | none => none

/-- The frames of a range under a context's table, for reading and writing by the device (R319). -/
def ownerFrames (s : State) (ctx va n : Nat) : List (Nat × Nat) × Option (Nat × TrR) :=
  (pieces va n).foldl (fun r x => match ownerPa s ctx x.1 with
    | .ok pa => (r.1 ++ [(x.1 / 65536, pa - x.1 % 65536)], r.2)
    | e => (r.1, r.2.orElse (fun _ => some (x.1, e)))) ([], none)
def slotAt (c : Scroll) (k : Nat) : Nat := c.slotVa + 8 * k
def mapAt (c : Scroll) (j : Nat) : Nat := c.mapVa + 8 * j
/-- The frames of the slot records a to b − 1 and of the map entries of their folios. -/
def scrFrames (s : State) (part : Nat) (c : Scroll) (a b : Nat) : List (Nat × Nat) × Option (Nat × TrR) :=
  let ctx := 64 * part + c.owner
  let x := ownerFrames s ctx (slotAt c a) (8 * (b - a))
  let y := ownerFrames s ctx (mapAt c (a / 64)) (if b ≤ a then 0 else 8 * (ceilDiv b 64 - a / 64))
  (x.1 ++ y.1, x.2.orElse (fun _ => y.2))
/-- R319: what the caches of the package hold of a range goes home, so that the home acts on the bytes that were last written. -/
def flushVas (s : State) (fs : List (Nat × Nat)) (va n : Nat) : State :=
  (pieces va n).foldl (fun s x =>
    let lo := inFrames fs x.1 / 128 * 128
    flushRange s lo ((inFrames fs x.1 + x.2 + 127) / 128 * 128 - lo)) s
/-- The same for the slot records a to b − 1 and the map entries of their folios. -/
def flushSlots (s : State) (fs : List (Nat × Nat)) (c : Scroll) (a b : Nat) : State :=
  flushVas (flushVas s fs (slotAt c a) (8 * (b - a))) fs (mapAt c (a / 64)) (if b ≤ a then 0 else 8 * (ceilDiv b 64 - a / 64))
def rd8 (s : State) (fs : List (Nat × Nat)) (va : Nat) : Nat := memRead s (inFrames fs va) 8
def wr8 (s : State) (fs : List (Nat × Nat)) (va x : Nat) : State := recWrite s (inFrames fs va) 8 x
/-- R319: state and tag of a slot record. -/
def slState (x : Nat) : Nat := fld x 33 32
def slTag (x : Nat) : Nat := fld x 55 40
def slSet (x st : Nat) : Nat := setFld x 33 32 st
def rdSlot (s : State) (fs : List (Nat × Nat)) (c : Scroll) (k : Nat) : Nat := rd8 s fs (slotAt c k)
def wrSlot (s : State) (fs : List (Nat × Nat)) (c : Scroll) (k x : Nat) : State := wr8 s fs (slotAt c k) x
/-- R319: the entry key that a map entry names. -/
def mapKey (part x : Nat) : Nat := entryKey part (x % 2 ^ 32) 0 (fld x 47 32)
def rdMap (s : State) (fs : List (Nat × Nat)) (part : Nat) (c : Scroll) (j : Nat) : Nat := mapKey part (rd8 s fs (mapAt c j))
/-- R320: the identity word of the folio that a key names. -/
def identity (s : State) (key : Nat) : Nat :=
  keyTensor key + 2 ^ 32 * keyCol key + 2 ^ 48 * (enGen (getCat s key).record % 65536)

/-! ### Handles (R321, R322) -/

def shNo (x : Opnd) : Nat := match x with | .sh n => n.toNat | .cl n => n.toNat | _ => 0
/-- Has the group's instruction passed its checks, so that its event is on its way to the home (R440)? -/
def isSent (g : Group) : Bool := match g.st with | .sent _ => true | _ => false
/-- The scroll that an instruction on a handle is for: the one bound to it, or the one that its event set out for. -/
def scrollOf (s : State) (g : Group) (h : Nat) : Option Nat :=
  match g.st with
  | .sent id => some id
  | _ => (gBlock s g).bind (fun b => mfind b.sh h)
/-- R321: the checks of a handle: bound, Live, and owned where the instruction changes the scroll. -/
def withScroll (s : State) (gid : Nat) (g : Group) (h : Nat) (owned : Bool) (f : Nat → Scroll → Out) : Out :=
  match scrollOf s g h with
  | none => raise s gid 0x2A allLanes (detHandle (2 ^ 32 - 1) 0 0 0 0 h 0)
  | some id =>
    match liveScroll s (gPart s g) id with
    | none => raise s gid 0x2A allLanes (detHandle id 0 0 0 0 h 1)
    | some c =>
      if owned && !isSent g && c.owner != gCtx s g % 64 then raise s gid 0x2A allLanes (detHandle id 0 0 0 0 h 1)
      else f id c
/-- R326: each event at a scroll completes before the next begins. An install that has begun and waits, for a block or for the copy of
the folio that it outgrew, is an event that has not ended: every other event at the scroll waits for it. -/
def homeBusy (s : State) (part id me : Nat) : Bool :=
  s.ops.any (fun x => x.1 != me && x.2.ctx / 64 == part && (x.2.st == .publishing || x.2.st == .starved) &&
    (match x.2.kind with | .fill scr .. => scrKey part scr == scrKey part id | _ => false)) ||
  (match mfind s.scrolls (scrKey part id) with
   | some c => s.cat.any (fun x => x.1 / 2 ^ 32 == part * 2 ^ 32 + c.tensor && enState x.2.record == 4)
   | none => false)
/-- The event of a group at a scroll whose home is busy waits there. -/
def atHome (s : State) (gid : Nat) (g : Group) (id : Nat) (f : Out) : Out :=
  if homeBusy s (gPart s g) id 0 then (if isSent g then .next s else stall s gid 9) else f
/-- Has an instruction's event set out and found its scroll no longer Live? -/
def scrGone (p : P) (s : State) (g : Group) : Bool :=
  isSent g && ((scrollOf s g (shNo p.a)).bind (liveScroll s (gPart s g))).isNone
/-- An instruction on handle A: the conditions of its operands come before those of its handle (R67). Its event may have
set out and find its scroll no longer Live: then it changes nothing and completes with a word that says so (R440). -/
def scrH (p : P) (s : State) (close owned : Bool) (gone : Nat) (pre : Nat → Group → Option Out) (f : Nat → Group → Nat → Scroll → Out) : Out :=
  onceE p s close (fun gid g => (pre gid g).getD <|
    if scrGone p s g then finS s gid p close gone
    else withScroll s gid g (shNo p.a) owned (fun id c => f gid g id c))
/-- One whose event is at the home of the scroll. -/
def scrE (p : P) (s : State) (close owned : Bool) (gone : Nat) (pre : Nat → Group → Option Out) (f : Nat → Group → Nat → Scroll → Out) : Out :=
  scrH p s close owned gone pre (fun gid g id c => atHome s gid g id (f gid g id c))
/-- The frames of a range of slots, whose records have come home, or what their translation does to the group. -/
def withSlots (s : State) (gid : Nat) (g : Group) (c : Scroll) (a b : Nat) (f : State → List (Nat × Nat) → Out) : Out :=
  let x := scrFrames s (gPart s g) c a b
  match x.2 with
  | some e => ownerOut s gid e
  | none => f (flushSlots s x.1 c a b) x.1
/-- R234: what bars the way to catalogue entries, each page by its owner's translation. -/
def keysBar (s : State) (keys : List Nat) : Option (Nat × TrR) :=
  obstacles (keys.map (fun k => match dirRec s (keyPart k) (keyTensor k) with
    | none => none
    | some r => match entryPa s (keyPart k) r (keyRow k) (keyCol k) with
      | .ok _ => none
      | x => some (entryVa r (keyRow k) (keyCol k), x)))
/-- The same for a group: it goes on when nothing does. -/
def withKeys (s : State) (gid : Nat) (keys : List Nat) (f : Out) : Out :=
  match keysBar s keys with | some e => ownerOut s gid e | none => f
/-- No condition of an instruction's operands. -/
def noPre (_ : Nat) (_ : Group) : Option Out := none
/-- Scratchpad bytes that the home of a scroll writes; waiters on a record among them are told (R196). -/
def spHome (s : State) (blk o : Nat) (l : List Byte) : State :=
  bcWake (updB s blk (fun b => spClear (spPuts b o l) [(o, l.length)])) blk
/-- R336: a status and a value. -/
def scrWord (st mid val : Nat) : Nat := st + 2 ^ 8 * mid + 2 ^ 32 * val

/-- R322: the mirrors of a core whose handles are bound to a scroll take its committed length. -/
def mirrorCl (s : State) (part id core com : Nat) : State :=
  { s with blocks := s.blocks.map (fun x =>
      if x.2.pair == core / 2 && (match mfind s.kernels x.2.kernel with | some k => k.ctx / 64 == part | none => false) then
        (x.1, { x.2 with cl := x.2.sh.foldl (fun m h => if h.2 == id then mset m (8 * (core % 2) + h.1) com else m) x.2.cl })
      else x) }
/-- R322: a mirror is loaded from the home. -/
def execClMirrorUpdate (block core handle : Nat) (s : State) : Out :=
  match mfind s.blocks block with
  | none => .next s
  | some b =>
    let part := match mfind s.kernels b.kernel with | some k => k.ctx / 64 | none => 0
    match (mfind b.sh handle).bind (liveScroll s part) with
    | some c => .next (updB s block (fun b => { b with cl := mset b.cl (8 * (core % 2) + handle) c.com }))
    | none => .next s

/-! ### Reserve, commit, trim (R324, R325, R329, R337 to R339) -/

def execSres (p : P) (s : State) : Out :=
  scrE p s true true 0xFF (fun gid g => if 2 ^ 24 ≤ valN g p.b.opnd then some (trapIllegal s gid .sres p) else none) (fun gid g id c =>
    let n := valN g p.b.opnd
    if c.cap < c.res + n then finS s gid p true (scrWord 1 c.epoch c.res)
    else withSlots s gid g c c.res (c.res + n) (fun s fs =>
      let s := (rng c.res n).foldl (fun s k => wrSlot s fs c k (2 ^ 32 + 2 ^ 40 * c.epoch)) s
      finS (putScroll s (gPart s g) id { c with res := c.res + n }) gid p true (scrWord 0 c.epoch c.res)))

/-- R325: C passes contiguous Ready slots. -/
def closeHoles (s : State) (fs : List (Nat × Nat)) (c : Scroll) (fuel : Nat) : Nat :=
  match fuel with
  | 0 => c.com
  | f + 1 => if c.com < c.res && slState (rdSlot s fs c c.com) == 3 then closeHoles s fs { c with com := c.com + 1 } f else c.com
/-- R338: the conditions of scom's operand; and, where its scroll is gone, the release that comes first all the same. -/
def scomPre (p : P) (s : State) (gid : Nat) (g : Group) : Option Out :=
  if fld (rdSn g (sNum p.b.opnd)) 63 48 != 0 then some (trapIllegal s gid .scom p)
  else if scrGone p s g then
    (let s := releaseWrites s gid g 2
     some (if !releaseDone s gid g 2 then .next s else finS s gid p true 0xFF))
  else none
/-- R322, R338: every status that reports C is preceded by the mirror of the issuing core. -/
def execScom (p : P) (s : State) : Out :=
  scrE p s true true 0xFF (scomPre p s) (fun gid g id c =>
    let x := rdSn g (sNum p.b.opnd)
    let b := x % 2 ^ 32
    let n := fld x 47 32
    let s := releaseWrites s gid g 2
    let done := fun (s : State) (st com : Nat) => finS (mirrorCl s (gPart s g) id g.core com) gid p true (scrWord st 0 com)
    if !releaseDone s gid g 2 then stall s gid 9
    else if n = 0 then done s 0 c.com
    else if c.res < b + n then done s 2 c.com
    else withSlots s gid g c 0 c.res (fun s fs =>
      let st := fun k => slState (rdSlot s fs c k)
      let ks := rng b n
      if ks.any (fun k => k < c.com || st k == 3) then done s 3 c.com
      else if ks.any (fun k => st k != 2) then done s 1 c.com
      else
        let s := ks.foldl (fun s k => wrSlot s fs c k (slSet (rdSlot s fs c k) 3)) s
        let com := closeHoles s fs c (c.res - c.com)
        done (putScroll s (gPart s g) id { c with com := com }) 0 com))

/-- R329: blocks for the rewrites, all of them or none. -/
def allocAll (s : State) (part : Nat) (cls : List Nat) (got : List (Nat × Nat)) : State × Option (List (Nat × Nat)) :=
  match cls with
  | [] => (s, some got)
  | c :: t =>
    let a := allocBlock s part c
    match a.2 with
    | some pa => allocAll a.1 part t (got ++ [(pa, c)])
    | none => (got.foldl (fun s x => freeBlock s part x.2 x.1) a.1, none)
/-- R249, R326, R329: a folio rewritten without the slots that a test drops; the entry passes through Growing to Open before the event
ends. -/
def rewriteFolio (s : State) (pair key pa cls : Nat) (drop : Nat → Bool) : State :=
  let e := (getCat s key).record
  let x := getImage s pair (enSector e) (enLen e)
  endChange (beginChange x.1 key 4 pa cls { appendFol (clearSlots x.2.1 drop) with tag := enTag e, crc := enCrc e }) key
def execStrm (p : P) (s : State) : Out :=
  scrE p s true true 0xFF noPre (fun gid g id c =>
    let t := valN g p.b.opnd
    if 2 ^ 24 ≤ t || c.res ≤ t then finS s gid p true (scrWord 0 c.epoch c.res)
    else withSlots s gid g c t c.res (fun s fs =>
      let part := gPart s g
      let st := fun k => slState (rdSlot s fs c k)
      let ks := rng t (c.res - t)
      if t < c.com || ks.any (fun k => st k == 3) then finS s gid p true (scrWord 1 c.epoch c.res)
      else
        let js := ((ks.filter (fun k => st k == 2)).map (· / 64)).eraseDups
        let keys := js.map (fun j => (j, rdMap s fs part c j))
        withKeys s gid (keys.map (·.2)) <|
        if keys.any (fun x => let v := enState (getCat s x.2).record; v == 1 || v == 4) then stall s gid 9
        else
          let a := allocAll s part (keys.map (fun x => enClass (getCat s x.2).record)) []
          match a.2 with
          | none => finS a.1 gid p true (scrWord 2 c.epoch c.res)
          | some bs =>
            let s := (keys.zip bs).foldl (fun s x => rewriteFolio s (gPair g) x.1.2 x.2.1 x.2.2 (fun k => t ≤ 64 * x.1.1 + k)) (releasePair a.1 (gPair g) 2)
            let s := ks.foldl (fun s k => wrSlot s fs c k (slSet (rdSlot s fs c k) 0)) s
            let ep := (c.epoch + 1) % 65536
            finS (putScroll s part id { c with epoch := ep, res := t }) gid p true (scrWord 0 ep t)))

/-! ### Fork (R330, R340) -/

/-- R330 step 2: increments in ascending order, reversed when one saturates. -/
def shareAll (s : State) (keys : List Nat) : Option State :=
  if keys.any (fun k => 65535 ≤ enRef (getCat s k).record + ((keys.filter (· == k)).length - 1)) then none
  else some (keys.foldl (fun s k => setEntry s k (enSet (getCat s k).record [(87, 72, enRef (getCat s k).record + 1)])) s)
/-- R330 step 3: the committed part of the source's last folio, copied under the destination's name. -/
def forkTail (s : State) (pair part src dstT w m : Nat) : State × Bool :=
  let e := (getCat s src).record
  let a := allocBlock s part (enClass e)
  match a.2 with
  | none => (a.1, false)
  | some pa =>
    let x := getImage a.1 pair (enSector e) (enLen e)
    let b0 := clearSlots x.2.1 (fun k => m ≤ k)
    let b := setFld (setFld (setFld b0 63 32 dstT) 79 64 0) 95 80 w
    let f := appendFol b
    let key := entryKey part dstT 0 w
    let old := getCat x.1 key
    let o := old.record
    let s := putImage x.1 pa f.len f.bits
    let s := putCat s key { old with record := enSet o [(41, 0, pa / 128), (44, 42, enClass e), (47, 45, 3), (62, 48, f.len),
      (71, 64, enFmt e), (87, 72, 1), (103, 88, f.tag), (119, 104, f.crc), (151, 120, enGen o + 1), (158, 152, f.segs),
      (191, 160, dstT), (207, 192, 0), (223, 208, w)] }
    (if enState o == 0 then s else dropStorage s part key (enGen o) (enClass o) (enSector o), true)
def execSfrk (p : P) (s : State) : Out :=
  scrE p s true false 0xFF noPre (fun gid g _ c =>
    let x := rdSn g (sNum p.b.opnd)
    let did := x % 2 ^ 32
    let n := x / 2 ^ 32
    let part := gPart s g
    let done := fun (s : State) (st : Nat) => finS s gid p true (scrWord st 0 n)
    if c.com < n then done s 1
    else match liveScroll s part did with
      | none => done s 4
      | some d =>
        if homeBusy s part did 0 then (if isSent g then .next s else stall s gid 9)
        else if d.owner != gCtx s g % 64 || d.res != 0 || d.slotBytes != c.slotBytes || d.format != c.format || d.cap < n then done s 4
        else withSlots s gid g c 0 n (fun s fs => withSlots s gid g d 0 n (fun s fd =>
          let w := n / 64
          let keys := (List.range w).map (rdMap s fs part c)
          let tail := rdMap s fs part c w
          let dk := entryKey part d.tensor 0 w
          let busy := fun k => let v := enState (getCat s k).record; v == 1 || v == 4
          withKeys s gid (keys ++ (if n % 64 = 0 then [] else [tail, dk])) <|
          if keys.any busy || (n % 64 != 0 && busy dk) then stall s gid 9
          else match shareAll (releasePair s (gPair g) 2) keys with
            | none => done s 2
            | some s1 =>
              let r := if n % 64 = 0 then (s1, true) else forkTail s1 (gPair g) part tail d.tensor w (n % 64)
              if !r.2 then done (setInt s part 2) 3
              else
                let s := (List.range w).foldl (fun s j => wr8 s fd (mapAt d j) (rd8 s fs (mapAt c j))) r.1
                let s := (List.range n).foldl (fun s k =>
                  wrSlot s fd d k (slSet (rdSlot s fd d k / 2 ^ 32 * 2 ^ 32 + rdSlot s fs c k % 2 ^ 32) 3)) s
                done (mirrorCl (putScroll s part did { d with res := n, com := n }) part did g.core n) 0)))

/-! ### Fills (R327, R341) -/

/-- The fills of a group's instruction: one, or one for each lane. -/
def fillList (g : Group) (p : P) : List (Nat × Nat) :=
  match p.b.opnd with
  | .s n => [(0, rdSn g n.toNat)]
  | .v n => (lanesOf (guardLanes g p.h &&& ~~~g.hmask)).map (fun i => (i, (rdV g n.toNat i).toNat + 2 ^ 32 * (rdV g (n.toNat + 1) i).toNat))
  | _ => []
/-- R341: the scratchpad offset in a fill's word. -/
def fillOff (x : Nat) : Nat := 32 * fld x 63 48
/-- R341, R67: a byte of a slot beyond the block: fault 0x12, before the ownership of the scroll is asked for. -/
def fillRange (p : P) (s : State) (gid : Nat) (g : Group) : Option Out :=
  match gBlock s g, (scrollOf s g (shNo p.a)).bind (liveScroll s (gPart s g)) with
  | some b, some c =>
    (match (fillList g p).filter (fun x => b.size < fillOff x.2 + c.slotBytes) with
     | x :: t => some (raise s gid 0x12 (match p.b.opnd with | .v _ => (laneSet ((x :: t).map (·.1))).toNat | _ => allLanes)
         (detMem (fillOff x.2) 0 6 false 0 0))
     | [] => none)
  | _, _ => none
/-- R341: fills enter the channel of the Burin while it has room for 16, in lane order; those of an instruction that find it full hold
the group back with reason 9, and enter when there is room. -/
def fillEnter (p : P) (s : State) (gid : Nat) (g : Group) (b : Block) (id sb from_ : Nat) : Out :=
  let room := 16 - ((channelOf s 1 (gPair g) (gCtx s g)).filter (fun x => x.2.kind.isFill)).length
  let l := (fillList g p).drop from_
  let s := (l.take room).foldl (fun s x =>
    let data := (List.range sb).map (fun i => spByte b (fillOff x.2 + i))
    let a := issueOp s gid g p (.fill id (x.2 % 2 ^ 32) (fld x.2 47 32) data (p.ext.toNat % 8) (p.f == 1) (shNo p.a)) false
    if spPoison b (fillOff x.2) sb then opFault a.1 a.2 0x41 allLanes (detMem (fillOff x.2) 0 6 false 2 0) else a.1)
    (flushReds s gid g)
  if l.length ≤ room then fin (updG s gid (fun g => { g with fillIn := none })) gid p true
  else if room = 0 && from_ = 0 then stall s gid 9
  else stall (updG s gid (fun g => { g with fillIn := some (id, sb, from_ + room) })) gid 9
def execSfil (p : P) (s : State) : Out :=
  scrH p s true true 0
    (fun gid g => match g.fillIn with
      | some (id, sb, n) => some (withSp s gid g (fun s b => fillEnter p s gid g b id sb n))
      | none => fillRange p s gid g)
    (fun gid g id c => withSp s gid g (fun s b => fillEnter p s gid g b id c.slotBytes 0))
/-- R327: a segment appended to the folio of a slot. -/
def appendSeg (bits slot seg : Nat) : Nat :=
  let at_ := appendLen bits
  setFld (bits + seg * 2 ^ (8 * at_)) (256 + 16 * slot + 15) (256 + 16 * slot) at_
/-- R249: an append-mode entry after a segment: its length, one segment more, its state. -/
def afterAppend (e : Nat) (f : Fol) : Nat :=
  enSet e [(47, 45, if enSegs e + 1 = 64 then 2 else 3), (62, 48, f.len), (158, 152, enSegs e + 1)]
/-- A fill installed, waiting for the pool, or for its entry. It codes with the legends that it captured when it started (R251). R249 has
no row for a fill that reaches an entry in Retiring, and no rule names a status or a fault for it: it waits until the entry is Empty,
DESIGN CHOICE (assumption log 106). -/
def fillEntry (s : State) (id : Nat) (o : EOp) (key sb lg slot : Nat) (sto : Bool) (data : List Byte) : State × Bool :=
  let c := getCat s key
  let e := c.record
  let part := keyPart key
  let n := ofBytes data
  let o := { o with lgs := captured s o }
  let wait := fun (s : State) (st : ESt) => (updOp s id (fun x => { x with st := st, lgs := o.lgs }), false)
  let later := (updOp s id (fun x => { x with st := .publishing }), false)
  let fmt := match dirRec s part (keyTensor key) with | some r => dtFmt r | none => enFmt e
  match enState e with
  | 0 =>
    let img := legendCap s o lg
    let head := newAppend (keyTensor key) (keyCol key) sb fmt lg ((img.map lgTag).getD 0)
    let seg := makeSeg fmt sb n img sto
    let f := appendFol (appendSeg head slot seg.1)
    let a := allocBlock s part 0
    (match a.2 with
     | none => wait a.1 .starved
     | some pa =>
       let s := putImage a.1 pa f.len f.bits
       (putCat s key { c with record := enSet e [(41, 0, pa / 128), (44, 42, 0), (47, 45, 3), (62, 48, f.len), (71, 64, fmt),
         (87, 72, 1), (103, 88, f.tag), (119, 104, f.crc), (151, 120, enGen e + 1), (158, 152, f.segs),
         (191, 160, keyTensor key), (207, 192, keyRow key), (223, 208, keyCol key)] }, true))
  | 1 => later
  | 4 => later
  | 5 => later
  | _ =>
    let x := getImage s o.pair (enSector e) (enLen e)
    let bits := x.2.1
    let img := (legendCapFor s o bits).filter (fun i => fld bits 31 16 != 0 && lgTag i == fld bits 31 16)
    let seg := makeSeg fmt sb n img sto
    let f := appendFol (appendSeg bits slot seg.1)
    if f.len ≤ 512 * 2 ^ enClass e then
      (putCat (putImage x.1 (enSector e) f.len f.bits) key { c with record := afterAppend e f }, true)
    else
      let cls := (classFor f.len).getD 5
      let a := allocBlock x.1 part cls
      match a.2 with
      | none => wait a.1 .starved
      | some pa => wait (beginChange a.1 key 4 pa cls
          { bits := bits, len := enLen e, tag := enTag e, crc := enCrc e, segs := enSegs e }) .publishing
/-- R335: the record of a slot as it stands, for a fill that it refuses; 0 where its page cannot be reached. -/
def slotRecord (s : State) (part : Nat) (c : Scroll) (slot : Nat) : Nat :=
  if c.cap ≤ slot then 0 else
  let x := ownerFrames s (64 * part + c.owner) (slotAt c slot) 8
  match x.2 with
  | some _ => 0
  | none => rdSlot (flushVas s x.1 (slotAt c slot) 8) x.1 c slot
/-- R326, R327: the oldest fill of a channel is installed at the scroll's home. -/
def execFillInstall (id : Nat) (s : State) : Out :=
  match mfind s.ops id with
  | none => .next s
  | some o =>
    match o.kind with
    | .fill scr slot ep data lg sto h =>
      if opBlocked s id o || o.stopped || homeBusy s (o.ctx / 64) scr id then .next s
      else
        let part := o.ctx / 64
        match liveScroll s part scr with
        | none =>
          let c := (mfind s.scrolls (scrKey part scr)).getD (Scroll.mk 0 0 0 0 0 0 0 0 0 0 0)
          .next (opFault s id 0x29 allLanes (detHandle scr slot c.res ep (slTag (slotRecord s part c slot)) h 2))
        | some c =>
          let x := if slot < c.res then scrFrames s part c slot (slot + 1) else ([], none)
          match x.2 with
          | some (va, .forbid k) => .next (opFreeze s id k va)
          | some _ => .next s
          | none =>
            let s := if slot < c.res then flushSlots s x.1 c slot (slot + 1) else s
            let r := if slot < c.res then rdSlot s x.1 c slot else slotRecord s part c slot
            let st := if slot < c.res then slState r else 0
            if st != 1 || slTag r != ep then
              .next (opFault s id 0x29 allLanes (detHandle scr slot c.res ep (slTag r) h (if st = 2 || st = 3 then 1 else 0)))
            else
              let key := rdMap s x.1 part c (slot / 64)
              match keysBar s [key] with
              | some (va, .forbid k) => .next (opFreeze s id k va)
              | some _ => .next s
              | none =>
                let y := fillEntry (installRelease s id) id o key c.slotBytes lg (slot % 64) sto data
                if y.2 then .next (removeOp (wrSlot (bumpCtr y.1 part 0x0A (segSyms c.format c.slotBytes)) x.1 c slot (slSet r 2)) id)
                else .next y.1
    | _ => .next s

/-! ### Bindings, creation and deletion (R342, R347, R348) -/

def execSbnd (p : P) (s : State) : Out :=
  onceE p s true (fun gid g =>
    let h := match p.d with | .other x => shNo x | _ => 0
    fin (updB s g.block (fun b =>
      { b with sh := (match p.a with | .s n => mset b.sh h (rdSn g n.toNat % 2 ^ 32) | _ => mdel b.sh h),
               cl := mdel (mdel b.cl h) (8 + h) })) gid p true)
/-- R347: is a request valid? -/
def snewOk (s : State) (part ctx r : Nat) : Bool :=
  fld r 63 32 == 0 && fld r 127 112 == 0 && fld r 255 176 == 0 && fld r 66 64 == 0 && fld r 133 128 == 0 &&
  (match dirRec s part (r % 2 ^ 32) with
   | some d => dtOwner d == ctx % 64 && dtAppend d && dtRows d == 1 && !dtRetiring d &&
     s.cat.all (fun c => !(c.1 / 2 ^ 32 == part * 2 ^ 32 + r % 2 ^ 32) || enState c.2.record == 0)
   | none => false)
def execSnew (p : P) (s : State) : Out :=
  onceE p s true (fun gid g =>
    groupRead s gid g (regAddr g p) 32 32 (fun s r =>
      let part := gPart s g
      if !snewOk s part (gCtx s g) r then finS s gid p true 2
      else match (List.range (2 ^ scrLogEff (getPart s part))).find? (fun i =>
          match mfind s.scrolls (scrKey part i) with | some c => c.st == 0 | none => true) with
        | none => finS s gid p true 1
        | some i =>
          let d := (dirRec s part (r % 2 ^ 32)).getD 0
          let c : Scroll := Scroll.mk (r % 2 ^ 32) 1 (gCtx s g % 64) 0 0 0 (fld r 111 64) (fld r 175 128) (64 * dtCols d) (dtSlot d) (dtFmt d)
          withSlots s gid g c 0 c.cap (fun s fs =>
            let m := ownerRange s (gCtx s g) c.slotVa (8 * c.cap)
            let s := m.1.foldl (fun s x => memZero s x.1 x.2) s
            let s := (List.range (dtCols d)).foldl (fun s j => wr8 s fs (mapAt c j) (c.tensor + 2 ^ 32 * j)) s
            finS (putScroll s part i c) gid p true (i * 2 ^ 32))))
/-- R348. The pages that the deletion will need are asked for here, so that the group that causes the access answers for them (R234);
what changes later only holds the deletion back: DESIGN CHOICE (assumption log 116). -/
def execSdel (p : P) (s : State) : Out :=
  scrE p s true true 0xFF noPre (fun gid g id c => withSlots s gid g c 0 c.res (fun s fs =>
    withKeys s gid ((List.range (ceilDiv c.res 64)).map (rdMap s fs (gPart s g) c))
      (finS (putScroll s (gPart s g) id { c with st := 2 }) gid p true 0)))
/-- R323: the map entries of a Deleting scroll lose their references, once none of them is in Writing or Growing, where a
decrement would have to wait (R250), and every page can be reached (R234); the scroll is Free and its tensor Retiring. -/
def execScrollDeleteFree (part scroll : Nat) (s : State) : Out :=
  match mfind s.scrolls (scrKey part scroll) with
  | none => .next s
  | some c =>
    if c.st != 2 then .next s else
    let x := scrFrames s part c 0 c.res
    match x.2 with
    | some _ => .next s
    | none =>
      let s := flushSlots s x.1 c 0 c.res
      let keys := (List.range (ceilDiv c.res 64)).map (rdMap s x.1 part c)
      if (keysBar s keys).isSome || keys.any (fun k => let v := enState (getCat s k).record; v == 1 || v == 4) then .next s else
      let s := keys.foldl (fun s k => match enState (getCat s k).record with
        | 2 => setEntry s k (refDec (getCat s k).record)
        | 3 => setEntry s k (refDec (getCat s k).record)
        | _ => s) s
      let s := putScroll s part scroll { c with st := 0 }
      match dirRec s part c.tensor with
      | some r => .next (settleTensor (recWrite s (dirAddr s part c.tensor) 32 (setFld r 106 106 1)) part c.tensor)
      | none => .next s

/-! ### The prefix index (R331 to R333, R343, R344) -/

def wayAddr (s : State) (part h k : Nat) : Nat :=
  (getPart s part).idxBase + 512 * (h % 2 ^ idxLogEff (getPart s part)) + 32 * k
def rdWay (s : State) (part h k : Nat) : Nat := memRead s (wayAddr s part h k) 32
/-- The valid way of a hash's set that holds it. -/
def findWay (s : State) (part h : Nat) : Option (Nat × Nat) :=
  ((List.range 16).map (fun k => (k, rdWay s part h k))).find? (fun x => bitAt x.2 112 && fld x.2 63 0 == h)
def bumpIdx (s : State) (part : Nat) (f : Part → Part) : State := updPart s part f
def execSpfx (p : P) (s : State) : Out :=
  onceE p s false (fun gid g =>
    let part := gPart s g
    let h := rdSn g (sNum p.a)
    let q := rdSn g (sNum p.a + 1)
    let out := fun (s : State) (a b c : Nat) => match dstS p.d with
      | some n => fin (updG s gid (fun g => addPend g [.s n (BitVec.ofNat 64 a), .s (n + 1) (BitVec.ofNat 64 b), .s (n + 2) (BitVec.ofNat 64 c)])) gid p false
      | none => fin s gid p false
    let s1 := updPart s part (fun q => { q with lookups := (q.lookups + 1) % 2 ^ 32 })
    match findWay s part h with
    | none => out s1 1 0 0
    | some (k, w) =>
      if fld w 255 192 != q then out (updPart s1 part (fun q => { q with collisions := (q.collisions + 1) % 2 ^ 32 })) 1 0 0
      else
        let id := fld w 95 64
        let j := fld w 111 96
        let fo := fld w 191 128
        let bad := fun (_ : Unit) => out (recWrite (updPart s1 part (fun q => { q with stale := (q.stale + 1) % 2 ^ 32 }))
          (wayAddr s part h k) 32 (setFld w 112 112 0)) 1 0 0
        if homeBusy s part id 0 then stall s gid 9 else
        match liveScroll s part id with
        | none => bad ()
        | some c =>
          if c.com < 64 * (j + 1) then bad ()
          else
            let x := scrFrames s part c (64 * j) (64 * j + 1)
            match x.2 with
            | some e => ownerOut s gid e
            | none =>
              let key := rdMap (flushSlots s x.1 c (64 * j) (64 * j + 1)) x.1 part c j
              withKeys s gid [key] <|
              if identity s key == fo && enState (getCat s key).record == 2 then
                out (updPart s1 part (fun q => { q with hits := (q.hits + 1) % 2 ^ 32 })) (2 ^ 32 * id) (64 * (j + 1)) fo
              else bad ())
def execSpin (p : P) (s : State) : Out :=
  scrE p s true true 0xFF noPre (fun gid g id c =>
    let part := gPart s g
    let j := p.ext.toNat
    let h := rdSn g (sNum p.b.opnd)
    let q := rdSn g (sNum p.b.opnd + 1)
    if c.com < 64 * (j + 1) then finS s gid p true 2
    else withSlots s gid g c (64 * (j - 1)) (64 * (j + 1)) (fun s fs =>
      withKeys s gid ((rng (j - 1) (j + 1 - (j - 1))).map (rdMap s fs part c)) <|
      let idw := fun i => identity s (rdMap s fs part c i)
      if q != (if j = 0 then 0 else idw (j - 1)) then finS s gid p true 3
      else if (findWay s part h).isSome then finS s gid p true 1
      else
        let k := ((List.range 16).find? (fun k => !bitAt (rdWay s part h k) 112)).getD (h / 2 ^ 60)
        let w := mkRec [(63, 0, h), (95, 64, id), (111, 96, j), (112, 112, 1), (191, 128, idw j), (255, 192, q)]
        finS (recWrite s (wayAddr s part h k) 32 w) gid p true 0))

/-! ### Scores and reads (R334, R345, R346) -/

/-- R334: does score a rank before score b? NaN ranks below every number. -/
def scoreBefore (a b : Nat) : Bool :=
  match decodeF f32 a, decodeF f32 b with
  | .nan, _ => false
  | _, .nan => true
  | x, y => cmpV y x < 0
/-- A slot put behind those that rank no lower. -/
def insScore (l : List (Nat × Nat)) (x : Nat × Nat) : List (Nat × Nat) :=
  match l with
  | [] => [x]
  | y :: t => if scoreBefore x.2 y.2 then x :: y :: t else y :: insScore t x
/-- R345: the checks of the words that stopk writes. -/
def stopkPre (p : P) (s : State) (gid : Nat) (g : Group) : Option Out :=
  (gBlock s g).bind (fun b =>
    let off := 32 * p.ext.toNat
    let k := fld (rdSn g (sNum p.b.opnd)) 63 48
    match judge (if k = 0 then [] else [{ lane := 0, va := off, c := spRange b off (4 * k) 4 }]) false with
    | .go => none
    | v => some (verdictOut s gid true 6 1 2 v (.next s)))
def execStopk (p : P) (s : State) : Out :=
  scrE p s false false 0xFF (stopkPre p s) (fun gid g _ c => withSp s gid g (fun s _ =>
    let x := rdSn g (sNum p.b.opnd)
    let lo := x % 2 ^ 32
    let n := fld x 47 32
    let k := fld x 63 48
    if n = 0 || k = 0 || n < k || c.res < lo + n then finS s gid p false (scrWord 2 0 0)
    else withSlots (popReds s gid g.reds.length) gid g c lo (lo + n) (fun s fs =>
      let l := (rng lo n).foldl (fun l i => insScore l (i, rdSlot s fs c i % 2 ^ 32)) []
      finS (spHome s g.block (32 * p.ext.toNat) ((l.take k).flatMap (fun y => toBytes 4 y.1))) gid p false (scrWord 0 0 0))))

/-- R346: the slots of one folio decoded: their bytes as numbers, or what stopped it. -/
def readSlots (s : State) (pair part ctx sb key : Nat) (slots : List Nat) : State × Except XRes (List Nat) :=
  let r := readFolio s 0 pair part (keyTensor key) (keyRow key) (keyCol key) 2 0xC9
  let s := unregister r.1 0
  match r.2 with
  | .wait => (s, .error .wait)
  | .freeze k va => (s, .error (.freeze k va))
  | .fault c d => (s, .error (.fault c allLanes d))
  | .ok f =>
    let lg := legendFor s ctx f.bits
    let e := entOf f.key f.record
    match readSegs e sb f.bits lg slots with
    | .ok l => (bumpCtr s part 0x09 (slots.length * segSyms (fld f.bits 7 0) sb), .ok l)
    | .error x => (s, .error (.fault x.code allLanes (loupeDetail (some e) f.bits 2 0xC9 lg 1 x)))
def readAllSlots (s : State) (pair part ctx : Nat) (c : Scroll) (fs : List (Nat × Nat)) (js : List Nat) (a b : Nat) : State × Except XRes (List Nat) :=
  match js with
  | [] => (s, .ok [])
  | j :: t =>
    let slots := (rng a (b - a)).filterMap (fun k => if k / 64 == j then some (k % 64) else none)
    match readSlots s pair part ctx c.slotBytes (rdMap s fs part c j) slots with
    | (s, .error x) => (s, .error x)
    | (s, .ok l) => match readAllSlots s pair part ctx c fs t a b with
      | (s, .ok m) => (s, .ok (l ++ m))
      | x => x
def execSrdDat (p : P) (s : State) : Out :=
  scrE p s false false 0xFF (fun gid g =>
      let x := rdSn g (sNum p.b.opnd)
      if fld x 63 48 != 0 || 4096 < fld x 47 32 then some (trapIllegal s gid .srdDat p) else none)
    (fun gid g id c => withSp s gid g (fun s b =>
      let x := rdSn g (sNum p.b.opnd)
      let f := x % 2 ^ 32
      let n := fld x 47 32
      let off := 32 * p.ext.toNat
      let part := gPart s g
      verdictOut s gid true 0 1 2 (judge (if n = 0 then [] else [{ lane := 0, va := off, c := spRange b off (n * c.slotBytes) 1 }]) false)
        (if c.com < f + n then raise s gid 0x28 allLanes (detHandle id (max f c.com) c.com 0 0 (shNo p.a) 0)
         else withSlots s gid g c f (f + n) (fun s fs =>
           let r := readAllSlots s (gPair g) part (gCtx s g) c fs (if n = 0 then [] else rng (f / 64) ((f + n - 1) / 64 + 1 - f / 64)) f (f + n)
           match r.2 with
           | .error (.fault code l d) => .next (takeFault r.1 gid code (some (0, g.batch, g.pc)) l d)
           | .error (.freeze k va) => freeze r.1 gid k va 5
           | .error _ => stall r.1 gid 9
           | .ok vs =>
             finS (acquire (spHome r.1 g.block off (vs.flatMap (toBytes c.slotBytes))) gid g 2) gid p false 0))))
def execSrdMap (p : P) (s : State) : Out :=
  scrE p s false false 0 noPre (fun gid g id c =>
    let j := valN g p.b.opnd
    if c.com ≤ 64 * j then raise s gid 0x28 allLanes (detHandle id j c.com 0 0 (shNo p.a) 1)
    else withSlots s gid g c (64 * j) (64 * j + 1) (fun s fs =>
      let key := rdMap s fs (gPart s g) c j
      withKeys s gid [key] (finS (acquire s gid g 2) gid p false (identity s key))))
/-- R322, R346: the mirror of the group's core, an acquire at .pkg; a mirror that is not loaded is waited for. -/
def execSrdLen (p : P) (s : State) : Out :=
  scrH p s false false 0 noPre (fun gid g _ _ =>
    match (gBlock s g).bind (fun b => mfind b.cl (8 * (g.core % 2) + shNo p.a)) with
    | some v => finS (acquire s gid g 2) gid p false v
    | none => stall s gid 9)

/-- R301, R319: what bars the way to the slots of a range that take score adds, those at or beyond R left out. -/
def scoreBar (s : State) (part id base n : Nat) : Option (Nat × TrR) :=
  match liveScroll s part id with
  | none => none
  | some c => if c.res ≤ base || n = 0 then none else
    (ownerFrames s (64 * part + c.owner) (slotAt c base) (8 * (min (base + n) c.res - base))).2
/-- R301: one sum added to a slot's score as a .pkg red.add.f32 of a group; a slot at or beyond R takes none, and one whose granule
is poisoned takes none and leaves a deferred record (R228, R229). -/
def scoreAdd (s : State) (gid part id slot x : Nat) : State :=
  match liveScroll s part id with
  | none => s
  | some c =>
    if c.res ≤ slot then s else
    let f := ownerFrames s (64 * part + c.owner) (slotAt c slot) 8
    match f.2 with
    | some _ => s
    | none =>
      let pa := inFrames f.1 (slotAt c slot)
      let s := eccTouch (flushVas s f.1 (slotAt c slot) 8) (granOf pa)
      if grPoison s (granOf pa) then
        (match mfind s.groups gid with | some g => deferred s g 3 8 (if reachable s pa then 0 else 3) pa | none => s)
      else
        let r := rdSlot s f.1 c slot
        wrSlot s f.1 c slot (setFld r 31 0 (atomNew 0 8 (r % 2 ^ 32) x))

end Sys2Proof.Machine
end

