-- ==== Sys2Proof/Machine/Tile.lean ====
section
/-! DEFINITION. The matrix arrays, accumulator tiles and stationary banks, opcodes 0xB0 to 0xB8 (R24 to R29, R285 to R316). -/

namespace Sys2Proof.Machine

/-! ### The format-block record (R290 to R294) -/

/-- An operand descriptor: part 0 A, part 1 B. -/
def dsLo (rec part : Nat) : Nat := fld rec (64 * part + 63) (64 * part)
def dsHi (rec part : Nat) : Nat := fld rec (128 + 32 * part + 31) (128 + 32 * part)
structure Desc where
  fmt : Nat
  rows : Nat
  cols : Nat
  src : Nat
  trans : Bool
  wher : Nat
  handle : Nat
  pitch : Nat
  bank : Nat
  blk : Nat
  lo : Nat
  hi : Nat
  deriving DecidableEq, Repr
def descOf (rec part : Nat) : Desc :=
  let lo := dsLo rec part
  let hi := dsHi rec part
  { fmt := fld lo 7 0, rows := fld lo 16 8, cols := fld lo 25 17, src := fld lo 27 26, trans := bitAt lo 28, wher := fld lo 63 32,
    handle := fld hi 2 0, pitch := fld hi 15 4, bank := fld hi 23 16, blk := fld hi 25 24, lo := lo, hi := hi }
def ctlOf (rec : Nat) : Nat := fld rec 255 192
def ctScale (rec part : Nat) : Nat := if part = 0 then fld (ctlOf rec) 20 0 else fld (ctlOf rec) 41 21
def ctProm (rec : Nat) : Nat := let p := fld (ctlOf rec) 47 42; if p = 0 then 64 else p
def ctAcc (rec : Nat) : Bool := bitAt (ctlOf rec) 48
def ctScore (rec : Nat) : Bool := bitAt (ctlOf rec) 49
def intMode (rec : Nat) : Bool := fmtInt (descOf rec 0).fmt && fmtInt (descOf rec 1).fmt
def offOf (d : Desc) : Nat := d.wher % 2 ^ 21

/-- R294: the checks of a descriptor in number order: check, failed, 0 for the low register and 1 for the high one. -/
def descChecks (d : Desc) (part : Nat) (gath : Bool) : List (Nat × Bool × Nat) :=
  let w := fmtBits d.fmt
  let known := d.fmt ≤ 0x17
  let span := if d.trans then d.rows else d.cols
  let whole := d.src == 1 || d.src == 2
  [ (0, !known, 0),
    (1, !(1 ≤ d.rows && d.rows ≤ 128) || (whole && d.rows % 64 != 0), 0),
    (2, !(1 ≤ d.cols && d.cols ≤ 128 * (part + 1)) || (whole && d.cols % 64 != 0), 0),
    (3, d.src == 3 || (gath && d.src != 0), 0),
    (4, d.trans && (d.src != 0 || gath), 0),
    (5, d.src == 0 && d.wher % 16 != 0, 0),
    (6, d.src == 0 && (d.pitch == 0 || 16 * d.pitch < ceilDiv (span * w) 8), 1),
    (7, d.src == 0 && !(d.bank % 16 < 8 && d.bank < 128 && bankK d.bank + bankM d.bank ≤ 8), 1),
    (8, known && d.blk != (match fmtBlk d.fmt with | 16 => 1 | 32 => 2 | _ => 0), 1),
    (9, fld d.lo 31 29 != 0 || (d.src != 1 && fld d.lo 63 53 != 0), 0),
    (9, bitAt d.hi 3 || fld d.hi 31 26 != 0 || (d.src != 1 && d.handle != 0) || (d.src == 1 && d.pitch != 0) ||
        (d.src == 2 && (fld d.hi 15 7 != 0 || 5 < d.pitch % 8)) || (d.src != 0 && d.bank != 0), 1) ]
/-- R294: the detail of the shape and format-block faults. -/
def detBlock (field opc word : Nat) : Nat := mkRec [(7, 0, field), (15, 8, opc), (79, 16, word)]
/-- The first check of a descriptor that fails, as a detail. -/
def descBad (rec part opc : Nat) (gath : Bool) : Option Nat :=
  ((descChecks (descOf rec part) part gath).find? (fun x => x.2.1)).map (fun x =>
    detBlock (16 * part + x.1) opc (if x.2.2 = 0 then dsLo rec part else fld rec 191 128))
/-- R294: the control word's checks. -/
def ctlBad (rec opc : Nat) (gath hasB tileInt : Bool) : Option Nat :=
  let sc := ctScore rec
  let l := [(9, fld (ctlOf rec) 63 50 != 0), (10, (sc && (intMode rec || gath)) || (!gath && sc != hasB)),
            (11, ctAcc rec && tileInt != intMode rec)]
  (l.find? (·.2)).map (fun x => detBlock (32 + x.1) opc (ctlOf rec))

/-! ### Operands in scratchpad (R295, R299) -/

/-- The lines of a plain operand: rows, or columns when it is stored column by column; for mmag the indexed rows. -/
def lineNos (d : Desc) (idx : List Nat) : List Nat :=
  if idx.isEmpty then List.range (if d.trans then d.cols else d.rows) else idx.take d.rows
/-- The stored offsets of the bytes of a line. -/
def lineOffs (d : Desc) (line : Nat) : List Nat :=
  (List.range (ceilDiv ((if d.trans then d.rows else d.cols) * fmtBits d.fmt) 8)).map (fun i =>
    swizzle d.bank (offOf d + 16 * d.pitch * line + i))
/-- R295, R299: the number of scale blocks, and the offsets of the scales, for mmag those of the indexed rows. -/
def nScale (d : Desc) (part : Nat) : Nat := ceilDiv (if part = 0 then d.cols else d.rows) (fmtBlk d.fmt)
def scaleOffs (d : Desc) (part base : Nat) (idx : List Nat) : List Nat :=
  if fmtBlk d.fmt = 0 then []
  else if idx.isEmpty then rng base ((if part = 0 then d.rows else d.cols) * nScale d part)
  else (idx.take d.rows).flatMap (fun i => rng (base + i * nScale d part) (nScale d part))
/-- The scratchpad bytes of an operand, in the order in which they are checked. -/
def opndOffs (d : Desc) (part base : Nat) (idx : List Nat) : List Nat :=
  match d.src with
  | 0 => (lineNos d idx).flatMap (lineOffs d) ++ scaleOffs d part base idx
  | 2 => rng (offOf d) (d.rows / 64 * (d.cols / 64) * (512 * 2 ^ (d.pitch % 8)))
  | _ => []
/-- R294: the first byte beyond the block. -/
def opndOut (b : Block) (d : Desc) (part base : Nat) (idx : List Nat) : Option Nat :=
  (opndOffs d part base idx).find? (fun o => b.size ≤ o)

/-! ### Acceptance (R285, R286, R307 to R310, R313) -/

def acNo (x : Opnd) : Nat := match x with | .ac n => n.toNat | _ => 0
def dstAc (d : Dst) : Nat := match d with | .other x => acNo x | _ => 0
def getTile (s : State) (blk t : Nat) : Tile := match mfind s.blocks blk with | some b => mget {} b.ac t | none => {}
def updTile (s : State) (blk t : Nat) (f : Tile → Tile) : State := updB s blk (fun b => { b with ac := mset b.ac t (f (mget {} b.ac t)) })
/-- R290: the record in four registers. -/
def recOf (g : Group) (n : Nat) : Nat := sumNat ((List.range 4).map (fun i => rdSn g (n + i) * 2 ^ (64 * i)))
/-- A tile instruction that enters the array queue of 16. -/
def tileE (p : P) (s : State) (f : Nat → Group → State → Block → Out) : Out :=
  withG s (fun gid _ g =>
    if !elects g p.h then fin s gid p true
    else if 16 ≤ (s.ops.filter (fun x => x.2.kind.cls == 3 && x.2.pair == gPair g)).length then stall s gid 10
    else withSp s gid g (fun s b => f gid g (flushReds s gid g) b))
/-- The operation is accepted; it sets the tile's mode tag, which the last one accepted on the tile gives (R287). -/
def tileEnter (p : P) (s : State) (gid : Nat) (g : Group) (k : EK) (mode : Option (Nat × Bool)) : Out :=
  let s := (issueOp s gid g p k false).1
  fin (match mode with | some (t, m) => updTile s g.block t (fun a => { a with int := m }) | none => s) gid p true
/-- The tensor handle of a folio operand that is not bound. -/
def descUnbound (record : Nat) (d : Desc) : Option Nat :=
  if d.src == 1 && (handleOf record 320 d.handle).isNone then some d.handle else none

/-- mma and mmag: R294 by the rank of R67, then acceptance. -/
def mmRun (p : P) (s : State) (o : Op) (opc : Nat) (gath : Bool) : Out :=
  tileE p s (fun gid g s b =>
    let rec_ := recOf g (sNum p.a)
    let da := descOf rec_ 0
    let db := descOf rec_ 1
    let t := dstAc p.d
    let sw := match p.b.opnd with | .s n => if gath then none else some (rdSn g n.toNat) | _ => none
    let idx := match p.b.opnd with
      | .v n => if gath then (List.range 128).map (fun i =>
          let x := (rdV g (n.toNat + i / 64) (i % 32)).toNat
          if i % 64 < 32 then x % 65536 else x / 65536) else []
      | _ => []
    if ctScore rec_ && 2 ^ 35 ≤ sw.getD 0 then trapIllegal s gid o p
    else if da.cols != db.rows then raise s gid 0x08 allLanes (detBlock 0x30 opc (da.cols + 2 ^ 16 * db.rows))
    else match ((descBad rec_ 0 opc gath).orElse (fun _ => descBad rec_ 1 opc false)).orElse
        (fun _ => ctlBad rec_ opc gath sw.isSome (getTile s g.block t).int) with
      | some d => raise s gid 0x09 allLanes d
      | none =>
        match (opndOut b da 0 (ctScale rec_ 0) idx).orElse (fun _ => opndOut b db 1 (ctScale rec_ 1) []) with
        | some off => raise s gid 0x12 allLanes (detMem off 0 6 false 0 0)
        | none =>
          match (descUnbound (gRecord s g) da).orElse (fun _ => descUnbound (gRecord s g) db) with
          | some h => raiseUnbound s gid h
          | none =>
            let go := tileEnter p s gid g (.mm gath t rec_ idx sw) (some (t, intMode rec_))
            match sw with
            | some x => withScroll s gid g (fld x 34 32) false (fun id _ =>
                tileEnter p s gid g (.mm gath t rec_ idx (some (x % 2 ^ 32 + 2 ^ 32 * id))) (some (t, intMode rec_)))
            | none => go)
def execMma (p : P) (s : State) : Out := mmRun p s .mma 0xB0 false
def execMmag (p : P) (s : State) : Out := mmRun p s .mmag 0xB1 true
/-- R309: only the B descriptor and ScaleB are checked. -/
def execMld (p : P) (s : State) : Out :=
  tileE p s (fun gid g s b =>
    let rec_ := recOf g (sNum p.a)
    let d := descOf rec_ 1
    match descBad rec_ 1 0xB5 false with
    | some x => raise s gid 0x09 allLanes x
    | none =>
      match opndOut b d 1 (ctScale rec_ 1) [] with
      | some off => raise s gid 0x12 allLanes (detMem off 0 6 false 0 0)
      | none =>
        match descUnbound (gRecord s g) d with
        | some h => raiseUnbound s gid h
        | none => tileEnter p s gid g (.mld rec_) none)
def execMclr (p : P) (s : State) : Out :=
  tileE p s (fun gid g s _ => tileEnter p s gid g (.mclr (dstAc p.d) (p.t == 2)) (some (dstAc p.d, p.t == 2)))
/-- R313: the table is read at issue as lds reads. -/
def execMint (p : P) (s : State) : Out :=
  tileE p s (fun gid g s b =>
    let base := rdSn g (sNum p.a)
    let key := rdSn g (sNum p.b.opnd)
    let off : Int := (base % 2 ^ 32 : Nat) + p.off
    if 2 ^ 32 ≤ key then trapIllegal s gid .mint p
    else
      let c : Chk := if off % 32 != 0 then .mis
        else if 2 ^ 32 ≤ base || off < 0 || (b.size : Int) < off + 256 then .range else .ok off.toNat
      verdictOut s gid true 0 0 1 (judge [{ lane := 0, va := wrap 64 off, c := c }] false)
        (if spPoison b off.toNat 256 then raiseSpPoison s gid true 0 0 [{ lane := 0, va := wrap 64 off, c := c }] else
         tileEnter p s gid g (.mint (dstAc p.d) (spRead b off.toNat 256) key) none))

/-! ### Operands at the ports (R295, R296) -/

/-- A whole operand: codes and scale codes by row and column. -/
structure Opd where
  d : Desc
  part : Nat
  /-- plain: the lines as numbers, in line order -/
  lines : List Nat := []
  scales : List Nat := []
  /-- folios, row by row -/
  tiles : List TileD := []
  deriving DecidableEq, Repr
def Opd.code (o : Opd) (r c : Nat) : Nat :=
  if o.d.src = 0 then
    (if o.d.trans then elem (fmtBits o.d.fmt) r (o.lines.getD c 0) else elem (fmtBits o.d.fmt) c (o.lines.getD r 0))
  else
    match o.tiles[r / 64 * (o.d.cols / 64) + c / 64]? with
    | some t => t.els.getD (64 * (r % 64) + c % 64) 0
    | none => 0
def Opd.scale (o : Opd) (r c : Nat) : Nat :=
  let l := fmtBlk o.d.fmt
  if o.d.src = 0 then
    (if o.part = 0 then o.scales.getD (r * nScale o.d 0 + c / l) 0 else o.scales.getD (c * nScale o.d 1 + r / l) 0)
  else
    match o.tiles[r / 64 * (o.d.cols / 64) + c / 64]? with
    | some t => if o.part = 0 then t.scales.getD (r % 64 * (64 / l) + c % 64 / l) 0 else t.scales.getD (c % 64 * (64 / l) + r % 64 / l) 0
    | none => 0
/-- R23: an element's value with its scale. -/
def Opd.val (o : Opd) (r c : Nat) : FV :=
  if fmtBlk o.d.fmt = 0 then elemV o.d.fmt (o.code r c) else scaled o.d.fmt (o.code r c) (o.scale r c)
def Opd.ival (o : Opd) (r c : Nat) : Int := elemI o.d.fmt (o.code r c)

/-- A plain operand read from scratchpad. -/
def plainOpd (b : Block) (d : Desc) (part base : Nat) (idx : List Nat) : Opd :=
  let byte := fun (o : Nat) => spByte b o
  { d := d, part := part, lines := (lineNos d idx).map (fun l => ofBytes ((lineOffs d l).map byte)),
    scales := (scaleOffs d part base idx).map (fun o => (byte o).toNat) }
/-- R296: the coordinates of a folio operand, row by row. -/
def opdFolios (d : Desc) : List (Nat × Nat) :=
  (List.range (d.rows / 64)).flatMap (fun a => (List.range (d.cols / 64)).map (fun b => (d.wher % 65536 + a, d.wher / 65536 + b)))
/-- What a lookup or a read that failed is for the operation. -/
def folRes (x : FolR) : XRes :=
  match x with | .freeze k va => .freeze k va | .fault c det => .fault c allLanes det | _ => .wait
/-- R296: every folio of an operand looked up and registered: its key and its entry. -/
def opdFind (s : State) (id : Nat) (o : EOp) (d : Desc) (part opc : Nat) : State × Except XRes (List (Nat × Nat)) :=
  if d.src != 1 then (s, .ok []) else
  let record := match mfind s.kernels o.kernel with | some k => k.record | none => 0
  let t := (handleOf record 320 d.handle).getD 0
  let bad := XRes.fault 0x22 allLanes (folDetail t (d.wher % 65536) (d.wher / 65536) 0 part 0 7 0 (isAppend s (o.ctx / 64) t).toNat 0 0 0 opc)
  match dirRec s (o.ctx / 64) t with
  | none => (s, .error bad)
  | some r =>
    if dtAppend r || dtFmt r != d.fmt then (s, .error bad)
    else match findFolios s id (o.ctx / 64) t part opc (opdFolios d) with
      | (s, .ok l) => (s, .ok l)
      | (s, .error x) => (s, .error (folRes x))
/-- Every folio of an operand read, after all of them were looked up. -/
def opdRead (s : State) (o : EOp) (l : List (Nat × Nat)) : State × Except XRes (List StFolio) :=
  match loadFolios s o.pair l with
  | (s, .ok fs) => (s, .ok fs)
  | (s, .error x) => (s, .error (folRes x))

/-- R296, R246: a tile at a port: the lowest bad field of its header, the descriptor's Format and the Orient of a scaled operand
among them, then the other checks. -/
def portTile (d : Desc) (part : Nat) (e : Option Ent) (bits : Nat) (lg : Option Nat) : Except LErr TileD :=
  let head := if e.isNone && fld bits 7 0 != d.fmt then some 0 else badHeader e 1 bits
  let turned := fmtBlk d.fmt != 0 && (bitAt bits 107).toNat != part
  match head with
  | some off => .error { reason := 4, off := if turned then min off 107 else off }
  | none => if turned then .error { reason := 4, off := 107 } else readTile e bits lg
/-- What a port reports: cycle, port, detail code and detail. -/
structure PortErr where
  cycle : Nat
  port : Nat
  code : Nat
  det : Nat
  deriving DecidableEq, Repr
/-- The tiles of a folio or gathered operand: decoded, and what each port reports first (R296, R315). -/
def opdTiles (s : State) (o : EOp) (b : Block) (d : Desc) (part opc : Nat) (fs : List StFolio) : List TileD × List PortErr :=
  let nc := d.cols / 64
  let step := ceilDiv (tileSyms d.fmt) 128
  let img := fun (i : Nat) => ungather (spRead b (offOf d + i * (512 * 2 ^ (d.pitch % 8))) (512 * 2 ^ (d.pitch % 8)))
  let n := d.rows / 64 * nc
  let rs := (List.range n).map (fun i =>
    let e := if d.src = 1 then (fs[i]?).map (fun f => entOf f.key f.record) else none
    let bits := if d.src = 1 then ((fs[i]?).map (·.bits)).getD 0 else img i
    let lg := legendCapFor s o bits
    let port := if part = 0 then 0 else 1 + (i % nc) / 2
    -- the folios that this port decodes up to this one
    let k := (List.range (i + 1)).countP (fun j => part = 0 || (j % nc) / 2 = (i % nc) / 2)
    match portTile d part e bits lg with
    | .ok t => (some t, none)
    | .error x => (none, some (PortErr.mk (step * k) port x.code (loupeDetail e bits part opc lg 0 x))))
  (rs.filterMap (·.1), rs.filterMap (·.2))
/-- The report that comes first. -/
def firstErr (l : List PortErr) : Option PortErr :=
  l.foldl (fun r x => match r with
    | none => some x
    | some y => if x.cycle < y.cycle || (x.cycle == y.cycle && x.port < y.port) then some x else r) none

/-! ### The cells (R25 to R29) -/

/-- R26: RoundWork: the value and whether the overflow sticky is set. -/
def roundWork (x : FV) : FV × Bool :=
  match x with
  | .fin neg m e =>
    if m = 0 then (.fin false 0 0, false)
    else
      let r := roundUnit 17 (-100000) 0 neg m 1 e
      let y := FV.fin false r.1 r.2
      if cmpV y (.fin false 1 (-126)) < 0 then (.fin neg 0 0, false)
      else if cmpV (.fin false (2 ^ 18 - 1) 111) y < 0 then (.fin neg (2 ^ 18 - 1) 111, true)
      else (.fin neg r.1 r.2, false)
  | y => (y, false)
/-- A cell between K-steps: working accumulator, promoted accumulator, stickies. -/
structure Cell where
  w : FV
  q : Nat
  st : BitVec 4
  deriving DecidableEq, Repr
/-- One product into the exact sum of a K-step, or into the stickies (R27). -/
def mulStep (r : FV × BitVec 4) (a b : FV) : FV × BitVec 4 :=
  if a.isNan || b.isNan || (a.isInf && b.isZero) || (b.isInf && a.isZero) then (r.1, r.2 ||| 2)
  else if a.isInf || b.isInf then (r.1, r.2 ||| (if a.neg != b.neg then 8 else 4))
  else (addV r.1 (mulV a b) 0, r.2)
/-- R27: the K-steps of one element, `left` of them to go. -/
def cellRun (g kk pr : Nat) (a b : Nat → FV) (c left : Nat) (x : Cell) : Cell :=
  match left with
  | 0 => x
  | l + 1 =>
    let ks := (rng (g * c) g).filter (· < kk)
    let s := ks.foldl (fun r k => mulStep r (a k) (b k)) (FV.fin false 0 0, x.st)
    let rw := roundWork (addV x.w s.1 0)
    let st := if rw.2 then s.2 ||| 1 else s.2
    let y : Cell := if (c + 1) % pr = 0 || l = 0 then
        { w := .fin false 0 0, q := roundF f32 0 false (addV (decodeF f32 x.q) rw.1 0), st := st }
      else { w := rw.1, q := x.q, st := st }
    cellRun g kk pr a b (c + 1) l y
/-- R29: an integer element: exact sums of K-steps, clamped in ascending order. -/
def icellRun (g kk : Nat) (a b : Nat → Int) (c left : Nat) (x : Int × BitVec 4) : Int × BitVec 4 :=
  match left with
  | 0 => x
  | l + 1 =>
    let ks := (rng (g * c) g).filter (· < kk)
    let s := ks.foldl (fun r k => r + a k * b k) x.1
    let y := satI true 32 s
    icellRun g kk a b (c + 1) l (y, if y = s then x.2 else x.2 ||| 1)

/-- The tile after a matrix operation (R298). -/
def mmTile (rec_ : Nat) (a b : Opd) (t : Tile) : Tile :=
  let m := a.d.rows
  let n := b.d.cols
  let kk := a.d.cols
  let g := min (fmtProd a.d.fmt) (fmtProd b.d.fmt)
  let steps := ceilDiv kk g
  let acc := ctAcc rec_
  let im := intMode rec_
  (List.range m).foldl (fun t i => (List.range n).foldl (fun t j =>
    let key := 256 * i + j
    let q0 : W32 := if acc then mget 0 t.val key else 0
    let st0 : BitVec 4 := if acc then mget 0 t.stick key else 0
    let r : W32 × BitVec 4 :=
      if im then
        (let x := icellRun g kk (fun k => a.ival i k) (fun k => b.ival k j) 0 steps (q0.toInt, st0)
         (BitVec.ofInt 32 x.1, x.2))
      else
        (let x := cellRun g kk (ctProm rec_) (fun k => a.val i k) (fun k => b.val k j) 0 steps { w := .fin false 0 0, q := q0.toNat, st := st0 }
         (BitVec.ofNat 32 x.q, x.st))
    { t with val := mput 0 t.val key r.1, stick := mput 0 t.stick key r.2 }) t) { t with written := true }
/-- R301: the sum over the rows of a column of A. -/
def scoreSum (a : Opd) (k : Nat) : Nat :=
  let xs := (List.range a.d.rows).map (fun i => a.val i k)
  if xs.any (·.isNan) || (xs.any (fun x => x.isInf && x.neg) && xs.any (fun x => x.isInf && !x.neg)) then f32.nan
  else match xs with
    | [] => 0
    | x :: t => roundF f32 0 false (t.foldl (fun s y => addV s y 0) x)

/-! ### The life of an operation (R289, R298, R300, R303) -/

def mmOpc (k : EK) : Nat := match k with | .mm true .. => 0xB1 | .mld .. => 0xB5 | _ => 0xB0
def mmRec (k : EK) : Nat := match k with | .mm _ _ r _ _ => r | .mld r => r | _ => 0
def mmIdx (k : EK) : List Nat := match k with | .mm _ _ _ i _ => i | _ => []
def isMat (k : EK) : Bool := match k with | .mm .. => true | .mld .. => true | _ => false
/-! ### The stationary banks (R297) -/

/-- The tag of an operation's B: its descriptor and ScaleB. -/
def bankTag (k : EK) : Nat := let d := descOf (mmRec k) 1; d.lo + 2 ^ 64 * d.hi + 2 ^ 96 * ctScale (mmRec k) 1
/-- Does an operation leave its bank latched: the reuse hint, or mld (R309)? -/
def keepsBank (o : EOp) : Bool := o.reuse || (match o.kind with | .mld .. => true | _ => false)
/-- The operations that use a bank. -/
def bankUsers (s : State) (b : Bank) : List Nat :=
  b.ops.filter (fun id => match mfind s.ops id with | some o => o.st == .reading | none => false)
/-- Is what a bank was filled from still as it stands: no byte of it written since, a group of its block not stopped? -/
def bankSound (s : State) (k : Nat) (b : Bank) : Bool :=
  !allQuiet s b.block && (match mfind s.blocks b.block with | some x => (mfind x.foots (k % 2)).isSome | none => false)
/-- The bank that an operation's B is latched in, or is being filled into by an operation that will leave it latched. -/
def bankFor (s : State) (o : EOp) : Option (Nat × Bank) :=
  [2 * o.pair, 2 * o.pair + 1].findSome? (fun k => match mfind s.banks k with
    | some b =>
      if b.block == o.block && b.tag == bankTag o.kind && bankSound s k b &&
        (b.latched || (!b.filled && (bankUsers s b).any (fun i => match mfind s.ops i with | some x => keepsBank x | none => false)))
      then some (k, b) else none
    | none => none)
/-- Does an operation accepted before a number use a bank: one that has begun, or one that waits and names its tag? -/
def bankWanted (s : State) (id k : Nat) (b : Bank) : Bool :=
  b.latched && bankSound s k b &&
  s.ops.any (fun x => x.1 < id && isMat x.2.kind && x.2.block == b.block && x.2.st == .queued && bankTag x.2.kind == b.tag)
/-- The bank that an operation fills: a free one, else of the latched ones that nothing uses the one whose last use is older;
none while both are in use. mld leaves one alone that an operation before it waits for. -/
def bankPick (s : State) (id : Nat) (o : EOp) : Option Nat :=
  let ks := [2 * o.pair, 2 * o.pair + 1]
  let free := fun (k : Nat) => match mfind s.banks k with
    | none => true
    | some b => (bankUsers s b).isEmpty && !(b.latched && bankSound s k b)
  let idle := fun (k : Nat) => match mfind s.banks k with
    | none => false
    | some b => (bankUsers s b).isEmpty && !(match o.kind with | .mld .. => bankWanted s id k b | _ => false)
  let used : Nat → Nat := fun k => match mfind s.banks k with | some b => b.used | none => 0
  (ks.find? free).orElse (fun _ => (ks.filter idle).foldl (fun (r : Option Nat) k => match r with
    | none => some k
    | some x => if used k < used x then some k else some x) none)
/-- An operation begins to fill a bank. -/
def bankFill (s : State) (id : Nat) (o : EOp) (k : Nat) (fs : List StFolio) : State :=
  let r := mmRec o.kind
  updB { s with banks := mset s.banks k { block := o.block, ctx := o.ctx, tag := bankTag o.kind,
                                          gens := fs.map (fun f => (f.key, enGen f.record)), ops := [id], used := id } } o.block
    (fun b => { b with foots := mset b.foots (k % 2) (opndOffs (descOf r 1) 1 (ctScale r 1) []) })
/-- The filled bank that an operation uses, or fills. -/
def bankOf (s : State) (id : Nat) (o : EOp) (filled : Bool) : Option (Nat × Bank) :=
  [2 * o.pair, 2 * o.pair + 1].findSome? (fun k => match mfind s.banks k with
    | some b => if b.ops.contains id && b.filled == filled then some (k, b) else none
    | none => none)
/-- An operation retires: with the reuse hint its bank stays latched, else it is freed. -/
def bankEnd (s : State) (id : Nat) (o : EOp) (b : Opd) : State :=
  match bankOf s id o true with
  | some (k, x) => { s with banks := mset s.banks k { x with ops := x.ops.erase id, latched := x.latched && keepsBank o } }
  | none => match bankOf s id o false with
    | some (k, x) =>
      if keepsBank o && bankSound s k x then
        { s with banks := mset s.banks k { x with ops := [], latched := true, filled := true, lines := b.lines, scales := b.scales,
                                                  tiles := b.tiles.map (fun t => (t.els, t.scales)) } }
      else { s with banks := mdel s.banks k }
    | none => s
/-- B as a bank holds it. -/
def bankOpd (d : Desc) (x : Bank) : Opd :=
  { d := d, part := 1, lines := x.lines, scales := x.scales, tiles := x.tiles.map (fun t => { els := t.1, scales := t.2 }) }

/-- The folios of both operands, A first; mld has B alone: all are looked up before any is read. A bank whose folios are still of the
generations latched is hit, and its folios are not read; else B is read. -/
def mmLookup (s : State) (id : Nat) (o : EOp) (bank : Option Bank) : State × Except XRes (List StFolio × List StFolio × Bool) :=
  let opc := mmOpc o.kind
  let r := mmRec o.kind
  let a := match o.kind with | .mm .. => opdFind s id o (descOf r 0) 0 opc | _ => (s, .ok [])
  match a with
  | (s, .error x) => (s, .error x)
  | (s, .ok ka) => match opdFind s id o (descOf r 1) 1 opc with
    | (s, .error x) => (s, .error x)
    | (s, .ok kb) => match opdRead s o ka with
      | (s, .error x) => (s, .error x)
      | (s, .ok la) =>
        let hit : Bool := match bank with | some b => kb.map (fun x => (x.1, enGen x.2)) == b.gens | none => false
        if hit then (s, .ok (la, [], true))
        else match opdRead s o kb with
          | (s, .error x) => (s, .error x)
          | (s, .ok lb) => (s, .ok (la, lb, false))
/-- R300: the first poisoned scratchpad byte of an operand. Which of several reports comes first is stated for the Loupes alone
(R315): the scratchpad's ranks before theirs, A's first (assumption log 100). -/
def opndPoison (b : Block) (d : Desc) (part base : Nat) (idx : List Nat) : List PortErr :=
  if b.poison.isEmpty then [] else
  match (opndOffs d part base idx).find? (fun a => spPoison b a 1) with
  | some off => [{ cycle := 0, port := part, code := 0x41, det := detMem off 0 6 false 2 0 }]
  | none => []
/-- Both operands decoded at the ports, or the first report; a bank that is hit gives B. -/
def mmOperands (s : State) (id : Nat) (o : EOp) : Except PortErr (Opd × Opd) :=
  let b := opBlock s o
  let hit := bankOf s id o true
  let r := mmRec o.kind
  let opc := mmOpc o.kind
  let da := descOf r 0
  let db := descOf r 1
  let single := match o.kind with | .mld .. => true | _ => false
  let na := if !single && da.src = 1 then (opdFolios da).length else 0
  let ta := if single || da.src = 0 then ([], []) else opdTiles s o b da 0 opc (o.folios.take na)
  let tb := if db.src = 0 || hit.isSome then ([], []) else opdTiles s o b db 1 opc (o.folios.drop na)
  let pa := if single then [] else opndPoison b da 0 (ctScale r 0) (mmIdx o.kind)
  let pb := if hit.isSome then [] else opndPoison b db 1 (ctScale r 1) []
  match firstErr (pa ++ pb ++ ta.2 ++ tb.2) with
  | some e => .error e
  | none =>
    let a : Opd := if da.src = 0 then plainOpd b da 0 (ctScale r 0) (mmIdx o.kind) else { d := da, part := 0, tiles := ta.1 }
    let c : Opd := match hit with
      | some x => bankOpd db x.2
      | none => if db.src = 0 then plainOpd b db 1 (ctScale r 1) [] else { d := db, part := 1, tiles := tb.1 }
    .ok (if single then { d := da, part := 0 } else a, c)

/-- R302: does a reader that waits come before an operation on its tile? -/
def readerAhead (s : State) (id : Nat) (o : EOp) : Bool :=
  s.groups.any (fun x => x.2.block == o.block &&
    (match x.2.reads with | some (t, n) => o.kind.tile == some t && decide (n < id) | none => false))
/-- May an operation of the arrays take its turn? -/
def tileTurn (s : State) (id : Nat) (o : EOp) : Bool := o.st == .queued && !opBlocked s id o && !readerAhead s id o
/-- R296, R297: a matrix operation at its turn: its lookups, with the bank that it hits or takes; none while it must wait for a
bank. -/
def mmBegin (s : State) (id : Nat) (o : EOp) : Option (State × Except XRes (List StFolio × List StFolio × Option Nat × Nat)) :=
  match bankFor s o, bankPick s id o with
  | some (k, b), pick =>
    if !b.filled then none
    else match mmLookup s id o (some b) with
      | (s, .ok (la, _, true)) => some (s, .ok (la, [], some k, 0))
      | (s, .ok (la, lb, false)) => pick.map (fun j => (dropBanks s (fun i _ => i == k), .ok (la, lb, none, j)))
      | (s, .error x) => some (s, .error x)
  | none, some k => match mmLookup s id o none with
    | (s, .ok (la, lb, _)) => some (s, .ok (la, lb, none, k))
    | (s, .error x) => some (s, .error x)
  | none, none => none
/-- R251, R289, R296, R297: the operation begins: lookups, its bank, the legends captured, and the tile copied to the shadow bank. -/
def execMmaStart (id : Nat) (s : State) : Out :=
  match mfind s.ops id with
  | none => .next s
  | some o =>
    if isMat o.kind && tileTurn s id o then
      match mmBegin s id o with
      | some (s', .ok (la, lb, hit, k)) =>
        let s' := match hit with
          | some h => (match mfind s'.banks h with
            | some b => { s' with banks := mset s'.banks h { b with ops := b.ops ++ [id], used := id } }
            | none => s')
          | none => bankFill s' id o k lb
        .next (updOp s' id (fun o => { o with
          st := .reading, folios := la ++ lb, lgs := some (getCtx s' o.ctx).lg, shadow := o.kind.tile.map (getTile s' o.block) }))
      | _ => .next s
    else .next s
/-- R301: what a matrix operation's score adds are for: the scroll, the base slot, their number. -/
def scoreOf (k : EK) : Option (Nat × Nat × Nat) :=
  match k with
  | .mm _ _ r _ (some x) => some (x / 2 ^ 32, x % 2 ^ 32, (descOf r 0).cols)
  | _ => none
/-- R404: the symbols that the Loupes decode of a folio: those of a tile, or of an append folio's segments. -/
def folSyms (f : StFolio) : Nat :=
  if f.segs = 0 then tileSyms (enFmt f.record) else f.segs * segSyms (fld f.bits 7 0) (fld f.bits 103 96)
/-- R404: what an operation of the arrays adds to the counters: its K-steps in each array that holds columns of it (R27, R287), and
the symbols of the folios that its ports decode. -/
def countMat (s : State) (o : EOp) (a b : Opd) : State :=
  let k := match o.kind with
    | .mm .. => ceilDiv a.d.cols (min (fmtProd a.d.fmt) (fmtProd b.d.fmt)) * ceilDiv b.d.cols 128
    | _ => 0
  bumpCtr (bumpCtr s (o.ctx / 64) 0x05 k) (o.ctx / 64) 0x09 (sumNat (o.folios.map folSyms))
/-- R298, R301: the results, the score adds, then retirement. The adds come before it: it waits while their slots cannot be
reached, and the operation freezes where their page forbids them (R234). -/
def execMmaRetire (id : Nat) (s : State) : Out :=
  match mfind s.ops id with
  | none => .next s
  | some o =>
    if isMat o.kind && o.st == .reading then
      match mmOperands s id o with
      | .error _ => .next s
      | .ok (a, b) =>
        match (scoreOf o.kind).bind (fun x => scoreBar s (o.ctx / 64) x.1 x.2.1 x.2.2) with
        | some (va, .forbid k) => .next (opFreeze s id k va)
        | some _ => .next s
        | none =>
          let s := match o.kind with | .mm _ t r _ _ => updTile s o.block t (mmTile r a b) | _ => s
          let s := match scoreOf o.kind with
            | some x => (List.range x.2.2).foldl (fun s k => scoreAdd s o.gid (o.ctx / 64) x.1 (x.2.1 + k) (scoreSum a k)) s
            | none => s
          .next (removeOp (unregister (bankEnd (countMat s o a b) id o b) id) id)
    else .next s
/-- R300: a fault: the tile is as the shadow held it, the operation abandoned. -/
def execMmaFault (id : Nat) (s : State) : Out :=
  match mfind s.ops id with
  | none => .next s
  | some o =>
    if isMat o.kind && tileTurn s id o then
      match mmBegin s id o with
      | some (s', .error (.fault c l d)) => .next (opFault s' id c l d)
      | some (s', .error (.freeze k va)) => .next (opFreeze s' id k va)
      | _ => .next s
    else if isMat o.kind && o.st == .reading then
      match mmOperands s id o with
      | .error e =>
        let s := match o.kind.tile, o.shadow with
          | some t, some sh => updTile s o.block t (fun a => { sh with int := a.int })
          | _, _ => s
        .next (opFault s id e.code allLanes e.det)
      | .ok _ => .next s
    else .next s
/-- R302, R310, R313: mclr and mint at their turn; the mode tag was set when mclr was accepted. -/
def execTileTurnEffect (id : Nat) (s : State) : Out :=
  match mfind s.ops id with
  | none => .next s
  | some o =>
    if !tileTurn s id o then .next s else
    match o.kind with
    | .mclr t _ => .next (removeOp (updTile s o.block t (fun a => { a with val := [], stick := [], written := true })) id)
    | .mint t img key => .next (removeOp (updTile s o.block t (fun a =>
        { a with iv := (List.range 32).foldl (fun m i => mput (0x7FFFFFFF00000000 : W64) m i (BitVec.ofNat 64 (fld img (64 * i + 63) (64 * i)))) a.iv,
                 keyBase := key })) id)
    | _ => .next s

/-! ### Readers (R302, R305, R311, R312, R314) -/

/-- R302: the place in array order that a group's waiting reader of a tile holds. -/
def readPlace (g : Group) (t : Nat) : Option Nat := match g.reads with | some (u, n) => if u = t then some n else none | none => none
/-- R302: does an operation on the tile that came before the group's reader still run? -/
def tileBusy (s : State) (g : Group) (t : Nat) : Bool :=
  s.ops.any (fun x => x.2.block == g.block && x.2.kind.tile == some t && (match readPlace g t with | some n => decide (x.1 < n) | none => true))
/-- A reader of a tile at its turn; one that waits keeps its place and the tile's mode tag there, so that what is accepted after it
begins after it and changes nothing that it reads. -/
def tileRead (p : P) (s : State) (f : State → Nat → Group → Tile → Out) : Out :=
  withG s (fun gid _ g =>
    let t := acNo p.a
    if !elects g p.h then fin s gid p false
    else if tileBusy s g t then
      (if (readPlace g t).isSome then stall s gid 10
       else let n := takeFresh s; stall (updG n.1 gid (fun g => { g with reads := some (t, n.2), readInt := (getTile s g.block t).int })) gid 10)
    else
      let x := getTile s g.block t
      f (if g.reads.isNone then s else updG s gid (fun g => { g with reads := none })) gid g
        (if (readPlace g t).isSome then { x with int := g.readInt } else x))
/-- R27: Readout. -/
def readout (q : Nat) (st : BitVec 4) : Nat :=
  if st.getLsbD 1 || (st.getLsbD 2 && st.getLsbD 3) || (decodeF f32 q).isNan then 0x7FC00000
  else if st.getLsbD 2 then 0x7F800000 else if st.getLsbD 3 then 0xFF800000 else q
/-- R311: an element as binary32 and as a 32-bit integer. -/
def elF32 (t : Tile) (i c : Nat) : Nat :=
  let q := mget 0 t.val (256 * i + c)
  if t.int then roundF f32 0 false (ofInt q.toInt) else readout q.toNat (mget 0 t.stick (256 * i + c))
def elS32 (t : Tile) (i c : Nat) : Nat :=
  if t.int then (mget 0 t.val (256 * i + c)).toNat else wrap 32 (toIntTy 1 true 32 (decodeF f32 (elF32 t i c)))
/-- R305: is a key position live in a row? -/
def keyLive (t : Tile) (i p : Nat) : Bool :=
  (List.range 4).any (fun x =>
    let r := (mget (0x7FFFFFFF00000000 : W64) t.iv (4 * (i / 16) + x)).toNat
    let d := i % 16
    fld r 30 0 + (if bitAt r 31 then d else 0) ≤ p && p < fld r 62 32 + (if bitAt r 63 then d else 0))
/-- One register of mrd or mrdm for a lane. -/
def mrdVal (t : Tile) (ty : Nat) (masked : Bool) (i c0 lane : Nat) : Nat :=
  let dead := fun (c : Nat) => masked && !keyLive t i (t.keyBase + c)
  if ty = 0xA then
    let h := fun (e : Nat) =>
      let c := c0 + 2 * lane + e
      roundF bf16 0 false (if dead c then .inf true else decodeF f32 (elF32 t i c))
    h 0 + 65536 * h 1
  else
    let c := c0 + lane
    if dead c then 0xFF800000 else if ty = 2 then elS32 t i c else elF32 t i c
def mrdRun (p : P) (s : State) (o : Op) (masked : Bool) : Out :=
  tileRead p s (fun s gid g t =>
    let x := rdSn g (sNum p.b.opnd)
    let row := x % 256
    let col := fld x 16 8
    let h := p.f + 1
    if 2 ^ 17 ≤ x || 128 < row + h || 256 < col + (if p.t = 0xA then 64 else 32) then trapIllegal s gid o p
    else
      let ws := match p.d with
        | .v false _ n => (lanesOf (guardLanes g p.h)).flatMap (fun i => (List.range h).map (fun u =>
            RegW.v (n.toNat + u) i (BitVec.ofNat 32 (mrdVal t p.t masked (row + u) col i))))
        | _ => []
      fin (updG s gid (fun g => addPend g ws)) gid p false)
def execMrd (p : P) (s : State) : Out := mrdRun p s .mrd false
def execMrdm (p : P) (s : State) : Out := mrdRun p s .mrdm true
/-- R312: 2 full, 1 partial, 0 empty for each row-block. -/
def tclsBlock (t : Tile) (k0 w b : Nat) : Nat :=
  let l := (List.range 16).flatMap (fun d => (rng k0 w).map (fun p => keyLive t (16 * b + d) p))
  if l.all id then 2 else if l.any id then 1 else 0
def execTcls (p : P) (s : State) : Out :=
  tileRead p s (fun s gid g t =>
    let x := rdSn g (sNum p.b.opnd)
    let w := fld x 40 32
    if 2 ^ 41 ≤ x || w = 0 || 256 < w then trapIllegal s gid .tcls p
    else
      let cls := (List.range 8).map (tclsBlock t (x % 2 ^ 32) w)
      finS s gid p false (sumNat (cls.zipIdx.map (fun y => y.1 * 4 ^ y.2)) +
        65536 * (if cls.all (· == 2) then 2 else if cls.all (· == 0) then 0 else 1)))
/-- R314. -/
def mstkVal (t : Tile) : Nat :=
  let xs := t.stick.filter (fun x => x.2 != 0)
  let any := xs.foldl (fun (r : BitVec 4) x => r ||| x.2) 0
  match xs with
  | [] => mkRec [(11, 4, 0xFF), (20, 12, 0x1FF)]
  | x :: t =>
    let k := t.foldl (fun m y => min m y.1) x.1
    any.toNat + 16 * (k / 256) + 4096 * (k % 256)
def execMstk (p : P) (s : State) : Out := tileRead p s (fun s gid _ t => finS s gid p false (mstkVal t))

end Sys2Proof.Machine
end

