-- ==== Sys2Proof/Machine/Chain.lean ====
section
/-! DEFINITION. Chains, opcodes 0xD0 to 0xD4, and the life of a run (R352 to R372). -/

namespace Sys2Proof.Machine

/-! ### Registers (R353 to R355, R367 to R369) -/

/-- R354: a bond register at block start. -/
def bdInit (k : Nat) : W64 := if k = 0 then 1 else 1 + 2 ^ 16 + 2 ^ 32
def bdOf (b : Block) (k : Nat) : W64 := mget (bdInit k) b.bd k
def bdR (x : W64) : Nat := fld x.toNat 10 0
def bdM (x : W64) : Nat := fld x.toNat 24 16
def bdP (x : W64) : Nat := fld x.toNat 40 32
/-- R354: the limits of a bond register. -/
def bdOk (k x : Nat) : Bool :=
  fld x 15 11 == 0 && fld x 31 25 == 0 && fld x 63 41 == 0 && 1 ≤ fld x 10 0 && fld x 10 0 ≤ 1024 &&
  (if k = 0 then fld x 24 16 == 0 && fld x 40 32 == 0
   else 1 ≤ fld x 24 16 && fld x 24 16 ≤ 256 && 1 ≤ fld x 40 32 && fld x 40 32 ≤ 256)
def limBase (x : W64) : Nat := fld x.toNat 20 0
def limSize (x : W64) : Nat := fld x.toNat 52 32
/-- R355: the limits of the boundary-limit register. -/
def limOk (x : Nat) : Bool := fld x 31 21 == 0 && fld x 63 53 == 0 && fld x 20 0 % 256 == 0 && fld x 52 32 % 256 == 0
def bdNo (x : Opnd) : Nat := match x with | .bd n => n.toNat | _ => 0
def chNo (x : Opnd) : Nat := match x with | .imm i => i.toNat | _ => 0

def execCbnd (p : P) (s : State) : Out :=
  onceE p s true (fun gid g =>
    fin (updB s g.block (fun b => { b with ch := (match p.b.opnd with
      | .s n => mset b.ch (chNo p.a) (rdSn g n.toNat % 2 ^ 32) | _ => mdel b.ch (chNo p.a)) })) gid p true)
def execCmodSet (p : P) (s : State) : Out :=
  onceE p s false (fun gid g =>
    let k := match p.d with | .other x => bdNo x | _ => 0
    let x := rdSn g (sNum p.a)
    if bdOk k x then fin (updB s g.block (fun b => { b with bd := mput (bdInit k) b.bd k (BitVec.ofNat 64 x) })) gid p false
    else trapIllegal s gid .cmodSet p)
def execCmodGet (p : P) (s : State) : Out :=
  onceE p s false (fun gid g => withB s g (fun b => finS s gid p false (bdOf b (bdNo p.a)).toNat))
def execCblim (p : P) (s : State) : Out :=
  onceE p s true (fun gid g =>
    let x := rdSn g (sNum p.a)
    if limOk x then fin (updB s g.block (fun b => { b with blim := BitVec.ofNat 64 x })) gid p true
    else trapIllegal s gid .cblim p)

/-! ### Acceptance (R362, R370) -/

def rwBatch (w : Nat) : Nat := fld w 15 0
def rwSteps (w : Nat) : Nat := fld w 19 16
def rwFmt (w : Nat) : Nat := fld w 23 20
def rwOk (single : Bool) (w : Nat) : Bool :=
  w < 2 ^ 24 && rwBatch w != 0 && (if single then rwSteps w == 0 else rwSteps w != 0) && rwFmt w ≤ 1
/-- The number of step records of a run. -/
def nSteps (single : Bool) (w : Nat) : Nat := if single then 1 else rwSteps w
def chainRun (p : P) (s : State) (o : Op) (single : Bool) : Out :=
  withG s (fun gid _ g =>
    if !elects g p.h then fin s gid p true
    else if 16 ≤ (channelOf s 4 (gPair g) (gCtx s g)).length then stall s gid 9
    else withSp s gid g (fun s b =>
      let w := rdSn g (sNum p.b.opnd)
      let base := rdSn g (sNum p.a)
      let off : Int := (base % 2 ^ 32 : Nat) + p.off
      if !rwOk single w then trapIllegal s gid o p
      else if off % 32 != 0 then raise s gid 0x11 allLanes (detMem (wrap 64 off) 0 6 false 0 0)
      else if 2 ^ 32 ≤ base || off < 0 || (b.size : Int) < off + 32 * (nSteps single w : Nat) || b.size < limBase b.blim + 2 * limSize b.blim then
        raise s gid 0x12 allLanes (detMem (wrap 64 off) 0 6 false 0 0)
      else match mfind b.ch p.chain with
        | none => raise s gid 0x2A allLanes (detHandle (2 ^ 32 - 1) 0 0 0 0 p.chain 0)
        | some id =>
          let k := EK.chain single off.toNat w (if single then p.f else 0) p.chain id ((List.range 16).map (bdOf b)) b.blim
          fin (issueOp (flushReds s gid g) gid g p k true).1 gid p true))
def execCrun (p : P) (s : State) : Out := chainRun p s .crun false
def execCstp (p : P) (s : State) : Out := chainRun p s .cstp true

/-! ### Sizes and checks (R356 to R359) -/

/-- A run as its operation holds it. -/
structure Run where
  single : Bool
  base : Nat
  word : Nat
  half : Nat
  handle : Nat
  chain : Nat
  bds : List W64
  lim : W64
  deriving DecidableEq, Repr
def runOf (o : EOp) : Option Run :=
  match o.kind with
  | .chain si ba w h hd c bd l => some { single := si, base := ba, word := w, half := h, handle := hd, chain := c, bds := bd, lim := l }
  | _ => none
def Run.r (x : Run) (k : Nat) : Nat := bdR (x.bds.getD k 0)
def Run.m (x : Run) (k : Nat) : Nat := bdM (x.bds.getD k 0)
def Run.p (x : Run) (k : Nat) : Nat := bdP (x.bds.getD k 0)
def prodNat (l : List Nat) : Nat := l.foldl (· * ·) 1
/-- The products of m over a to b and of p over a to b. -/
def Run.ms (x : Run) (a b : Nat) : Nat := prodNat ((rng a (b + 1 - a)).map x.m)
def Run.ps (x : Run) (a b : Nat) : Nat := prodNat ((rng a (b + 1 - a)).map x.p)
def Run.steps (x : Run) : Nat := nSteps x.single x.word
/-- R358: the step records of a run in scratchpad, and record s of them. -/
def Run.program (x : Run) (b : Block) : List Nat := (List.range x.steps).map (fun s => spRead b (x.base + 32 * s) 32)
def recAt (prog : List Nat) (s : Nat) : Nat := prog.getD s 0
def srFactor (r : Nat) : Nat := fld r 3 0
def srFmt (r : Nat) : Nat := fld r 15 8
def srProm (r : Nat) : Nat := let p := fld r 21 16; if p = 0 then 64 else p
def srDirect (r : Nat) : Bool := bitAt r 31
def srDest (r : Nat) : Nat := fld r 52 32
def srAlpha (r : Nat) : Nat := fld r 95 64
def outB (f : Nat) : Nat := if f = 0x20 then 4 else 2
/-- R357: bytes of the boundary before step k, and of its output. -/
def Run.inSize (x : Run) (d k : Nat) : Nat := rwBatch x.word * x.r (k - 1) * x.ms k d * x.ps 1 (k - 1) * 2
def Run.outSize (x : Run) (d k f : Nat) : Nat := rwBatch x.word * x.r k * x.ms (k + 1) d * x.ps 1 k * outB f
/-- R365. -/
def detChain (x : Run) (step factor reason size : Nat) : Nat :=
  mkRec [(31, 0, x.chain), (35, 32, step), (39, 36, factor), (42, 40, reason), (95, 48, min size (2 ^ 48 - 1)), (127, 96, limSize x.lim)]

/-- The chain record's fields (R352). -/
def crTensor (c : Nat) : Nat := fld c 31 0
def crCount (c : Nat) : Nat := fld c 35 32
def crRow (c k : Nat) : Nat := fld c (64 + 32 * (k - 1) + 15) (64 + 32 * (k - 1))
def crCol (c k : Nat) : Nat := fld c (64 + 32 * (k - 1) + 31) (64 + 32 * (k - 1) + 16)

/-- R357: the first size, in step order, that exceeds BLimit: step, factor, size. -/
def runOver (x : Run) (prog : List Nat) (c : Nat) : Option (Nat × Nat × Nat) :=
  let d := if 1 ≤ crCount c then crCount c else 15
  let lim := limSize x.lim
  let k0 := srFactor (recAt prog 0)
  let first := if k0 != 0 && lim < x.inSize d k0 then some (0, k0, x.inSize d k0) else none
  first.orElse (fun _ => (List.range x.steps).findSome? (fun s =>
    let r := recAt prog s
    let k := srFactor r
    if k = 0 || (s + 1 = x.steps && srDirect r) then none
    else if lim < x.outSize d k (srFmt r) then some (s, k, x.outSize d k (srFmt r)) else none))
/-- R359: the first failure of the program: reason, step. -/
def runBad (s : State) (part : Nat) (x : Run) (size : Nat) (prog : List Nat) (c : Nat) : Option (Nat × Nat) :=
  let n := x.steps
  let at_ := fun (reason : Nat) (f : Nat → Nat → Bool) => ((List.range n).find? (fun i => f i (recAt prog i))).map (fun i => (reason, i))
  let d := crCount c
  let recBad := d = 0 || fld c 63 36 != 0 || fld c 1023 544 != 0 ||
    (match dirRec s part (crTensor c) with | some r => dtAppend r | none => true)
  let hs := limBase x.lim
  let he := hs + 2 * limSize x.lim
  if recBad then some (0, 0)
  else (at_ 2 (fun i r => !x.single && srFactor r != srFactor (recAt prog 0) + i)).orElse (fun _ =>
    (at_ 3 (fun _ r => srFactor r = 0 || d < srFactor r)).orElse (fun _ =>
    (at_ 4 (fun _ r => !(srFmt r == 0x00 || srFmt r == 0x01 || srFmt r == 0x20))).orElse (fun _ =>
    (at_ 5 (fun i r => i + 1 != n && (srFmt r == 0x20 || srDirect r))).orElse (fun _ =>
    (at_ 6 (fun _ r => fld r 7 4 != 0 || fld r 30 22 != 0 || fld r 63 53 != 0 || fld r 255 96 != 0)).orElse (fun _ =>
    (at_ 7 (fun _ r => srDirect r && (let o := x.outSize d (srFactor r) (srFmt r)
      size < srDest r + o || (srDest r < he && hs < srDest r + o)))))))))

/-- R230, R300: a poisoned granule in a range of the scratchpad that an engine reads. -/
def spFault (b : Block) (o n : Nat) : Option XRes :=
  if spPoison b o n then some (.fault 0x41 allLanes (detMem o 0 6 false 2 0)) else none
/-- R162, R352: the chain record of a run, read by the engine; or what stopped the read. -/
def chainRec (s : State) (o : EOp) (chain : Nat) : State × Except XRes Nat :=
  let vas := (List.range 4).map (fun i => 128 * chain + 32 * i)
  let t := framesOf s o.core o.ctx (opExts s o) 0 vas
  match t.2.2 with
  | some (va, .forbid k) => (t.1, .error (.freeze k va))
  | some _ => (t.1, .error .wait)
  | none =>
    let s := countVas (vas.foldl (fun s a => eccTouch s (granOf (inFrames t.2.1 a))) t.1) o t.2.1 vas
    let s := missVas s o t.2.1 ((List.range 128).map (128 * chain + ·))
    let bs := engReadN s o.pair (inFrames t.2.1 (128 * chain)) 128
    match (List.range 4).find? (fun i => (bs.getD (32 * i) (0, false)).2) with
    | some i =>
      let pa := inFrames t.2.1 (128 * chain + 32 * i)
      (s, .error (.fault 0x41 allLanes (detMem (128 * chain + 32 * i) 0 6 false (poisonLevel s o.pair pa) (pa / 32 * 32))))
    | none => (s, .ok (ofBytes (bs.map (·.1))))
/-- R362: a run whose checks meet poison is Held; it is checked again when it resumes. -/
def headFault (s : State) (id code lanes detail : Nat) : State := updOp (opFault s id code lanes detail) id (fun o => { o with step := 16 })
/-- R362: a run at its channel's head: the acquire flag, the record and the program, the checks; then step 0, or for a run that was
frozen in a step that step: R76 lets it keep its state, and R362 has no row for it, DESIGN CHOICE (assumption log 117). -/
def execChainChannelHead (id : Nat) (s : State) : Out :=
  match mfind s.ops id with
  | none => .next s
  | some o =>
    match runOf o with
    | none => .next s
    | some x =>
      if o.st != .queued || opBlocked s id o then .next s
      else
        let s := if o.order = 1 || o.order = 3 then acquireAt s o.pair o.scope else s
        let r := chainRec s o x.chain
        let b := opBlock r.1 o
        match r.2, spFault b x.base (32 * x.steps) with
        | .error (.fault c l d), _ => .next (headFault r.1 id c l d)
        | .error (.freeze k va), _ => .next (opFreeze r.1 id k va)
        | .error _, _ => .next r.1
        | .ok _, some (.fault c l d) => .next (headFault r.1 id c l d)
        | .ok c, _ =>
          let prog := x.program b
          match runOver x prog c with
          | some (st, k, size) => .next (opFault r.1 id 0x31 allLanes (detChain x st k 0 size))
          | none =>
            match runBad r.1 (o.ctx / 64) x b.size prog c with
            | some (reason, st) => .next (opFault r.1 id 0x32 allLanes (detChain x st (srFactor (recAt prog st)) reason 0))
            | none => .next (updOp r.1 id (fun o => { o with st := .stepping, step := if o.step < x.steps then o.step else 0, prog := c :: prog }))

/-! ### A step (R356, R360, R361) -/

/-- The offset of half i. -/
def Run.halfAt (x : Run) (i : Nat) : Nat := limBase x.lim + (i % 2) * limSize x.lim
/-- Source and destination halves of step s. -/
def Run.src (x : Run) (s : Nat) : Nat := x.halfAt (if x.single then x.half else s)
def Run.dst (x : Run) (s : Nat) : Nat := x.halfAt (if x.single then 1 - x.half else s + 1)
/-- The boundary format that step s reads. -/
def Run.inFmt (x : Run) (prog : List Nat) (s : Nat) : Fmt :=
  if (if s = 0 then rwFmt x.word else srFmt (recAt prog (s - 1))) = 0 then bf16 else f16
/-- R360: where output element (ρ, ν) of factor k goes. -/
def Run.place (x : Run) (d k rho nu : Nat) : Nat :=
  let mi := x.ms (k + 1) d
  let pj := x.ps 1 (k - 1)
  let i := rho % mi
  let j := rho / mi % pj
  let be := rho / mi / pj
  nu % x.r k + x.r k * (i + mi * (j + pj * (nu / x.r k + x.p k * be)))
/-- R360: one output element from its row of the boundary and its column of the factor. -/
def chainEl (a : Nat → FV) (f : Opd) (kk nu pr chunks : Nat) (alpha : Nat) (out : Nat) : Nat :=
  let x := (List.range chunks).foldl (fun (x : Cell) c =>
    let kc := min 128 (kk - 128 * c)
    cellRun 1 kc pr (fun k => a (128 * c + k)) (fun k => f.val (128 * c + k) nu) 0 kc { x with w := .fin false 0 0 })
    { w := .fin false 0 0, q := 0, st := 0 }
  let y := mulV (decodeF f32 (readout x.q x.st)) (decodeF f32 alpha)
  roundF (match out with | 0 => bf16 | 1 => f16 | _ => f32) 0 false y
/-- The folios of a factor, in ascending row and then column. -/
def factorFolios (x : Run) (c k : Nat) : List (Nat × Nat) :=
  (List.range (ceilDiv (x.r (k - 1) * x.m k) 64)).flatMap (fun i =>
    (List.range (ceilDiv (x.p k * x.r k) 64)).map (fun j => (crRow c k + i, crCol c k + j)))
/-- The whole of a step: the bytes it writes, or what stops it. -/
def chainStep (s : State) (id : Nat) (o : EOp) (x : Run) : State × Except XRes (Nat × List Byte) :=
  let opc := if x.single then 0xD3 else 0xD2
  let part := o.ctx / 64
  let c := o.prog.headD 0
  let prog := o.prog.tail
  let b := opBlock s o
  let sr := recAt prog o.step
  let k := srFactor sr
  let d := crCount c
  let t := crTensor c
  let fmt := match dirRec s part t with | some q => dtFmt q | none => 0
  let ff := factorFolios x c k
  let found : State × Except FolR (List (Nat × Nat)) :=
    if isAppend s part t then
      (s, .error (.fault 0x22 (folDetail t (ff.headD (0, 0)).1 (ff.headD (0, 0)).2 0 1 0 7 0 1 0 0 0 opc)))
    else findFolios s id part t 1 opc ff
  let q : State × Except FolR (List StFolio) := match found with
    | (s, .error e) => (s, .error e)
    | (s, .ok ks) => loadFolios s o.pair ks
  match q.2, spFault b (x.src o.step) (x.inSize d k) with
  | .error (.freeze n va), _ => (q.1, .error (.freeze n va))
  | .error (.fault n det), _ => (q.1, .error (.fault n allLanes det))
  | .error _, _ => (q.1, .error .wait)
  | .ok _, some e => (q.1, .error e)
  | .ok fs, none =>
      let kk := x.r (k - 1) * x.m k
      let nn := x.p k * x.r k
      let nr := ceilDiv kk 64
      let nc := ceilDiv nn 64
      let desc : Desc := Desc.mk fmt kk (64 * nc) 1 false 0 0 0 0 0 0 0
      let o1 := { o with lgs := captured q.1 o }
      -- R360: the matrix operations of the first row tile in array order, each with its chunk's folios at the ports
      let err := ((List.range (ceilDiv nc 4)).flatMap (fun ct => (List.range (ceilDiv nr 2)).map (fun ch => (ct, ch)))).findSome? (fun y =>
        let rs := (rng (2 * y.2) 2).filter (· < nr)
        let cs := (rng (4 * y.1) 4).filter (· < nc)
        firstErr (opdTiles q.1 o1 b { desc with rows := 64 * rs.length, cols := 64 * cs.length } 1 opc
          (rs.flatMap (fun i => cs.filterMap (fun j => fs[i * nc + j]?)))).2)
      match err with
      | some e => (q.1, .error (.fault e.code allLanes e.det))
      | none =>
        let tiles := (opdTiles q.1 o1 b { desc with rows := 64 * nr } 1 opc fs).1
        let f : Opd := { d := desc, part := 1, tiles := tiles }
        let rows := rwBatch x.word * x.ps 1 (k - 1) * x.ms (k + 1) d
        let src := x.src o.step
        let fi := x.inFmt prog o.step
        let w := outB (srFmt sr)
        let vals := (List.range rows).flatMap (fun rho => (List.range nn).map (fun nu =>
          (x.place d k rho nu,
           chainEl (fun kp => decodeF fi (spRead b (src + 2 * (rho * kk + kp)) 2)) f kk nu (srProm sr) (ceilDiv kk 128) (srAlpha sr) (srFmt sr))))
        let out := vals.foldl (fun (m : AMap Nat) v => mset m v.1 v.2) []
        (q.1, .ok (if srDirect sr then srDest sr else x.dst o.step, out.flatMap (fun v => toBytes w v.2)))
/-- R404: what a step adds to the counters: its K-steps in each array, one product each (R24), and the symbols of its factor. -/
def countStep (s : State) (o : EOp) (x : Run) : State :=
  let c := o.prog.headD 0
  let k := srFactor (recAt o.prog.tail o.step)
  let rows := rwBatch x.word * x.ps 1 (k - 1) * x.ms (k + 1) (crCount c)
  let part := o.ctx / 64
  bumpCtr (bumpCtr s part 0x05 (ceilDiv rows 128 * (x.r (k - 1) * x.m k) * ceilDiv (x.p k * x.r k) 128))
    part 0x09 ((factorFolios x c k).length * tileSyms (tensorFmt s part (crTensor c)))
/-- R362: a step is done; the run goes on or is ready to retire. -/
def execChainStepDone (id : Nat) (s : State) : Out :=
  match mfind s.ops id with
  | none => .next s
  | some o =>
    match runOf o with
    | none => .next s
    | some x =>
      if o.st != .stepping then .next s
      else
        let r := chainStep s id o x
        match r.2 with
        | .error _ => .next s
        | .ok (at_, l) =>
          let s := bcWake (updB (unregister r.1 id) o.block (fun b => spClear (spPuts b at_ l) [(at_, l.length)])) o.block
          .next (updOp (countStep s o x) id (fun o => if o.step + 1 < x.steps then { o with step := o.step + 1 } else { o with st := .done }))
/-- R362: a step that is abandoned leaves its destination partly written. How much of it and with what the spec does not say:
every byte of it takes a free value (assumption log 103). -/
def chainTorn (s : State) (o : EOp) (x : Run) : State :=
  let sr := recAt o.prog.tail o.step
  let at_ := if srDirect sr then srDest sr else x.dst o.step
  let n := x.outSize (crCount (o.prog.headD 0)) (srFactor sr) (srFmt sr)
  bcWake (updB { s with free := s.free + 1 } o.block (fun b =>
    spPuts b at_ ((List.range n).map (fun i => Config.freeByte s.free (at_ + i))))) o.block
/-- R362: a step meets a fault or a violation: the run is held at the step. What a lookup finds comes before the step's first
write. -/
def execChainStepFault (id : Nat) (s : State) : Out :=
  match mfind s.ops id with
  | none => .next s
  | some o =>
    match runOf o with
    | none => .next s
    | some x =>
      if o.st != .stepping then .next s
      else
        let r := chainStep s id o x
        match r.2 with
        | .error (.fault c l d) => .next (opFault (if c = 0x22 then r.1 else chainTorn r.1 o x) id c l d)
        | .error (.freeze k va) => .next (opFreeze r.1 id k va)
        | _ => .next s
/-- R362: the release flag, then the batch. -/
def execChainRetire (id : Nat) (s : State) : Out :=
  match mfind s.ops id with
  | none => .next s
  | some o =>
    if o.kind.cls == 4 && o.st == .done then
      let rel := o.order = 2 || o.order = 3
      let s := if rel then releasePair s o.pair o.scope else s
      if rel && o.scope == 3 && unackedFlows s (o.ctx / 64) then .next s
      else .next (removeOp (unregister s id) id)
    else .next s
/-- R362: what frel.res makes of an operation that its fault stopped: a held run goes on at its step, or for 0x31 takes a new
snapshot and is checked again; any other operation replays from its start. -/
def replayOp (s : State) (o : EOp) : EOp :=
  match o.kind, o.flt with
  | .chain si ba w h hd c _ _, some (0x31, _, _) =>
    let b := opBlock s o
    { o with st := .queued, flt := none, step := 0,
             kind := .chain si ba w h hd ((mfind b.ch hd).getD c) ((List.range 16).map (bdOf b)) b.blim }
  | .chain .., _ => if o.step = 16 then { o with st := .queued, flt := none, step := 0 } else { o with st := .stepping, flt := none }
  | _, _ => { o with st := .queued, flt := none }

end Sys2Proof.Machine
end

