-- ==== Sys2Proof/Machine/Control.lean ====
section
/-! DEFINITION. Divergence and control transfer: bra, brx, call, ret, jmp, join, exit, nop (R106, R145 to R151). -/

namespace Sys2Proof.Machine

/-- R151: a transfer to an address; it ends a burst (R46) and leaves its kind for sampling (R399), none for a jmp. -/
def transfer (g : Group) (cycle : Nat) (p : P) (kind : Option Nat) (a : Nat) : Group :=
  { goTo (hintG g cycle p.h) a with last := kind.getD g.last, burst := 0 }
def goTransfer (s : State) (gid : Nat) (p : P) (kind : Option Nat) (f : Group → Group) (a : Nat) : Out :=
  .next (updG s gid (fun g => transfer (f g) s.cycle p kind a))

/-- R145: PushPending. -/
def pushPending (st : List DEntry) (a : Nat) (j : Option Nat) (m : Lanes) : List DEntry :=
  match st with
  | top :: rest =>
    if top.pending && top.a == a && top.j == j then { top with m := top.m ||| m } :: rest
    else { pending := true, a := a, j := j, m := m } :: st
  | [] => [{ pending := true, a := a, j := j, m := m }]
/-- R146, R147: the join that the extension names, none for 0. -/
def joinAddr (p : P) (pc : Nat) : Option Nat := if p.ext = 0 then none else some (branchTarget pc p.off)

def execBra (p : P) (s : State) : Out :=
  withG s (fun gid _ g =>
    let t := guardLanes g p.h
    let tgt := branchTarget g.pc p.b.bits.toInt
    if t = g.e then goTransfer s gid p (some 1) id tgt
    else if t = 0 then fin s gid p false
    else goTransfer s gid p (some 1)
      (fun g => { g with stack := pushPending g.stack (nextPc g.pc) (joinAddr p g.pc) (g.e &&& ~~~t), e := t }) tgt)

/-- R147: the offset of a lane. -/
def brxOff (g : Group) (x : Opnd) (lane : Nat) : Int :=
  match x with | .v n => (rdV g n.toNat lane).toInt | .s n => toSigned 32 (rdSn g n.toNat) | _ => 0
def execBrx (p : P) (s : State) : Out :=
  withG s (fun gid _ g =>
    let t := guardLanes g p.h
    if t = 0 then fin s gid p false
    else
      let tgt := fun i => branchTarget g.pc (brxOff g p.a i)
      let a := tgt (lowLane t)
      let m := laneSet ((lanesOf t).filter (fun i => tgt i == a))
      goTransfer s gid p (some 1)
        (fun g => if m = g.e then g else
          { g with stack := pushPending g.stack g.pc (joinAddr p g.pc) (g.e &&& ~~~m), e := m }) a)

def execCall (p : P) (s : State) : Out :=
  withG s (fun gid _ g =>
    if actsOnce g p.h then
      goTransfer s gid p (some 2) (fun g => match dstS p.d with | some n => wrSn g n (nextPc g.pc) | none => g)
        (branchTarget g.pc p.imm32.toInt)
    else fin s gid p false)

/-- jmp and ret (R150); a target that is no instruction address raises trap 0x05 (R50). -/
def jumpTo (p : P) (s : State) (kind : Option Nat) : Out :=
  withG s (fun gid _ g =>
    if actsOnce g p.h then
      let a := rdSn g (sNum p.a)
      if isInstrAddr a then goTransfer s gid p kind id a else raise s gid 0x05 allLanes a
    else fin s gid p false)
def execRet (p : P) (s : State) : Out := jumpTo p s (some 3)
def execJmp (p : P) (s : State) : Out := jumpTo p s none

/-- R148: what a join at an address does: the stack and E after it, and where a switch goes. -/
def joinRun (here : Nat) (st : List DEntry) (e : Lanes) : List DEntry × Lanes × Option Nat :=
  match st with
  | top :: rest =>
    if top.j == some here then
      if top.pending then
        (if top.m ≠ 0 then ({ pending := false, a := here, j := some here, m := e } :: rest, top.m, some top.a)
         else (rest, e, none))
      else joinRun here rest (e ||| top.m)
    else (st, e, none)
  | [] => ([], e, none)
/-- R148: the guard of a join has no effect. -/
def execJoin (p : P) (s : State) : Out :=
  withG s (fun gid _ g =>
    let r := joinRun g.pc g.stack g.e
    let f := fun (g : Group) => { g with stack := r.1, e := r.2.1 }
    match r.2.2 with
    | some a => goTransfer s gid p none f a
    | none => .next (updG (advance s gid p false) gid f))

/-- R118: the token of a block, released when its holder leaves. -/
def dropToken (s : State) (b num : Nat) : State :=
  updB s b (fun k => if k.token == some num then { k with token := none } else k)
/-- R106: the uniform form ends all lanes. -/
def execExit (p : P) (s : State) : Out :=
  withG s (fun gid _ g =>
    let leaving : Lanes := if p.h.uni then (if rdK g p.h.guard.toNat != p.h.neg then BitVec.allOnes 32 else 0) else guardLanes g p.h
    let act := g.active &&& ~~~leaving
    let e := g.e &&& ~~~leaving
    if leaving = 0 then fin s gid p false
    else if act = 0 then
      let s := updG s gid (fun g => { hintG g s.cycle p.h with active := 0, e := 0, st := .exiting })
      .next (exitCheck (barExit (dropToken s g.block g.num) g.block) gid)
    else if e ≠ 0 then .next (updG (advance s gid p false) gid (fun g => { g with active := act, e := e }))
    else match refill g.stack with
      | some (st, m, a) => goTransfer s gid p none (fun g => { g with active := act, e := m, stack := st }) a
      | none => .next (updG (advance s gid p false) gid (fun g => { g with active := act, e := 0 })))

/-- nop has no effect but its issue. -/
def execNop (p : P) (s : State) : Out := withG s (fun gid _ _ => fin s gid p false)

end Sys2Proof.Machine
end

