-- ==== Sys2Proof/Machine/Float.lean ====
section
/-! DEFINITION. Floating instructions, SFU functions, conversions and packed dot products, opcodes 0x30 to 0x54 (R30 to
R36, R136 to R144). -/

namespace Sys2Proof.Machine

def execFadd (p : P) (s : State) : Out := fltOp p s (fun a b _ => addV a b p.rnd)
def execFsub (p : P) (s : State) : Out := fltOp p s (fun a b _ => addV a (negV b) p.rnd)
def execFmul (p : P) (s : State) : Out := fltOp p s (fun a b _ => mulV a b)
/-- One rounding of a × b + d. -/
def execFfma (p : P) (s : State) : Out := fltOp p s (fun a b d => addV (mulV a b) d p.rnd)
def execFmin (p : P) (s : State) : Out := fltPat p s false (fun f a b => minMaxF f false a b)
def execFmax (p : P) (s : State) : Out := fltPat p s false (fun f a b => minMaxF f true a b)

/-- One floating source, element by element, on patterns. -/
def fltUn (p : P) (s : State) (sfu : Bool) (f : Fmt → Nat → Nat) : Out :=
  aluRun p s sfu true [p.a] p.t (is64 p.t) false (fun _ _ src =>
    { val := mapElems (tyW p.t) (elemN p.t) (fun e => f (fmtOf p.t) (elem (tyW p.t) e (src p.t p.a))) })
/-- R30, R136: a NaN gives the canonical NaN; otherwise the sign bit is cleared or inverted. -/
def fabsE (f : Fmt) (a : Nat) : Nat := if (decodeF f a).isNan then f.nan else a % 2 ^ (f.eb + f.mb)
def fnegE (f : Fmt) (a : Nat) : Nat := if (decodeF f a).isNan then f.nan else a ^^^ 2 ^ (f.eb + f.mb)
def execFabs (p : P) (s : State) : Out := fltUn p s false fabsE
def execFneg (p : P) (s : State) : Out := fltUn p s false fnegE
/-- R137: element 0 decides. -/
def execFsetp (p : P) (s : State) : Out := setpOp p s
def execFset (p : P) (s : State) : Out := aluOp p s false p.t p.t p.t p.t (fun a b _ => setPat p.t p.f a b)
def execFclass (p : P) (s : State) : Out := fltUn p s false classF
def execFrnd (p : P) (s : State) : Out := fltUn p s false (fun f a => roundIntegral f p.rnd a)

/-- R138: an SFU function by its number from opcode 0x3C. -/
def sfuOp (p : P) (s : State) (fn : Nat) : Out := fltUn p s true (fun f a => sfuF fn f p.rnd a)
def execRcp (p : P) (s : State) : Out := sfuOp p s 0
def execRsqrt (p : P) (s : State) : Out := sfuOp p s 1
def execSqrt (p : P) (s : State) : Out := sfuOp p s 2
def execEx2 (p : P) (s : State) : Out := sfuOp p s 3
def execLog2 (p : P) (s : State) : Out := sfuOp p s 4
def execSin (p : P) (s : State) : Out := sfuOp p s 5
def execCos (p : P) (s : State) : Out := sfuOp p s 6
def execTanh (p : P) (s : State) : Out := sfuOp p s 7

/-! ### Conversions (R139 to R143) -/

/-- The exact value of an element of a type. -/
def valTy (t x : Nat) : FV := if isInt t then ofInt (rdInt (tySigned t) (tyW t) x) else decodeF (fmtOf t) (x % 2 ^ tyW t)
/-- The pattern of a value in a type (R35, R36). -/
def convTo (t mode : Nat) (sat : Bool) (x : FV) : Nat :=
  if isInt t then wrap (tyW t) (toIntTy mode (tySigned t) (tyW t) x) else roundF (fmtOf t) mode sat x
/-- R142: a value times 2^k. -/
def cvtsScale (x : FV) (k : Int) : FV := match x with | .fin n m e => .fin n m (e + k) | v => v

/-- R139: function field the destination type, type field the source type. -/
def execCvt (p : P) (s : State) : Out :=
  unOp p s p.f (fun a => convTo p.f p.rnd p.sat (valTy p.t a))

/-- R140: the narrow formats by code. -/
def narrowVal (c x : Nat) : FV :=
  match c with
  | 0 => decodeF e3m2 (x % 64) | 1 => decodeF e2m3 (x % 64) | 2 => decodeF e2m1 (x % 16)
  | 3 => decodeE8M0 x | _ => decodeUE4M3 (x % 256)
def narrowOf (c mode : Nat) (sat : Bool) (x : FV) : Nat :=
  match c with
  | 0 => roundF e3m2 mode sat x | 1 => roundF e2m3 mode sat x | 2 => roundF e2m1 mode sat x
  | 3 => toE8M0 mode x | _ => toUE4M3 mode x
def execCvtf (p : P) (s : State) : Out :=
  aluRun p s false true [p.a] 8 false false (fun _ _ src =>
    let a := match p.a with
      | .imm i => if p.f = 0 then src 8 p.a else narrowOf p.t 0 false (ofInt i.toInt)
      | _ => src 8 p.a
    { val := if p.f = 0 then narrowOf p.t p.rnd p.sat (decodeF f32 a) else roundF f32 0 false (narrowVal p.t a) })

/-- R141: integer to integer; a destination narrower than 32 bits is extended to 32. -/
def cvtiVal (d t : Nat) (sat : Bool) (a : Nat) : Nat :=
  let x := rdInt (tySigned t) (tyW t) a
  let y := if sat then satI (tySigned d) (tyW d) x else x
  wrap (patW d) (rdInt (tySigned d) (tyW d) (wrap (tyW d) y))
def execCvti (p : P) (s : State) : Out := unOp p s p.f (cvtiVal p.f p.t p.sat)

/-- R142: k read as a signed 32-bit value and clamped. -/
def execCvts (p : P) (s : State) : Out :=
  aluOp p s false p.t 2 p.t p.f (fun a b _ =>
    convTo p.f p.rnd p.sat (cvtsScale (valTy p.t a) (clampI (-512) 511 (toSigned 32 b))))

/-- R143: an element pair of D from two conversions. -/
def packVal (p : P) (a b d : Nat) : Nat :=
  let w := tyW p.t
  let cv := fun x => if isInt p.t then
      (let v := toSigned 32 x
       wrap w (if p.sat then satI (tySigned p.t) w v else v))
    else roundF (fmtOf p.t) p.rnd p.sat (decodeF f32 x)
  mapElems w (32 / w) (fun e => if e = 2 * p.f then cv a else if e = 2 * p.f + 1 then cv b else elem w e d)
def execPack (p : P) (s : State) : Out :=
  let ts := if isInt p.t then 2 else 8
  aluOp p s false ts ts 6 6 (packVal p)

/-! ### Immediates of binary32 -/

/-- R136: faddi and fmuli. -/
def fltImm (p : P) (s : State) (f : FV → FV → FV) : Out :=
  aluRun p s false true [p.a] 8 false false (fun _ _ src =>
    { val := fltRes 8 p.rnd p.sat (f (decodeF f32 (src 8 p.a)) (decodeF f32 p.imm32.toNat)) })
def execFaddi (p : P) (s : State) : Out := fltImm p s (fun a b => addV a b p.rnd)
def execFmuli (p : P) (s : State) : Out := fltImm p s mulV

/-! ### Packed dot products (R34, R144) -/

/-- R34: d + the exact sum of products of integers, clamped or reduced. -/
def dotInt (t n : Nat) (sat : Bool) (a b d : Nat) : Nat :=
  let w := tyW t
  let sg := tySigned t
  let x := (List.range n).foldl (fun r e => r + rdInt sg w (elem w e a) * rdInt sg w (elem w e b)) (rdInt sg 32 d)
  wrap 32 (if sat then satI sg 32 x else x)
/-- R34: the exact sum of n + 1 addends, NaN and infinities first, rounded once. A zero sum is the common zero when every
addend is a zero of one sign, otherwise +0, or −0 under RD. -/
def sumExact (mode : Nat) (xs : List FV) : FV :=
  if xs.any FV.isNan then .nan
  else if xs.any FV.isInf then xs.foldl (fun r x => if r.isNan then r else if x.isInf then (if r.isInf then addV r x mode else x) else r) (.fin false 0 0)
  else
    let e0 := xs.foldl (fun r x => match x with | .fin _ m e => if m = 0 then r else min r e | _ => r) (0 : Int)
    let tot : Int := xs.foldl (fun r x => match x with
      | .fin n m e => if m = 0 then r else r + (if n then -1 else 1) * ((m * 2 ^ (e - e0).toNat : Nat) : Int)
      | _ => r) 0
    if tot = 0 then
      (if xs.all (fun x => x.isZero && x.neg) then .fin true 0 0
       else if xs.all (fun x => x.isZero && !x.neg) then .fin false 0 0 else .fin (mode == 3) 0 0)
    else .fin (decide (tot < 0)) tot.natAbs e0
def dotFlt (f : Fmt) (n mode : Nat) (a b d : Nat) : Nat :=
  let w := f.width
  let ps := (List.range n).map (fun e => mulV (decodeF f (elem w e a)) (decodeF f (elem w e b)))
  roundF f32 mode false (sumExact mode (decodeF f32 d :: ps))
/-- A dot product: sources are read as packed 32-bit patterns whose immediates follow the element type. -/
def dotOp (p : P) (s : State) (te td : Nat) (f : Nat → Nat → Nat → Nat) : Out := aluOp p s false te te 6 td f
def execDot4 (p : P) (s : State) : Out := dotOp p s p.t (if p.t = 0 then 2 else 6) (dotInt p.t 4 p.sat)
def execDot8 (p : P) (s : State) : Out := dotOp p s p.t (if p.t = 14 then 2 else 6) (dotInt p.t 8 p.sat)
def execDot4f (p : P) (s : State) : Out := dotOp p s p.t 8 (dotFlt (fmtOf p.t) 4 p.rnd)
/-- R144: E2M1; an immediate is converted to E2M1 (R123). -/
def execDot8f (p : P) (s : State) : Out :=
  let imm := fun (x : Opnd) (y : Nat) => match x with
    | .imm i => replicate 4 8 (roundF e2m1 0 false (ofInt i.toInt)) | _ => y
  dotOp p s 6 8 (fun a b d => dotFlt e2m1 8 p.rnd (imm p.a a) (imm p.b.opnd b) d)
def execDot2h (p : P) (s : State) : Out := dotOp p s p.t 8 (dotFlt (fmtOf p.t) 2 p.rnd)

end Sys2Proof.Machine
end

