-- ==== Sys2Proof/Machine/Exchange.lean ====
section
/-! DEFINITION. Predicates, votes and exchange between lanes: plop, census, lmask, qxch, lperm, gred, gscan, match (R152 to
R157). -/

namespace Sys2Proof.Machine

/-- R152: in the uniform form index 7 reads as true. -/
def execPlop (p : P) (s : State) : Out :=
  withG s (fun gid _ g =>
    let a := predNo p.a
    let b := predNo p.b.opnd
    let d := dstPred p.d
    if p.h.uni then
      (if actsOnce g p.h then fin (updG s gid (fun g => wrPred g d 0 (plopFn p.f (rdPred g a 0) (rdPred g b 0)))) gid p false
       else fin s gid p false)
    else
      let ls := lanesOf (guardLanes g p.h)
      fin (updG s gid (fun g' => ls.foldl (fun g' i => wrPred g' d i (plopFn p.f (rdPred g a i) (rdPred g b i))) g')) gid p false)

/-- R153: the vote is written in the participating lanes, or once to a k predicate when a lane participates. -/
def execCensus (p : P) (s : State) : Out :=
  withG s (fun gid _ g =>
    let part := guardLanes g p.h
    let r := censusFn p.f part (predLanes g (predNo p.a))
    fin (updG s gid (fun g => (lanesOf part).foldl (fun g i => wrPred g (dstPred p.d) i r) g)) gid p false)

/-- R153: the mask of participating lanes whose predicate is true or false. With no participating lane a uniform D stays as it was:
DESIGN CHOICE (assumption log 114). -/
def execLmask (p : P) (s : State) : Out :=
  withG s (fun gid _ g =>
    let part := guardLanes g p.h
    let a := predLanes g (predNo p.a)
    let m := (if p.f = 0 then part &&& a else part &&& ~~~a).toNat
    let f := fun (g : Group) => match dstS p.d with
      | some n => if part = 0 then g else wrSn g n m
      | none => wrLanes g p.d false ((lanesOf part).map (fun i => (i, m)))
    fin (updG s gid f) gid p false)

/-- R154: the source lane; none keeps the lane's own value. -/
def qxchLane (f lane : Nat) : Nat := if f < 3 then lane ^^^ (f + 1) else lane / 4 * 4 + (f - 4)
def lpermLane (f lane b : Nat) : Nat :=
  match f with
  | 0 => b % 32
  | 1 => (lane + b % 32) % 32
  | 2 => lane ^^^ (b % 32)
  | _ =>
    let t : Int := (lane : Int) + toSigned 6 b
    if 0 ≤ t ∧ t < 32 then t.toNat else lane
/-- A of any lane, executing or not (R154). -/
def laneA (s : State) (g : Group) (x : Opnd) (lane : Nat) : Nat := srcPat s g (gConsts s g) 0 6 x lane
def execQxch (p : P) (s : State) : Out :=
  aluRun p s false true [] 6 false false (fun g i _ => { val := laneA s g p.a (qxchLane p.f i) })
def execLperm (p : P) (s : State) : Out :=
  aluRun p s false true [p.b.opnd] 6 false false (fun g i src => { val := laneA s g p.a (lpermLane p.f i (src 6 p.b.opnd)) })
/-- R157: the participating lanes whose A equals the lane's own. -/
def execMatchv (p : P) (s : State) : Out :=
  aluRun p s false true [] 6 false false (fun g i _ =>
    { val := (laneSet ((lanesOf (guardLanes g p.h)).filter (fun j => laneA s g p.a j == laneA s g p.a i))).toNat })

/-! ### Reduction and scan (R155, R156) -/

/-- The combination of two 32-bit values, exact for integers until the end. -/
def redFn (f mode : Nat) (x y : Int) : Int :=
  let lift (h : Nat → Nat → Nat) : Int := (h x.toNat y.toNat : Nat)
  match f with
  | 0 => x + y
  | 1 => min x y
  | 2 => max x y
  | 3 => lift (· &&& ·)
  | 4 => lift (· ||| ·)
  | 5 => lift (· ^^^ ·)
  | 6 => lift (fun a b => roundF f32 mode false (addV (decodeF f32 a) (decodeF f32 b) mode))
  | 7 => lift (minMaxF f32 false)
  | _ => lift (minMaxF f32 true)
/-- A lane's value as the function reads it. -/
def redRead (f t x : Nat) : Int := if f ≤ 2 then rdInt (tySigned t) 32 x else (x : Int)
/-- The result as a pattern. -/
def redOut (t : Nat) (sat : Bool) (x : Int) : Nat := wrap 32 (if sat then satI (tySigned t) 32 x else x)
/-- One level of the tree: a lone member passes on unrounded (R155), a NaN with its payload also where it becomes the result: DESIGN
CHOICE between R155 and the canonical NaN of R30 (assumption log 115). -/
def treeLevel (h : Int → Int → Int) (l : List (Option Int)) : List (Option Int) :=
  match l with
  | a :: b :: t => (match a, b with
      | some x, some y => some (h x y) | some x, none => some x | none, y => y) :: treeLevel h t
  | l => l
/-- Five levels over the 32 lanes. -/
def tree (h : Int → Int → Int) (l : List (Option Int)) : Int :=
  match (List.range 5).foldl (fun l _ => treeLevel h l) l with
  | some x :: _ => x
  | _ => 0

/-- R155: every function is folded by the tree; all but .fadd are associative. -/
def gredVal (p : P) (part : Lanes) (a : Nat → Nat) : Nat :=
  redOut p.t p.sat (tree (redFn p.f p.rnd)
    ((List.range 32).map (fun i => if part.getLsbD i then some (redRead p.f p.t (a i)) else none)))
/-- R156: the identity of .exc. -/
def gscanId (f t : Nat) : Int :=
  match f with
  | 0 => 0
  | 1 => intMax (tySigned t) 32
  | 2 => intMin (tySigned t) 32
  | 3 => 0xFFFFFFFF
  | 4 => 0
  | 5 => 0
  | 6 => 0x80000000
  | 7 => 0x7F800000
  | _ => 0xFF800000
/-- R156: sequential combination of the lanes at or below, or strictly below. The first value passes on as it is, a NaN with its payload:
DESIGN CHOICE (assumption log 115). -/
def gscanVal (p : P) (part : Lanes) (a : Nat → Nat) (lane : Nat) : Nat :=
  let hi := if p.ext.getLsbD 0 then lane else lane + 1
  let xs := ((lanesOf part).filter (· < hi)).map (fun i => redRead p.f p.t (a i))
  redOut p.t p.sat (match xs with
    | [] => gscanId p.f p.t
    | x :: t => t.foldl (redFn p.f p.rnd) x)

/-- The two group-wide instructions read A of every participating lane on the pipe that issues. With no participating lane a uniform D
stays as it was: DESIGN CHOICE (assumption log 114). -/
def groupOp (p : P) (s : State) (f : Lanes → (Nat → Nat) → Nat → Nat) : Out :=
  withG s (fun gid busy g =>
    let cs := gConsts s g
    match pickPipe s gid busy g false [p.a] with
    | .wait r => stall s gid r
    | .stale l n => raise s gid 0x03 allLanes (l + 2 ^ 4 * n)
    | .pipe n =>
      let part := guardLanes g p.h
      let vs := (lanesOf part).map (fun i => (i, f part (fun j => srcPat s g cs n p.t p.a j) i))
      let s := issueOn s gid g n false p.h.keep 4
      let s := updG s gid (fun g => match dstS p.d, vs with
        | some k, r :: _ => wrSn g k (r.2 % 2 ^ 32)
        | some _, [] => g
        | none, _ => wrLanes g p.d false vs)
      fin (latchWrite s gid g n p.d.latchBits vs) gid p false)
def execGred (p : P) (s : State) : Out := groupOp p s (fun part a _ => gredVal p part a)
def execGscan (p : P) (s : State) : Out := groupOp p s (fun part a i => gscanVal p part a i)

end Sys2Proof.Machine
end

