-- ==== Sys2Proof/Machine/Issue.lean ====
section
/-! DEFINITION. What a held sector says of a group's next instruction (R48, R49, R151) and why a group that may issue does not
(R112, R114 to R116). -/

namespace Sys2Proof.Machine

/-- The base of the sector of an address. -/
def secBase (a : Nat) : Nat := a / 128 * 128
/-- R151: the sectors that a group may hold: the one of its pc and the next. -/
def heldOk (g : Group) (va : Nat) : Bool := va == secBase g.pc || va == (secBase g.pc + 128) % 2 ^ 64
/-- What the group holds of the sector of its pc. -/
def heldAt (g : Group) : Option FetchR := (g.sectors.find? (fun f => f.1 == secBase g.pc)).map (·.2)
/-- The instruction in a slot of a sector. -/
def slotWord (bits : BitVec 1024) (pc : Nat) : W96 := bits.extractLsb' (8 * (pc % 128)) 96
/-- R49: the trailer of a sector. -/
def trailer (bits : BitVec 1024) : Nat := (bits.extractLsb' 960 64).toNat
/-- R48: decoding of a fetched word in a group's kernel. -/
def groupDecode (s : State) (g : Group) (w : W96) : Except DecErr Instr :=
  decodeWord (8 * krChunks (gRecord s g)) (krTiles (gRecord s g)) w

/-! ### Registers that await a result (R115) -/

/-- The registers that await a result: vector registers, 1000 + uniform ones, 2000 + k predicates. -/
def pendRegs (g : Group) : List Nat :=
  g.pend.flatMap (fun q => q.dst ++ q.ws.map (fun w => match w with | .v n _ _ => n | .s n _ => 1000 + n | .k n _ => 2000 + n))
/-- The registers of an operand: w vector registers from its index, u uniform ones. -/
def opndRegs (x : Opnd) (w u : Nat) : List Nat :=
  match x with
  | .v n => rng n.toNat w
  | .s n => rng (1000 + n.toNat) u
  | .pred n => if 8 ≤ n.toNat then [2000 + n.toNat - 8] else []
  | _ => []
def dstRegs (d : Dst) (w u : Nat) : List Nat :=
  match d with
  | .v _ _ n => rng n.toNat w
  | .s _ _ n => rng (1000 + n.toNat) u
  | .other x => opndRegs x w u
/-- The uniform registers that an instruction takes at D, A and B: the windows of R265, the records of R290 and R256, identities
of 128 bits, values of 128 bits (R211), one otherwise. -/
def uniSpans (o : Op) (p : P) : Nat × Nat × Nat :=
  match o with
  | .xcpy | .xqnt | .xfil => (12, 1, 1)
  | .mma | .mmag | .mld => (1, 4, 1)
  | .fget => (4, 1, 1)
  | .spfx => (3, 2, 1)
  | .spin => (1, 1, 2)
  | .rdctr | .rdctrSel => (2, 1, 1)
  | .ld | .ldu | .lds => (if p.t = 8 then 2 else 1, 1, 1)
  | .st | .stu | .sts => (1, 1, if p.t = 8 then 2 else 1)
  | _ => (1, 1, 1)
/-- The predicates that an instruction names beside its operands: the k guard of a uniform form, the selector of sel (R132), the
carries of addc and subb (R134). -/
def predRegs (o : Op) (p : P) : List Nat :=
  (if p.h.uni then [2000 + p.h.guard.toNat] else []) ++
  (match o with
   | .sel => if p.h.uni then [2000 + p.f % 8] else if 8 ≤ p.f % 8 then [2000 + p.f % 8 - 8] else []
   | .addc | .subb => [carryIn p, carryOut p].filterMap (fun n => if 8 ≤ n then some (2000 + n - 8) else none)
   | _ => [])
/-- The registers that an instruction names. -/
def namedRegs (i : Instr) : List Nat :=
  match i.split with
  | none => []
  | some (o, p) =>
    let u := uniSpans o p
    dstRegs p.d (o.dRegs p) u.1 ++ opndRegs p.a (o.aRegs p) u.2.1 ++ opndRegs p.b.opnd (o.bRegs p) u.2.2 ++ predRegs o p
/-- R115: does an instruction name a register that awaits a split-phase result? -/
def waitsFor (g : Group) (i : Instr) : Bool := (pendRegs g).any (namedRegs i).contains
/-- R46: does it await a result of an instruction of the group's present burst? -/
def waitsInBurst (g : Group) (i : Instr) : Bool := (pendRegs { g with pend := g.pend.filter (·.burst) }).any (namedRegs i).contains

/-! ### Pipe classes and stall reasons (R112, R114, R116, R127) -/

/-- R127: the instructions of the SFU pipes. -/
def isSfu (o : Op) : Bool := [Op.rcp, .rsqrt, .sqrt, .ex2, .log2, .sin, .cos, .tanh, .div, .rem].contains o
/-- R127: the instructions of the ALU pipes. -/
def isAlu (o : Op) : Bool := o.row.maj < 0x58 || [Op.qxch, .lperm, .gred, .gscan, .matchv].contains o
/-- R185, R188, R226: a txend whose commit is still to come precedes in group order whatever the group accesses or makes visible next:
an instruction other than those of the ALU and SFU pipes waits for it. -/
def commitFirst (g : Group) (i : Instr) : Bool :=
  !g.commits.isEmpty && (match i.split with | some (o, _) => !(isSfu o || isAlu o) | none => false)
/-- The pipe class of an instruction: 0 ALU, 1 SFU, 2 memory, 3 uniform (R115, R127): uniform forms, predicate logic and control
transfers go to the uniform pipe. -/
def pipeClass (o : Op) (p : P) : Nat :=
  if p.h.uni then 3 else if isSfu o then 1 else if isAlu o then 0
  else if 0x58 ≤ o.row.maj && o.row.maj < 0x70 then 3 else 2
/-- R115: a group issues at most one instruction in a cycle; has it issued in this one? -/
def issuedNow (s : State) (g : Group) : Bool := g.lastIssue == s.cycle + 1
/-- R114: why an eligible group is not chosen: 4 when an instruction of another group's burst took a pipe of its class in this cycle,
14 otherwise. -/
def passedOver (s : State) (gid : Nat) (g : Group) (cls : Nat) : Nat :=
  if s.groups.any (fun x => x.1 != gid && x.2.resident && x.2.core == g.core && issuedNow s x.2 && x.2.burstPipe == some cls) then 4 else 14
/-- R114: why a group that may issue does not: its sector has not arrived, a split-phase result is awaited, its pipe is occupied or
kept, or it was not chosen. The pipes that other work occupied when it last tried stand for those of the cycles until it tries again
(assumption log 107). Codes 2 and 5 belong to pipe latencies and bank conflicts, which the model leaves out (assumption log 2). -/
def whyNot (s : State) (gid : Nat) (g : Group) : Nat :=
  match heldAt g with
  | none => 1
  | some (.ok bits) =>
    (match groupDecode s g (slotWord bits g.pc) with
     | .error _ => passedOver s gid g 3
     | .ok i =>
       if waitsFor g i then 3
       else if commitFirst g i then 9
       else match i.split with
         | some (o, p) =>
           if p.h.uni || !(isSfu o || isAlu o) then passedOver s gid g (pipeClass o p)
           else (match pickPipe s gid g.busy g (isSfu o) [p.a, p.b.opnd] with
             | .wait r => r
             | _ => passedOver s gid g (pipeClass o p))
         | none => passedOver s gid g 3)
  | some _ => passedOver s gid g 3
/-- R114, R116: a group that did not issue in k cycles, for a reason: it is Stalled, its waiting time and whether it was eligible
are kept, and a burst ends in the first cycle in which it was eligible (R46). -/
def notIssued (g : Group) (k r : Nat) : Group :=
  let el := r == 4 || r == 14
  { g with st := .stalled r, waited := g.waited + k, elig := g.elig || el, burst := if el then 0 else g.burst }
/-- R112, R114: a group after n cycles in which it issues nothing more; a reason that an attempt found stands until the next. -/
def restall (s : State) (n gid : Nat) (g : Group) : Group :=
  let k := if issuedNow s g then n - 1 else n
  if k = 0 || !g.resident then g else
  match g.st with
  | .ready => notIssued g k (whyNot s gid g)
  | .stalled r => notIssued g k (if [1, 3, 4, 6, 7, 8, 14].contains r then whyNot s gid g else r)
  | .sent _ => { g with waited := g.waited + k }
  | _ => g
/-- R114: the code of a group's state in this cycle. For one whose last lane has left while issued operations still retire the table has
no code: DESIGN CHOICE, 3 (assumption log 107). -/
def reasonOf (s : State) (gid : Nat) (g : Group) : Nat :=
  if issuedNow s g then 0 else
  match g.st with
  | .ready => whyNot s gid g
  | .stalled r => r
  | .sent _ => 3
  | .waiting (.bar _) => 11
  | .waiting (.bc _ _) => 12
  | .waiting _ => 13
  | .exiting => 3
  | _ => 15

end Sys2Proof.Machine
end

