-- ==== Sys2Proof/Machine/Kernel.lean ====
section
/-! DEFINITION. Kernels (R94 to R107): the launch record and its checks, translation, distribution, placement, retirement
and completion, and launch. -/

namespace Sys2Proof.Machine

/-! ### The launch record (R94) -/

def krEntry (r : Nat) : Nat := fld r 63 0
def krConstBase (r : Nat) : Nat := fld r 127 64
def krConstLen (r : Nat) : Nat := fld r 140 128
def krWays (r : Nat) : Nat := fld r 156 152
def krGroups (r : Nat) : Nat := fld r 165 160
def krGuided (r : Nat) : Bool := bitAt r 168
/-- Scratchpad bytes of a block. -/
def krShared (r : Nat) : Nat := 128 * fld r 191 176
def krX (r : Nat) : Nat := fld r 223 192
def krY (r : Nat) : Nat := fld r 255 224
def krZ (r : Nat) : Nat := fld r 287 256
def krIters (r : Nat) : Nat := fld r 319 288
def krFixBlocks (r : Nat) : Nat := fld r 335 320
def krMinChunk (r : Nat) : Nat := max 1 (fld r 351 336)
def krFixBase (r : Nat) : Nat := fld r 415 352
def krFixBytes (r : Nat) : Nat := fld r 447 416
def krDone (r : Nat) : Nat := fld r 511 448
def krTileN (r : Nat) : Nat := krX r * krY r * krZ r
/-- W of R101's "Distribution". -/
def krUnits (r : Nat) : Nat := krTileN r * krIters r
/-- Operand range i: base, length, permission bits R, W, A at 0, 1, 3 as in a leaf. -/
def krRange (r i : Nat) : Nat × Nat × Nat :=
  let o := 512 + 128 * i
  (fld r (o + 63) o, fld r (o + 111) (o + 64), fld r (o + 113) (o + 112) + 8 * fld r (o + 114) (o + 114))
/-- The grid of a record replaced (R91). -/
def krGrid (r x y z : Nat) : Nat := setFld (setFld (setFld r 223 192 x) 255 224 y) 287 256 z
/-- Ways on each core that a scratchpad of a size takes (R175). -/
def spWays (n : Nat) : Nat := ceilDiv n 131072

/-- R95: the first check that a record fails, by its status of R89: 3 ALIGN, 2 RSVD, 5 BADGRID; 0 for none. Low bits of an address
that must be 0 are an alignment here and not a reserved field (assumption log 91). -/
def recordBad (r : Nat) (indirect : Bool) : Nat :=
  if krEntry r % 128 != 0 || krConstBase r % 64 != 0 || krFixBase r % 64 != 0 || krDone r % 8 != 0 then 3
  else if fld r 143 141 != 0 || fld r 151 149 != 0 || fld r 159 157 != 0 || fld r 167 166 != 0 || fld r 175 170 != 0 ||
      fld r 4095 3840 != 0 || (List.range 16).any (fun i => fld r (512 + 128 * i + 127) (512 + 128 * i + 115) != 0) ||
      (List.range 20).any (fun i => fld r (2560 + 64 * i + 62) (2560 + 64 * i + 32) != 0) then 2
  else if 4096 < krConstLen r || krChunks r == 0 || 16 < krChunks r || krWays r < 2 || 16 < krWays r || krGroups r == 0 ||
      32 < krGroups r || (16 - krWays r) * 131072 < krShared r || krIters r == 0 || krFixBytes r % 64 != 0 ||
      512 < krGroups r * krChunks r ||
      (List.range 16).any (fun i => let x := krRange r i; x.2.1 != 0 && 2 ^ 48 < x.1 + x.2.1) then 2
  else if 2 ^ 32 ≤ krTileN r || 2 ^ 40 < krUnits r then (if indirect then 5 else 2)
  else 0

/-- What offering a record gives: accepted, a status of R89, a freeze of the agent that offered it, or a wait for a Remove. -/
inductive AccR where
  | ok
  | fail (status : Nat)
  | freeze (reason target access : Nat)
  | wait
  deriving DecidableEq, Repr
/-- A failed firmware access at an address as an answer. -/
def accTr (t : TrR) (va access : Nat) : AccR :=
  match t with
  | .ok _ => .ok
  | .wait => .wait
  | .np _ _ => .fail 7
  | .forbid k => .freeze k va access

/-- A firmware read of n bytes at the homes, in pieces of at most 64 bytes (R90, R94). -/
def firmRead (s : State) (ctx va n : Nat) : TrR × Nat :=
  let m := min n 64
  (List.range (ceilDiv n m)).foldl (fun r i => match r.1 with
    | .ok _ => match hartTranslate s ctx (va + m * i) 0 with
      | .ok pa => (.ok pa, r.2 + memRead s pa m * 2 ^ (8 * m * i))
      | x => (x, 0)
    | _ => r) (.ok 0, 0)
/-- R91: the three sizes of an indirect grid. -/
def gridRead (s : State) (ctx va : Nat) : TrR × (Nat × Nat × Nat) :=
  let r := firmRead s ctx va 12
  (r.1, (fld r.2 31 0, fld r.2 63 32, fld r.2 95 64))

/-- The kernels of a context that are not Done. -/
def ctxKernels (s : State) (ctx : Nat) : List (Nat × Kernel) := s.kernels.filter (fun x => x.2.ctx == ctx && x.2.st != .done)
/-- R105 step 2: the status word, skipped where its mapping no longer allows it. -/
def doneWrite (s : State) (ctx a status : Nat) : State :=
  if a = 0 then s else match taskTranslate s ctx a 1 with
    | .ok pa => hartWrite s (ctx / 64) pa 8 status
    | _ => s
/-- R94 to R96: a record offered to the scheduler for a context, with the grid that replaces its own and the queue whose
launch it is. A grid with a zero dimension completes at once. The freeze for the missing scheduling right comes after the checks of
the record and of DoneAddr (assumption log 92). -/
def offer (s : State) (ctx va : Nat) (grid : Option (Nat × Nat × Nat)) (queue : Option Nat) : State × AccR :=
  if va % 64 != 0 then (s, .fail 3) else
  let x := firmRead s ctx va 512
  match x.1 with
  | .ok _ =>
    let r := match grid with | some g => krGrid x.2 g.1 g.2.1 g.2.2 | none => x.2
    if recordBad r grid.isSome != 0 then (s, .fail (recordBad r grid.isSome))
    else
      let d := if krDone r = 0 then TrR.ok 0 else taskTranslate s ctx (krDone r) 1
      match accTr d (krDone r) 2 with
      | .ok =>
        if krGuided r && !holdsRight s ctx 0 then (s, .freeze 4 0 0)
        else if krTileN r = 0 then (doneWrite s ctx (krDone r) 0, .ok)
        else if queue == none && 64 ≤ ((ctxKernels s ctx).filter (fun k => k.2.queue == none && k.2.st == .pending)).length then
          (s, .fail 255)
        else
          let f := takeFresh s
          let s := { f.1 with kernels := mset f.1.kernels f.2 { ctx := ctx, record := r, queue := queue } }
          (match queue with
           | some q => updQ s q (fun q => { q with launches := q.launches ++ [f.2] })
           | none => s, .ok)
      | a => (s, a)
  | t => (s, accTr t va 1)

/-- R107: status of an answer to launch. -/
def launchStatus (n : Nat) : Nat := match n with | 2 => 1 | 3 => 2 | 5 => 3 | 7 => 4 | _ => 5
def execLaunch (p : P) (s : State) : Out :=
  withG s (fun gid _ g =>
    if !actsOnce g p.h then fin s gid p true
    else
      let ctx := gCtx s g
      let done := fun (s : State) (st : Nat) => fin (updG s gid (fun g => pendS (txIllegal g p.h) p.d st)) gid p true
      if !holdsRight s ctx 3 then freeze s gid 3 0 0
      else
        let s := releaseWrites s gid g 2
        if !releaseDone s gid g 2 then stall s gid 9
        else
          let rec_ := rdSn g (sNum p.a)
          let go := fun (grid : Option (Nat × Nat × Nat)) =>
            let r := offer s ctx rec_ grid none
            match r.2 with
            | .ok => done r.1 0
            | .fail n => done r.1 (launchStatus n)
            | .freeze k t a => freeze s gid k t a
            | .wait => stall s gid 9
          match p.b.opnd with
          | .s n =>
            let ga := rdSn g n.toNat
            if rec_ % 64 != 0 || ga % 16 != 0 then done s 2
            else
              let x := gridRead s ctx ga
              (match accTr x.1 ga 1 with
               | .ok => go (some x.2)
               | .fail n => done s (launchStatus n)
               | .freeze k t a => freeze s gid k t a
               | .wait => stall s gid 9)
          | _ => go none)

/-! ### Translation before dispatch (R97, R98, R103) -/

/-- Does an earlier launch of the same queue still wait for its dispatch (R91)? -/
def launchAhead (s : State) (kid : Nat) (k : Kernel) : Bool :=
  k.queue.isSome && s.kernels.any (fun x => x.1 < kid && x.2.queue == k.queue && (x.2.st == .pending || x.2.st == .translating))
/-- R104: a free range unit of an I/O die: 8·die + i. A kernel takes a unit of the I/O die partition div 4 only (assumption log 89). -/
def freeUnit (s : State) (die : Nat) : Option Nat :=
  (rng (8 * die) 8).find? (fun u => !s.kernels.any (fun x => x.2.unit == some u && x.2.st != .done))
/-- May work of the context be dispatched (R64, R97)? -/
def ctxOpen (s : State) (ctx : Nat) : Bool := let c := (getCtx s ctx).st; c == .idle || c == .running
def execKernelTranslatingStart (kernel : Nat) (s : State) : Out :=
  match mfind s.kernels kernel with
  | none => .next s
  | some k =>
    if k.st != .pending || !ctxOpen s k.ctx || launchAhead s kernel k then .next s
    else
      let u := if krGuided k.record then freeUnit s (k.ctx / 64 / 4) else none
      if krGuided k.record && u == none then .next s
      else .next (setCtx (updK s kernel (fun k => { k with st := .translating, unit := u })) k.ctx
        (fun c => { c with st := .running }))

/-- Two neighbouring pieces merged where they touch physically (R98). -/
def mergeTr (x : Tr) (r : List Tr) : List Tr :=
  match r with
  | y :: t => if x.pa + x.len = y.pa then { x with len := x.len + y.len } :: t else x :: r
  | [] => [x]
/-- What the pages of a declared range give: its pieces, no entry, or a walk that must wait (R165, R166, R173). -/
inductive RangeR where
  | pieces (l : List Tr)
  | noEntry
  | wait
  deriving DecidableEq, Repr
/-- R98: the pieces of a declared range from an address on, page by page; no entry when a page is not present, is Priv or
grants less than declared. -/
def rangePieces (s : State) (ctx perm a fin fuel : Nat) : RangeR :=
  match fuel with
  | 0 => .noEntry
  | f + 1 =>
    if fin ≤ a then .pieces []
    else if removeOver s ctx a then .wait
    else match (walk s 4 ctx a).1 with
      | .np _ _ => .noEntry
      | .leaf e l _ =>
        let t := leafTr ctx a e l
        if t.perm.testBit 4 || perm &&& t.perm != perm then .noEntry
        else if movingAt s t.pa then .wait
        else
          let n := min fin (t.va + t.len) - a
          match rangePieces s ctx perm (a + n) fin f with
          | .pieces r => .pieces (mergeTr { ctx := ctx, va := a, len := n, pa := t.pa + (a - t.va), perm := perm, level := l } r)
          | x => x
/-- R98: the extent table of a record; none while a walk must wait. -/
def extentsOf (s : State) (ctx r : Nat) : Option (List Tr) :=
  (List.range 16).foldl (fun (q : Option (List Tr)) i =>
    let x := krRange r i
    match q with
    | none => none
    | some ex =>
      if x.2.1 = 0 then q
      else match rangePieces s ctx x.2.2 x.1 (x.1 + x.2.1) (x.2.1 / 65536 + 3) with
        | .pieces l => if ex.length + l.length ≤ 16 then some (ex ++ l) else q
        | .noEntry => q
        | .wait => none) (some [])

/-! ### Room on a pair (R74, R101, R175, R288) -/

/-- What a pair has free: slots and register chunks of its two cores, cache and free ways, tile sets. -/
structure Room where
  slots0 : Nat
  slots1 : Nat
  chunks0 : Nat
  chunks1 : Nat
  /-- less than none, when a kernel's Ways would leave its cache short of what scratchpads hold -/
  ways : Int
  sets : Nat
  deriving DecidableEq, Repr
/-- The register chunks of a group: what a yield kept of them while saved (R81). -/
def groupChunks (s : State) (g : Group) : Nat :=
  match g.live with | some n => min (ceilDiv n 8) (krChunks (gRecord s g)) | none => krChunks (gRecord s g)
/-- The saved blocks with something tagged on a pair. -/
def tagged (s : State) (pair : Nat) : List (Nat × Block) := s.blocks.filter (fun x => x.2.pair == pair && x.2.saved && !x.2.done)
/-- The register chunks of a block's groups on a core. -/
def blockChunks (s : State) (b : Nat) (core : Nat) : Nat :=
  sumNat ((s.groups.filter (fun x => x.2.block == b && x.2.core == core && !(x.2.st == .exited))).map (fun x => groupChunks s x.2))
/-- R101: the free room of a pair; `withSaved` counts what saved blocks have tagged as free too. -/
def pairRoom (s : State) (pair : Nat) (withSaved : Bool) (extra : Nat) : Room :=
  let core := fun c => s.groups.filter (fun x => x.2.resident && x.2.core == 2 * pair + c)
  let tg := (tagged s pair).filter (fun x => !withSaved || x.2.reloading)
  let chunks := fun c => 256 - sumNat ((core c).map (fun x => krChunks (gRecord s x.2))) -
    sumNat (tg.map (fun x => if c = 0 then x.2.tagChunks0 else x.2.tagChunks1))
  let ws := sumNat ((pairBlocks s pair).map (fun x => heldWays x.2)) + sumNat (tg.map (fun x => x.2.tagWays))
  let sets := ((pairBlocks s pair).filter (fun x => x.2.tiles.isSome)).length + (tg.filter (fun x => x.2.tagTiles)).length
  { slots0 := 48 - (core 0).length, slots1 := 48 - (core 1).length, chunks0 := chunks 0, chunks1 := chunks 1,
    ways := 16 - (minWays s pair extra : Int) - ws, sets := 2 - sets }
/-- R101: one group goes to a preferred core of the pair while that core has room, and to the other otherwise. -/
def fitOne (r : Room) (chunks pref : Nat) : Option (Room × Nat) :=
  let at0 := 1 ≤ r.slots0 && chunks ≤ r.chunks0
  let at1 := 1 ≤ r.slots1 && chunks ≤ r.chunks1
  let r0 : Room := { r with slots0 := r.slots0 - 1, chunks0 := r.chunks0 - chunks }
  let r1 : Room := { r with slots1 := r.slots1 - 1, chunks1 := r.chunks1 - chunks }
  if pref % 2 = 0 then (if at0 then some (r0, 0) else if at1 then some (r1, 1) else none)
  else (if at1 then some (r1, 1) else if at0 then some (r0, 0) else none)
/-- A block's groups by preferred core, with its ways and its need of a tile set: the room left and the cores. -/
def fitBlock (r : Room) (chunks ways : Nat) (set : Bool) (prefs : List Nat) : Option (Room × List Nat) :=
  if r.ways < (ways : Int) || (set && r.sets = 0) then none
  else prefs.foldl (fun q c => match q with
    | some (r, l) => (fitOne r chunks c).map (fun x => (x.1, l ++ [x.2]))
    | none => none) (some ({ r with ways := r.ways - ways, sets := r.sets - set.toNat }, []))
def fitRecord (r : Room) (rec_ : Nat) : Option (Room × List Nat) :=
  fitBlock r (krChunks rec_) (spWays (krShared rec_)) (krTiles rec_) (List.range (krGroups rec_))
/-- R101: how many whole blocks a pair can hold, at most a number. -/
def capOf (r : Room) (rec_ fuel : Nat) : Nat :=
  match fuel with
  | 0 => 0
  | f + 1 => match fitRecord r rec_ with | some x => 1 + capOf x.1 rec_ f | none => 0
/-- R101: Cap. -/
def capacity (s : State) (rec_ : Nat) : Nat :=
  sumNat ((List.range 192).map (fun q => capOf (pairRoom s q true (krWays rec_)) rec_ 96))
/-- R101: B. -/
def blockCount (s : State) (rec_ : Nat) : Nat :=
  if krFixBlocks rec_ != 0 then min (krTileN rec_) (krFixBlocks rec_) else min (krTileN rec_) (max 1 (capacity s rec_))

/-! ### Completion (R105) -/

/-- The blocks of a kernel. -/
def kBlocks (s : State) (kid : Nat) : List (Nat × Block) := s.blocks.filter (fun x => x.2.kernel == kid)
/-- A block's resources are free (R105, R288). -/
def freeBlockRes (b : Block) : Block :=
  { b with done := true, tiles := none, ac := [], scratch := [], saved := false, reloading := false, tagChunks0 := 0,
           tagChunks1 := 0, tagWays := 0, tagTiles := false, resize := none, poison := [], foots := [] }
/-- R64: the context's last kernel has completed. -/
def lastKernel (s : State) (ctx : Nat) : State :=
  let c := getCtx s ctx
  if !(ctxKernels s ctx).isEmpty then s
  else match c.st with
    | .running => setCtx s ctx (fun c => { c with st := .idle })
    | .draining =>
      let s := (c.answer.filter (fun a => a.1 == 1)).foldl (fun s a => hartWrite s (ctx / 64) a.2 8 3) s
      setCtx s ctx (fun c => { c with st := .idle, preq := false, deadline := 0, answer := c.answer.filter (fun a => a.1 != 1) })
    | _ => s
/-- A group leaves the machine: its slot and its logged writes are gone, its freeze is forgotten, and it is stopped by no fault any
more (R63). Its fault, if it has one, stays named by its number until the context is destroyed: no rule takes the number away when
the kernel completes FAULTED (R84, R97, R112, assumption log 24). -/
def dropGroup (s : State) (gid : Nat) : State :=
  match mfind s.groups gid with
  | none => s
  | some g =>
    let s := setCtx { s with frozen := s.frozen.filter (fun f => f.2.1 != .group gid) } (gCtx s g) (fun c =>
      { c with frozen := c.frozen - (g.frz.isSome).toNat, faulted := c.faulted - (g.st == .faulted).toNat })
    let s := updCore s g.core (fun c => { c with log := c.log.filter (fun e => e.gid != gid) })
    updG s gid (fun g => { g with st := .exited, resident := false, sectors := [], frz := none, pend := [], reds := [],
                                  arrivals := [], bcs := [], commits := [], asyncF := [], tx := [] })
/-- R112: a destroyed context's groups are stopped by no fault any more. -/
def forgetFaults (s : State) (key : Nat) : State :=
  (s.groups.filter (fun x => x.2.flt.isSome && gCtx s x.2 == key)).foldl (fun s x => updG s x.1 (fun g => { g with flt := none })) s
/-- R105 step 1: the writes of a kernel's groups and engines are made visible by a release at .sys. -/
def releaseKernel (s : State) (kid : Nat) : State :=
  (((kBlocks s kid).map (fun x => x.2.pair)).eraseDups).foldl (fun s q => releasePair s q 3) s
/-- R105: a kernel becomes Done with a status: its writes are made visible, its status is written, its queue sees it, its
context's event is raised. -/
def completeKernel (s : State) (kid status : Nat) : State :=
  match mfind s.kernels kid with
  | none => s
  | some k =>
    let s := releaseKernel s kid
    let s := (kBlocks s kid).foldl (fun s x => updB s x.1 freeBlockRes) s
    let s := doneWrite s k.ctx (krDone k.record) status
    let s := updK s kid (fun k => { k with st := .done, status := status, unit := none, exts := [], consts := [] })
    let s := match k.queue with
      | some q => updQ s q (fun q => { q with launches := q.launches.erase kid })
      | none => s
    lastKernel s k.ctx
/-- May a kernel whose writes were released complete now: no acknowledgement is outstanding (R192), its status word is not under a
Remove? -/
def canComplete (s : State) (k : Kernel) : Bool :=
  !unackedFlows s (k.ctx / 64) && (krDone k.record == 0 || taskTranslate s k.ctx (krDone k.record) 1 != .wait)
/-- R105: a kernel completes with a status once its release has reached every package; until then it waits with its writes
released. -/
def tryComplete (s : State) (kid : Nat) (k : Kernel) (status : Nat) (go : State → State) : State :=
  let s := releaseKernel s kid
  if canComplete s k then completeKernel (go s) kid status else s

/-! ### The steps of a kernel -/

/-- What a list of firmware accesses comes to: the addresses, one that cannot be made, or one that must wait. -/
inductive PaR where
  | ok (l : List Nat)
  | bad
  | wait
  deriving DecidableEq, Repr
/-- The accesses in order; one that must wait counts only where none is barred. -/
def allPa (l : List TrR) : PaR :=
  if l.any (fun t => match t with | .np _ _ => true | .forbid _ => true | _ => false) then .bad
  else if l.any (· == .wait) then .wait
  else .ok (l.filterMap (fun t => match t with | .ok pa => some pa | _ => none))
/-- R103: the flag words of a kernel of B blocks. -/
def fixFlags (s : State) (ctx base b : Nat) : PaR := allPa ((List.range (b - 1)).map (fun i => taskTranslate s ctx (base + 64 * i) 1))
/-- R40, R60: the words of the constant table, read when the extents are built; none while one must wait. -/
def constWords (s : State) (ctx r : Nat) : Option (AMap W32) :=
  (List.range (krConstLen r)).foldl (fun (m : Option (AMap W32)) i => match m, hartTranslate s ctx (krConstBase r + 4 * i) 0 with
    | some m, .ok pa => some (mput 0 m i (BitVec.ofNat 32 (memRead s pa 4)))
    | _, .wait => none
    | m, _ => m) (some [])
/-- R97, R98, R101, R103: extents, B and the fix-up flags; FIXUP when a flag cannot be cleared. -/
def execExtentTableBuilt (kernel : Nat) (s : State) : Out :=
  match mfind s.kernels kernel with
  | none => .next s
  | some k =>
    if k.st != .translating || !ctxOpen s k.ctx then .next s
    else
      let r := k.record
      let b := blockCount s r
      match (if krGuided r then .ok [] else fixFlags s k.ctx (krFixBase r) b), extentsOf s k.ctx r, constWords s k.ctx r with
      | .bad, _, _ => .next (tryComplete s kernel k 3 id)
      | .ok pas, some ex, some ws =>
        let s := pas.foldl (fun s pa => hartWrite (hartWrite s (k.ctx / 64) pa 32 0) (k.ctx / 64) (pa + 32) 32 0) s
        .next (updK s kernel (fun k => { k with st := .dispatching, blocks := b, exts := ex, consts := ws }))
      | _, _, _ => .next s

/-- The free slots of a core, ascending: a placed or reloaded group takes the first (assumption log 90). -/
def freeSlots (s : State) (core : Nat) : List Nat :=
  (List.range 48).filter (fun i => !s.groups.any (fun x => x.2.resident && x.2.core == core && x.2.slot == i))
/-- R101: the pair for a block: the most free register chunks among those that can hold it, then the lowest number. -/
def bestPair (s : State) (fits : Nat → Option (Room × List Nat)) : Option (Nat × List Nat) :=
  ((List.range 192).foldl (fun (r : Option (Nat × Nat × List Nat)) q => match fits q with
    | none => r
    | some x =>
      let f := pairRoom s q false 0
      let n := f.chunks0 + f.chunks1
      match r with
      | some b => if b.1 < n then some (n, q, x.2) else r
      | none => some (n, q, x.2)) none).map (fun x => x.2)
/-- R102: the state of a group at its start. -/
def newGroup (s : State) (k : Kernel) (block num core slot bnum : Nat) : Group :=
  let r := k.record
  let w := krUnits r
  let lo := bnum * w / k.blocks
  let hi := (bnum + 1) * w / k.blocks
  let sr : List (Nat × Nat) :=
    (if krGuided r then [] else [(0, lo), (1, hi), (3, (lo % krIters r != 0).toNat + 2 * (hi % krIters r != 0).toNat)]) ++
    [(2, k.blocks), (4, krFixBase r)]
  { block := block, num := num, core := core, slot := slot, pc := krEntry r,
    region := { entry := krEntry r, e := BitVec.allOnes 32, stack := [] },
    sr := sr.foldl (fun m x => mput 0 m x.1 (BitVec.ofNat 64 x.2)) [], age := s.cycle }
/-- R288: the tile sets of a pair that its blocks hold, those of saved blocks that are still in place among them. -/
def tileSets (s : State) (pair : Nat) : List Nat :=
  (s.blocks.filter (fun x => x.2.pair == pair && !x.2.done)).filterMap (fun x => x.2.tiles)
/-- R102, R288, R321, R353: a block at its start. -/
def newBlock (s : State) (kid : Nat) (k : Kernel) (pair : Nat) : Block :=
  let r := k.record
  let bind := fun (at_ n : Nat) => (List.range n).foldl (fun (m : AMap Nat) h =>
    match handleOf r at_ h with | some i => mset m h i | none => m) []
  let used := tileSets s pair
  { kernel := kid, num := k.placed, pair := pair, ngroups := krGroups r, size := krShared r, ways := spWays (krShared r),
    tiles := if krTiles r then [0, 1].find? (fun i => !used.contains i) else none,
    sh := bind 384 8, ch := bind 448 4, token := some 0 }
/-- The next block of a kernel, when one can be placed now: its pair and cores. -/
def nextPlace (s : State) (kid : Nat) : Option (Kernel × Nat × List Nat) :=
  match mfind s.kernels kid with
  | none => none
  | some k =>
    if k.st != .dispatching || !ctxOpen s k.ctx || k.blocks ≤ k.placed ||
       s.kernels.any (fun x => x.1 < kid && x.2.st == .dispatching && x.2.queue == k.queue && k.queue.isSome) then none
    else (bestPair s (fun q => fitRecord (pairRoom s q true (krWays k.record)) k.record)).map (fun x => (k, x.1, x.2))
/-- R74: what a claim on a pair lacks until saved blocks' resources are spilled: register chunks of its even and odd core, ways,
a tile set. -/
structure Lack where
  chunks0 : Nat
  chunks1 : Nat
  ways : Nat
  set : Bool
  deriving DecidableEq, Repr
def lackOf (r : Room) (need0 need1 ways : Nat) (set : Bool) : Lack :=
  { chunks0 := need0 - r.chunks0, chunks1 := need1 - r.chunks1, ways := ((ways : Int) - r.ways).toNat, set := set && r.sets = 0 }
def Lack.none (l : Lack) : Bool := l.chunks0 == 0 && l.chunks1 == 0 && l.ways == 0 && !l.set
/-- What the claim of a block of a record lacks. -/
def placeLack (s : State) (rec_ pair : Nat) (cores : List Nat) : Lack :=
  let n := fun c => (cores.filter (fun x => x == c)).length * krChunks rec_
  lackOf (pairRoom s pair false (krWays rec_)) (n 0) (n 1) (spWays (krShared rec_)) (krTiles rec_)
/-- R101, R102, R186: the next block of a kernel is placed and its groups start, an acquire toward its launch; it waits where a
claim waits for a spill. -/
def execBlockPlacement (kernel : Nat) (s : State) : Out :=
  match nextPlace s kernel with
  | none => .next s
  | some (k, pair, cores) =>
    if !(placeLack s k.record pair cores).none then .next s
    else
      let f := takeFresh (claimBanks (acquireAt s pair 2) pair k.ctx)
      let b := f.2
      let s := { f.1 with blocks := mset f.1.blocks b (newBlock f.1 kernel k pair) }
      let s := (List.range cores.length).foldl (fun s i =>
        let core := 2 * pair + cores.getD i 0
        let slot := (freeSlots s core).headD 0
        { s with groups := mset s.groups (gidOf b i) (newGroup s k b i core slot k.placed) }) s
      .next (updK s kernel (fun k => { k with placed := k.placed + 1, st := if k.placed + 1 = k.blocks then .running else k.st }))

/-- R105: a block whose groups have exited and whose operations have retired frees its resources; the last one completes the
kernel. -/
def execBlockRetire (block : Nat) (s : State) : Out :=
  match mfind s.blocks block with
  | none => .next s
  | some b =>
    match mfind s.kernels b.kernel with
    | none => .next s
    | some k =>
      if b.done || b.saved || !(k.st == .dispatching || k.st == .running) || !(groupsOf s block).all (fun x => x.2.st == .exited) ||
         s.ops.any (fun o => o.2.block == block) then .next s
      else
        let free := fun (s : State) => updK (updB s block freeBlockRes) b.kernel (fun k => { k with retired := k.retired + 1 })
        if k.st == .running && k.retired + 1 == k.blocks then .next (tryComplete s b.kernel k 0 free)
        else .next (free (releasePair s b.pair 3))

/-- R97: a Faulting kernel is Done when its groups have stopped or exited and nothing of theirs can still retire; a destroyed one
likewise, with its own status. -/
def execKernelFaultingDone (kernel : Nat) (s : State) : Out :=
  match mfind s.kernels kernel with
  | none => .next s
  | some k =>
    if k.st != .faulting then .next s
    else
      let s' := discardOps s kernel
      let gs := s'.groups.filter (fun x => gKid s' x.2 == kernel && !(x.2.st == .exited))
      let calm := gs.all (fun x => (match x.2.st with
        | .faulted => true | .frozen => true | .stopping => true | .saved => true | _ => false) && !outstanding s' x.1 x.2)
      if !calm || s'.ops.any (fun o => o.2.kernel == kernel) then .next s
      else .next (tryComplete s' kernel k k.status (fun s => gs.foldl (fun s x => dropGroup s x.1) s))

end Sys2Proof.Machine
end

