-- ==== Sys2Proof/Machine/System.lean ====
section
/-! DEFINITION. Contexts, opcodes 0xE0 to 0xE5 and 0xEA (R61 to R83, R118 to R121, R402): traps, special registers, the
token, pre-emption, saving and reloading, and the reporting of engine faults. -/

namespace Sys2Proof.Machine

/-! ### Traps (R80, R402) -/

/-- trap and brk: the region closes, then the fault stops the group; it resumes at the next instruction. -/
def trapRun (p : P) (s : State) (code : Nat) : Out :=
  withG s (fun gid _ g =>
    if actsOnce g p.h then
      raise (updG s gid (fun g => closeAt g (nextPc g.pc))) gid code allLanes (valN g p.a % 2 ^ 32)
    else fin s gid p true)
def execTrap (p : P) (s : State) : Out := trapRun p s 0x06
def execBrk (p : P) (s : State) : Out := trapRun p s 0x07

/-- R81: a group with %preq = 1 stops; it goes on at the next instruction when its context resumes. -/
def execYield (p : P) (s : State) : Out :=
  withG s (fun gid _ g =>
    if !actsOnce g p.h then fin s gid p true
    else
      let s := advance (updG s gid (fun g => txIllegal g p.h)) gid p true
      if (getCtx s (gCtx s g)).preq then
        .next (updG (stopEffects s gid) gid (fun g => { g with st := .stopping, live := some (8 * ceilDiv (valN g p.a) 8) }))
      else .next s)

/-! ### Special registers (R82, R83, R104, R111) -/

/-- R104: the next chunk of a kernel's range unit: start in bits 39:0, count in bits 63:40. -/
def chunkOf (k : Kernel) : Nat × Nat :=
  let w := krUnits k.record
  let rem_ := w - k.next
  let n := min rem_ (min (2 ^ 24 - 1) (max (krMinChunk k.record) (ceilDiv rem_ (2 * k.blocks))))
  (k.next, n)
/-- A read of %chunk: 0 for an even split, else the unit hands out its next chunk. -/
def chunkRead (p : P) (s : State) (gid : Nat) (g : Group) : Out :=
  match gKernel s g with
  | some k =>
    if krGuided k.record then
      let c := chunkOf k
      fin (updG (updK s (gKid s g) (fun k => { k with next := k.next + c.2 })) gid (fun g => pendS g p.d (c.1 % 2 ^ 40 + 2 ^ 40 * c.2))) gid p false
    else fin (updG s gid (fun g => pendS g p.d 0)) gid p false
  | none => fin (updG s gid (fun g => pendS g p.d 0)) gid p false
/-- R82: the register's value for D: a vector register takes each selected lane's own value, or in the uniform form the one
value in every lane of E. -/
def srToD (s : State) (g0 : Group) (p : P) (n : Nat) (g : Group) : Group :=
  let one := srVal s g0 n (lowLane (guardLanes g0 p.h))
  match p.d with
  | .v false _ d =>
    if p.h.uni then (lanesOf g0.e).foldl (fun g i => wrV g d.toNat i (BitVec.ofNat 32 one)) g
    else (lanesOf (guardLanes g0 p.h)).foldl (fun g i => wrV g d.toNat i (BitVec.ofNat 32 (srVal s g0 n i))) g
  | .s false _ d => wrSn g d.toNat one
  | _ => g
def isVDst (d : Dst) : Bool := match d with | .v .. => true | _ => false
/-- A read of a special register by number. -/
def rdsrRun (p : P) (s : State) (o : Op) (n : Nat) : Out :=
  withG s (fun gid _ g =>
    if !actsOnce g p.h then fin s gid p false
    else if !srOk n || (n == 9 && isVDst p.d) then trapIllegal s gid o p
    else if n == 9 then chunkRead p s gid g
    else if srPriv n && !holdsRight s (gCtx s g) 1 then freeze s gid 3 0 0
    else fin (updG (srTouch s gid g n) gid (srToD s g p n)) gid p false)
/-- R82: the register that rdsr names; s[n][63:8] must be zero, so any larger value names nothing. -/
def srNo (g : Group) (x : Opnd) : Nat :=
  match x with | .sr n => n.toNat | .s n => if rdSn g n.toNat < 256 then rdSn g n.toNat else 255 | _ => 255
def execRdsr (p : P) (s : State) : Out := withG s (fun _ _ g => rdsrRun p s .rdsr (srNo g p.a))
def execRdsrChunk (p : P) (s : State) : Out := rdsrRun p s .rdsrChunk 9
def execRdsrFrzprod (p : P) (s : State) : Out := rdsrRun p s .rdsrFrzprod 0x17
/-- R83, R109: %hmask, seen from the group's next instruction on. -/
def execWrsr (p : P) (s : State) : Out :=
  withG s (fun gid _ g =>
    if actsOnce g p.h then fin (updG s gid (fun g' => { g' with hmask := BitVec.ofNat 32 (valN g p.a) })) gid p true
    else fin s gid p true)

/-! ### Rings that drain (R69, R78) -/

/-- The oldest waiting record of a context is written when its ring has room. -/
def drainFault (s : State) (key : Nat) : State :=
  match (getCtx s key).fltPend with
  | r :: t => if fltFull s key then s else writeFault (updCtx s key (fun c => { c with fltPend := t })) key r
  | [] => s
def drainFreeze (s : State) (p : Nat) : State :=
  match (getPart s p).frzPend with
  | r :: t => if frzFull s p then s else writeFreeze (updPart s p (fun q => { q with frzPend := t })) p r
  | [] => s
def execFaultRingDrain (ring : Ring) (s : State) : Out :=
  match ring with
  | .fault ctx => .next (drainFault s ctx)
  | .freeze part => .next (drainFreeze s part)
/-- R62, R111: FrzCons changes and frees the entries below it. -/
def setFrzCons (s : State) (p x : Nat) : State :=
  let s := updPart s p (fun q => { q with frzCons := x % 65536 })
  (List.range (getPart s p).frzPend.length).foldl (fun s _ => drainFreeze s p) s
def execWrsrFrzcons (p : P) (s : State) : Out :=
  withG s (fun gid _ g =>
    if !actsOnce g p.h then fin s gid p true
    else if !holdsRight s (gCtx s g) 1 then freeze s gid 3 0 0
    else fin (setFrzCons s (gPart s g) (valN g p.a)) gid p true)

/-! ### The token (R118 to R121) -/

/-- The status of ptok and ttok for the predicate that D names, k0 to k3. -/
def pendK (g : Group) (d : Dst) (x : Bool) : Group :=
  match d with | .other (.pred n) => addPend g [.k (n.toNat - 8) x] | _ => g
def blockToken (s : State) (g : Group) : Option Nat := (gBlock s g).bind (·.token)
def setToken (s : State) (g : Group) (t : Option Nat) : State := updB s g.block (fun b => { b with token := t })
/-- R120: a group of the block that has not exited. -/
def tokenTarget (s : State) (g : Group) (n : Nat) : Bool :=
  match gBlock s g, mfind s.groups (gidOf g.block n) with
  | some b, some t => n < b.ngroups && !hasLeft t
  | _, _ => false
def execPtok (p : P) (s : State) : Out :=
  withG s (fun gid _ g =>
    if !actsOnce g p.h then fin s gid p false
    else
      let n := valN g p.a
      let ok := blockToken s g == some g.num && tokenTarget s g n
      fin (updG (if ok then setToken s g (some n) else s) gid (fun g => pendK g p.d ok)) gid p false)
def execPtokRel (p : P) (s : State) : Out :=
  withG s (fun gid _ g =>
    if !actsOnce g p.h then fin s gid p false
    else
      let ok := blockToken s g == some g.num
      fin (updG (if ok then setToken s g none else s) gid (fun g => pendK g p.d ok)) gid p false)
def execTtok (p : P) (s : State) : Out :=
  withG s (fun gid _ g =>
    if !actsOnce g p.h then fin s gid p false
    else
      let t := blockToken s g
      let ok := t == none || t == some g.num
      fin (updG (if t == none then setToken s g (some g.num) else s) gid (fun g => pendK g p.d ok)) gid p false)

/-! ### Engine faults (R68) -/

/-- R115: a split-phase result reaches its registers. -/
def popPend (l : List Pend) : List RegW × List Pend :=
  match l with
  | [] => ([], [])
  | q :: t => if q.ready then (q.ws, t) else (let r := popPend t; (r.1, q :: r.2))
/-- The oldest ready result of a group is written; a wresz of its block whose scratchpad has come to rest completes first. -/
def execSplitPhaseResult (gid : Nat) (s : State) : Out :=
  let s := match mfind s.groups gid with | some g => resizeStep s g.block | none => s
  .next (exitCheck (updG s gid (fun g =>
    let r := popPend g.pend
    applyWs { g with pend := r.2 } r.1)) gid)
/-- The batch and the issuing address of an operation. -/
def opWhere (s : State) (id : Nat) : Nat × Nat := match mfind s.ops id with | some o => (o.batch, o.addr) | none => (0, 0)
/-- The record of an engine's fault for a group that is stopped already (R69, R97). -/
def asyncRecord (s : State) (g : Group) (code id lanes detail : Nat) : State :=
  let o := opWhere s id
  let sq := nextSeq s (gCtx s g)
  pushFault sq.1 (gCtx s g) (faultRec sq.1 g code true o.1 o.2 lanes sq.2 detail)
/-- R68: the oldest fault that an engine reported stops its group at the instruction boundary; in a Faulting kernel, whose
groups have stopped, it leaves its record only (R97). -/
def execAsyncFaultReport (gid : Nat) (s : State) : Out :=
  match mfind s.groups gid with
  | none => .next s
  | some g =>
    match g.asyncF with
    | [] => .next s
    | (code, id, lanes, detail) :: t =>
      let kid := gKid s g
      let faulting : Bool := match gKernel s g with | some k => k.st == .faulting | none => false
      let runs : Bool := match g.st with | .ready => true | .stalled _ => true | .sent _ => true | .waiting _ => true | .exiting => true | _ => false
      let s' := updG s gid (fun g => { g with asyncF := t })
      if faulting then .next (exitCheck (discardOps (asyncRecord s' g code id lanes detail) kid) gid)
      else if runs then
        .next (takeFault s' gid code (some (id, opWhere s id)) lanes detail)
      else .next s

/-! ### Pre-emption (R64, R65, R72 to R75) -/

/-- The blocks of a context that have not retired. -/
def ctxBlocks (s : State) (key : Nat) : List (Nat × Block) :=
  s.blocks.filter (fun x => !x.2.done && (match mfind s.kernels x.2.kernel with | some k => k.ctx == key | none => false))
/-- The groups of a context that have not exited. -/
def ctxGroups (s : State) (key : Nat) : List (Nat × Group) :=
  s.groups.filter (fun x => !(x.2.st == .exited) && gCtx s x.2 == key)
/-- R75: the bytes that saving a context may need. -/
def saveNeed (s : State) (key : Nat) : Nat :=
  8192 + sumNat ((ctxBlocks s key).map (fun x =>
    let r := match mfind s.kernels x.2.kernel with | some k => k.record | none => 0
    512 + 2048 * x.2.ngroups + 1024 * (x.2.ngroups * krChunks r) + x.2.size + 278528 * (x.2.ac.filter (fun t => t.2.written)).length))
/-- R63: the Deadline of a context as it acts. -/
def ctxDeadline (s : State) (key : Nat) : Nat := max 1024 (fld (ctxDesc s key) 63 32)
/-- R72: the deadline has run out: every group that has not stopped stops at its next instruction. -/
def execPreemptDeadlineExpires (ctx : Nat) (s : State) : Out :=
  if (getCtx s ctx).st == .draining && (getCtx s ctx).deadline == 0 then
    .next ((ctxGroups s ctx).foldl (fun s x =>
      match x.2.st with
      | .ready => updG (stopEffects s x.1) x.1 (fun g => { g with st := .stopping })
      | .stalled _ => updG (stopEffects s x.1) x.1 (fun g => { g with st := .stopping })
      | .sent _ => updG (stopEffects s x.1) x.1 (fun g => { g with st := .stopping })
      | .waiting _ => updG (stopEffects s x.1) x.1 (fun g => { g with st := .stopping })
      | _ => s) s)
  else .next s

/-- R73: has everything that a group issued finished, or been stopped by a fault or a freeze? -/
def stopDone (s : State) (gid : Nat) (g : Group) : Bool :=
  (opsOf s gid).all (fun o => o.2.stopped) && g.pend.all (fun q => !q.ready && (match mfind s.ops q.op with | some o => o.stopped | none => false)) &&
  g.reds.isEmpty && g.arrivals.isEmpty && g.bcs.isEmpty && g.commits.isEmpty && !(getCore s g.core).log.any (fun e => e.gid == gid)
/-- R73, R81: the group's control state is in its record: it is Saved. -/
def execGroupStopComplete (gid : Nat) (s : State) : Out :=
  match mfind s.groups gid with
  | none => .next s
  | some g =>
    let faulting : Bool := match gKernel s g with | some k => k.st == .faulting | none => false
    if g.st == .stopping && !faulting && !saveWaits s (gCtx s g) && stopDone s gid g then
      .next (saveVeil (updG s gid (fun g => { g with
        st := .saved,
        v := (match g.live with | some n => g.v.filter (fun x => x.1 < 32 * n) | none => g.v) })) (gCtx s g))
    else .next s

/-- R73: may an operation of a stopped group still come to an end of its own: it has not stopped, and none holds it back? -/
def opRuns (s : State) (x : Nat × EOp) : Bool := !x.2.stopped && !opBlocked s x.1 x.2
/-- R74: the dirty bytes of a group leave the pair and the die that it leaves. -/
def flushGroup (s : State) (g : Group) : State :=
  let s := (dirtyOf s (gPair g) (BitVec.ofNat 99 (2 ^ gBit g))).foldl (fun s sec => l1Back s (gPair g) sec) s
  (guestOf s (gDie g) (some (gTag s g))).foldl (fun s sec => dcBack s (gDie g) sec) s
/-- R64, R65, R73, R170: may a context pass to Saved: every group stopped, a faulted or frozen one as it is once what it issued can do
nothing more, no completion that comes first, no write of it in a side log? -/
def allStopped (s : State) (key : Nat) : Bool :=
  (ctxGroups s key).all (fun x => (match x.2.st with
    | .saved => true
    | .faulted => !(opsOf s x.1).any (opRuns s)
    | .frozen => !(opsOf s x.1).any (opRuns s)
    | _ => false)) &&
  (ctxBlocks s key).all (fun x => (groupsOf s x.1).any (fun g => !(g.2.st == .exited))) &&
  !(ctxKernels s key).isEmpty && (ctxKernels s key).all (fun k => k.2.st != .faulting) &&
  !s.cores.any (fun c => c.2.log.any (fun e => e.ctx == key))
/-- R64, R73, R74, R92: the context is Saved; its blocks' chunks, ways and tiles stay in place, tagged. A block that a Resume had not
brought back yet stays as it was saved, and waits for the next Resume. -/
def execContextSaved (ctx : Nat) (s : State) : Out :=
  if (getCtx s ctx).st == .draining && !saveWaits s ctx && allStopped s ctx then
    let gs := ctxGroups s ctx
    let s := gs.foldl (fun s x => flushGroup s x.2) s
    let s := (ctxBlocks s ctx).foldl (fun s x => updB s x.1 (fun b => if b.saved then { b with reloading := false } else
      { b with saved := true, tagChunks0 := blockChunks s x.1 (2 * b.pair), tagChunks1 := blockChunks s x.1 (2 * b.pair + 1),
               tagWays := b.ways, tagTiles := b.tiles.isSome, ac := b.ac.map (fun t => (t.1, { t.2 with written := false })) })) s
    let s := gs.foldl (fun s x => updG s x.1 (fun g => { g with resident := false, sectors := [], latchPipe := [] })) s
    let c := getCtx s ctx
    let s := saveVeil (setCtx s ctx (fun c => { c with st := .saved, deadline := 0, answer := c.answer.filter (fun a => a.1 != 1) })) ctx
    .next ((c.answer.filter (fun a => a.1 == 1)).foldl (fun s a => hartWrite s (ctx / 64) a.2 8 0) s)
  else .next s
/-- The room of a pair for a saved block that is to be reloaded, its own tagged resources counted as free. -/
def reloadRoom (s : State) (block : Nat) (b : Block) (pair : Nat) (withSaved : Bool) (rec_ : Nat) : Room :=
  pairRoom (updB s block (fun _ => { b with tagChunks0 := 0, tagChunks1 := 0, tagWays := 0, tagTiles := false })) pair withSaved (krWays rec_)
/-- The groups of a block that have not exited. -/
def stayers (s : State) (block : Nat) : List (Nat × Group) := (groupsOf s block).filter (fun x => !(x.2.st == .exited))
/-- R74: the pair and cores for a resumed block's groups, and what that claim lacks: the pair that it left when it has room, other
contexts' tagged resources counted, else the best other one. -/
def reloadPlace (s : State) (block : Nat) (b : Block) : Option (Nat × List Nat × Lack) :=
  let rec_ := match mfind s.kernels b.kernel with | some k => k.record | none => 0
  let gs := stayers s block
  let fit := fun q => fitBlock (reloadRoom s block b q true rec_) (krChunks rec_) b.ways (krTiles rec_)
    (gs.map (fun x => if q = b.pair then x.2.core else x.2.num))
  let place := match fit b.pair with | some x => some (b.pair, x.2) | none => bestPair s fit
  place.map (fun x =>
    let n := fun c => (x.2.filter (fun y => y == c)).length * krChunks rec_
    (x.1, x.2, lackOf (reloadRoom s block b x.1 false rec_) (n 0) (n 1) b.ways (krTiles rec_)))
/-- R74: the claims that wait on a pair for a spill: the claiming context and what it lacks. -/
def claimsOn (s : State) (pair : Nat) : List (Nat × Lack) :=
  s.kernels.filterMap (fun x => match nextPlace s x.1 with
    | some (k, q, cores) => if q = pair then some (k.ctx, placeLack s k.record q cores) else none
    | none => none) ++
  s.blocks.filterMap (fun x => if x.2.saved && x.2.reloading && !x.2.done then
      (match reloadPlace s x.1 x.2 with
       | some (q, _, l) => if q = pair then some (blockCtx s x.2, l) else none
       | none => none)
    else none)
/-- R74: what a claim lacks of a saved block's tagged resources, and no more of them, is spilled to its owner's save area. -/
def execSpillOnClaim (block : Nat) (what : Tagged) (s : State) : Out :=
  match mfind s.blocks block with
  | none => .next s
  | some b =>
    let owner := blockCtx s b
    if !b.saved || b.reloading || b.done || saveWaits s owner then .next s
    else match (claimsOn s b.pair).find? (fun x => x.1 != owner && (match what with
        | .chunks => (x.2.chunks0 != 0 && b.tagChunks0 != 0) || (x.2.chunks1 != 0 && b.tagChunks1 != 0)
        | .ways => x.2.ways != 0 && b.tagWays != 0
        | .tiles => x.2.set && b.tagTiles)) with
      | none => .next s
      | some (_, l) => .next (saveVeil (updB s block (fun b => match what with
          | .chunks => { b with tagChunks0 := b.tagChunks0 - l.chunks0, tagChunks1 := b.tagChunks1 - l.chunks1 }
          | .ways => { b with tagWays := b.tagWays - l.ways }
          | .tiles => { b with tagTiles := false, tiles := none })) owner)

/-- R170: what a group's writes left in the side log of a core goes with it to another. -/
def moveLog (s : State) (gid old new : Nat) : State :=
  let l := (getCore s old).log.filter (fun e => e.gid == gid)
  if old = new || l.isEmpty then s
  else updCore (updCore s old (fun c => { c with log := c.log.filter (fun e => e.gid != gid) })) new (fun c => { c with log := c.log ++ l })
/-- R64: is a context Running, or Draining again? -/
def ctxRuns (s : State) (key : Nat) : Bool := let c := (getCtx s key).st; c == .running || c == .draining
/-- R64, R74, R112: a block of a resumed context is back on a pair, once what it claims there has been spilled: its groups are
Ready again, faulted and frozen ones as they were; a save image that fails its check freezes the leader group. On another pair,
what was still in place is spilled first. -/
def execBlockReloadDone (block : Nat) (ok : Bool) (s : State) : Out :=
  match mfind s.blocks block with
  | none => .next s
  | some b =>
    if !(b.saved && b.reloading) || b.done || !ctxRuns s (blockCtx s b) then .next s
    else
      let gs := stayers s block
      match reloadPlace s block b with
      | none => .next s
      | some (pair, cores, l) =>
        let moves := pair != b.pair && (b.tagChunks0 != 0 || b.tagChunks1 != 0 || b.tagWays != 0 || b.tagTiles)
        if !l.none || (moves && saveWaits s (blockCtx s b)) then .next s
        else
          let s := if moves then saveVeil s (blockCtx s b) else s
          let used := tileSets (updB s block (fun b => { b with tiles := none })) pair
          let s := updB (claimBanks (wakeBanks (acquireAt s pair 2) block) pair (blockCtx s b)) block (fun b => { b with
            pair := pair, saved := false, reloading := false, tagChunks0 := 0, tagChunks1 := 0, tagWays := 0, tagTiles := false, cl := [],
            foots := [],
            tiles := if pair = b.pair && b.tagTiles then b.tiles
              else if b.tiles.isSome || krTiles (match mfind s.kernels b.kernel with | some k => k.record | none => 0)
              then [0, 1].find? (fun i => !used.contains i) else none })
          let s := (List.range gs.length).foldl (fun s i =>
            match gs[i]? with
            | none => s
            | some x =>
              let core := 2 * pair + cores.getD i 0
              let slot := (freeSlots s core).headD 0
              updG (moveLog s x.1 x.2.core core) x.1 (fun g => { g with
                core := core, slot := slot, resident := true, age := s.cycle, live := none,
                st := if g.st == .saved then awake s g else g.st })) s
          let s := { s with ops := s.ops.map (fun o => if o.2.block == block then
            (o.1, { o.2 with pair := pair, core := match mfind s.groups o.2.gid with | some g => g.core | none => o.2.core }) else o) }
          match ok, gs with
          | false, x :: _ => .next (freezeGroup s x.1 6 0 0)
          | _, _ => .next s

/-- R64, R92: nothing of a destroyed context is left: it is Free, and its Destroy commands are answered. -/
def execContextFreed (ctx : Nat) (s : State) : Out :=
  let c := getCtx s ctx
  if c.st == .destroying && (ctxGroups s ctx).isEmpty && (ctxKernels s ctx).isEmpty && !s.ops.any (fun o => o.2.ctx == ctx) then
    let s := (c.answer.filter (fun a => a.1 == 3)).foldl (fun s a => hartWrite s (ctx / 64) a.2 8 0) s
    .next (setCtx s ctx (fun c => { c with st := .free, answer := [] }))
  else .next s

end Sys2Proof.Machine
end

