-- ==== Sys2Proof/Machine/Queue.lean ====
section
/-! DEFINITION. Queues, harts and command words (R85 to R93), and the context events that CTX raises (R64, R92). -/

namespace Sys2Proof.Machine

/-! ### Queue descriptors (R85, R86) -/

/-- Queue q of partition p has key 64·p + q. -/
def queueA (s : State) (qk : Nat) : Nat := (getPart s (qk / 64)).ctxBase + 0x1000 + 64 * (qk % 64)
def queueDesc (s : State) (qk : Nat) : Nat := memRead s (queueA s qk) 64
def qBase (d : Nat) : Nat := fld d 63 0 / 64 * 64
def qLog (d : Nat) : Nat := let l := fld d 68 64; if 6 ≤ l && l ≤ 20 then l else 6
def qPrio (d : Nat) : Nat := fld d 73 72
def qHart (qk d : Nat) : Nat := 2 * (qk / 64) + fld d 74 74
def qStCode (q : QSt) : Nat :=
  match q with | .disabled => 0 | .idle => 1 | .ready => 2 | .running => 3 | .waiting => 4 | .failed => 5
/-- R86: Cons is the read index, or the start of the outermost open loop. -/
def qCons (q : Queue) : Nat := match q.loops with | [] => q.rd | l :: _ => l.2.2
/-- The counts of the loop registers, L0 lowest. -/
def qLoopWord (q : Queue) : Nat := q.loops.foldl (fun r l => setFld r (32 * l.1 + 31) (32 * l.1) l.2.1) 0
/-- The RO fields of a queue's descriptor brought up to date; the Context field stays as it was taken. -/
def mirrorQ (s : State) (qk : Nat) : State :=
  let a := queueA s qk
  let q := getQ s qk
  let s := if q.st == .disabled then s else memWrite s (a + 10) 1 q.ctx
  let s := memWrite s (a + 11) 1 (qStCode q.st)
  let s := memWrite s (a + 16) 4 q.cons
  let s := memWrite s (a + 20) 1 q.status
  let s := memWrite s (a + 24) 8 q.errAddr
  memWrite s (a + 32) 16 (qLoopWord q)
/-- A queue changed and its descriptor with it. -/
def setQ (s : State) (qk : Nat) (f : Queue → Queue) : State :=
  mirrorQ (updQ s qk (fun q => let q := f q; { q with cons := qCons q })) qk
/-- R86: the virtual address of word index i. -/
def wordVa (d i : Nat) : Nat := qBase d + 8 * (i % 2 ^ qLog d)
/-- Words between the read index and Prod. -/
def qAvail (q : Queue) : Nat := (q.prod + 2 ^ 32 - q.rd) % 2 ^ 32
/-- The context that owns a queue. -/
def qCtx (s : State) (qk : Nat) : Nat := 64 * (qk / 64) + (getQ s qk).ctx

def getHart (s : State) (h : Nat) : Hart := (mfind s.harts h).getD {}
def updHart (s : State) (h : Nat) (f : Hart → Hart) : State := { s with harts := mset s.harts h (f (getHart s h)) }
/-- The hart that runs a queue takes no part in it any more. -/
def freeHart (s : State) (qk : Nat) : State :=
  { s with harts := s.harts.map (fun x => if x.2.queue == some qk then (x.1, { x.2 with queue := none }) else x) }
/-- R88, R89: a queue fails with a status; vector 3 tells it (R374). -/
def qEnd (s : State) (qk status : Nat) (addr : Option Nat) : State :=
  setInt (freeHart (setQ s qk (fun q => { q with st := .failed, status := status, errAddr := addr.getD q.errAddr, wait := .none })) qk)
    (qk / 64) 3
/-- A command fails: ErrAddr is the address of its head word. -/
def qFail (s : State) (qk status : Nat) : State := qEnd s qk status (some (wordVa (queueDesc s qk) (getQ s qk).rd))
/-- R86, R88: the hardware's view of Prod follows the descriptor; an Idle queue with words is Ready. -/
def refreshQ (s : State) (qk : Nat) : State :=
  let q := getQ s qk
  if q.st == .disabled || q.st == .failed then s
  else
    let prod := fld (queueDesc s qk) 127 96
    if q.st == .idle && q.rd != prod then setQ s qk (fun q => { q with prod := prod, st := .ready })
    else if q.prod == prod then s else updQ s qk (fun q => { q with prod := prod })

/-! ### Queue steps (R86 to R88) -/

/-- Disabled to Idle: the owning context is taken, indices, loops and Status are cleared. -/
def execQueueEnable (queue : Nat) (s : State) : Out :=
  if (getQ s queue).st != .disabled then .next s
  else
    let d := queueDesc s queue
    let s := memWrite s (queueA s queue + 9) 1 (fld d 79 72 ||| 8)
    .next (refreshQ (setQ s queue (fun q =>
      { st := .idle, prod := fld d 127 96, ctx := fld d 85 80, errAddr := fld d 255 192, launches := q.launches })) queue)
/-- Any state to Disabled; a running command is abandoned. -/
def execQueueDisable (queue : Nat) (s : State) : Out :=
  let s := memWrite s (queueA s queue + 9) 1 (fld (queueDesc s queue) 79 72 &&& 7)
  .next (freeHart (setQ s queue (fun q => { q with st := .disabled, wait := .none })) queue)
/-- Prod is written in the descriptor and the hart sees it. -/
def execQueueProdWrite (queue : Nat) (prod : W32) (s : State) : Out :=
  .next (refreshQ (memWrite s (queueA s queue + 12) 4 prod.toNat) queue)
/-- R87: the Ready queues of a hart, each with its priority. -/
def readyQueues (s : State) (h : Nat) : List (Nat × Nat) :=
  (List.range 64).filterMap (fun n =>
    let qk := 64 * (h / 2) + n
    let d := queueDesc s qk
    if (getQ s qk).st == .ready && qHart qk d == h then some (n, qPrio d) else none)
/-- R87: the highest priority, then the first number after the last one served. -/
def pickQueue (l : List (Nat × Nat)) (last : Nat) : Option Nat :=
  (l.foldl (fun (r : Option (Nat × Nat)) x => match r with
    | none => some x
    | some b =>
      let dist := fun n => (n + 63 - last) % 64
      if b.2 < x.2 || (b.2 == x.2 && dist x.1 < dist b.1) then some x else r) none).map (·.1)
def execHartSelectQueue (hart : Nat) (s : State) : Out :=
  let h := getHart s hart
  if h.frz.isSome || h.queue.isSome then .next s
  else
    let s := (List.range 64).foldl (fun s n => if (mfind s.queues (64 * (hart / 2) + n)).isSome then refreshQ s (64 * (hart / 2) + n) else s) s
    match pickQueue (readyQueues s hart) h.last with
    | none => .next s
    | some n =>
      let qk := 64 * (hart / 2) + n
      .next (updHart (setQ s qk (fun q => { q with st := .running })) hart (fun h => { h with queue := some qk, last := n }))

/-- R90: Compare of the value read with the argument. -/
def cmpQ (f m v : Nat) : Bool :=
  match f with
  | 0 => m == v | 1 => m != v | 2 => m < v | 3 => v ≤ m
  | 4 => toSigned 64 m < toSigned 64 v | 5 => toSigned 64 v ≤ toSigned 64 m
  | 6 => m &&& v != 0 | _ => m &&& v == 0
/-- R86, R88, R91: is the condition of a Waiting queue met: how far the read index moves; none while it is not. A WAIT whose
semaphore cannot be read any more keeps waiting (assumption log 88). -/
def qMet (s : State) (qk : Nat) : Option Nat :=
  let q := getQ s qk
  match q.wait with
  | .none => none
  | .target t => let d := (t + 2 ^ 32 - q.rd) % 2 ^ 32; if d ≤ qAvail q then some d else none
  | .words =>
    match hartTranslate s (qCtx s qk) (wordVa (queueDesc s qk) q.rd) 0 with
    | .ok pa => if cmdWords (fld (memRead s pa 8) 63 56) ≤ qAvail q then some 0 else none
    | _ => some 0
  | .sem f a v _ =>
    match hartTranslate s (qCtx s qk) a 0 with
    | .ok pa => if cmpQ f (memRead s pa 8) v then some 3 else none
    | _ => none
  | .kernels ends => if q.launches.isEmpty then some ends.toNat else none
/-- A command completes: the read index moves on by a number of words, and the queue is Ready while words remain. -/
def qMove (s : State) (qk d : Nat) : State :=
  setQ s qk (fun q =>
    let rd := (q.rd + d) % 2 ^ 32
    { q with rd := rd, wait := .none, st := if rd = q.prod then .idle else .ready })
/-- R86, R88: Waiting, condition met: Ready. -/
def execQueueWaitMet (queue : Nat) (s : State) : Out :=
  let s := if (mfind s.queues queue).isSome then refreshQ s queue else s
  if (getQ s queue).st != .waiting then .next s
  else match qMet s queue with
    | some d => .next (setQ s queue (fun q => { q with rd := (q.rd + d) % 2 ^ 32, wait := .none, st := .ready }))
    | none => .next s
def execQueueWaitTimeout (queue : Nat) (s : State) : Out :=
  match (getQ s queue).st, (getQ s queue).wait with
  | .waiting, .sem _ _ _ limit => if limit != 0 && limit ≤ s.time then .next (qFail s queue 6) else .next s
  | _, _ => .next s

/-! ### Commands (R89, R90) -/

/-- A command of the queue that the agent hart runs: hart and queue. -/
def withHart (s : State) (f : Nat → Nat → Out) : Out :=
  match s.cur with
  | .hart h => match (getHart s h).queue with
    | some qk => f h qk
    | none => .fault .noHart
  | _ => .fault .noHart
/-- R76, R78: a violation of a hart: it stays at its command. -/
def hartFreeze (s : State) (h qk reason target access : Nat) : State :=
  let p := qk / 64
  let n := (getPart s p).frzNum
  takeFreeze (updHart s h (fun x => { x with frz := some n })) p none (.hart h) 2 h reason
    (wordVa (queueDesc s qk) (getQ s qk).rd) target access
/-- The access code of R78 for a permission: read, write or atomic. -/
def accCode (need : Nat) : Nat := match need with | 0 => 1 | 1 => 2 | _ => 4
/-- An access of a command at a virtual address under its context's table; while its flow has no room the hart waits (R380). -/
def hartAt (s : State) (h qk va need : Nat) (go : Nat → Out) : Out :=
  match hartTranslate s (qCtx s qk) va need with
  | .ok pa => if windowFull s (qk / 64) 2 [pa] then .next s else go pa
  | .wait => .next s
  | .np _ _ => .next (qFail s qk 7)
  | .forbid k => .next (hartFreeze s h qk k va (accCode need))
/-- A hart's read of memory of another package goes out on the flow of its class (R379). -/
def hartRead (s : State) (qk pa : Nat) : State := sendAccess s (qk / 64) 2 pa { kind := 1 } false
/-- The command is complete: d words on, at once or when Prod reaches the target (R86). -/
def cmdDone (s : State) (qk d : Nat) : Out :=
  let q := getQ s qk
  .next (freeHart (if d ≤ qAvail q then qMove s qk d
    else setQ s qk (fun q => { q with st := .waiting, wait := .target ((q.rd + d) % 2 ^ 32) })) qk)
/-- The queue waits. -/
def cmdWaits (s : State) (qk : Nat) (w : QWait) : Out :=
  .next (freeHart (setQ s qk (fun q => { q with st := .waiting, wait := w })) qk)

def execCmdNop (s : State) : Out := withHart s (fun _ qk => cmdDone s qk 1)
def execCmdSkip (n : W32) (s : State) : Out := withHart s (fun _ qk => cmdDone s qk (1 + n.toNat))
def loopOpen (q : Queue) (l : Nat) : Option (Nat × Nat × Nat) := q.loops.find? (fun x => x.1 == l)
def execCmdLoop (l : BitVec 2) (c : W32) (s : State) : Out :=
  withHart s (fun _ qk =>
    let q := getQ s qk
    if c = 0 || (loopOpen q l.toNat).isSome then .next (qFail s qk 4)
    else cmdDone (setQ s qk (fun q => { q with loops := q.loops ++ [(l.toNat, c.toNat, (q.rd + 1) % 2 ^ 32)] })) qk 1)
def execCmdEndl (l : BitVec 2) (s : State) : Out :=
  withHart s (fun _ qk =>
    match loopOpen (getQ s qk) l.toNat with
    | none => .next (qFail s qk 4)
    | some (_, c, start) =>
      if c ≤ 1 then cmdDone (setQ s qk (fun q => { q with loops := q.loops.filter (fun x => x.1 != l.toNat) })) qk 1
      else .next (freeHart (setQ s qk (fun q => { q with
        loops := q.loops.map (fun x => if x.1 == l.toNat then (x.1, c - 1, start) else x),
        rd := start, st := if start = q.prod then .idle else .ready })) qk))
def execCmdCond (f : BitVec 3) (n : W32) (addr val : W64) (s : State) : Out :=
  withHart s (fun h qk => hartAt s h qk addr.toNat 0 (fun pa =>
    cmdDone (hartRead s qk pa) qk (if cmpQ f.toNat (memRead s pa 8) val.toNat then 3 else 3 + n.toNat)))
def execCmdWait (f : BitVec 3) (timeout : W32) (addr val : W64) (s : State) : Out :=
  withHart s (fun h qk => hartAt s h qk addr.toNat 0 (fun pa =>
    let s := hartRead s qk pa
    if cmpQ f.toNat (memRead s pa 8) val.toNat then cmdDone s qk 3
    else cmdWaits s qk (.sem f.toNat addr.toNat val.toNat (if timeout = 0 then 0 else s.time + 1000 * timeout.toNat))))
/-- R90: write, add modulo 2^64, unsigned maximum. -/
def signalNew (f old v : Nat) : Nat := match f with | 0 => v | 1 => (old + v) % 2 ^ 64 | _ => max old v
def execCmdSignal (f : BitVec 2) (addr val : W64) (s : State) : Out :=
  withHart s (fun h qk => hartAt s h qk addr.toNat 3 (fun pa =>
    let x := signalNew f.toNat (memRead s pa 8) val.toNat
    cmdDone (if f = 0 then hartWrite s (qk / 64) pa 8 x else hartAtomic s (qk / 64) pa val.toNat x) qk 3))
def execCmdWaitk (s : State) : Out :=
  withHart s (fun _ qk => if (getQ s qk).launches.isEmpty then cmdDone s qk 1 else cmdWaits s qk (.kernels true))
/-- R91, R95, R96: what became of an offered record. -/
def launchEnd (h qk words : Nat) (r : State × AccR) : Out :=
  match r.2 with
  | .ok => cmdDone r.1 qk words
  | .fail n => .next (qFail r.1 qk n)
  | .freeze k t a => .next (hartFreeze r.1 h qk k t a)
  | .wait => .next r.1
def execCmdLaunch (serial : Bool) (rec_ : W64) (s : State) : Out :=
  withHart s (fun h qk =>
    if serial && !(getQ s qk).launches.isEmpty then cmdWaits s qk (.kernels false)
    else launchEnd h qk 2 (offer s (qCtx s qk) rec_.toNat none (some qk)))
def execCmdLaunchi (serial : Bool) (rec_ grid : W64) (s : State) : Out :=
  withHart s (fun h qk =>
    if serial && !(getQ s qk).launches.isEmpty then cmdWaits s qk (.kernels false)
    else if rec_.toNat % 64 != 0 || grid.toNat % 16 != 0 then .next (qFail s qk 3)
    else
      let g := gridRead s (qCtx s qk) grid.toNat
      match accTr g.1 grid.toNat 1 with
      | .ok => launchEnd h qk 3 (offer s (qCtx s qk) rec_.toNat (some g.2) (some qk))
      | a => launchEnd h qk 3 (s, a))

/-! ### Context events (R64, R76, R92) -/

/-- The work of an engine operation is discarded: an encoding in progress is undone (R64, R349). -/
def discardOp (s : State) (id : Nat) (o : EOp) : State :=
  let s := unregister s id
  let s := match o.kind with
    | .enc c t _ _ _ => if o.st == .publishing then undoChange s (entryKey (o.ctx / 64) t (coRow c) (coCol c)) else s
    | _ => s
  dropOp s id
/-- R88: a queue that is enabled fails because its context or its hart is gone. -/
def qGone (s : State) (qk status : Nat) : State := if (getQ s qk).st == .disabled then s else qEnd s qk status none
/-- Destroy: issue stops, engine work is discarded, every resource is released without spill, the kernels are Done with
DESTROYED as soon as their status can be written, the context's queues fail with CTXGONE (R64, R74, R88, R97, R105). -/
def destroyCtx (s : State) (key : Nat) : State :=
  let s := setCtx s key (fun c => { c with st := .destroying, preq := false, deadline := 0, answer := c.answer.filter (fun a => a.1 == 3) })
  let s := (s.ops.filter (fun o => o.2.ctx == key)).foldl (fun s o => discardOp s o.1 o.2) s
  let s := forgetFaults ((ctxGroups s key).foldl (fun s x => dropGroup s x.1) s) key
  let s := (ctxKernels s key).foldl (fun s k =>
    tryComplete (updK s k.1 (fun k => { k with st := .faulting, status := 2 })) k.1 k.2 2 id) s
  let s := { s with frozen := s.frozen.filter (fun f => f.2.2 != some key) }
  let s := setCtx s key (fun c => { c with faulted := 0, frozen := 0 })
  (s.queues.filter (fun q => 64 * (q.1 / 64) + q.2.ctx == key)).foldl (fun s q => qGone s q.1 9) s
/-- R64: Create. -/
def createCtx (s : State) (key : Nat) : State :=
  setCtx s key (fun c => { c with st := .idle, faulted := 0, frozen := 0, seq := 0, lg := [], preq := false, deadline := 0, answer := [] })
/-- R76, R88: the hart is reset and its queues fail with HARTRESET. -/
def resetHart (s : State) (h : Nat) : State :=
  let s := (s.queues.filter (fun q => q.1 / 64 == h / 2 && qHart q.1 (queueDesc s q.1) == h)).foldl (fun s q => qGone s q.1 8) s
  updHart s h (fun x => { x with queue := none, frz := none })

/-- R89, R92: a CTX command: the right of the queue's context, the status address, the event, on to the next command. -/
def ctxRun (s : State) (c : BitVec 6) (status : W64) (ev : State → Nat → Nat → State) : Out :=
  withHart s (fun h qk =>
    if !holdsRight s (qCtx s qk) 1 then .next (qFail s qk 1)
    else hartAt s h qk status.toNat 1 (fun pa =>
      let s := ev s (64 * (qk / 64) + c.toNat) pa
      if (getQ s qk).st == .running then cmdDone s qk 2 else .next s))
/-- The status of a context event written: 0 DONE, 1 NOSTATE, 2 SAVESIZE, 3 Idle by completion. -/
def ctxAnswer (s : State) (key pa x : Nat) : State := hartWrite s (key / 64) pa 8 x
def execCmdCtxCreate (c : BitVec 6) (status : W64) (s : State) : Out :=
  ctxRun s c status (fun s key pa =>
    if (getCtx s key).st == .free then ctxAnswer (createCtx s key) key pa 0 else ctxAnswer s key pa 1)
def execCmdCtxPreempt (c : BitVec 6) (status : W64) (s : State) : Out :=
  ctxRun s c status (fun s key pa =>
    if (getCtx s key).st != .running then ctxAnswer s key pa 1
    else if 1024 * fld (ctxDesc s key) 223 192 < saveNeed s key then ctxAnswer s key pa 2
    else setCtx s key (fun x => { x with st := .draining, preq := true, deadline := ctxDeadline s key, answer := x.answer ++ [(1, pa)] }))
def execCmdCtxResume (c : BitVec 6) (status : W64) (s : State) : Out :=
  ctxRun s c status (fun s key pa =>
    if (getCtx s key).st != .saved then ctxAnswer s key pa 1
    else
      let s := (ctxBlocks s key).foldl (fun s x => updB s x.1 (fun b => if b.saved then { b with reloading := true } else b)) s
      ctxAnswer (setCtx s key (fun x => { x with st := .running, preq := false })) key pa 0)
def execCmdCtxDestroy (c : BitVec 6) (status : W64) (s : State) : Out :=
  ctxRun s c status (fun s key pa =>
    match (getCtx s key).st with
    | .free => ctxAnswer s key pa 1
    | .destroying => ctxAnswer s key pa 1
    | _ => destroyCtx (setCtx s key (fun x => { x with answer := x.answer ++ [(3, pa)] })) key)

/-! ### What a hart does next (R86, R89) -/

/-- The next step of a hart: a state in which it already has done it, or an instruction to run. -/
inductive HartR where
  | done (s : State)
  | run (i : Instr)
/-- A ring word at an index, or what stops the hart there. -/
def ringWord (s : State) (h qk i : Nat) : Except State Nat :=
  let va := wordVa (queueDesc s qk) i
  match hartTranslate s (qCtx s qk) va 0 with
  | .ok pa => .ok (memRead s pa 8)
  | .wait => .error s
  | .np _ _ => .error (qEnd s qk 7 (some va))
  | .forbid k => .error (hartFreeze s h qk k va 1)
def cmdErrStatus (e : CmdErr) : Nat := match e with | .illcmd => 1 | .rsvd => 2 | .align => 3
def hartFetch (s : State) (h : Nat) : HartR :=
  let x := getHart s h
  if x.frz.isSome then .done s else
  match x.queue with
  | none => .run (.hartSelectQueue h)
  | some qk =>
    let q := getQ s qk
    if qAvail q = 0 then .done (freeHart (setQ s qk (fun q => { q with st := .idle })) qk) else
    match ringWord s h qk q.rd with
    | .error s' => .done s'
    | .ok head =>
      let n := cmdWords (fld head 63 56)
      if qAvail q < n then .done (freeHart (setQ s qk (fun q => { q with st := .waiting, wait := .words })) qk)
      else match (if 2 ≤ n then ringWord s h qk (q.rd + 1) else .ok 0) with
        | .error s' => .done s'
        | .ok a1 => match (if 3 ≤ n then ringWord s h qk (q.rd + 2) else .ok 0) with
          | .error s' => .done s'
          | .ok a2 => match decodeCmd head a1 a2 with
            | .ok i => .run i
            | .error e => .done (qFail s qk (cmdErrStatus e))

end Sys2Proof.Machine
end

