-- ==== Sys2Proof/Machine/Remove.lean ====
section
/-! DEFINITION. Page control (R164 to R170, R172 to R174): Remove with its drain and its confirmation, Notify and Donate, and the
steps of a migration. -/

namespace Sys2Proof.Machine

/-- The oldest queued request of a function that has not started. -/
def rmHead (q : Part) (func : Nat) : Option RmReq := q.rmq.find? (fun r => r.func == func && r.phase == 0)
/-- The running Remove of a partition in a phase. -/
def rmRunning (q : Part) (phase : Nat) : Option RmReq := q.rmq.find? (fun r => r.func == 0 && r.phase == phase)
/-- A request moves to a phase. -/
def rmPhase (s : State) (part : Nat) (r : RmReq) (phase : Nat) : State :=
  updPart s part (fun q => { q with rmq := q.rmq.map (fun x => if x = r then { r with phase := phase } else x) })
def rmDrop (s : State) (part : Nat) (r : RmReq) : State := updPart s part (fun q => { q with rmq := q.rmq.erase r })
/-- Does one of a list of addresses lie in a request's range? -/
def rmOver (r : RmReq) (vas : List Nat) : Bool := vas.any (fun a => r.va / 65536 ≤ a / 65536 && a / 65536 < (r.va + 2 ^ r.sizeLog) / 65536)
/-- R167: a move whose page a Remove covers is abandoned; its new frame returns to the pool. -/
def abandonMoves (s : State) (key : Nat) (r : RmReq) : State :=
  s.pages.foldl (fun s x =>
    match x.2.moving with
    | some (die, frame, _, _) =>
      if x.2.ctx == key && x.2.va < r.va + 2 ^ r.sizeLog && r.va < x.2.va + 2 ^ x.2.size then
        setPage (poolFrame s (key / 64) die x.2.size frame) x.1 (fun p => { p with moving := none })
      else s
    | none => s) s
/-- R273: a command that reads a draining page discards what it staged. -/
def retryReads (s : State) (key : Nat) (r : RmReq) : State :=
  (s.ops.filter (fun x => x.2.ctx == key && x.2.kind.cls == 0 && x.2.st == .reading &&
      (let v := xPages x.2; rmOver r v.1 || rmOver r v.2))).foldl
    (fun s x => updOp (unregister s x.1) x.1 (fun o => { o with st := .retrying, staged := [], folios := [], units := [] })) s

/-- R165 phase 1: the oldest queued Remove starts when no other runs; every copy of its range's translations drains. -/
def execRmRemove (part : Nat) (s : State) : Out :=
  let q := getPart s part
  match rmHead q 0 with
  | none => .next s
  | some r =>
    if (rmRunning q 1).isSome || (rmRunning q 2).isSome then .next s
    else
      let key := 64 * part + r.ctx
      .next (retryReads (abandonMoves (drainRange (rmPhase s part r 1) key r.va (2 ^ r.sizeLog)) key r) key r)
/-- R165: phase 1 ends. -/
def execRemoveDrainEnd (part : Nat) (s : State) : Out :=
  match rmRunning (getPart s part) 1 with
  | some r => .next (rmPhase s part r 2)
  | none => .next s

/-- R165: is a write that was translated through the range still to become visible: of a transfer command that publishes,
of a transaction that commits, on its way to another package? -/
def rmBusy (s : State) (key : Nat) (r : RmReq) : Bool :=
  s.ops.any (fun x => x.2.ctx == key && x.2.st == .publishing && (!x.2.staged.isEmpty || !x.2.units.isEmpty) &&
    (let v := xPages x.2; rmOver r v.1 || rmOver r v.2)) ||
  s.groups.any (fun x => gCtx s x.2 == key && !x.2.commits.isEmpty) ||
  unackedFlows s (key / 64)
/-- Every dirty byte that any cache of the package holds goes to its home. -/
def writeBackAll (s : State) : State :=
  let s := s.l1.foldl (fun s x => l1Back s (x.1 / 2 ^ 42) (x.1 % 2 ^ 42)) s
  let s := (s.dc.filter (fun x => isGuest s (x.1 / 2 ^ 42) (x.1 % 2 ^ 42))).foldl (fun s x => dcBack s (x.1 / 2 ^ 42) (x.1 % 2 ^ 42)) s
  (s.dc.filter (fun x => !isGuest s (x.1 / 2 ^ 42) (x.1 % 2 ^ 42))).foldl (fun s x => homeBack s (x.1 / 2 ^ 42) (x.1 % 2 ^ 42) false) s
/-- Every reduction that groups of a context have issued is performed. -/
def popAllReds (s : State) (key : Nat) : State :=
  s.groups.foldl (fun s x => if gCtx s x.2 == key then popReds s x.1 x.2.reds.length else s) s
/-- R165 phase 2, R167, R273: the writes are visible at .sys, the marked entries are removed, RmDone advances, and commands
that wait for the Remove start again. -/
def execRemoveConfirm (part : Nat) (s : State) : Out :=
  match rmRunning (getPart s part) 2 with
  | none => .next s
  | some r =>
    let key := 64 * part + r.ctx
    if rmBusy s key r then .next s
    else
      let s := writeBackAll (popAllReds s key)
      let s := dropDraining s key r.va (2 ^ r.sizeLog)
      let s := { s with pages := s.pages.filter (fun x => !(x.2.ctx == key && r.va ≤ x.2.va && x.2.va < r.va + 2 ^ r.sizeLog)) }
      let s := updPart (rmDrop s part r) part (fun q => { q with rmDone := r.gen })
      .next ((s.ops.filter (fun x => x.2.ctx == key && x.2.st == .retrying)).foldl (fun s x => xTry s x.1) s)

/-- R164, R170, R273: the oldest Notify: logged writes of its pages replay, parked commands try again. -/
def execRmNotify (part : Nat) (s : State) : Out :=
  match rmHead (getPart s part) 1 with
  | none => .next s
  | some r =>
    let key := 64 * part + r.ctx
    let s := rmDrop s part r
    let s := s.cores.foldl (fun s c => replayLog s c.1 (fun e => e.ctx == key && rmOver r [e.va])) s
    .next ((s.ops.filter (fun x => x.2.ctx == key && x.2.st == .parked &&
      (let v := xPages x.2; x.2.folios.isEmpty && (rmOver r v.1 || rmOver r v.2 || (v.1.isEmpty && v.2.isEmpty))))).foldl (fun s x => xTry s x.1) s)
/-- R164, R172: the oldest Donate: a frame for the migration pool of its die and size. -/
def execRmDonate (part : Nat) (s : State) : Out :=
  match rmHead (getPart s part) 2 with
  | none => .next s
  | some r =>
    let s := rmDrop s part r
    if !paOk r.va || isHost r.va then .next s
    else .next (poolFrame s part (poolPlace s r.va) r.sizeLog r.va)

/-! ### Migration (R167, R168, R172 to R174) -/

/-- R168: a Remove over a page that can start does so before anything else happens to the page. -/
def removeFirst (s : State) (pg : Page) (f : State → State) : State :=
  if removeDue s pg.ctx pg.va then
    (match execRmRemove (pg.ctx / 64) s with
     | .next t => t
     | _ => s)
  else f s
/-- R173 steps 3 to 5: the page is copied and its leaf replaced when it still holds the value read at the trigger. The first move
opens the window of 1 ms (R174). -/
def moveDone (s : State) (page : Nat) (pg : Page) (die frame leaf addr : Nat) : State :=
  let part := pg.ctx / 64
  let len := 2 ^ pg.size
  if moveBusy s page len || !reachable s frame || stackBusy s page || stackBusy s frame then s else
  let s := flushRange (popRange s page len) page len
  if memRead s addr 8 = leaf then
    let s := memCopy (sendCopy s part frame len) page frame len
    let s := memWrite s addr 8 (setFld leaf 48 16 (frame / 2 ^ 16))
    let s := poolFrame s part (poolPlace s page) pg.size page
    let s := { s with pages := mset (mdel s.pages page) frame { pg with
      moving := none, moves := pg.moves + 1, window := true, windowLeft := if pg.window then pg.windowLeft else 1000000, counts := [] } }
    dropDraining s pg.ctx pg.va len
  else
    let s := poolFrame s part die pg.size frame
    dropDraining { s with pages := mdel s.pages page } pg.ctx pg.va len
def execMigrationCopyDone (page : Nat) (s : State) : Out :=
  match mfind s.pages page with
  | none => .next s
  | some pg => match pg.moving with
    | none => .next s
    | some (die, frame, leaf, addr) => .next (removeFirst s pg (fun s => moveDone s page pg die frame leaf addr))
/-- R174: the 1 ms window of a page ends. -/
def execMigrationWindowExpire (page : Nat) (s : State) : Out :=
  .next (match mfind s.pages page with
    | some p => if p.window && p.windowLeft = 0 then removeFirst s p (fun s => setPage s page (fun p => { p with window := false, moves := 0 })) else s
    | none => s)
/-- R167: the settle timer of a page expires. -/
def execMigrationSettleExpire (page : Nat) (s : State) : Out :=
  .next (match mfind s.pages page with
    | some p => if p.settled && p.settleLeft = 0 then removeFirst s p (fun s => setPage s page pageExpire) else s
    | none => s)

end Sys2Proof.Machine
end

