-- ==== Sys2Proof/Machine/Link.lean ====
section
/-! DEFINITION. Link (R374 to R386): host requests and their windows, fabric flits and flows, port states, device time. -/

namespace Sys2Proof.Machine

/-! ### Host requests (R374 to R376) -/

/-- A host window's 256-bit record (R375). -/
def hostWindow (s : State) (part w : Nat) : Nat := mget 0 (getPart s part).windows w
/-- The physical address of an offset in this package's HBM (R159). -/
def pkgPa (s : State) (off : Nat) : Nat := s.pkg * 2 ^ 40 + off
/-- A partition's memory: base in the package's HBM and size; until firmware says otherwise an eighth each (assumption log 8). -/
def hdmOf (s : State) (part : Nat) : Nat × Nat := (mfind s.hdm part).getD (part * (96 * 2 ^ 30), 96 * 2 ^ 30)
/-- The physical address of an offset in a partition's memory (R374, assumption log 8). -/
def hostPa (s : State) (part off : Nat) : Nat := pkgPa s ((hdmOf s part).1 + off)
/-- R375: the first valid window of the requester decides; the freeze reason when it does not admit the request. -/
def hostCheck (s : State) (q : HostReq) : Option Nat :=
  match (List.range 8).find? (fun w => let r := hostWindow s q.part w; bitAt r 144 && fld r 143 128 == q.requester.toNat) with
  | none => some 7
  | some w =>
    let r := hostWindow s q.part w
    if fld r 47 0 ≤ q.off && q.off + q.len ≤ fld r 111 64 && (q.data.isNone || bitAt r 145) then
      (if q.off + q.len ≤ (hdmOf s q.part).2 && (hdmOf s q.part).1 + q.off + q.len ≤ 768 * 2 ^ 30 then none else some 2)
    else some 7
/-- Bytes written at their homes in this package. -/
def hostPuts (s : State) (pa : Nat) (l : List Byte) (pz : BitVec 4) : State :=
  (runs ((List.range l.length).map (fun i => (pa + i, l.getD i 0)))).foldl (fun s r =>
    homeWrite s (sectorOf r.1) (byteMask (r.1 % 128) r.2.length) (secData (r.1 % 128) r.2) pz 0) s
/-- An admitted request: a read meets the granules' errors, a write or an atomic reaches the home. -/
def hostDo (s : State) (q : HostReq) : State :=
  let pa := hostPa s q.part q.off
  match q.data with
  | none => eccTouches s (granOf pa) (granOf (pa + q.len + 31) - granOf pa)
  | some l => match q.atom with
    | none => hostPuts s pa (l.take q.len) 0
    | some f =>
      let s := eccTouches s (granOf pa) (granOf (pa + q.len + 31) - granOf pa)
      if (List.range q.len).any (fun i => grPoison s (granOf (pa + i))) then s
      else hostPuts s pa (toBytes q.len (Config.hostAtomic f (memRead s pa q.len) (ofBytes l))) 0
def reqFrozen (s : State) (r : Nat) : Bool := s.frozen.any (fun f => f.2.1 == .requester r)
/-- R392, R396: does a byte of the request lie in a region or on a stack that changes? -/
def hostBusy (s : State) (q : HostReq) : Bool :=
  (sectorsOf ((List.range q.len).map (hostPa s q.part q.off + ·))).any (fun sec => stackBusy s (128 * sec))
/-- R76, R375: a request of a frozen requester is held, and so is one behind a held one or one whose memory is being changed; a
violation freezes the requester and holds the request. -/
def hostRun (s : State) (q : HostReq) : State :=
  let r := q.requester.toNat
  if reqFrozen s r || s.heldReqs.any (fun h => h.requester == q.requester) then { s with heldReqs := s.heldReqs ++ [q] }
  else match hostCheck s q with
    | none => if hostBusy s q then { s with heldReqs := s.heldReqs ++ [q] } else hostDo s q
    | some k =>
      takeFreeze { s with heldReqs := s.heldReqs ++ [q] } q.part none (.requester r) 3 r k 0 (hostPa s q.part q.off)
        (if q.data.isNone then 1 else if q.atom.isSome then 4 else 2)
/-- The held requests of requesters that are not frozen are checked again in order. -/
def hostWake (s : State) : State :=
  let mine := s.heldReqs.filter (fun q => !reqFrozen s q.requester.toNat)
  mine.foldl hostRun { s with heldReqs := s.heldReqs.filter (fun q => reqFrozen s q.requester.toNat) }
def execHostRequest (req : HostReq) (s : State) : Out :=
  if s.booted && req.part < 8 && (match req.data with | some l => l.length == req.len | none => req.atom.isNone) then .next (hostRun s req) else .next s

/-! ### Port states (R383) -/

/-- The bytes that a write put stand again as before it, where nothing has written them since. -/
def unput (s : State) (pa : Nat) (put old : List Byte) : State :=
  put.zipIdx.foldl (fun s x => if memByte s (pa + x.2) == x.1 then memPut s (pa + x.2) (old.getD x.2 0) else s) s
/-- R384: a flit on its way to a package that is unreachable now is abandoned: its write or reduction is discarded, also from the L1s
that hold clean copies of its line, with the deferred record that a store to such a package leaves. -/
def abandonFlit (s : State) (dst : Nat) (f : FlitS) : State :=
  let pa := dst * 2 ^ 40 + f.off
  let s := { s with l1 := s.l1.filter (fun x => x.1 % 2 ^ 42 != sectorOf pa) }
  tagRecord (unput s pa f.put f.old) f.tag 0x41 (detMem 0 f.size f.op true 3 (pa / 32 * 32))
/-- R384: every flit without acknowledgement to the packages that are lost, the latest first. -/
def abandonFlits (s : State) (lost : Nat → Bool) : State :=
  let gone := (s.flowsT.filter (fun x => lost (x.1 / 64))).flatMap (fun x => (x.2.unacked.filter (fun f => f.kind == 0 || f.kind == 3)).reverse.map (fun f => (x.1 / 64, f)))
  let s := gone.foldl (fun s x => abandonFlit s x.1 x.2) s
  { s with flowsT := s.flowsT.map (fun x => if lost (x.1 / 64) then (x.1, { x.2 with unacked := [] }) else x) }
/-- R380: a flit sent again, on the next port of the round robin. -/
def resend (s : State) (key : Nat) (f : FlitS) : State × FlitS :=
  match nextPort s with
  | none => (s, f)
  | some q => (toWire (usePort s q) q ⟨some (key / 64), key % 64, { f with port := q }⟩, { f with port := q })
/-- R380: the flits of a flow that went out on a port go out again. -/
def moveFlow (s : State) (q key : Nat) (t : FlowT) : State :=
  let r := t.unacked.foldl (fun (r : State × List FlitS) f =>
    let x := if f.port == q then resend r.1 key f else (r.1, f)
    (x.1, r.2 ++ [x.2])) (s, [])
  { r.1 with flowsT := mset r.1.flowsT key { t with unacked := r.2 } }
/-- R380: the unacknowledged flits of a port go out again on the next live ports; with none left they are abandoned (R384). -/
def moveFlits (s : State) (q : Nat) : State :=
  if (List.range 24).any (portLive s) then s.flowsT.foldl (fun s x => moveFlow s q x.1 x.2) s
  else abandonFlits s (fun _ => true)
/-- A port enters a state: vector 4 in every partition; a port that leaves the round robin hands its flits on. -/
def setPort (s : State) (q : Nat) (f : Port → Port) : State :=
  let old := (mfind s.ports q).getD {}
  let new := let p := f old
    if p.st == old.st then p else { p with half := false, retrains := p.retrains + (p.st == 4).toNat }
  if new.st == old.st then { s with ports := mset s.ports q new }
  else
    let s := setIntAll { s with ports := mset s.ports q (if new.st == 2 || new.st == 3 then new else { new with replayBuf := [], replays := [], asked := false }) } 4
    if (old.st == 2 || old.st == 3) && !(new.st == 2 || new.st == 3) then moveFlits s q else s
def portSt (s : State) (q : Nat) : Nat := ((mfind s.ports q).getD {}).st
/-- A port event, for the 24 ports only. -/
def portEv (s : State) (q : Nat) (go : State) : Out := if q < 24 then .next go else .next s
def execPortEnable (port : Nat) (s : State) : Out :=
  portEv s port (if portSt s port = 0 then setPort s port (fun p => { p with st := 1, attempts := 0 }) else s)
def execPortFence (port : Nat) (s : State) : Out :=
  portEv s port (if portSt s port = 5 then s else setPort s port (fun p => { p with st := 5, lanes := 0 }))
def execPortUnfence (port : Nat) (s : State) : Out :=
  portEv s port (if portSt s port = 5 then setPort s port (fun p => { p with st := 1, attempts := 0 }) else s)
def execPortTrainingResult (port lanes : Nat) (s : State) : Out :=
  let up := fun (p : Port) => { p with st := if lanes = 8 then 2 else 3, lanes := lanes }
  portEv s port (match portSt s port with
    | 1 =>
      if lanes = 8 || lanes = 4 then setPort s port up
      else setPort s port (fun p => if p.attempts + 1 = 3 then { p with st := 0, attempts := 0, lanes := 0 } else { p with attempts := p.attempts + 1 })
    | 4 => if lanes = 8 || lanes = 4 then setPort s port up else s
    | _ => s)
def execPortLaneLoss (port : Nat) (s : State) : Out :=
  portEv s port (if portLive s port then setPort s port (fun p => { p with st := 4, lanes := p.lanes - 1 }) else s)
def execPortKeepaliveLoss (port : Nat) (s : State) : Out :=
  portEv s port (if portLive s port then setPort s port (fun p => { p with st := 0, lanes := 0 }) else s)
def execPortRetrainTimeout (port : Nat) (s : State) : Out :=
  portEv s port (if portSt s port = 4 then setPort s port (fun p => { p with st := 0, lanes := 0 }) else s)
/-- R378, R383: a replay: the flits that the port keeps go out again in their order; the sixteenth replay within 1 ms sends the port to
Retraining instead. -/
def execFlitReplay (port : Nat) (s : State) : Out :=
  portEv s port (if !portLive s port then s else
    let t := s.time :: ((mfind s.ports port).getD {}).replays.filter (fun t => s.time < t + 1000000)
    if 16 ≤ t.length then setPort s port (fun p => { p with st := 4 })
    else setPort s port (fun p => { p with replays := t, wire := p.wire ++ p.replayBuf }))
/-- R378: the replay that a port has asked for begins with the flit that it dropped. -/
def replayBegins (s : State) (q : Nat) : State := if q < 24 && portLive s q then setPort s q (fun p => { p with asked := false }) else s
/-- R378: an idle flit goes out on a live port as a keepalive. -/
def execKeepaliveSend (port : Nat) (s : State) : Out :=
  portEv s port (if portLive s port then toWire s port ⟨none, 0, { kind := 7, port := port }⟩ else s)
/-- R384: function 0 marks a package: its flits on the way are abandoned. -/
def execMarkUnreachable (pkg : Nat) (s : State) : Out :=
  if pkg ≤ 143 && pkg != s.pkg then
    .next (abandonFlits { s with unreachable := mset s.unreachable pkg true } (· == pkg))
  else .next s

/-! ### Flits received (R377 to R380) -/

def flKind (f : Nat) : Nat := fld f 51 48
def flSeq (f : Nat) : Nat := fld f 47 24
/-- R377: a header that is dropped. -/
def flitBad (f : Nat) : Bool :=
  crc16 f 14 != fld f 127 112 || 9 ≤ flKind f || fld f 23 22 != 0 || fld f 63 57 != 0 || fld f 111 104 != 0
/-- The bytes of a write flit: offset and byte. -/
def flitBytes (f : Nat) : List (Nat × Byte) :=
  (List.range (16 * fld f 55 52)).map (fun i => (fld f 103 64 + i, BitVec.ofNat 8 (f >>> (128 + 8 * i))))
/-- A write flit applied, less the bytes that later flits of its flow have written (R192). -/
def flitWrite (s : State) (f : Nat) (later : List Nat) : State :=
  let later_ := later.flatMap (fun g => if flKind g == 0 then (flitBytes g).map (·.1) else [])
  let l := (flitBytes f).filter (fun b => b.1 < 768 * 2 ^ 30 && !later_.contains b.1)
  (runs (l.map (fun b => (pkgPa s b.1, b.2)))).foldl (fun s r =>
    homeWrite s (sectorOf r.1) (byteMask (r.1 % 128) r.2.length) (secData (r.1 % 128) r.2) (if bitAt f 56 then 15 else 0) 0) s
/-- The response to a flit: back to its source on the flow of its number. -/
def respond (s : State) (f kind : Nat) (l : List Byte) (bad : Bool) : State :=
  if !reachable s (fld f 15 8 * 2 ^ 40) then s
  else sendFlit s (fld f 15 8) (fld f 21 16) { kind := kind, off := fld f 103 64, data := l, poison := bad } true
/-- R377: a read request served at its home: its granules' errors are met, and the bytes go back. -/
def flitRead (s : State) (flit : BitVec 2048) : State :=
  let f := flit.toNat
  let pa := pkgPa s (fld f 103 64)
  let n := min (Config.readLen flit) 240
  if 768 * 2 ^ 30 < fld f 103 64 + n then s else
  let s := (sectorsOf ((List.range n).map (pa + ·))).foldl (fun s sec => (homeRead s sec).1) s
  respond s f 2 (memBytes s pa n) ((List.range n).any (fun i => grPoison s (granOf (pa + i))))
/-- R377, R380: an atomic performed once at its home; the old value goes back. One that meets poison writes nothing (R228). -/
def flitAtomic (s : State) (flit : BitVec 2048) : State :=
  let f := flit.toNat
  let pa := pkgPa s (fld f 103 64)
  let (fn, t, b, cmp) := Config.atomicFlit flit
  let n := atomB t
  if 768 * 2 ^ 30 < fld f 103 64 + n || pa % n != 0 then s else
  let s := (homeRead s (sectorOf pa)).1
  let old := memRead s pa n
  if grPoison s (granOf pa) then respond s f 4 (toBytes n old) true
  else respond (homeWrite s (sectorOf pa) (byteMask (pa % 128) n) (secData (pa % 128) (toBytes n (atomStepNew fn t cmp b old))) 0 0) f 4 (toBytes n old) false
/-- A flit takes effect; responses, time and control flits change no memory. -/
def flitDo (s : State) (flit : BitVec 2048) (later : List Nat) : State :=
  match flKind flit.toNat with
  | 0 => flitWrite s flit.toNat later
  | 1 => flitRead s flit
  | 3 => flitAtomic s flit
  | _ => s
/-- R392, R396: does a flit's effect wait for the end of a change? -/
def flitBusy (s : State) (f : Nat) : Bool :=
  (flKind f == 0 || flKind f == 1 || flKind f == 3) && stackBusy s (pkgPa s (fld f 103 64))
/-- The distance of a sequence number from the next one expected. -/
def seqDist (x next : Nat) : Nat := (x + 2 ^ 24 - next) % 2 ^ 24
/-- Flits at the head of the sequence leave the reorder buffer; those not yet delivered are delivered, unless the head waits for the end
of a change. -/
def flowDrain (s : State) (r : FlowR) (fuel : Nat) : State × FlowR :=
  match fuel with
  | 0 => (s, r)
  | n + 1 => match r.held.find? (fun h => h.1 == r.next) with
    | none => (s, r)
    | some h =>
      if !r.seen.contains h.1 && flitBusy s h.2.toNat then (s, r) else
      let s := if r.seen.contains h.1 then s
        else flitDo s h.2 ((r.held.filter (fun g => g.1 != h.1 && r.seen.contains g.1)).map (fun g => g.2.toNat))
      flowDrain s { r with next := (r.next + 1) % 2 ^ 24, held := r.held.filter (fun g => g.1 != h.1), seen := r.seen.filter (· != h.1) } n
/-- R380: a flow's flits up to the one expected next are acknowledged. -/
def ackFlow (s : State) (key : Nat) (r : FlowR) : State :=
  let s := { s with flowsR := mset s.flowsR key { r with since := 0, acked := r.next } }
  (resend s key { kind := 5, seq := r.next }).1
/-- What has come of a flow is delivered as far as it can be; every sixteenth flit is acknowledged. -/
def flowGo (s : State) (key : Nat) (r : FlowR) : State :=
  let x := flowDrain s r 257
  if 16 ≤ x.2.since then ackFlow x.1 key x.2 else { x.1 with flowsR := mset x.1.flowsR key x.2 }
/-- Flits that waited for the end of a change. -/
def flowsWake (s : State) : State := s.flowsR.foldl (fun s x => flowGo s x.1 x.2) s
/-- R172, R380: a flit of a flow: an access from its package, discarded when already delivered, held or delivered by the mode that it
was sent with (R379), acknowledged every 16. An atomic is delivered in its turn, since a write that it overlaps may come before it
(R192, assumption log 63). A request whose response would find no room is not accepted, and comes again. -/
def flowReceive (s : State) (key : Nat) (ordered : Bool) (flit : BitVec 2048) : State :=
  let f := flit.toNat
  let r := (mfind s.flowsR key).getD {}
  let d := seqDist (flSeq f) r.next
  if 256 ≤ d || r.held.any (fun h => h.1 == flSeq f) ||
      ((flKind f == 1 || flKind f == 3) && 256 ≤ (match mfind s.flowsT key with | some t => t.unacked.length | none => 0) + r.held.length) then s
  else
    let s := if flKind f == 0 || flKind f == 1 || flKind f == 3 then countPackage s (fld f 15 8) (pkgPa s (fld f 103 64)) else s
    let early := !ordered && d != 0 && flKind f != 3 && !flitBusy s f
    let s := if early then flitDo s flit ((r.held.filter (fun h => d < seqDist h.1 r.next && r.seen.contains h.1)).map (fun h => h.2.toNat)) else s
    flowGo s key { r with held := r.held ++ [(flSeq f, flit)], seen := if early then r.seen ++ [flSeq f] else r.seen, since := r.since + 1 }
/-- R380: a cumulative acknowledgement of what this package sent. -/
def flowAcked (s : State) (key seq : Nat) : State :=
  match mfind s.flowsT key with
  | none => s
  | some t => { s with flowsT := mset s.flowsT key { t with unacked := t.unacked.filter (fun f => !(seqDist seq f.seq < 2 ^ 23)) } }
/-- R377 to R379: a flit on a live port. A bad one is dropped and counted, and the port asks for a replay; until that begins it takes
no other. Classes 6 and 7 are never used. -/
def execFlitReceived (port : Nat) (flit : BitVec 2048) (s : State) : Out :=
  let f := flit.toNat
  if port < 24 && portLive s port then
    if ((mfind s.ports port).getD {}).asked then .next s
    else if flitBad f then .next (setPort s port (fun p => { p with dropped := (p.dropped + 1) % 2 ^ 32, asked := true }))
    else if fld f 7 0 != s.pkg || 6 ≤ fld f 21 16 % 8 || flKind f = 7 then .next s
    else
      let flow := fld f 21 16
      let key := flowKey (fld f 15 8) flow
      if flKind f = 5 then .next (flowAcked s key (flSeq f))
      else .next (flowReceive s key (flow % 8 < 4 && Config.flitOrdered flit) flit)
  else .next s
def execFlowAckTimer (src flow : Nat) (s : State) : Out :=
  match mfind s.flowsR (flowKey src flow) with
  | some r => if r.since = 0 then .next s else .next (ackFlow s (flowKey src flow) r)
  | none => .next s
/-- R380, R384: the oldest flit without acknowledgement goes out on the next port; none does to an unreachable package. -/
def execFlowRetransmitTimeout (dst flow : Nat) (s : State) : Out :=
  match mfind s.flowsT (flowKey dst flow) with
  | some t => match t.unacked with
    | f :: rest =>
      let x := resend s (flowKey dst flow) f
      .next { x.1 with flowsT := mset x.1.flowsT (flowKey dst flow) { t with unacked := x.2 :: rest } }
    | [] => .next s
  | none => .next s

/-! ### Device time (R385, R386) -/

/-- R385: the time is set, while not locked and forward only. -/
def setTime (s : State) (v : Nat) : State := if !s.timeLocked && s.time < v then { s with timeSet := v, time := v } else s
def execTimesetWrite (val : W64) (s : State) : Out := .next (setTime s val.toNat)
/-- R386: the two flits of a two-step sync go out on every live port, to the port's link, as class-5 traffic. -/
def sendSync (s : State) (q : Nat) : State :=
  if !portLive s q then s else
  let key := flowKey s.pkg 5
  let t := (mfind s.flowsT key).getD {}
  let f := fun (n : Nat) => WireF.mk none 5 { kind := 6, seq := (t.next + n) % 2 ^ 24, port := q }
  toWire (toWire { s with flowsT := mset s.flowsT key { t with next := (t.next + 2) % 2 ^ 24 } } q (f 0)) q (f 1)
/-- R386: the grandmaster sends a sync over every port. -/
def execTimeSyncSend (s : State) : Out := .next (if s.timeMaster then (List.range 24).foldl sendSync s else s)
/-- R386: a port measures its path delay. -/
def pathDelay (s : State) (q ns : Nat) : State := if q < 24 then { s with ports := mset s.ports q { (mfind s.ports q).getD {} with delay := ns } } else s
/-- R385, R386: a sync's measured offset, from the fabric (source 1) on a live port or from the host (source 2); eight in a row under
25 ns lock the unit, a larger one unlocks it. What was measured is corrected by rate from here on. -/
def execTimeSyncReceive (port : Nat) (offset : W32) (s : State) : Out :=
  if s.timeSource != 2 && (s.timeSource != 1 || !portLive s port) then .next s
  else
    let ok := offset.toInt.natAbs < 25
    let n := if ok then min 8 (s.syncGood + 1) else 0
    let s' := { s with timeOffset := offset, slew := -(10000 * offset.toInt), syncGood := n, timeLocked := n == 8 || (s.timeLocked && ok) }
    .next (if s.timeLocked && !ok then setIntAll s' 5 else s')
/-- R386: 64 ms without a sync: the unit runs on its own oscillator. -/
def execTimeLockLoss (s : State) : Out :=
  .next (if s.timeLocked then setIntAll { s with timeLocked := false, syncGood := 0, slew := 0 } 5 else s)
/-- R385, R386: the device time after some ns of its own oscillator, modulo 2^64: what is left to correct goes in or out at no more than
100 ppm, so it never goes back (assumption log 118). -/
def advanceTime (s : State) (ns : Nat) : State :=
  let c := max (-(ns : Int)) (min (ns : Int) s.slew)
  let a := s.slewFrac + c
  { s with time := ((s.time + ns : Int) + a / 10000).toNat % 2 ^ 64, slew := s.slew - c, slewFrac := a % 10000 }

/-! ### The package number (R439) -/

/-- An address of this package's HBM under another number; one of the package that had that number takes the old one. -/
def swapPkg (a b pa : Nat) : Nat :=
  if isHost pa then pa else if paPkg pa = a then b * 2 ^ 40 + paOff pa else if paPkg pa = b then a * 2 ^ 40 + paOff pa else pa
/-- R439: the package's storage answers to its new number: memory, marks, caches and page state keep what they hold. -/
def renumber (s : State) (b : Nat) : State :=
  let a := s.pkg
  let u := fun (n k : Nat) => swapPkg a b (n * k) / n
  let key := fun {α : Type} (n : Nat) (m : AMap α) => m.foldl (fun r x => mset r (u n x.1) x.2) []
  let sec := fun (k : Nat) => k / 2 ^ 42 * 2 ^ 42 + u 128 (k % 2 ^ 42)
  { s with
    pkg := b,
    mem := s.mem.foldl (fun m c => mput 0 m (swapPkg a b c.1) c.2) [],
    veils := s.veils.map (fun v => { v with lo := swapPkg a b v.lo, org := v.org + v.lo - swapPkg a b v.lo }),
    poison := key 32 s.poison, ecc := key 32 s.ecc, tags := key 32 s.tags, foundDc := key 32 s.foundDc,
    eccDc := s.eccDc.foldl (fun r x => mset r (4 * sec (x.1 / 4) + x.1 % 4) x.2) [],
    l1 := s.l1.foldl (fun r x => mset r (sec x.1) x.2) [],
    dc := s.dc.foldl (fun r x => mset r (sec x.1) x.2) [],
    pages := key 1 s.pages }
def setPkg (s : State) (v : Nat) : State :=
  let n := v % 256
  if n ≤ 143 && n != s.pkg && (List.range 24).all (fun q => portSt s q == 0 || portSt s q == 5) then renumber s n else s
def execPackageNumberWrite (val : W64) (s : State) : Out := .next (setPkg s val.toNat)

end Sys2Proof.Machine
end

