-- ==== Sys2Proof/Machine/Stack.lean ====
section
/-! DEFINITION. Stack (R390 to R396): ganging, change of data rate, scrubbing. -/

namespace Sys2Proof.Machine

def getStack (s : State) (t : Nat) : Stack := (mfind s.stackCtl t).getD {}
/-- The physical base of a stack (R390). -/
def stackBase (s : State) (t : Nat) : Nat := s.pkg * 2 ^ 40 + t * (64 * 2 ^ 30)
/-- A stack event, for the 12 stacks only. -/
def stackEv (s : State) (t : Nat) (go : State) : Out := if t < 12 then .next go else .next s

/-- R392: a write of Gang: every region of which a bit changes, now or by an earlier write that is not yet in effect, is initialised; until
then accesses to it wait (`stackBusy`). -/
def gangSet (s : State) (t : Nat) (v : W64) : State :=
  updStack s t (fun k =>
    let m := k.gangMask ||| (k.gangNew.getD k.gang ^^^ v)
    { k with gangNew := if m = 0 then none else some v, gangMask := m })
def execGangWrite (stack : Nat) (val : W64) (s : State) : Out := stackEv s stack (gangSet s stack val)
/-- What waited for a region or a stack goes on. -/
def changeOver (s : State) : State := flowsWake (hostWake s)
/-- R392: the changed regions have been set to zero, and the change is in effect. -/
def gangDone (s : State) (t : Nat) : State :=
  let k := getStack s t
  match k.gangNew with
  | none => s
  | some n =>
    let s := (List.range 64).foldl (fun s r =>
      if k.gangMask.getLsbD r then
        (let lo := stackBase s t + r * 2 ^ 30
         let s := memZero s lo (2 ^ 30)
         { s with ecc := s.ecc.filter (fun x => !(lo / 32 ≤ x.1 && x.1 < (lo + 2 ^ 30) / 32)) })
      else s) s
    changeOver (updStack s t (fun k => { k with gang := n, gangNew := none, gangMask := 0 }))
def execGangInitDone (stack : Nat) (s : State) : Out := stackEv s stack (gangDone s stack)

/-- R396: does a save write into a save area on the stack? One writes when a group of its context is ready to write its record. -/
def saveOn (s : State) (t : Nat) : Bool :=
  s.ctxs.any (fun c => c.2.st == .draining &&
    (let pa := fld (ctxDesc s c.1) 191 128 / 4096 * 4096
     isLocal s pa && stackOf pa == t) &&
    s.groups.any (fun g => gCtx s g.2 == c.1 && g.2.st == .stopping && stopDone s g.1 g.2))
/-- R391, R396: RateGo: the change starts, or is deferred behind a save. -/
def rateRequest (s : State) (t : Nat) : State :=
  let k := getStack s t
  if k.rateStatus == 1 || k.rateStatus == 3 then s
  else updStack s t (fun k => { k with rateGo := true, rateTo := k.rateWant, rateStatus := if saveOn s t then 3 else 1 })
def execRateChangeRequest (stack : Nat) (s : State) : Out := stackEv s stack (rateRequest s stack)
/-- R396: a deferred change starts when the last save has ended. -/
def execRateChangeStart (stack : Nat) (s : State) : Out :=
  stackEv s stack (if (getStack s stack).rateStatus == 3 && !saveOn s stack then updStack s stack (fun k => { k with rateStatus := 1, rateTo := k.rateWant }) else s)
/-- R396: the change ends; where training failed the former rate stays. What waited for the stack goes on. -/
def execRateChangeDone (stack : Nat) (ok : Bool) (s : State) : Out :=
  stackEv s stack (if (getStack s stack).rateStatus == 1 then
    changeOver (updStack s stack (fun k => if ok then { k with rate := k.rateTo, rateStatus := 2, rateGo := false }
      else { k with rateWant := if k.rateWant = k.rateTo then k.rate else k.rateWant, rateStatus := 4, rateGo := false }))
  else s)

/-- Does the stack's next scrub read wait for the end of a change (R392, R396)? -/
def scrubBusy (s : State) (t : Nat) : Bool := stackBusy s (stackBase s t + 128 * (getStack s t).scrubPos)
/-- R395: the next sector of a pass is read, its errors corrected or marked. -/
def scrubStep (s : State) (t : Nat) : State :=
  let k := getStack s t
  let s := eccTouches s (granOf (stackBase s t + 128 * k.scrubPos)) 4
  updStack s t (fun k =>
    let n := (k.scrubPos + 1) % 2 ^ 29
    { k with scrubPos := n, passStart := if n = 0 then s.time else k.passStart })
/-- R395: how far a pass is due. -/
def scrubDue (s : State) (k : Stack) : Nat := (s.time - k.passStart) * 2 ^ 29 / (k.scrubHours * 3600000000000)
def execScrubRead (stack : Nat) (s : State) : Out :=
  let k := getStack s stack
  stackEv s stack (if k.scrubHours = 0 || k.scrubThresh = 0 || scrubBusy s stack then s else scrubStep s stack)
/-- R395: has the deadline escalator a read to issue: it begins when the pass is 2^25 sectors late and goes on until it has caught
up. -/
def scrubLate (s : State) (k : Stack) : Bool :=
  k.scrubHours != 0 && (k.scrubPos + 2 ^ 25 ≤ scrubDue s k || (k.escal && k.scrubPos < scrubDue s k))
def execScrubEscalateTick (stack : Nat) (s : State) : Out :=
  let k := getStack s stack
  stackEv s stack (if scrubBusy s stack then s else if scrubLate s k then updStack (scrubStep s stack) stack (fun k => { k with escal := true })
    else if k.escal then updStack s stack (fun k => { k with escal := false }) else s)

end Sys2Proof.Machine
end

