-- ==== Sys2Proof/Machine/Watch.lean ====
section
/-! DEFINITION. Watch and trust (R397 to R409): samples and markers, counters, histograms, boot, attestation, power. -/

namespace Sys2Proof.Machine

/-! ### Samples and markers (R397 to R401) -/

def smpLogEff (x : Nat) : Nat := if 8 ≤ x && x ≤ 20 then x else 8
/-- R398: a record into a partition's sample ring, dropped and counted when the ring is full. -/
def smpPush (s : State) (p rec : Nat) : State :=
  let q := getPart s p
  let n := 2 ^ smpLogEff q.smpLog
  if !q.smpEn then s
  else if (q.smpProd + 2 ^ 32 - q.smpCons) % 2 ^ 32 = n then updPart s p (fun q => { q with smpDropped := (q.smpDropped + 1) % 2 ^ 32 })
  else updPart (memWrite s (q.smpBase + 32 * (q.smpProd % n)) 32 rec) p (fun q => { q with smpProd := (q.smpProd + 1) % 2 ^ 32 })
/-- A record of R399. -/
def smpRec (s : State) (g : Group) (reason kind value : Nat) : Nat :=
  mkRec [(63, 0, g.pc), (67, 64, reason), (69, 68, kind), (71, 70, g.last), (80, 72, g.core), (86, 81, g.slot),
    (92, 87, gCtx s g % 64), (127, 96, value), (191, 128, s.time), (255, 192, g.region.entry)]
/-- R401: a marker record; the region closes. -/
def execMark (p : P) (s : State) : Out :=
  withG s (fun gid _ g =>
    if actsOnce g p.h then fin (smpPush s (gPart s g) (smpRec s g 0 1 (valN g p.a % 2 ^ 32))) gid p true
    else fin s gid p true)
/-- R398: the resident groups of a core in slot order. -/
def residents (s : State) (core : Nat) : List (Nat × Group) :=
  (List.range 48).flatMap (fun n => (s.groups.filter (fun x => x.2.resident && x.2.core == core && x.2.slot == n)))
/-- R398: a core draws a number and samples the resident group that it chooses. -/
def execPcSampleTick (core draw : Nat) (s : State) : Out :=
  if 384 ≤ core then .next s else
  let gs := residents s core
  let s := { s with lfsr := mset s.lfsr core (BitVec.ofNat 32 draw) }
  match gs[draw % 2 ^ 32 % gs.length]? with
  | none => .next s
  | some (gid, g) => .next (smpPush s (gPart s g) (smpRec s g (reasonOf s gid g) 0 0))

/-! ### Counters (R403 to R405) -/

/-- R404: the selections that name an event, and 0. -/
def selOk (v : Nat) : Bool := v ≤ 0x0D || (0x40 ≤ v && v < 0x50)
/-- R403: the counters that a change of selections has made count in the slice in progress have it among their counted slices. -/
def ctrJoin (s : State) (p : Nat) : State :=
  let act := ctrActive s p
  updPart s p (fun q => { q with ctrs := q.ctrs.map (fun x =>
    if act.contains x.1 && !x.2.inSlice then (x.1, { x.2 with inSlice := true, counted := x.2.counted + 1 }) else x) })
/-- R403: a selection is written and the counter starts anew in the slice in progress. -/
def ctrSelect (s : State) (p i v : Nat) : State :=
  if !selOk v then s
  else ctrJoin (updPart s p (fun q => { q with ctrs := mput {} q.ctrs i (if v = 0 then {} else { sel := v, elapsed := 1 }) })) p
def execCounterSelectWrite (part i : Nat) (val : W64) (s : State) : Out :=
  if part < 8 && i < 64 then .next (ctrSelect s part i (val.toNat % 256)) else .next s
/-- R403: the next slice begins. -/
def execCounterSlice (s : State) : Out :=
  let s := { s with slice := s.slice + 1 }
  .next ((List.range 8).foldl (fun s p =>
    if (mfind s.parts p).isNone then s else
    let act := ctrActive s p
    updPart s p (fun q => { q with ctrs := q.ctrs.map (fun x => if x.2.sel = 0 then x else
      (x.1, { x.2 with elapsed := x.2.elapsed + 1, inSlice := act.contains x.1, counted := x.2.counted + (act.contains x.1).toNat })) })) s)
/-- Two results under a scoreboard in the pair that D names. -/
def pendS2 (g : Group) (d : Dst) (lo hi : Nat) : Group :=
  match dstS d with
  | some n => addPend g [.s n (BitVec.ofNat 64 lo), .s (n + 1) (BitVec.ofNat 64 hi)]
  | none => g
def execRdctr (p : P) (s : State) : Out :=
  withG s (fun gid _ g =>
    if !actsOnce g p.h then fin s gid p false
    else
      let i := valN g p.a
      if 63 < i then trapIllegal s gid .rdctr p
      else
        let c := mget {} (getPart s (gPart s g)).ctrs i
        let seen := (fld (ctxDesc s (gCtx s g)) 447 384).testBit i
        fin (updG s gid (fun g => if seen then pendS2 g p.d (ctrVal s (gCtx s g / 64) i) (c.counted % 2 ^ 32 + 2 ^ 32 * (c.elapsed % 2 ^ 32))
          else pendS2 g p.d 0 0)) gid p false)
def execRdctrSel (p : P) (s : State) : Out :=
  withG s (fun gid _ g =>
    if !actsOnce g p.h then fin s gid p false
    else if !holdsRight s (gCtx s g) 2 then freeze s gid 3 0 0
    else
      let i := valN g p.a
      if 63 < i then trapIllegal s gid .rdctrSel p
      else
        let v := valN g p.b.opnd % 256
        let old := (mget {} (getPart s (gPart s g)).ctrs i).sel
        fin (updG (ctrSelect s (gPart s g) i v) gid (fun g => pendS g p.d (if selOk v then old else 0x100))) gid p false)

/-! ### Histograms, boot, attestation (R406 to R408) -/

/-- Counts of a device's parts since power came, on top of what a record gives of before. -/
def sinceBase (base : List Nat) (l : List Nat) : List Nat := l.zipIdx.map (fun x => x.1 + base.getD x.2 0)
/-- The 16 counts of a histogram, 32 bits each. -/
def binsOf (m : AMap Nat) : List Nat := (List.range 16).map (fun i => mget 0 m i % 2 ^ 32)
/-- R406: the cumulative histograms of now: seconds by temperature, power and inlet, errors per stack, retrains per port. -/
def histNow (s : State) : Hist :=
  let b := s.flash.base.getD { num := 0, stamp := 0, corrected := [], poisoned := [], retrains := [] }
  { num := s.flash.hist, stamp := s.free,
    temp := sinceBase b.temp (binsOf s.tempBins), power := sinceBase b.power (binsOf s.powerBins), inlet := sinceBase b.inlet (binsOf s.inletBins),
    corrected := sinceBase b.corrected ((List.range 12).map (fun t => (getStack s t).corrected)),
    poisoned := sinceBase b.poisoned ((List.range 12).map (fun t => (getStack s t).poisoned)),
    retrains := sinceBase b.retrains ((List.range 24).map (fun q => ((mfind s.ports q).getD {}).retrains)) }
/-- R406: the bins of a temperature from 30 °C in steps of 5 °C and of a power in steps of 200 W; what lies outside counts in the bin at
the end (assumption log 69). -/
def tempBin (t : Nat) : Nat := min 15 ((t - 30) / 5)
def powerBin (p : Nat) : Nat := min 15 (p / 200)
/-- R406: n seconds at the temperatures and the power that the sensors show. -/
def countSeconds (s : State) (n : Nat) : State :=
  if n = 0 then s else
  let add := fun (m : AMap Nat) (i : Nat) => mset m i (mget 0 m i + n)
  { s with tempBins := add s.tempBins (tempBin s.temp), powerBins := add s.powerBins (powerBin s.power),
           inletBins := add s.inletBins (min 15 (Config.inletBin s.inlet)) }
/-- The place of the next record in the ring. -/
def histNext (f : Flash) : Nat := if f.hist = 0 then 0 else (f.newest + 1) % 64
/-- R406: a record is committed; the record before it stays the newest until then. -/
def execHistogramRecord (s : State) : Out :=
  let n := histNext s.flash
  .next { s with free := s.free + 1,
                 flash := { s.flash with ring := mset s.flash.ring n (histNow s), hist := s.flash.hist + 1, newest := n } }
/-- R10, R12: does a list name exactly 48 of a die's 50 physical pairs? -/
def pairsOk (l : List Nat) : Bool := l.length == 48 && l.all (· < 50) && l.eraseDups.length == 48
/-- R407: the boot step that a flash fails, 0 for none: no record, its signature, its version, its pairs (R12), a firmware image, the
link. -/
def bootFail (f : Flash) : Nat :=
  match f.conf with
  | none => 1
  | some c =>
    if c.root != f.rom then 2
    else if c.version < f.minVersion then 3
    else if !(pairsOk c.pairs0 && pairsOk c.pairs1 && pairsOk c.pairs2 && pairsOk c.pairs3) then 4
    else if f.images.any (fun x => x.root != f.rom) then 5
    else if !f.link then 6 else 0
/-- R407: the steps in order; the first that fails is the boot status, and the package does not leave boot. Step 4 applies the trims of
the record. -/
def execBoot (s : State) : Out :=
  let n := bootFail s.flash
  if s.booted then .next s
  else .next { s with booted := n == 0, bootStatus := n,
                      trims := if n = 0 || 5 ≤ n then (match s.flash.conf with | some c => c.trims | none => s.trims) else s.trims }
/-- R408: the hash of the configuration record. -/
def confHash (f : Flash) : BitVec 256 :=
  match f.conf with
  | some c => Config.configHash c.version (c.trims ++ c.pairs0 ++ c.pairs1 ++ c.pairs2 ++ c.pairs3)
  | none => Config.configHash 0 []
/-- R408: the index is committed before the signature is released. -/
def execAttestation (nonce : BitVec 256) (s : State) : Out :=
  let i := s.flash.sigIndex
  if 2 ^ 20 ≤ i then .next { s with attStatus := 2 }
  else .next { s with flash := { s.flash with sigIndex := i + 1 }, attStatus := 1, attIndex := i, attNonce := nonce,
                      attHash := confHash s.flash, attImages := s.flash.images.map (·.hash), attSig := Config.signature nonce i }
/-- R406: supply is lost: everything but flash goes. A write under way leaves the record before it as the newest, and not the one
that it overwrites. -/
def execPowerLoss (duringWrite : Bool) (s : State) : Out :=
  let f := s.flash
  let f := { f with base := mfind f.ring f.newest, ring := if duringWrite then mdel f.ring (histNext f) else f.ring }
  .next { State.reset with flash := f, free := s.free, agenda := s.agenda }

/-! ### Power and cooling (R409) -/

/-- R409: the sensors' values, the power as its 1 ms average. -/
def sense (s : State) (temp power inlet : Nat) : State := { s with temp := temp, power := power, inlet := inlet }
/-- R409: the cap can be set from 1,600 W to 3,200 W. -/
def setPowerCap (s : State) (w : Nat) : State := if 1600 ≤ w && w ≤ 3200 then { s with powerCap := w } else s
/-- R409: the average power above the cap, or a junction at 105 °C, takes the core clock down by 50 MHz, to 350 MHz at the least. -/
def execPowerCapExceeded (s : State) : Out :=
  .next (if s.powerCap < s.power || 105 ≤ s.temp then { s with clockMHz := max 350 (s.clockMHz - 50) } else s)
/-- R409: issue stops, every port is fenced, the freeze interrupt is raised in every partition. -/
def execThermalTrip (s : State) : Out :=
  let s := (List.range 24).foldl (fun s q => if portSt s q = 5 then s else setPort s q (fun p => { p with st := 5, lanes := 0 })) { s with tripped := true }
  .next (setIntAll s 1)

end Sys2Proof.Machine
end

