-- ==== Sys2Proof/Machine/Window.lean ====
section
/-! DEFINITION. The 64 KiB window of the host functions (R374): a write of 8 bytes to a block and a read of 8 bytes, each field by
its access code (R5). -/

namespace Sys2Proof.Machine

/-- R164: a write of the request's quadword; a request that runs is queued no more. -/
def pageCtlWrite (s : State) (p v : Nat) : State :=
  let q := getPart s p
  let func := fld v 61 60
  let log := fld v 53 48
  if bitAt v 62 && 16 ≤ (q.rmq.filter (fun r => r.phase == 0)).length then s
  else
    let va := if func = 2 then fld v 47 0 else fld v 47 16 * 2 ^ 16
    let go := bitAt v 62 && func != 3 && 16 ≤ log && log ≤ 47
    let gen := if func = 0 then (q.rmGen + 1) % 2 ^ 32 else q.rmGen
    updPart s p (fun q =>
      let q := { q with rmVa := va, rmSizeLog := log, rmCtx := fld v 59 54, rmFunc := func }
      if go then { q with rmGen := gen, rmq := q.rmq ++ [{ func := func, va := va, sizeLog := log, ctx := fld v 59 54, gen := gen }] } else q)
/-- R375: a quadword of a host window. -/
def windowWrite (s : State) (p w i v : Nat) : State :=
  updPart s p (fun q =>
    let r := mget 0 q.windows w
    let r := match i with
      | 0 => setFld r 47 0 (fld v 47 12 * 2 ^ 12)
      | 1 => setFld r 111 64 (fld v 47 0)
      | 2 => setFld r 145 128 (fld v 17 0)
      | _ => r
    { q with windows := mput 0 q.windows w r })
/-- R5, R63, R85: a record that nothing has written holds its reset values: Class 1, Deadline 0x30D40 and FltLog 4 in a context's,
SizeLog 6 in a queue's. The records are in memory: the model writes these values when CtxBase comes to name a table, into each record
that reads as zero (assumption log 99). -/
def recInit (s : State) (base : Nat) : State :=
  (List.range 64).foldl (fun s i =>
    let c := base + 64 * i
    let q := base + 0x1000 + 64 * i
    let s := if memRead s c 64 = 0 then memWrite (memWrite (memWrite s (c + 1) 1 1) (c + 4) 4 0x30D40) (c + 40) 1 4 else s
    if memRead s q 64 = 0 then memWrite s (q + 8) 1 6 else s) s
/-- A quadword of a partition's blocks at offset X; full through function 0 (R374). -/
def partWrite (s : State) (p x v : Nat) (full : Bool) : State :=
  let up := updPart s p
  if x = 0x00 then (if full then recInit (up (fun q => { q with ctxBase := fld v 63 12 * 2 ^ 12 })) (fld v 63 12 * 2 ^ 12) else s)
  else if x = 0x08 then (if full then up (fun q => { q with frzBase := fld v 63 6 * 2 ^ 6 }) else s)
  else if x = 0x10 then
    setFrzCons (if full then up (fun q => { q with frzLog := fld v 3 0, ceil := fld v 51 48 }) else s) p (fld v 47 32)
  else if x = 0x40 then pageCtlWrite s p v
  else if x = 0x50 then up (fun q => { q with migThresh := fld v 15 0, migMax := fld v 23 16, migSettle := fld v 39 24 })
  else if x = 0x80 then up (fun q => { q with dirBase := fld v 47 12 * 2 ^ 12, dirLog := fld v 51 48 })
  else if x = 0x88 then
    updPart (takeDonation s p) p (fun q => { q with donate := fld v 47 21 * 2 ^ 21, donateGo := bitAt v 48 })
  else if x = 0x90 then up (fun q => { q with lowMark := fld v 15 0 })
  else if x = 0xC0 then up (fun q => { q with scrBase := fld v 47 12 * 2 ^ 12, scrLog := fld v 51 48 })
  else if x = 0xC8 then up (fun q => { q with idxBase := fld v 47 12 * 2 ^ 12, idxLog := fld v 51 48 })
  else if x = 0x100 then
    up (fun q => { q with ordered := fld v 3 0, seqPkg := fld v 23 16, intStatus := q.intStatus &&& (63 - fld v 37 32) })
  else if 0x200 ≤ x && x < 0x300 then windowWrite s p ((x - 0x200) / 32) (x % 32 / 8) v
  else if x = 0x300 then
    up (fun q => { q with smpBase := fld v 47 12 * 2 ^ 12, smpLog := fld v 51 48, smpPeriod := fld v 56 52, smpEn := bitAt v 57 })
  else if x = 0x308 then up (fun q => { q with smpCons := fld v 63 32 })
  else if 0x400 ≤ x && x < 0x600 then ctrSelect s p ((x - 0x400) / 8) (v % 256)
  else s
/-- R391: a quadword of a stack-control block. -/
def stackWrite (s : State) (t i v : Nat) : State :=
  if i = 0 then gangSet s t (BitVec.ofNat 64 v)
  else if i = 1 then
    let r := fld v 1 0
    let s := updStack s t (fun k => { k with rateWant := if r = 3 then k.rateWant else r, scrubThresh := fld v 15 8, scrubHours := fld v 31 16 })
    if bitAt v 2 then rateRequest s t else s
  else s
/-- The window of a function: 0 for function 0, 1 + p for partition p. An access that no table names has no effect. After a boot that
failed only function 0 is there (R407). -/
def windowReg (s : State) (fn off v : Nat) : State :=
  if off % 8 != 0 || !(s.booted || s.bootStatus != 0) then s
  else if fn = 0 then
    if 0x8000 ≤ off && off < 0x10000 then partWrite s ((off - 0x8000) / 0x1000) (off % 0x1000) v true
    else if off = 0x1100 then { s with timeSource := fld v 1 0, timeMaster := bitAt v 2 }
    else if off = 0x1108 then setTime s v
    else if off = 0x1180 then setPkg s v
    else if 0x2000 ≤ off && off < 0x2300 then stackWrite s ((off - 0x2000) / 64) (off % 64 / 8) v
    else s
  else if fn ≤ 8 && s.booted then partWrite s (fn - 1) off v false
  else s
/-! ### Reads (R5, R374) -/

/-- A quadword of a partition's blocks as a read gives it; none at an offset that no table names. -/
def partRead (s : State) (p x : Nat) : Option Nat :=
  let q := getPart s p
  if 0x400 ≤ x && x < 0x600 then some (mget {} q.ctrs ((x - 0x400) / 8)).sel
  else if 0x200 ≤ x && x < 0x300 then some (fld (hostWindow s p ((x - 0x200) / 32)) (64 * (x % 32 / 8) + 63) (64 * (x % 32 / 8)))
  else if !(x < 0x140 || (0x300 ≤ x && x < 0x340)) then none
  else some (match x with
    | 0x00 => q.ctxBase
    | 0x08 => q.frzBase
    | 0x10 => q.frzLog + 2 ^ 16 * q.frzProd + 2 ^ 32 * q.frzCons + 2 ^ 48 * q.ceil
    | 0x40 => q.rmVa + 2 ^ 48 * q.rmSizeLog + 2 ^ 54 * q.rmCtx + 2 ^ 60 * q.rmFunc + 2 ^ 62 * (!q.rmq.isEmpty).toNat
    | 0x48 => q.rmGen + 2 ^ 32 * q.rmDone
    | 0x50 => q.migThresh + 2 ^ 16 * q.migMax + 2 ^ 24 * q.migSettle
    | 0x80 => q.dirBase + 2 ^ 48 * q.dirLog
    | 0x88 => q.donate + 2 ^ 48 * q.donateGo.toNat
    | 0x90 => q.lowMark
    | 0xC0 => q.scrBase + 2 ^ 48 * q.scrLog
    | 0xC8 => q.idxBase + 2 ^ 48 * q.idxLog
    | 0xD0 => q.lookups + 2 ^ 32 * q.hits
    | 0xD8 => q.collisions + 2 ^ 32 * q.stale
    | 0x100 => q.ordered + 2 ^ 16 * q.seqPkg + 2 ^ 32 * q.intStatus
    | 0x300 => q.smpBase + 2 ^ 48 * q.smpLog + 2 ^ 52 * q.smpPeriod + 2 ^ 57 * q.smpEn.toNat
    | 0x308 => q.smpProd + 2 ^ 32 * q.smpCons
    | 0x310 => q.smpDropped
    | _ => 0)
/-- R391: a quadword of a stack-control block. -/
def stackRead (s : State) (t i : Nat) : Nat :=
  let k := getStack s t
  match i with
  | 0 => (k.gangNew.getD k.gang).toNat
  | 1 => k.rateWant + 2 ^ 2 * k.rateGo.toNat + 2 ^ 3 * k.rateStatus + 2 ^ 8 * k.scrubThresh + 2 ^ 16 * k.scrubHours + 2 ^ 32 * k.scrubPos
  | 2 => k.corrected % 2 ^ 32 + 2 ^ 32 * (k.poisoned % 2 ^ 32)
  | _ => 0
/-- R406: eight bytes of the newest histogram record, whose layout the spec does not give (assumption log 3). -/
def histRead (s : State) (o : Nat) : Nat :=
  let n := match mfind s.flash.ring s.flash.newest with | some h => h.stamp | none => 0
  ofBytes ((List.range 8).map (fun i => Config.freeByte n (o + i)))
/-- R5, R374: what a read of eight bytes of a function's window returns; none is Unsupported Request. -/
def windowRead (s : State) (fn off : Nat) : Option Nat :=
  if off % 8 != 0 || !(s.booted || s.bootStatus != 0) then none
  else if fn = 0 then
    if 0x8000 ≤ off && off < 0x10000 then partRead s ((off - 0x8000) / 0x1000) (off % 0x1000)
    else if off = 0 then some s.bootStatus
    else if 0x1000 ≤ off && off < 0x10C0 then
      (let p := (mfind s.ports ((off - 0x1000) / 8)).getD {}
       some (p.st + 2 ^ 3 * p.lanes + 2 ^ 32 * p.dropped))
    else if 0x1100 ≤ off && off < 0x1140 then
      some (match off with
        | 0x1100 => s.timeSource + 2 ^ 2 * s.timeMaster.toNat + 2 ^ 3 * s.timeLocked.toNat
        | 0x1108 => s.timeSet
        | 0x1110 => s.timeOffset.toNat
        | _ => 0)
    else if off = 0x1180 then some s.pkg
    else if 0x2000 ≤ off && off < 0x2300 then some (stackRead s ((off - 0x2000) / 64) (off % 64 / 8))
    else if 0x4000 ≤ off && off < 0x5000 then some (histRead s (off - 0x4000))
    else none
  else if fn ≤ 8 && s.booted then partRead s (fn - 1) off
  else none

def execRegisterWrite (fn off : Nat) (val : W64) (s : State) : Out := .next (windowReg s fn off val.toNat)

end Sys2Proof.Machine
end

