-- ==== Sys2Proof/Machine/Release.lean ====
section
/-! DEFINITION. frel, opcode 0xE6 (R66, R71, R76, R84): the return from a fault and from a freeze. -/

namespace Sys2Proof.Machine

/-- The frozen agent of a partition with a freeze number. -/
def frozenAgent (s : State) (p n : Nat) : Option (Agent × Option Nat) := mfind s.frozen (2 ^ 32 * p + n)
/-- The faulted group of a context with a fault number. A group of a kernel that has completed FAULTED is still one when its own
fault cannot be resumed (R66, R84, R97). -/
def faultedGroup (s : State) (key n : Nat) : Option (Nat × Group) :=
  s.groups.find? (fun x => gCtx s x.2 == key && (match x.2.flt with
    | some f => f.seq == n && (x.2.st == .faulted || !resumable f.code)
    | none => false))
/-- The freeze ends: the number is free and the context's Frozen count falls. -/
def unfreeze (s : State) (p n : Nat) : State :=
  match frozenAgent s p n with
  | some (_, ctx) =>
    let s := { s with frozen := mdel s.frozen (2 ^ 32 * p + n) }
    (match ctx with | some k => setCtx s k (fun c => { c with frozen := c.frozen - 1 }) | none => s)
  | none => s

/-- A command that was frozen runs again from its queue; a chain run goes to Checking (R362), and keeps the step that it had reached
(R76, assumption log 117). -/
def opAgain (s : State) (id : Nat) : State := updOp s id (fun o => { o with st := .queued })
/-- Requests held for a requester are checked again in order. -/
def rerunHeld (s : State) (r : Nat) : State :=
  let mine := s.heldReqs.filter (fun q => q.requester.toNat == r)
  mine.foldl hostRun { s with heldReqs := s.heldReqs.filter (fun q => q.requester.toNat != r) }
/-- R76: frel.rel applied. -/
def releaseAgent (s : State) (p n : Nat) (a : Agent) : State :=
  let s := unfreeze s p n
  match a with
  | .group gid => updG (match mfind s.groups gid with | some g => wakeBanks s g.block | none => s) gid (fun g =>
      { g with st := awake s g, frz := none })
  | .op id =>
    (match mfind s.ops id with
     | some o => (match xRecheck s o with
       | some (k, va) => opFreeze s id k va
       | none => opAgain s id)
     | none => s)
  | .hart h => updHart s h (fun x => { x with frz := none })
  | .requester r => rerunHeld s r
/-- R76: frel.dst applied. -/
def destroyAgent (s : State) (p n : Nat) (a : Agent) (ctx : Option Nat) : State :=
  let s := unfreeze s p n
  match a with
  | .hart h => resetHart s h
  | .requester r => { s with heldReqs := s.heldReqs.filter (fun q => q.requester.toNat != r) }
  | _ => match ctx with | some k => destroyCtx s k | none => s
/-- R71, R68: frel.res applied: the group goes on, and the operation that its record names replays. -/
def resumeGroup (s : State) (gid : Nat) (key : Nat) (f : FltI) : State :=
  let s := updG (match mfind s.groups gid with | some g => wakeBanks s g.block | none => s) gid (fun g =>
    { resumeG g f.code with st := awake s g })
  let s := setCtx s key (fun c => { c with faulted := c.faulted - 1 })
  if f.op = 0 then s else match mfind s.ops f.op with
    | some o => { s with ops := mset s.ops f.op (replayOp s o) }
    | none => s

/-- frel: the right and the partition, the zero fields, then the named agent. -/
def frelRun (p : P) (s : State) (go : Nat → Nat → Nat → State × Nat) : Out :=
  withG s (fun gid _ g =>
    if !actsOnce g p.h then fin s gid p true
    else
      let v := valN g p.a
      let part := fld v 42 40
      if !holdsRight s (gCtx s g) 1 || part != gPart s g then freeze s gid 3 0 0
      else
        let r : State × Nat := if fld v 39 38 != 0 || fld v 63 43 != 0 then (s, 1) else go part (fld v 37 32) (fld v 31 0)
        match mfind r.1.groups gid with
        | some g' => if hasLeft g' then .next r.1 else fin (updG r.1 gid (fun g => pendS g p.d r.2)) gid p true
        | none => .next r.1)
/-- R84: is the agent's context Saved? -/
def savedCtx (s : State) (ctx : Option Nat) : Bool := match ctx with | some k => (getCtx s k).st == .saved | none => false
def execFrelRel (p : P) (s : State) : Out :=
  frelRun p s (fun part _ n => match frozenAgent s part n with
    | none => (s, 1)
    | some (a, ctx) => if savedCtx s ctx then (s, 2) else (releaseAgent s part n a, 0))
def execFrelDst (p : P) (s : State) : Out :=
  frelRun p s (fun part _ n => match frozenAgent s part n with
    | none => (s, 1)
    | some (a, ctx) => if savedCtx s ctx then (s, 2) else (destroyAgent s part n a ctx, 0))
def execFrelRes (p : P) (s : State) : Out :=
  frelRun p s (fun part c n =>
    let key := 64 * part + c
    match faultedGroup s key n with
    | none => (s, 1)
    | some (gid, g) =>
      match g.flt with
      | none => (s, 1)
      | some f =>
        if savedCtx s (some key) then (s, 2)
        else if !resumable f.code then (s, 3)
        else (resumeGroup s gid key f, 0))

end Sys2Proof.Machine
end

