-- ==== Sys2Proof/Machine/Fetch.lean ====
section
/-! DEFINITION. Fetching and the order of agents (R48 to R52, R70, R112 to R117, R151): what the next turn of the machine
is and what a group does in its turn, up to the instruction that it runs. Step.lean only calls it. -/

namespace Sys2Proof.Machine

/-! ### Sectors (R49, R52, R151) -/

/-- What a fetch of a sector finds: none while its page waits for a Remove. The home counts the access (R172). -/
def fetchSector (s : State) (g : Group) (va : Nat) : State × Option FetchR :=
  let t := translate s g.core (gCtx s g) [] va 2
  match t.2 with
  | .wait => (t.1, none)
  | .np l _ => (t.1, some (.notPresent l))
  | .forbid k => (t.1, some (.forbidden k))
  | .ok pa =>
    if windowShut t.1 (gPart s g) 0 [pa] then (t.1, none) else
    let r := l1Read (countMiss (countRemote t.1 (coreDie g.core) (gCtx s g) va pa) g pa 128) (gPair g) pa 128 0
    let bad := (List.range 4).find? (fun i => match mfind r.1.l1 (l1Key (gPair g) (sectorOf pa)) with
      | some k => k.poison.getLsbD i
      | none => grPoison r.1 (granOf pa + i))
    let at_ := pa + 32 * bad.getD 0
    (r.1, some (if r.2.2 then .poisoned at_ (poisonLevel r.1 (gPair g) at_) else .ok (BitVec.ofNat 1024 (ofBytes r.2.1))))
/-- R151: a sector arrives. What a group holds of a sector that it could not read is asked for again when the group gets there
(R162). -/
def execFetchSectorArrival (gid va : Nat) (s : State) : Out :=
  match mfind s.groups gid with
  | none => .next s
  | some g =>
    if !g.resident || !heldOk g va || g.sectors.any (fun f => f.1 == va) then .next s
    else
      let r := fetchSector s g va
      match r.2 with
      | none => .next r.1
      | some f => .next (updG r.1 gid (fun g => { g with sectors := g.sectors.filter (fun x => heldOk g x.1) ++ [(va, f)] }))

/-! ### A group's turn (R48 to R50, R115) -/

/-- What a turn comes to: a state in which it is over, or an instruction to run. -/
inductive TurnR where
  | over (s : State)
  | run (s : State) (gid : Option Nat) (i : Instr)

/-- R70: the region entry at a marked instruction. -/
def regionMark (g : Group) (bits : BitVec 1024) : Group :=
  if (trailer bits).testBit (g.pc % 128 / 12) then closeAt g g.pc else g
/-- A group runs its next instruction from a sector. -/
def issueFrom (s : State) (gid : Nat) (g : Group) (busy : BitVec 10) (f : FetchR) : TurnR :=
  match f with
  | .notPresent l => .over (takeFault s gid 0x10 none allLanes (detNp g.pc l 3 false))
  | .forbidden k => .over (freezeGroup s gid k g.pc 3)
  | .poisoned pa l => .over (takeFault s gid 0x41 none allLanes (detMem g.pc 0 9 false l (pa / 32 * 32)))
  | .ok bits =>
    if 2 ^ 10 ≤ trailer bits then .over (takeFault s gid 0x04 none allLanes (trailer bits))
    else
      let w := slotWord bits g.pc
      match groupDecode s g w with
      | .error e => .over (takeFault s gid (match e with | .illegal => 0x01 | .reserved => 0x02) none allLanes w.toNat)
      | .ok i =>
        if waitsFor g i then
          .over (stallIn (updG s gid (fun g => { g with burst := if waitsInBurst g i then 0 else g.burst })) gid 3)
        else if commitFirst g i then .over (stallIn s gid 9)
        else .run { updG s gid (fun g => { regionMark g bits with sectors := g.sectors.filter (fun x => heldOk g x.1) }) with cur := .group gid busy } (some gid) i
/-- R162: a sector that the group could not read when it was fetched is read again now. -/
def issueAgain (s : State) (gid : Nat) (g : Group) (busy : BitVec 10) : TurnR :=
  let s := updG s gid (fun g => { g with sectors := g.sectors.filter (fun x => x.1 != secBase g.pc) })
  let r := fetchSector s g (secBase g.pc)
  match r.2 with
  | none => .over (stallIn r.1 gid 1)
  | some (.ok bits) =>
    issueFrom (updG r.1 gid (fun g => { g with sectors := g.sectors ++ [(secBase g.pc, .ok bits)] })) gid g busy (.ok bits)
  | some f => issueFrom r.1 gid g busy f
/-- The group on a core's slot. -/
def groupAt (s : State) (core slot : Nat) : Option (Nat × Group) :=
  s.groups.find? (fun x => x.2.resident && x.2.core == core && x.2.slot == slot)
/-- May a group issue (R112, R115)? Once in a cycle at most. -/
def canIssue (s : State) (g : Group) : Bool :=
  g.resident && !s.tripped && !issuedNow s g && (match g.st with | .ready => true | .stalled _ => true | .sent _ => true | _ => false) &&
  (match gKernel s g with | some k => k.st != .faulting && k.st != .done | none => false)
/-- A group's turn: a fault reported by an engine first (R68), then the sector, then the instruction. -/
def groupTurn (s : State) (core slot : Nat) (busy : BitVec 10) : TurnR :=
  match groupAt s core slot with
  | none => .over s
  | some (gid, g) =>
    if !canIssue s g then .over s
    else if !g.asyncF.isEmpty then .run s none (.asyncFaultReport gid)
    else match heldAt g with
      | none => .run (stallIn s gid 1) none (.fetchSectorArrival gid (secBase g.pc))
      | some (.ok bits) => issueFrom s gid g busy (.ok bits)
      | some _ => issueAgain s gid g busy

/-- R440: the instructions whose event may reach the scroll's home after it is no longer Live, and whether they need its owner
(R321). -/
def sends (o : Op) : Option Bool :=
  if [Op.sres, .scom, .strm, .spin, .sdel].contains o then some true
  else if [Op.sfrk, .stopk, .srdDat, .srdMap].contains o then some false
  else none
/-- R321, R440: a group's next instruction, when it is such a one and passes the checks of its handle, is on its way to the home
of the scroll that the handle is bound to. -/
def sendTurn (s : State) (core slot : Nat) : State :=
  match groupAt s core slot with
  | none => s
  | some (gid, g) =>
    if !canIssue s g || isSent g || !g.asyncF.isEmpty then s
    else match heldAt g with
      | some (.ok bits) =>
        if 2 ^ 10 ≤ trailer bits then s
        else match groupDecode s g (slotWord bits g.pc) with
          | .ok i =>
            (match i.split with
             | some (o, p) =>
               (match sends o, (scrollOf s g (shNo p.a)).bind (fun id => (liveScroll s (gPart s g) id).map (fun c => (id, c))) with
                | some owned, some (id, c) =>
                  if waitsFor g i || commitFirst g i || !elects g p.h || (owned && c.owner != gCtx s g % 64) then s
                  else updG s gid (fun g => { g with st := .sent id })
                | _, _ => s)
             | none => s)
          | .error _ => s
      | _ => s

/-- R404: what the issue of an instruction adds to the counters. -/
def countIssue (s : State) (gid : Nat) (i : Instr) : State :=
  match mfind s.groups gid with
  | none => s
  | some g =>
    let s := bumpCtr (bumpCtr s (gPart s g) 0x02 1) (gPart s g) 0x40 1
    match i.split with
    | none => s
    | some (o, p) =>
      if p.h.uni then s
      else if isSfu o then bumpCtr s (gPart s g) 0x04 1
      else if isAlu o then bumpCtr s (gPart s g) 0x03 1
      else s
/-- R80: trap and brk stop their group as their own effect. -/
def stopsItself (i : Instr) : Bool := match i.split with | some (o, _) => o == .trap || o == .brk | none => false
/-- Did the group issue? It is not stalled, faulted or frozen where it was; trap and brk issue and stop it. -/
def hasIssued (s : State) (gid : Nat) (i : Instr) : Bool :=
  match mfind s.groups gid with
  | some g => (match g.st with
    | .stalled _ => false | .sent _ => false | .frozen => false
    | .faulted => stopsItself i && (match g.flt with | some f => f.code == 0x06 || f.code == 0x07 | none => false)
    | _ => true)
  | none => true
/-- R70: an instruction that has not issued leaves the region entry as it was. -/
def regionBack (s0 s : State) (gid : Nat) : State :=
  match mfind s0.groups gid, mfind s.groups gid with
  | some g0, some g => (match g.st with
    | .stalled _ => updG s gid (fun g => { g with region := g0.region })
    | .frozen => updG s gid (fun g => { g with region := g0.region })
    | _ => s)
  | _, _ => s
/-- The head of a burst, by the hint of an instruction (R46). -/
def headsBurst (i : Instr) : Bool := match i.split with | some (_, p) => p.h.burst != 0 | none => false
/-- R46, R70, R114: what the issue of an instruction leaves beside its effect: the results that belong to the group's burst, the pipe
that an instruction of a burst took, and, while it waits, the region entry that it came from. -/
def afterIssue (g0 : Group) (i : Instr) (g : Group) : Group :=
  let own := g0.burst != 0 || headsBurst i
  { g with busy := 0,
           burstPipe := match i.split with | some (o, p) => if g0.burst != 0 then some (pipeClass o p) else none | none => none,
           pend := g.pend.zipIdx.map (fun x => if x.2 < g0.pend.length then { x.1 with burst := x.1.burst && !headsBurst i }
             else { x.1 with burst := own }),
           prior := match g.st with | .waiting _ => some g0.region | _ => none }
/-- The end of a turn that began in s0: the agent is done. An instruction that could not issue leaves the pipes that were occupied. -/
def endTurn (s0 s : State) (gid : Option Nat) (i : Instr) : State :=
  let busy : BitVec 10 := match s.cur with | .group _ b => b | _ => 0
  let s := { s with cur := .none }
  match gid with
  | some n =>
    if hasIssued s n i then
      (match mfind s0.groups n with
       | some g0 => countIssue (updG s n (afterIssue g0 i)) n i
       | none => countIssue s n i)
    else updG (regionBack s0 s n) n (fun g => { g with busy := busy })
  | none => s

/-! ### Time (R4, R72, R82) -/

/-- The counters of a partition over n cycles: the busy cores, and the groups by the reason for which they do not issue (R404). -/
def passCount (s : State) (n p : Nat) : State :=
  let gs := s.groups.filter (fun x => x.2.resident && gPart s x.2 == p)
  if gs.isEmpty then s
  else
    let s := bumpCtr s p 0x01 (n * (gs.map (fun x => x.2.core)).eraseDups.length)
    gs.foldl (fun s x =>
      let k := if issuedNow s x.2 then n - 1 else n
      let r := reasonOf { s with cycle := s.cycle + 1 } x.1 x.2
      if k = 0 || r = 0 then s else bumpCtr s p (0x40 + r) k) s
/-- n cycles pass: the groups that do not issue in them (R112, R114), the counters, the cycle count, the device time at the core
clock, the deadlines and the timers of pages. -/
def passCycles (s : State) (n : Nat) : State :=
  let ns := (s.cycle + n) * 1000 / max 1 s.clockMHz - s.cycle * 1000 / max 1 s.clockMHz
  let s := { s with groups := s.groups.map (fun x => (x.1, restall s n x.1 x.2)) }
  let s := (List.range 8).foldl (fun s p => passCount s n p) s
  let s := countSeconds s ((s.time + ns) / 10 ^ 9 - s.time / 10 ^ 9)
  let s := advanceTime { s with ports := s.ports.map (fun x => (x.1, { x.2 with wire := [] })) } ns
  { s with
    cycle := s.cycle + n,
    ctxs := s.ctxs.map (fun c => if c.2.st == .draining then (c.1, { c.2 with deadline := c.2.deadline - n }) else c),
    pages := s.pages.map (fun x => (x.1, { x.2 with settleLeft := x.2.settleLeft - ns, windowLeft := x.2.windowLeft - ns })) }
/-- R228: an error appears in a granule of memory. -/
def upset (s : State) (granule : Nat) (unc : Bool) : State := { s with ecc := mset s.ecc granule unc }
/-- R228: an error appears in a granule of a sector that a die cache holds. -/
def upsetDc (s : State) (die sec granule : Nat) (unc : Bool) : State :=
  if granule < 4 && (mfind s.dc (dcKey die sec)).isSome then { s with eccDc := mset s.eccDc (4 * dcKey die sec + granule) unc } else s
/-- R77: the firmware of a hart, whose permitted regions the spec does not give, makes an access outside them (assumption log 53). -/
def hartStray (s : State) (h target access : Nat) : State :=
  match (getHart s h).queue with
  | some qk => if (getHart s h).frz.isSome then s else hartFreeze s h qk 8 target access
  | none => s
/-- R109, R300: an uncorrectable error in a granule of a block's scratchpad. -/
def upsetSp (s : State) (block granule : Nat) : State :=
  match mfind s.blocks block with
  | some b => if b.done || b.size ≤ 32 * granule then s else updB s block (fun b => { b with poison := mset b.poison granule true })
  | none => s

end Sys2Proof.Machine
end

