-- ==== Sys2Proof/Machine/Order.lean ====
section
/-! DEFINITION. The order of agents when nothing outside chooses one (assumption log 1): every agent and every step of the
device that the state may allow, and the rotor that goes round them. A step that its own rule refuses changes nothing (R7). -/

namespace Sys2Proof.Machine

/-- What a group may do or have done to it. -/
def groupTurns (x : Nat × Group) : List Turn :=
  let g := x.2
  (match g.st with
   | .ready => [.issue g.core g.slot 0]
   | .stalled _ => [.issue g.core g.slot 0]
   | .sent _ => [.issue g.core g.slot 0]
   | .waiting (.mw _ _ _ _ _ _ _) => [.event (.mwaitTick x.1)]
   | .stopping => [.event (.groupStopComplete x.1)]
   | _ => []) ++
  (if g.asyncF.isEmpty then [] else [.event (.asyncFaultReport x.1)]) ++
  (if g.pend.isEmpty then [] else [.event (.splitPhaseResult x.1)]) ++
  (if g.reds.isEmpty then [] else [.event (.redPerformed x.1)]) ++
  (if g.arrivals.isEmpty then [] else [.event (.barArrivalApplied x.1)]) ++
  (match g.bcs with | [] => [] | o :: _ => [.event (if o.f = 2 then .bcaddApplied x.1 else .bcsetApplied x.1)]) ++
  (if g.commits.isEmpty then [] else [.event (.txCommit (coreDie g.core))])
/-- The steps of the device that act on an engine operation, by the operation's engine. -/
def opSteps (k : EK) : List (Nat → State → Out) :=
  match k.cls with
  | 0 => [execXferChannelHead, execXferReadDone, execXferAbandon, execXferRetire, execXferParkedTick]
  | 1 => if k.isFill then [execFillInstall] else [execBurinDone]
  | 2 => [execFdecRetire]
  | 3 => [execMmaFault, execMmaStart, execMmaRetire, execTileTurnEffect]
  | _ => [execChainChannelHead, execChainStepFault, execChainStepDone, execChainRetire]
/-- What an engine operation may do. -/
def opTurns (x : Nat × EOp) : List Turn := (List.range (opSteps x.2.kind).length).map (fun n => .op x.1 n)
/-- One of its steps. -/
def opStep (s : State) (id n : Nat) : State :=
  match mfind s.ops id with
  | none => s
  | some o => match (opSteps o.kind)[n]? with
    | none => s
    | some f => match f id s with
      | .next t => t
      | _ => s
def kernelTurns (x : Nat × Kernel) : List Turn :=
  match x.2.st with
  | .pending => [.event (.kernelTranslatingStart x.1)]
  | .translating => [.event (.extentTableBuilt x.1)]
  | .dispatching => [.event (.blockPlacement x.1)]
  | .faulting => [.event (.kernelFaultingDone x.1)]
  | _ => []
def blockTurns (x : Nat × Block) : List Turn :=
  if x.2.done then []
  else if x.2.reloading then [.event (.blockReloadDone x.1 true)]
  else if x.2.saved then [.event (.spillOnClaim x.1 .chunks), .event (.spillOnClaim x.1 .ways), .event (.spillOnClaim x.1 .tiles)]
  else .event (.blockRetire x.1) :: x.2.sh.flatMap (fun c => [.event (.clMirrorUpdate x.1 (2 * x.2.pair) c.1), .event (.clMirrorUpdate x.1 (2 * x.2.pair + 1) c.1)])
def ctxTurns (x : Nat × Ctx) : List Turn :=
  (match x.2.st with
   | .draining => [.event (.preemptDeadlineExpires x.1), .event (.contextSaved x.1)]
   | .destroying => [.event (.contextFreed x.1)]
   | _ => []) ++ (if x.2.fltPend.isEmpty then [] else [.event (.faultRingDrain (.fault x.1))])
/-- The Enable bit of a queue's descriptor in memory (R85). -/
def queueOn (s : State) (qk : Nat) : Bool := (getPart s (qk / 64)).ctxBase != 0 && (memByte s (queueA s qk + 9)).getLsbD 3
def partTurns (s : State) (x : Nat × Part) : List Turn :=
  (if x.2.rmq.isEmpty then [] else [.event (.rmRemove x.1), .event (.rmNotify x.1), .event (.rmDonate x.1), .event (.removeDrainEnd x.1),
    .event (.removeConfirm x.1)]) ++
  (if x.2.donateGo then [.event (.folioDonate x.1)] else []) ++
  (if x.2.frzPend.isEmpty then [] else [.event (.faultRingDrain (.freeze x.1))]) ++
  (List.range 64).filterMap (fun q =>
    let qk := 64 * x.1 + q
    if ((getQ s qk).st == .disabled) == queueOn s qk then some (.event (if queueOn s qk then .queueEnable qk else .queueDisable qk)) else none)
def queueTurns (x : Nat × Queue) : List Turn :=
  match x.2.st with
  | .waiting => [.event (.queueWaitMet x.1), .event (.queueWaitTimeout x.1)]
  | .idle => [.hart (2 * (x.1 / 64)), .hart (2 * (x.1 / 64) + 1)]
  | .ready => [.hart (2 * (x.1 / 64)), .hart (2 * (x.1 / 64) + 1)]
  | _ => []
/-- Every turn that the state may allow; the last one lets a cycle pass. A migration window that has run out ends with the next
trigger (`pageExpire`). -/
def turnsOf (s : State) : List Turn :=
  if !s.booted then [.event .boot, .pass 1]
  else
    s.groups.flatMap groupTurns ++ s.ops.flatMap opTurns ++ s.kernels.flatMap kernelTurns ++ s.blocks.flatMap blockTurns ++
    s.ctxs.flatMap ctxTurns ++ s.parts.flatMap (partTurns s) ++ s.queues.flatMap queueTurns ++
    s.harts.flatMap (fun h => if h.2.queue.isSome then [.hart h.1] else []) ++
    s.cores.flatMap (fun c => if c.2.log.isEmpty then [] else [.event (.sideLogRetryTick c.1)]) ++
    s.pages.flatMap (fun x => (if x.2.moving.isSome then [.event (.migrationCopyDone x.1)] else []) ++
      (if x.2.settled && x.2.settleLeft = 0 then [.event (.migrationSettleExpire x.1)] else [])) ++
    s.cat.flatMap (fun c => if enState c.2.record == 4 then [.event (.growingCopyDone c.1)]
      else if enState c.2.record == 5 then [.event (.entryRetireFree c.1)] else []) ++
    s.scrolls.flatMap (fun c => if c.2.st == 2 then [.event (.scrollDeleteFree (c.1 / 2 ^ 16) (c.1 % 2 ^ 16))] else []) ++
    s.stackCtl.flatMap (fun k => (if k.2.gangNew.isSome then [.event (.gangInitDone k.1)] else []) ++
      (if k.2.rateStatus == 3 then [.event (.rateChangeStart k.1)] else if k.2.rateStatus == 1 then [.event (.rateChangeDone k.1 true)] else [])) ++
    [.pass 1]

/-- The next turn: the schedule's first when it holds one, else the one that the rotor points at. -/
def nextTurn (s : State) : State × Turn :=
  match s.agenda with
  | t :: r => ({ s with agenda := r }, t)
  | [] =>
    let l := turnsOf s
    ({ s with rotor := s.rotor + 1 }, l.getD (s.rotor % l.length) (.pass 1))
/-- A hart's turn, up to the instruction that it runs. -/
def hartTurn (s : State) (h : Nat) : TurnR :=
  if 16 ≤ h || !s.booted then .over s
  else match hartFetch s h with
    | .done s' => .over s'
    | .run i => .run { s with cur := .hart h } none i
/-- May a step of the device come about as an event of its own? A program instruction or a command runs in the turn of its
group or hart only. -/
def isEvent (i : Instr) : Bool :=
  i.split.isNone &&
  (match i with
   | .cmdNop | .cmdSkip _ | .cmdLoop _ _ | .cmdEndl _ | .cmdCond .. | .cmdWait .. | .cmdSignal .. | .cmdWaitk | .cmdLaunch ..
   | .cmdLaunchi .. | .cmdCtxCreate .. | .cmdCtxPreempt .. | .cmdCtxResume .. | .cmdCtxDestroy .. => false
   | _ => true)
/-- R407: what may come about before the package has left boot: the boot itself, and a loss of supply. -/
def bootEvent (i : Instr) : Bool := match i with | .boot => true | .powerLoss _ => true | _ => false
/-- R407: the writes to the window of function 0, which is there after a boot that failed. -/
def windowEvent (i : Instr) : Bool :=
  match i with
  | .registerWrite .. | .timesetWrite _ | .packageNumberWrite _ | .gangWrite .. | .rateChangeRequest _ => true
  | _ => false
/-- What a turn comes to. -/
def turnOf (s : State) (t : Turn) : TurnR :=
  match t with
  | .issue core slot busy => groupTurn s core slot busy
  | .send core slot => .over (sendTurn s core slot)
  | .hart h => hartTurn s h
  | .event i => if isEvent i && (s.booted || bootEvent i || (s.bootStatus != 0 && windowEvent i)) then .run s none i else .over s
  | .op id n => .over (opStep s id n)
  | .pass n => .over (passCycles s n)
  | .upset gr unc => .over (upset s gr unc)
  | .upsetDc die sec gr unc => .over (upsetDc s die sec gr unc)
  | .replayBegins q => .over (replayBegins s q)
  | .pathDelay q ns => .over (pathDelay s q ns)
  | .hdm p base size => .over { s with hdm := mset s.hdm p (base, size) }
  | .sense temp power inlet => .over (sense s temp power inlet)
  | .setPowerCap w => .over (setPowerCap s w)
  | .hartStray h target access => .over (hartStray s h target access)
  | .upsetSp b gr => .over (upsetSp s b gr)

end Sys2Proof.Machine
end

