-- ==== Sys2Proof/Machine/Dispatch.lean ====
section
/-! DEFINITION. One arm per instruction: the meaning that it calls. -/

namespace Sys2Proof.Machine

def exec (i : Instr) (s : State) : Host.Outcome State Fault Refusal :=
  match i with
  | .add p => Sys2Proof.Machine.execAdd p s
  | .sub p => Sys2Proof.Machine.execSub p s
  | .mul p => Sys2Proof.Machine.execMul p s
  | .mulhi p => Sys2Proof.Machine.execMulhi p s
  | .mad p => Sys2Proof.Machine.execMad p s
  | .madhi p => Sys2Proof.Machine.execMadhi p s
  | .div p => Sys2Proof.Machine.execDiv p s
  | .rem p => Sys2Proof.Machine.execRem p s
  | .min p => Sys2Proof.Machine.execMin p s
  | .max p => Sys2Proof.Machine.execMax p s
  | .abs p => Sys2Proof.Machine.execAbs p s
  | .neg p => Sys2Proof.Machine.execNeg p s
  | .and p => Sys2Proof.Machine.execAnd p s
  | .or p => Sys2Proof.Machine.execOr p s
  | .xor p => Sys2Proof.Machine.execXor p s
  | .not p => Sys2Proof.Machine.execNot p s
  | .shl p => Sys2Proof.Machine.execShl p s
  | .shr p => Sys2Proof.Machine.execShr p s
  | .sha p => Sys2Proof.Machine.execSha p s
  | .rot p => Sys2Proof.Machine.execRot p s
  | .bfx p => Sys2Proof.Machine.execBfx p s
  | .bfi p => Sys2Proof.Machine.execBfi p s
  | .popc p => Sys2Proof.Machine.execPopc p s
  | .clz p => Sys2Proof.Machine.execClz p s
  | .ctz p => Sys2Proof.Machine.execCtz p s
  | .brev p => Sys2Proof.Machine.execBrev p s
  | .perm p => Sys2Proof.Machine.execPerm p s
  | .sel p => Sys2Proof.Machine.execSel p s
  | .set p => Sys2Proof.Machine.execSet p s
  | .setp p => Sys2Proof.Machine.execSetp p s
  | .mov p => Sys2Proof.Machine.execMov p s
  | .movi p => Sys2Proof.Machine.execMovi p s
  | .addi p => Sys2Proof.Machine.execAddi p s
  | .andi p => Sys2Proof.Machine.execAndi p s
  | .ori p => Sys2Proof.Machine.execOri p s
  | .xori p => Sys2Proof.Machine.execXori p s
  | .shladd p => Sys2Proof.Machine.execShladd p s
  | .lea p => Sys2Proof.Machine.execLea p s
  | .addc p => Sys2Proof.Machine.execAddc p s
  | .subb p => Sys2Proof.Machine.execSubb p s
  | .sad p => Sys2Proof.Machine.execSad p s
  | .clamp p => Sys2Proof.Machine.execClamp p s
  | .mulw p => Sys2Proof.Machine.execMulw p s
  | .ext p => Sys2Proof.Machine.execExt p s
  | .tern p => Sys2Proof.Machine.execTern p s
  | .shf p => Sys2Proof.Machine.execShf p s
  | .fadd p => Sys2Proof.Machine.execFadd p s
  | .fsub p => Sys2Proof.Machine.execFsub p s
  | .fmul p => Sys2Proof.Machine.execFmul p s
  | .ffma p => Sys2Proof.Machine.execFfma p s
  | .fmin p => Sys2Proof.Machine.execFmin p s
  | .fmax p => Sys2Proof.Machine.execFmax p s
  | .fabs p => Sys2Proof.Machine.execFabs p s
  | .fneg p => Sys2Proof.Machine.execFneg p s
  | .fsetp p => Sys2Proof.Machine.execFsetp p s
  | .fset p => Sys2Proof.Machine.execFset p s
  | .fclass p => Sys2Proof.Machine.execFclass p s
  | .frnd p => Sys2Proof.Machine.execFrnd p s
  | .rcp p => Sys2Proof.Machine.execRcp p s
  | .rsqrt p => Sys2Proof.Machine.execRsqrt p s
  | .sqrt p => Sys2Proof.Machine.execSqrt p s
  | .ex2 p => Sys2Proof.Machine.execEx2 p s
  | .log2 p => Sys2Proof.Machine.execLog2 p s
  | .sin p => Sys2Proof.Machine.execSin p s
  | .cos p => Sys2Proof.Machine.execCos p s
  | .tanh p => Sys2Proof.Machine.execTanh p s
  | .cvt p => Sys2Proof.Machine.execCvt p s
  | .cvtf p => Sys2Proof.Machine.execCvtf p s
  | .cvti p => Sys2Proof.Machine.execCvti p s
  | .cvts p => Sys2Proof.Machine.execCvts p s
  | .pack p => Sys2Proof.Machine.execPack p s
  | .faddi p => Sys2Proof.Machine.execFaddi p s
  | .fmuli p => Sys2Proof.Machine.execFmuli p s
  | .dot4 p => Sys2Proof.Machine.execDot4 p s
  | .dot8 p => Sys2Proof.Machine.execDot8 p s
  | .dot4f p => Sys2Proof.Machine.execDot4f p s
  | .dot8f p => Sys2Proof.Machine.execDot8f p s
  | .dot2h p => Sys2Proof.Machine.execDot2h p s
  | .bra p => Sys2Proof.Machine.execBra p s
  | .brx p => Sys2Proof.Machine.execBrx p s
  | .call p => Sys2Proof.Machine.execCall p s
  | .ret p => Sys2Proof.Machine.execRet p s
  | .jmp p => Sys2Proof.Machine.execJmp p s
  | .exit p => Sys2Proof.Machine.execExit p s
  | .plop p => Sys2Proof.Machine.execPlop p s
  | .census p => Sys2Proof.Machine.execCensus p s
  | .lmask p => Sys2Proof.Machine.execLmask p s
  | .qxch p => Sys2Proof.Machine.execQxch p s
  | .lperm p => Sys2Proof.Machine.execLperm p s
  | .gred p => Sys2Proof.Machine.execGred p s
  | .gscan p => Sys2Proof.Machine.execGscan p s
  | .matchv p => Sys2Proof.Machine.execMatchv p s
  | .nop p => Sys2Proof.Machine.execNop p s
  | .join p => Sys2Proof.Machine.execJoin p s
  | .ld p => Sys2Proof.Machine.execLd p s
  | .st p => Sys2Proof.Machine.execSt p s
  | .ldu p => Sys2Proof.Machine.execLdu p s
  | .stu p => Sys2Proof.Machine.execStu p s
  | .lds p => Sys2Proof.Machine.execLds p s
  | .sts p => Sys2Proof.Machine.execSts p s
  | .atom p => Sys2Proof.Machine.execAtom p s
  | .red p => Sys2Proof.Machine.execRed p s
  | .atoms p => Sys2Proof.Machine.execAtoms p s
  | .cas p => Sys2Proof.Machine.execCas p s
  | .txbeg p => Sys2Proof.Machine.execTxbeg p s
  | .txend p => Sys2Proof.Machine.execTxend p s
  | .txabt p => Sys2Proof.Machine.execTxabt p s
  | .mwait p => Sys2Proof.Machine.execMwait p s
  | .fence p => Sys2Proof.Machine.execFence p s
  | .pfetch p => Sys2Proof.Machine.execPfetch p s
  | .icinv p => Sys2Proof.Machine.execIcinv p s
  | .pgq p => Sys2Proof.Machine.execPgq p s
  | .wresz p => Sys2Proof.Machine.execWresz p s
  | .barSync p => Sys2Proof.Machine.execBarSync p s
  | .barArv p => Sys2Proof.Machine.execBarArv p s
  | .bcsetInit p => Sys2Proof.Machine.execBcsetInit p s
  | .bcsetExp p => Sys2Proof.Machine.execBcsetExp p s
  | .bcadd p => Sys2Proof.Machine.execBcadd p s
  | .bcwait p => Sys2Proof.Machine.execBcwait p s
  | .batf p => Sys2Proof.Machine.execBatf p s
  | .batw p => Sys2Proof.Machine.execBatw p s
  | .xcpy p => Sys2Proof.Machine.execXcpy p s
  | .xgat p => Sys2Proof.Machine.execXgat p s
  | .xqnt p => Sys2Proof.Machine.execXqnt p s
  | .xfil p => Sys2Proof.Machine.execXfil p s
  | .xrowCpy p => Sys2Proof.Machine.execXrowCpy p s
  | .xrowIni p => Sys2Proof.Machine.execXrowIni p s
  | .xsta p => Sys2Proof.Machine.execXsta p s
  | .lgld p => Sys2Proof.Machine.execLgld p s
  | .lgst p => Sys2Proof.Machine.execLgst p s
  | .lgclr p => Sys2Proof.Machine.execLgclr p s
  | .fget p => Sys2Proof.Machine.execFget p s
  | .fenc p => Sys2Proof.Machine.execFenc p s
  | .fdec p => Sys2Proof.Machine.execFdec p s
  | .frefInc p => Sys2Proof.Machine.execFrefInc p s
  | .frefDec p => Sys2Proof.Machine.execFrefDec p s
  | .falc p => Sys2Proof.Machine.execFalc p s
  | .ffre p => Sys2Proof.Machine.execFfre p s
  | .fqry p => Sys2Proof.Machine.execFqry p s
  | .mma p => Sys2Proof.Machine.execMma p s
  | .mmag p => Sys2Proof.Machine.execMmag p s
  | .mrd p => Sys2Proof.Machine.execMrd p s
  | .mrdm p => Sys2Proof.Machine.execMrdm p s
  | .mclr p => Sys2Proof.Machine.execMclr p s
  | .mld p => Sys2Proof.Machine.execMld p s
  | .tcls p => Sys2Proof.Machine.execTcls p s
  | .mint p => Sys2Proof.Machine.execMint p s
  | .mstk p => Sys2Proof.Machine.execMstk p s
  | .sres p => Sys2Proof.Machine.execSres p s
  | .scom p => Sys2Proof.Machine.execScom p s
  | .strm p => Sys2Proof.Machine.execStrm p s
  | .sfrk p => Sys2Proof.Machine.execSfrk p s
  | .sfil p => Sys2Proof.Machine.execSfil p s
  | .sbnd p => Sys2Proof.Machine.execSbnd p s
  | .spfx p => Sys2Proof.Machine.execSpfx p s
  | .spin p => Sys2Proof.Machine.execSpin p s
  | .stopk p => Sys2Proof.Machine.execStopk p s
  | .srdDat p => Sys2Proof.Machine.execSrdDat p s
  | .srdMap p => Sys2Proof.Machine.execSrdMap p s
  | .srdLen p => Sys2Proof.Machine.execSrdLen p s
  | .snew p => Sys2Proof.Machine.execSnew p s
  | .sdel p => Sys2Proof.Machine.execSdel p s
  | .cbnd p => Sys2Proof.Machine.execCbnd p s
  | .cmodSet p => Sys2Proof.Machine.execCmodSet p s
  | .cmodGet p => Sys2Proof.Machine.execCmodGet p s
  | .crun p => Sys2Proof.Machine.execCrun p s
  | .cstp p => Sys2Proof.Machine.execCstp p s
  | .cblim p => Sys2Proof.Machine.execCblim p s
  | .trap p => Sys2Proof.Machine.execTrap p s
  | .yield p => Sys2Proof.Machine.execYield p s
  | .rdsr p => Sys2Proof.Machine.execRdsr p s
  | .rdsrChunk p => Sys2Proof.Machine.execRdsrChunk p s
  | .rdsrFrzprod p => Sys2Proof.Machine.execRdsrFrzprod p s
  | .wrsr p => Sys2Proof.Machine.execWrsr p s
  | .wrsrFrzcons p => Sys2Proof.Machine.execWrsrFrzcons p s
  | .frelRel p => Sys2Proof.Machine.execFrelRel p s
  | .frelDst p => Sys2Proof.Machine.execFrelDst p s
  | .frelRes p => Sys2Proof.Machine.execFrelRes p s
  | .ptok p => Sys2Proof.Machine.execPtok p s
  | .ptokRel p => Sys2Proof.Machine.execPtokRel p s
  | .ttok p => Sys2Proof.Machine.execTtok p s
  | .launch p => Sys2Proof.Machine.execLaunch p s
  | .rdctr p => Sys2Proof.Machine.execRdctr p s
  | .rdctrSel p => Sys2Proof.Machine.execRdctrSel p s
  | .mark p => Sys2Proof.Machine.execMark p s
  | .brk p => Sys2Proof.Machine.execBrk p s
  | .cmdSkip n => Sys2Proof.Machine.execCmdSkip n s
  | .cmdLoop l c => Sys2Proof.Machine.execCmdLoop l c s
  | .cmdEndl l => Sys2Proof.Machine.execCmdEndl l s
  | .cmdCond f n addr val => Sys2Proof.Machine.execCmdCond f n addr val s
  | .cmdWait f timeout addr val => Sys2Proof.Machine.execCmdWait f timeout addr val s
  | .cmdSignal f addr val => Sys2Proof.Machine.execCmdSignal f addr val s
  | .cmdLaunch serial record => Sys2Proof.Machine.execCmdLaunch serial record s
  | .cmdLaunchi serial record grid => Sys2Proof.Machine.execCmdLaunchi serial record grid s
  | .cmdCtxCreate c status => Sys2Proof.Machine.execCmdCtxCreate c status s
  | .cmdCtxPreempt c status => Sys2Proof.Machine.execCmdCtxPreempt c status s
  | .cmdCtxResume c status => Sys2Proof.Machine.execCmdCtxResume c status s
  | .cmdCtxDestroy c status => Sys2Proof.Machine.execCmdCtxDestroy c status s
  | .fetchSectorArrival gid va => Sys2Proof.Machine.execFetchSectorArrival gid va s
  | .splitPhaseResult gid => Sys2Proof.Machine.execSplitPhaseResult gid s
  | .asyncFaultReport gid => Sys2Proof.Machine.execAsyncFaultReport gid s
  | .redPerformed gid => Sys2Proof.Machine.execRedPerformed gid s
  | .mwaitTick gid => Sys2Proof.Machine.execMwaitTick gid s
  | .txCommit die => Sys2Proof.Machine.execTxCommit die s
  | .barArrivalApplied gid => Sys2Proof.Machine.execBarArrivalApplied gid s
  | .bcaddApplied gid => Sys2Proof.Machine.execBcaddApplied gid s
  | .preemptDeadlineExpires ctx => Sys2Proof.Machine.execPreemptDeadlineExpires ctx s
  | .groupStopComplete gid => Sys2Proof.Machine.execGroupStopComplete gid s
  | .contextSaved ctx => Sys2Proof.Machine.execContextSaved ctx s
  | .contextFreed ctx => Sys2Proof.Machine.execContextFreed ctx s
  | .spillOnClaim block what => Sys2Proof.Machine.execSpillOnClaim block what s
  | .faultRingDrain ring => Sys2Proof.Machine.execFaultRingDrain ring s
  | .hartSelectQueue hart => Sys2Proof.Machine.execHartSelectQueue hart s
  | .queueEnable queue => Sys2Proof.Machine.execQueueEnable queue s
  | .queueWaitMet queue => Sys2Proof.Machine.execQueueWaitMet queue s
  | .queueWaitTimeout queue => Sys2Proof.Machine.execQueueWaitTimeout queue s
  | .kernelTranslatingStart kernel => Sys2Proof.Machine.execKernelTranslatingStart kernel s
  | .extentTableBuilt kernel => Sys2Proof.Machine.execExtentTableBuilt kernel s
  | .blockPlacement kernel => Sys2Proof.Machine.execBlockPlacement kernel s
  | .blockRetire block => Sys2Proof.Machine.execBlockRetire block s
  | .kernelFaultingDone kernel => Sys2Proof.Machine.execKernelFaultingDone kernel s
  | .sideLogRetryTick core => Sys2Proof.Machine.execSideLogRetryTick core s
  | .rmRemove part => Sys2Proof.Machine.execRmRemove part s
  | .rmNotify part => Sys2Proof.Machine.execRmNotify part s
  | .rmDonate part => Sys2Proof.Machine.execRmDonate part s
  | .removeDrainEnd part => Sys2Proof.Machine.execRemoveDrainEnd part s
  | .removeConfirm part => Sys2Proof.Machine.execRemoveConfirm part s
  | .migrationCopyDone page => Sys2Proof.Machine.execMigrationCopyDone page s
  | .migrationSettleExpire page => Sys2Proof.Machine.execMigrationSettleExpire page s
  | .folioDonate part => Sys2Proof.Machine.execFolioDonate part s
  | .growingCopyDone entry => Sys2Proof.Machine.execGrowingCopyDone entry s
  | .entryRetireFree entry => Sys2Proof.Machine.execEntryRetireFree entry s
  | .clMirrorUpdate block core handle => Sys2Proof.Machine.execClMirrorUpdate block core handle s
  | .scrollDeleteFree part scroll => Sys2Proof.Machine.execScrollDeleteFree part scroll s
  | .gangInitDone stack => Sys2Proof.Machine.execGangInitDone stack s
  | .rateChangeStart stack => Sys2Proof.Machine.execRateChangeStart stack s
  | .rateChangeDone stack ok => Sys2Proof.Machine.execRateChangeDone stack ok s
  | .bcsetApplied gid => Sys2Proof.Machine.execBcsetApplied gid s
  | .blockReloadDone block ok => Sys2Proof.Machine.execBlockReloadDone block ok s
  | .storeWriteBack loc sector uncorrectable => Sys2Proof.Machine.execStoreWriteBack loc sector uncorrectable s
  | .mwaitWriteWake gid => Sys2Proof.Machine.execMwaitWriteWake gid s
  | .queueProdWrite queue prod => Sys2Proof.Machine.execQueueProdWrite queue prod s
  | .queueDisable queue => Sys2Proof.Machine.execQueueDisable queue s
  | .cmdNop => Sys2Proof.Machine.execCmdNop s
  | .cmdWaitk => Sys2Proof.Machine.execCmdWaitk s
  | .walkComplete core ctx va => Sys2Proof.Machine.execWalkComplete core ctx va s
  | .migCountClear => Sys2Proof.Machine.execMigCountClear s
  | .migrationWindowExpire page => Sys2Proof.Machine.execMigrationWindowExpire page s
  | .xferChannelHead id => Sys2Proof.Machine.execXferChannelHead id s
  | .xferReadDone id => Sys2Proof.Machine.execXferReadDone id s
  | .xferAbandon id => Sys2Proof.Machine.execXferAbandon id s
  | .xferRetire id => Sys2Proof.Machine.execXferRetire id s
  | .xferParkedTick id => Sys2Proof.Machine.execXferParkedTick id s
  | .lowmarkTick part => Sys2Proof.Machine.execLowmarkTick part s
  | .burinDone id => Sys2Proof.Machine.execBurinDone id s
  | .mmaStart id => Sys2Proof.Machine.execMmaStart id s
  | .mmaRetire id => Sys2Proof.Machine.execMmaRetire id s
  | .mmaFault id => Sys2Proof.Machine.execMmaFault id s
  | .tileTurnEffect id => Sys2Proof.Machine.execTileTurnEffect id s
  | .fillInstall id => Sys2Proof.Machine.execFillInstall id s
  | .chainChannelHead id => Sys2Proof.Machine.execChainChannelHead id s
  | .chainStepDone id => Sys2Proof.Machine.execChainStepDone id s
  | .chainStepFault id => Sys2Proof.Machine.execChainStepFault id s
  | .chainRetire id => Sys2Proof.Machine.execChainRetire id s
  | .hostRequest req => Sys2Proof.Machine.execHostRequest req s
  | .registerWrite fn off val => Sys2Proof.Machine.execRegisterWrite fn off val s
  | .attestation nonce => Sys2Proof.Machine.execAttestation nonce s
  | .packageNumberWrite val => Sys2Proof.Machine.execPackageNumberWrite val s
  | .timesetWrite val => Sys2Proof.Machine.execTimesetWrite val s
  | .flitReceived port flit => Sys2Proof.Machine.execFlitReceived port flit s
  | .flitReplay port => Sys2Proof.Machine.execFlitReplay port s
  | .keepaliveSend port => Sys2Proof.Machine.execKeepaliveSend port s
  | .flowAckTimer src flow => Sys2Proof.Machine.execFlowAckTimer src flow s
  | .flowRetransmitTimeout dst flow => Sys2Proof.Machine.execFlowRetransmitTimeout dst flow s
  | .portEnable port => Sys2Proof.Machine.execPortEnable port s
  | .portFence port => Sys2Proof.Machine.execPortFence port s
  | .portUnfence port => Sys2Proof.Machine.execPortUnfence port s
  | .markUnreachable pkg => Sys2Proof.Machine.execMarkUnreachable pkg s
  | .portTrainingResult port lanes => Sys2Proof.Machine.execPortTrainingResult port lanes s
  | .portLaneLoss port => Sys2Proof.Machine.execPortLaneLoss port s
  | .portKeepaliveLoss port => Sys2Proof.Machine.execPortKeepaliveLoss port s
  | .portRetrainTimeout port => Sys2Proof.Machine.execPortRetrainTimeout port s
  | .timeSyncSend => Sys2Proof.Machine.execTimeSyncSend s
  | .timeSyncReceive port offset => Sys2Proof.Machine.execTimeSyncReceive port offset s
  | .timeLockLoss => Sys2Proof.Machine.execTimeLockLoss s
  | .gangWrite stack val => Sys2Proof.Machine.execGangWrite stack val s
  | .rateChangeRequest stack => Sys2Proof.Machine.execRateChangeRequest stack s
  | .scrubRead stack => Sys2Proof.Machine.execScrubRead stack s
  | .scrubEscalateTick stack => Sys2Proof.Machine.execScrubEscalateTick stack s
  | .pcSampleTick core draw => Sys2Proof.Machine.execPcSampleTick core draw s
  | .counterSlice => Sys2Proof.Machine.execCounterSlice s
  | .counterSelectWrite part idx val => Sys2Proof.Machine.execCounterSelectWrite part idx val s
  | .histogramRecord => Sys2Proof.Machine.execHistogramRecord s
  | .boot => Sys2Proof.Machine.execBoot s
  | .powerCapExceeded => Sys2Proof.Machine.execPowerCapExceeded s
  | .thermalTrip => Sys2Proof.Machine.execThermalTrip s
  | .fdecRetire id => Sys2Proof.Machine.execFdecRetire id s
  | .powerLoss duringWrite => Sys2Proof.Machine.execPowerLoss duringWrite s

end Sys2Proof.Machine
end

