-- ==== Sys2Proof/Machine/Step.lean ====
section
/-! DEFINITION. One step of the machine: the next turn, up to the instruction that it runs, and the instruction. -/

namespace Sys2Proof.Machine

/-- One step: the turn of one agent, or one step of the device (assumption log 1). -/
def step (s : State) : Host.Outcome State Fault Refusal :=
  let n := nextTurn s
  match turnOf n.1 n.2 with
  | .over t => .next t
  | .run t gid i => match exec i t with
    | .next u => .next (endTurn n.1 u gid i)
    | .fault r => .fault r
    | .refused r => .refused r

/-- The first free slot of core 0. -/
def freeSlot0 (s : State) : Nat := ((List.range 48).find? (fun n => (groupAt s 0 n).isNone)).getD 0
/-- A kernel of one block with one group on core 0, context 0 of partition 0, whose held sector has the word in slot 0
(assumption log 20). -/
def placeGroup (s : State) (w : W96) : State :=
  let b := s.fresh
  let slot := freeSlot0 s
  { updCtx s 0 (fun c => { c with st := .running }) with
    fresh := b + 1
    booted := true
    kernels := mset s.kernels b { ctx := 0, record := mkRec [(148, 144, 16), (156, 152, 2), (165, 160, 1), (169, 169, 1)], st := .running,
                                  blocks := 1, placed := 1 }
    blocks := mset s.blocks b { kernel := b, num := 0, pair := 0, ngroups := 1, size := 131072, ways := 1, tiles := some 0 }
    groups := mset s.groups (gidOf b 0) { block := b, num := 0, core := 0, slot := slot, pc := 0,
                                          region := { entry := 0, e := BitVec.allOnes 32, stack := [] },
                                          sectors := [(0, .ok (BitVec.setWidth 1024 w))] }
    agenda := .issue 0 slot 0 :: s.agenda }
/-- A queue of context 0 of partition 0 that hart 0 runs, its ring at 0x2000 under a page table at 0x10000 that maps
addresses to themselves, with three words (assumption log 20). -/
def placeCommand (s : State) (w : Nat) : State :=
  let c := (getPart s 0).ctxBase
  let s := memWrite s (c + 8) 8 0x10000
  let s := memWrite s 0x10000 8 (mkRec [(0, 0, 1), (1, 1, 1), (5, 2, 15)])
  let s := memWrite s (c + 0x1000) 16 (mkRec [(63, 0, 0x2000), (68, 64, 6), (75, 75, 1), (127, 96, 3)])
  let s := memWrite s 0x2000 24 w
  { updCtx s 0 (fun c => { c with st := .running }) with
    booted := true
    queues := mset s.queues 0 { st := .running, prod := 3 }
    harts := mset s.harts 0 { queue := some 0 }
    agenda := .hart 0 :: s.agenda }
/-- The state whose next step runs the instruction of a word: a queue command for 64, 128 or 192 bits, a program
instruction otherwise. -/
def State.withFetchWord (s : State) (nbits w : Nat) : State :=
  if nbits == 64 || nbits == 128 || nbits == 192 then placeCommand s (w % 2 ^ nbits)
  else placeGroup s (BitVec.ofNat 96 (w % 2 ^ nbits))

end Sys2Proof.Machine
end

