-- ==== Sys2Proof/Safety.lean ====
section
/-! DEFINITION. What counts as a safe run, and the invariant that every step keeps. -/

namespace Sys2Proof.Safety

/-- A run of n steps that meets no fault and no refusal. -/
def runs (n : Nat) (s : Machine.State) : Bool :=
  match core.run n s with
  | .next _ => true
  | _ => false
/-- The memory is in its canonical form (assumption log 4). -/
abbrev memInv (s : Machine.State) : Prop := Machine.Memory.wf s.mem = true

end Sys2Proof.Safety
end

