-- ==== Sys2Proof/WellFormed.lean ====
section
/-! DEFINITION. Which instructions are well formed: a program instruction whose fields the decoder accepts for a group of
128 registers with a tile set, a command whose arguments the hart accepts, a step whose object exists on the package. -/

namespace Sys2Proof

/-- R38 to R48: the fields are those of one word that decodes to this instruction. -/
def Op.fieldsOk (o : Op) (p : P) : Bool :=
  o.legal1 128 true p && o.legal2 p &&
  decodeOp o.row.maj p.f p.a.bits.toNat p.d.bits.toNat == some o &&
  (match p.d with | .other (.v _) => false | .other (.s _) => false | _ => true) &&
  (match p.d with | .other (.pred n) => n.toNat < 12 | _ => true) &&
  (match p.a with | .pred n => n.toNat < 12 | _ => true) &&
  (match p.b with
    | .op (.pred n) => !o.row.rawB && n.toNat < 12
    | .op _ => !o.row.rawB
    | .raw _ => o.row.rawB)

/-- R89, R90: the arguments of a queue command. -/
def cmdOk (i : Instr) : Bool :=
  match i with
  | .cmdCond _ _ a _ => a.toNat % 8 == 0
  | .cmdWait _ _ a _ => a.toNat % 8 == 0
  | .cmdSignal f a _ => f.toNat < 3 && a.toNat % 8 == 0
  | .cmdLaunch _ a => a.toNat % 64 == 0
  | .cmdLaunchi _ a g => a.toNat % 64 == 0 && g.toNat % 16 == 0
  | .cmdCtxCreate _ a => a.toNat % 8 == 0
  | .cmdCtxPreempt _ a => a.toNat % 8 == 0
  | .cmdCtxResume _ a => a.toNat % 8 == 0
  | .cmdCtxDestroy _ a => a.toNat % 8 == 0
  | _ => true

/-- R10, R12, R61, R85: the numbers that a step of the device names exist on the package. -/
def stepOk (i : Instr) : Bool :=
  match i with
  | .txCommit d => d < 4
  | .preemptDeadlineExpires c => c < 512
  | .contextSaved c => c < 512
  | .contextFreed c => c < 512
  | .faultRingDrain (.fault c) => c < 512
  | .faultRingDrain (.freeze p) => p < 8
  | .hartSelectQueue h => h < 16
  | .queueProdWrite q n => q < 512 && n < 2 ^ 32
  | .queueEnable q => q < 512
  | .queueDisable q => q < 512
  | .queueWaitMet q => q < 512
  | .queueWaitTimeout q => q < 512
  | .walkComplete c x _ => c < 384 && x < 512
  | .sideLogRetryTick c => c < 384
  | .rmRemove p => p < 8
  | .rmNotify p => p < 8
  | .rmDonate p => p < 8
  | .removeDrainEnd p => p < 8
  | .removeConfirm p => p < 8
  | .folioDonate p => p < 8
  | .lowmarkTick p => p < 8
  | .scrollDeleteFree p i => p < 8 && i < 65536
  | .hostRequest r => r.part < 8
  | .registerWrite f o _ => f < 9 && o < 65536 && o % 8 == 0
  | .flitReceived p _ => p < 24
  | .flitReplay p => p < 24
  | .keepaliveSend p => p < 24
  | .portEnable p => p < 24
  | .portFence p => p < 24
  | .portUnfence p => p < 24
  | .portTrainingResult p l => p < 24 && l ≤ 8
  | .portLaneLoss p => p < 24
  | .portKeepaliveLoss p => p < 24
  | .portRetrainTimeout p => p < 24
  | .timeSyncReceive p _ => p < 24
  | .markUnreachable k => k < 144
  | .gangWrite t _ => t < 12
  | .gangInitDone t => t < 12
  | .rateChangeRequest t => t < 12
  | .rateChangeStart t => t < 12
  | .rateChangeDone t _ => t < 12
  | .scrubRead t => t < 12
  | .scrubEscalateTick t => t < 12
  | .pcSampleTick c _ => c < 384
  | .counterSelectWrite p i _ => p < 8 && i < 64
  | _ => true

/-- The instruction is one that the words of the spec, or an object of the package, give. -/
def Instr.wellFormed (i : Instr) : Bool :=
  match i.split with
  | some (o, p) => o.fieldsOk p
  | none => cmdOk i && stepOk i

end Sys2Proof
end

