-- ==== Sys2Proof/Certificates/Slice0/Obligations.lean ====
section
/-! DEFINITION. The statements for the provers, in the order of the spec's files: what each instruction and each step of the
device does, what it leaves alone, and what holds of the machine as a whole. The definitions under Sys2Proof.Claim are the
vocabulary of the statements. -/

namespace Sys2Proof.Claim
open Sys2Proof.Machine

/-! ### Vocabulary -/

/-- A group is the agent of the step, with the pipes that other work occupies. -/
def Issuer (s : State) (gid : Nat) (busy : BitVec 10) (g : Group) : Prop :=
  s.cur = .group gid busy ∧ mfind s.groups gid = some g
/-- Every byte reads as before: at its home, and as the engines and the L1 of every pair see it. -/
def MemSame (s t : State) : Prop :=
  ∀ pair a, memByte t a = memByte s a ∧ engRead1 t pair a = engRead1 s pair a
/-- A group without its latch marks, which the issue of any other group on a pipe may turn stale (R42). -/
def bare (g : Group) : Group := { g with latchPipe := [] }
/-- Every other group is as before, but for its latch marks. -/
def OthersSame (s t : State) (gid : Nat) : Prop :=
  ∀ j, j ≠ gid → (mfind t.groups j).map bare = (mfind s.groups j).map bare

/-- A step of one group that touches registers only: the group goes on at the next instruction with its region open as it
was, and nothing changes but its registers, its latch marks, its issue bookkeeping (R46) and the latches and keep
reservations of its core (R42, R43). -/
structure RegStep (s t : State) (gid : Nat) (g g' : Group) : Prop where
  found : mfind t.groups gid = some g'
  pc : g'.pc = nextPc g.pc
  ready : g'.st = .ready
  own : g' = { g with v := g'.v, sr := g'.sr, p := g'.p, k := g'.k, pc := g'.pc, st := g'.st, age := g'.age,
                      lastIssue := g'.lastIssue, waited := g'.waited, elig := g'.elig, burst := g'.burst, latchPipe := g'.latchPipe }
  others : OthersSame s t gid
  core : ∀ c, getCore t c = { getCore s c with keep := (getCore t c).keep }
  rest : t = { s with groups := t.groups, cores := t.cores, latches := t.latches }
  mem : MemSame s t

/-- R41: the vector registers after lane results: the executing lanes of D, and of the next register for 64-bit results;
nothing with no-write-back. -/
def VecRegs (g g' : Group) (p : P) (wide : Bool) (val : Nat → Nat) : Prop :=
  (∀ m lane, lane < 32 → rdV g' m lane =
    match p.d with
    | .v false _ n =>
      if (guardLanes g p.h).getLsbD lane = true then
        (if m = n.toNat then BitVec.ofNat 32 (val lane)
         else if wide = true ∧ m = n.toNat + 1 then BitVec.ofNat 32 (val lane / 2 ^ 32) else rdV g m lane)
      else rdV g m lane
    | _ => rdV g m lane) ∧
  g'.sr = g.sr
/-- R125: the uniform registers after a uniform result of a type. -/
def UniRegs (g g' : Group) (p : P) (t val : Nat) : Prop :=
  (∀ m, rdS g' m = if actsOnce g p.h = true ∧ dstS p.d = some m then BitVec.ofNat 64 (uniBits t val) else rdS g m) ∧
  g'.v = g.v
/-- The predicates are as before. -/
def PredsSame (g g' : Group) : Prop := g'.p = g.p ∧ g'.k = g.k
/-- R42: the latch that D names holds the results of the executing lanes, and the group may read it on that pipe; a 64-bit
result writes no latch (R126). -/
def Latched (t : State) (g g' : Group) (p : P) (s : State) (pipe : Nat) (wide : Bool) (val : Nat → Nat) : Prop :=
  if wide = true then t.latches = s.latches ∧ g'.latchPipe = g.latchPipe
  else (∀ lane, lane < 32 → (guardLanes g p.h).getLsbD lane = true →
      mget 0 t.latches (latchKey g.core pipe p.d.latchBits lane) = BitVec.ofNat 32 (val lane)) ∧
    mfind g'.latchPipe p.d.latchBits = some (pipe, false)

/-- A source as an instruction reads it: the type of the operand and the operand give a pattern (R123). -/
abbrev Read := Nat → Opnd → Nat

/-- WHAT AN ARITHMETIC INSTRUCTION DOES: `mk` the instruction, `sfu` its class of pipe, `xs` the operands that may be latches,
`tr` the type of its result, `val` the result of a lane from its sources. Both forms, with the guard and every kind of
operand; the vector form on the pipe that R115 gives it. -/
def ComputesIn (mk : P → Instr) (sfu : Bool) (xs : P → List Opnd) (tr : P → Nat)
    (val : P → State → Group → Nat → Read → Nat) : Prop :=
  (∀ s gid busy g p, Issuer s gid busy g → p.h.uni = true →
    ∃ t g', exec (mk p) s = .next t ∧ RegStep s t gid g g' ∧ t.latches = s.latches ∧ PredsSame g g' ∧
      UniRegs g g' p (tr p) (val p s g 0 (fun ty x => srcPat s g (gConsts s g) 0 ty x 0))) ∧
  (∀ s gid busy g p pipe, Issuer s gid busy g → p.h.uni = false → pickPipe s gid busy g sfu (xs p) = .pipe pipe →
    ∃ t g', exec (mk p) s = .next t ∧ RegStep s t gid g g' ∧ PredsSame g g' ∧
      VecRegs g g' p (is64 (tr p)) (fun i => val p s g i (fun ty x => srcPat s g (gConsts s g) pipe ty x i)) ∧
      Latched t g g' p s pipe (is64 (tr p)) (fun i => val p s g i (fun ty x => srcPat s g (gConsts s g) pipe ty x i)))
/-- The same for a result that reads nothing of another lane. -/
def Computes (mk : P → Instr) (sfu : Bool) (xs : P → List Opnd) (tr : P → Nat) (val : P → Group → Nat → Read → Nat) : Prop :=
  ComputesIn mk sfu xs tr (fun p _ g i src => val p g i src)

/-- R40, R45: the predicates after a step that writes predicate n in the lanes `on`; p7 discards. -/
def PredRegs (g g' : Group) (n : Nat) (on : Nat → Bool) (val : Nat → Bool) : Prop :=
  ∀ m lane, m < 12 → lane < 32 → rdPred g' m lane = if m = n ∧ n ≠ 7 ∧ on lane = true then val lane else rdPred g m lane
/-- The vector and uniform registers are as before. -/
def RegsSame (g g' : Group) : Prop := g'.v = g.v ∧ g'.sr = g.sr

/-- Sources A and B, A alone, none. -/
def srcAB (p : P) : List Opnd := [p.a, p.b.opnd]
def srcA (p : P) : List Opnd := [p.a]
def srcNone (_ : P) : List Opnd := []
/-- The type of the word, and the types of results of fixed type. -/
def own (p : P) : Nat := p.t
def word (_ : P) : Nat := 6

/-- R131: a result from the patterns of A, B and D in the type of the word. -/
def three (f : P → Nat → Nat → Nat → Nat) : P → Group → Nat → Read → Nat :=
  fun p _ _ src => f p (src p.t p.a) (src p.t p.b.opnd) (src p.t (dstSrc p.d))
/-- R131: an integer result from the exact values of the elements. -/
def ints (f : P → Int → Int → Int → Int) : P → Group → Nat → Read → Nat := three (fun p => intMould p.t p.sat (f p))
/-- A result on whole patterns, reduced to the width of the type. -/
def pats (f : P → Nat → Nat → Nat → Nat → Nat) : P → Group → Nat → Read → Nat :=
  three (fun p a b d => f p (tyW p.t) a b d % 2 ^ tyW p.t)
/-- A result from the pattern of A. -/
def one (f : P → Nat → Nat) : P → Group → Nat → Read → Nat := fun p _ _ src => f p (src p.t p.a)
/-- R136: a floating result, rounded element by element. -/
def floats (f : P → FV → FV → FV → FV) : P → Group → Nat → Read → Nat :=
  three (fun p a b d => mapElems (tyW p.t) (elemN p.t) (fun e =>
    fltRes p.t p.rnd p.sat (f p (decodeF (fmtOf p.t) (elem (tyW p.t) e a)) (decodeF (fmtOf p.t) (elem (tyW p.t) e b))
      (decodeF (fmtOf p.t) (elem (tyW p.t) e d)))))
/-- A floating result from the pattern of each element of A. -/
def floatOne (f : P → Fmt → Nat → Nat) : P → Group → Nat → Read → Nat :=
  one (fun p a => mapElems (tyW p.t) (elemN p.t) (fun e => f p (fmtOf p.t) (elem (tyW p.t) e a)))

/-- R144: a source of dot8f, whose immediates are converted to E2M1 in every element. -/
def dot8fSrc (src : Read) (x : Opnd) : Nat :=
  match x with | .imm i => replicate 4 8 (roundF e2m1 0 false (ofInt i.toInt)) | _ => src 6 x
/-- R134: result and carry of a lane, from A, B and the input predicate. -/
def carryOf (f : Nat → Nat → Nat → Nat → Nat × Bool) (s : State) (g : Group) (p : P) (pipe lane : Nat) : Nat × Bool :=
  f (tyW p.t) (srcPat s g (gConsts s g) pipe p.t p.a lane) (srcPat s g (gConsts s g) pipe p.t p.b.opnd lane)
    (rdPred g (carryIn p) lane).toNat
/-- The instructions that issue on a pipe, with their class and the sources that may be latches (R42, R115, R127). -/
def pipeInstrs : List ((P → Instr) × Bool × (P → List Opnd)) :=
  ([.add, .sub, .mul, .mulhi, .mad, .madhi, .min, .max, .and, .or, .xor, .shl, .shr, .sha, .rot, .bfx, .bfi, .perm, .sel, .set,
    .setp, .shladd, .lea, .addc, .subb, .sad, .clamp, .mulw, .tern, .shf, .fadd, .fsub, .fmul, .ffma, .fmin, .fmax, .fsetp, .fset,
    .cvts, .pack, .dot4, .dot8, .dot4f, .dot8f, .dot2h].map (fun k => (k, false, srcAB))) ++
  ([.abs, .neg, .not, .popc, .clz, .ctz, .brev, .addi, .andi, .ori, .xori, .ext, .fabs, .fneg, .fclass, .frnd, .cvt, .cvtf, .cvti,
    .faddi, .fmuli, .gred, .gscan].map (fun k => (k, false, srcA))) ++
  ([.movi, .qxch, .matchv].map (fun k => (k, false, srcNone))) ++ [(.lperm, false, fun p => [p.b.opnd])] ++
  ([.div, .rem].map (fun k => (k, true, srcAB))) ++
  ([.rcp, .rsqrt, .sqrt, .ex2, .log2, .sin, .cos, .tanh].map (fun k => (k, true, srcA)))
/-- The integer arithmetic instructions, with their class and the sources that may be latches. -/
def intInstrs : List ((P → Instr) × Bool × (P → List Opnd)) :=
  ([.add, .sub, .mul, .mulhi, .mad, .madhi, .min, .max, .shl, .shr, .sha, .rot, .shladd, .clamp, .sad, .mulw, .lea].map
    (fun k => (k, false, srcAB))) ++ ([.abs, .neg, .addi].map (fun k => (k, false, srcA))) ++ ([.div, .rem].map (fun k => (k, true, srcAB)))

/-- A step of one group that touches nothing else: every other group, every other piece of state and every byte stay. -/
structure GroupStep (s t : State) (gid : Nat) (g' : Group) : Prop where
  found : mfind t.groups gid = some g'
  others : ∀ j, j ≠ gid → mfind t.groups j = mfind s.groups j
  rest : t = { s with groups := t.groups }
  mem : MemSame s t
/-- A group after an instruction that goes on at an address: of its state only the program counter, what control flow owns
(E, active lanes, divergence stack), its uniform registers and its issue bookkeeping may differ. -/
structure Moved (g g' : Group) (pc : Nat) : Prop where
  pc : g'.pc = pc
  ready : g'.st = .ready
  own : g' = { g with pc := g'.pc, st := .ready, e := g'.e, active := g'.active, stack := g'.stack, sr := g'.sr, age := g'.age,
                      lastIssue := g'.lastIssue, waited := g'.waited, elig := g'.elig, burst := g'.burst, last := g'.last, region := g'.region, seen := g'.seen }
/-- E, the active lanes and the divergence stack are as before, and so is the region entry. -/
def FlowSame (g g' : Group) : Prop := g'.e = g.e ∧ g'.active = g.active ∧ g'.stack = g.stack ∧ g'.region = g.region

/-! #### Memory -/

/-- Every byte of memory reads as before. -/
def HomeSame (s t : State) : Prop := ∀ a, memByte t a = memByte s a
/-- Every byte outside a set of addresses reads as before: in memory, and as the engines and the L1 of every pair see it. -/
def SameOutside (A : Nat → Prop) (s t : State) : Prop :=
  ∀ a, ¬ A a → memByte t a = memByte s a ∧ ∀ pair, (engRead1 t pair a).1 = (engRead1 s pair a).1
/-- A byte that a cache holds and that its home has not received. -/
def DirtyAt (s : State) (a : Nat) : Prop :=
  (∃ x ∈ s.l1, x.1 % 2 ^ 42 = a / 128 ∧ x.2.dirty.getLsbD (a % 128) = true) ∨
  (∃ x ∈ s.dc, x.1 % 2 ^ 42 = a / 128 ∧ x.2.dirty.getLsbD (a % 128) = true)
/-- Every byte that no cache holds newer reads as before. -/
def CleanSame (s t : State) : Prop := ∀ a, a < 2 ^ 49 → ¬ DirtyAt s a → memByte t a = memByte s a
/-- A group without its latch marks and without its transactions, which the issue of another group and the loss of a page
may change. -/
def bareTx (g : Group) : Group := { g with latchPipe := [], tx := [] }
def OthersBare (s t : State) (gid : Nat) : Prop :=
  ∀ j, j ≠ gid → (mfind t.groups j).map bareTx = (mfind s.groups j).map bareTx
/-- What an access to memory may touch beside its group: memory and caches with their marks, translations, page counts, the
partitions' counters, the migration pool, and the flows to other packages. -/
def AccessRest (s t : State) : Prop :=
  t = { s with mem := t.mem, veils := t.veils, poison := t.poison, ecc := t.ecc, eccDc := t.eccDc, foundDc := t.foundDc, tags := t.tags, l1 := t.l1, dc := t.dc,
               walkc := t.walkc, pages := t.pages, groups := t.groups, kernels := t.kernels, parts := t.parts, cores := t.cores,
               stackCtl := t.stackCtl, flowsT := t.flowsT, ports := t.ports, rr := t.rr }
/-- A group after a memory instruction: on to the next instruction, with nothing of its own changed but its issue
bookkeeping, the results on their way, the reductions queued, and whether an acquire has shown it others' writes. -/
structure MemIssue (g g' : Group) : Prop where
  pc : g'.pc = nextPc g.pc
  ready : g'.st = .ready
  own : g' = { g with pc := g'.pc, st := .ready, age := g'.age, lastIssue := g'.lastIssue, waited := g'.waited, elig := g'.elig, burst := g'.burst, pend := g'.pend,
                      reds := g'.reds, bcs := g'.bcs, tx := g'.tx, seen := g'.seen, region := g'.region }
/-- R70: whether the instruction closed its region. -/
def RegionAfter (g g' : Group) (close : Bool) : Prop :=
  g'.region = if close then { entry := nextPc g.pc, e := g.e, stack := g.stack } else g.region
/-- Results under a slot of R216, or none. -/
def Pends (g g' : Group) (ws : List RegW) (slot : Bool) : Prop :=
  g'.pend = g.pend ++ (if ws.isEmpty then [] else [{ ws := ws, slot := slot }])

/-- The checked accesses of the lanes: their addresses translated under the permissions that the instruction needs. -/
def accesses (s : State) (g : Group) (p : P) (n need : Nat) (addr : Group → P → Nat → Nat) : State × List Acc :=
  chkAll s g n (fun _ => [need]) ((accLanes g p.h).map (fun i => (i, addr g p i)))
/-- Where a store of a group arrives: 0 its pair's L1, 1 the guest part of its die's cache, 2 the home. -/
def storePlace (s : State) (g : Group) (pa : Nat) (nc : Bool) : Nat :=
  if !isLocal s pa || (settledAt s pa && homeDie pa != gDie g) then 2
  else if nc then (if isGuest s (gDie g) (sectorOf pa) then 1 else 2) else 0
/-- The byte at an address as that place holds it. -/
def placeByte (t : State) (g : Group) (place a : Nat) : Byte :=
  match place with
  | 0 => (engRead1 t (gPair g) a).1
  | 1 => secByte (((mfind t.dc (dcKey (gDie g) (sectorOf a))).getD {}).data) (a % 128)
  | _ => memByte t a
/-- An access that lies at an address of the machine, within a sector, at memory that the package can reach. -/
def Placed (s : State) (n : Nat) (a : Acc) : Prop := ∃ pa, a.c = .ok pa ∧ pa % 128 + n ≤ 128 ∧ reachable s pa = true
/-- No group of a block waits on a byte-counting record (R204). -/
def NoBcWait (s : State) (blk : Nat) : Prop := ∀ x ∈ s.groups, x.2.block = blk → ∀ o ph, x.2.st ≠ .waiting (.bc o ph)
/-- A byte outside the records of contexts, queues and the tensor directory, whose read-only and reserved bits no store changes (R5). -/
def PlainAt (s : State) (a : Nat) : Prop := ∀ x ∈ s.parts, recMask s a x.2 = none
/-- A sector that a group's pair and die read at its home: neither holds a copy, no granule of it is poisoned or in error, and it can be
reached. -/
def CleanAt (s : State) (g : Group) (pa : Nat) : Prop :=
  mfind s.l1 (l1Key (gPair g) (sectorOf pa)) = none ∧
  (isGuest s (gDie g) (sectorOf pa) = true → mfind s.dc (dcKey (gDie g) (sectorOf pa)) = none) ∧ s.eccDc = [] ∧ reachable s pa = true ∧
  ∀ i, i < 4 → mfind s.poison (4 * sectorOf pa + i) ≠ some true ∧ mfind s.ecc (4 * sectorOf pa + i) = none
/-- The physical address of a checked access. -/
def Acc.pa (a : Acc) : Nat := match a.c with | .ok pa => pa | _ => 0

/-- The transaction of a lane as txbeg leaves it (R223): opened, or doomed with NESTED when it was open. -/
def txBegun (o : Option Tx) : Option Tx := some (match o with | some x => doom x 8 | none => {})
/-- R226: the lanes of a txend with their transactions, a lane without one carrying NOTX, a helper lane no writes; losers
inside the group marked. -/
def txEnding (g : Group) (p : P) : List (Nat × Tx) :=
  txInGroup ((lanesOf (guardLanes g p.h)).map (fun i =>
    let t := (mfind g.tx i).getD { code := 12 }
    (i, if g.hmask.getLsbD i then { t with writes := [] } else t))) []
/-- The register of txend's statuses; none with no-write-back. -/
def txReg (p : P) : Option Nat := match p.d with | .v false _ n => some n.toNat | _ => none
/-- A waiting group after its wait ends (R112): on to the next instruction, its region closed or not. -/
structure Returned (g g' : Group) (close : Bool) : Prop where
  pc : g'.pc = nextPc g.pc
  ready : g'.st = .ready
  seen : g'.seen = true
  region : g'.region = if close then { entry := nextPc g.pc, e := g.e, stack := g.stack } else g.region
  own : g' = { g with pc := g'.pc, st := .ready, seen := true, region := g'.region }
/-- A group that has issued a wait: where it was, its burst over. -/
structure NowWaits (g g' : Group) (w : WaitK) : Prop where
  waits : g'.st = .waiting w
  own : g' = { g with st := g'.st, age := g'.age, lastIssue := g'.lastIssue, waited := g'.waited, elig := g'.elig, burst := 0, arrivals := g'.arrivals, tx := g'.tx }

/-! #### Instructions that act once for the group, queue commands and steps of the device -/

/-- A group that goes on at the next instruction: its program counter, its issue bookkeeping (R46) and, when the instruction
closes its region, its region entry with the copy of E and the divergence stack (R70). -/
def issued (s : State) (g : Group) (p : P) (close : Bool) : Group :=
  { g with pc := nextPc g.pc, st := .ready, age := if p.h.yld then s.cycle else g.age, lastIssue := s.cycle + 1, waited := 0, elig := false,
           burst := if p.h.burst = 0 then g.burst - 1 else p.h.burst.toNat,
           region := if close then { entry := nextPc g.pc, e := g.e, stack := g.stack } else g.region }
/-- A state with one group changed. -/
def put (s : State) (gid : Nat) (g : Group) : State := { s with groups := mset s.groups gid g }
/-- An instruction answers a state in which no byte of memory reads otherwise than before. -/
def Gives (i : Instr) (s t : State) : Prop := exec i s = .next t ∧ MemSame s t
/-- Values on their way to the registers from the one that D names on, or none. -/
def later (d : Dst) (xs : List Nat) : List Pend :=
  match dstS d with
  | some n => [{ ws := xs.zipIdx.map (fun x => .s (n + x.2) (BitVec.ofNat 64 x.1)) }]
  | none => []
/-- A status on its way to the predicate k0 to k3 that D names. -/
def laterK (d : Dst) (x : Bool) : List Pend := match d with | .other (.pred n) => [{ ws := [.k (n.toNat - 8) x] }] | _ => []
/-- The transactions of a group after an instruction that none may hold (R224). -/
def illegalTx (g : Group) (p : P) : AMap Tx :=
  g.tx.map (fun x => if (lanesOf (guardLanes g p.h)).contains x.1 then (x.1, doom x.2 7) else x)
/-- A source that is no special register. -/
def plainSrc (x : Opnd) : Opnd := match x with | .sr _ => .v 0 | y => y
/-- An address outside a range of bytes. -/
def Outside (lo n a : Nat) : Prop := a < lo ∨ lo + n ≤ a
/-- Bytes outside a range of memory read as before at their home. -/
def HomeOutside (lo n : Nat) (s t : State) : Prop := ∀ a, Outside lo n a → memByte t a = memByte s a

/-- An engine operation as the instruction that starts it leaves it in its queue (R199). -/
def opOf (s : State) (gid : Nat) (g : Group) (p : P) (flags : Bool) (k : EK) : EOp :=
  { gid := gid, block := g.block, kernel := gKid s g, ctx := gCtx s g, pair := gPair g, core := g.core, batch := g.batch,
    addr := g.pc, order := if flags then p.order else 0, scope := if flags then p.scope else 0, reuse := p.h.reuse, kind := k }
/-- A state with one more operation, under the next number. -/
def withOp (s : State) (o : EOp) : State := { s with fresh := s.fresh + 1, ops := mset s.ops s.fresh o }
/-- An instruction puts an operation into its engine's queue and the group goes on, with every open transaction that it may
not hold doomed; s1 is the state after the records that it reads. -/
def Queues (i : Instr) (s s1 : State) (gid : Nat) (g : Group) (p : P) (flags : Bool) (k : EK) : Prop :=
  HomeSame s s1 ∧ ∀ g1, mfind s1.groups gid = some g1 →
    exec i s = .next (put (withOp s1 (opOf s1 gid g p flags k)) gid { issued s1 g1 p true with tx := illegalTx g1 p })
/-- Records of n bytes are read once for the group. -/
def ReadsRecs (s : State) (gid : Nat) (g : Group) (vas : List Nat) (n align : Nat) (s1 : State) (rs : List Nat) : Prop :=
  ∀ go, groupReads s gid g vas n align go = go s1 rs
def ReadsRec (s : State) (gid : Nat) (g : Group) (va n align : Nat) (s1 : State) (r : Nat) : Prop :=
  ∀ go, groupRead s gid g va n align go = go s1 r
/-- A group whose block stands and is not being resized, with nothing of its own to be done before its next access. -/
def Calm (s : State) (g : Group) (b : Block) : Prop := gBlock s g = some b ∧ b.resize = none ∧ g.bcs = [] ∧ g.reds = []
/-- R270: an instruction of the Pantograph that can be accepted. -/
def XOpen (s : State) (g : Group) (p : P) (b : Block) : Prop :=
  Calm s g b ∧ elects g p.h = true ∧ (channelOf s 0 (gPair g) (gCtx s g)).length < 16
/-- R67, R271: nothing stands in a command's way: alignment, scratchpad range, byte-counting record, handles, records whose Base
lies inside the address space, and a translation for every page that it reads and writes. -/
def XClear (s : State) (g : Group) (p : P) (b : Block) (mis : Option Nat) (recs reads writes : List Nat) (out unb : Option Nat)
    (s1 : State) : Prop :=
  mis = none ∧ out = none ∧ unb = none ∧ (∀ c, cntOff p = some c → c + 16 ≤ b.size) ∧ (∀ r ∈ recs, lrHigh r = none) ∧
  (let r := framesOf s g.core (gCtx s g) (gExts s g) 0 reads
   let w := framesOf r.1 g.core (gCtx s g) (gExts s g) 1 writes
   r.2.2 = none ∧ w.2.2 = none ∧ s1 = w.1)

/-- Memory with the bytes of a set written at their homes, and nothing else of the state changed. -/
def WroteIn (A : Nat → Prop) (s m : State) : Prop :=
  (∀ a, ¬ A a → memByte m a = memByte s a) ∧
  m = { s with mem := m.mem, veils := m.veils, tags := m.tags, poison := m.poison, ecc := m.ecc, eccDc := m.eccDc, foundDc := m.foundDc, dc := m.dc }
/-- A record of n bytes written at its home, where it lies within a sector. -/
def WroteRec (s m : State) (pa n x : Nat) : Prop :=
  WroteIn (fun a => pa ≤ a ∧ a < pa + n) s m ∧ (pa % 128 + n ≤ 128 → memRead m pa n = x % 2 ^ (8 * n))
/-- An instruction goes on in a state, with a result on its way to D. -/
def Ends (i : Instr) (s m : State) (gid : Nat) (g : Group) (p : P) (close : Bool) (x : Nat) : Prop :=
  exec i s = .next (put m gid { issued s g p close with pend := g.pend ++ later p.d [x] })
/-- The same with nothing but the group changed. -/
def Answers (i : Instr) (s : State) (gid : Nat) (g : Group) (p : P) (close : Bool) (x : Nat) : Prop :=
  Gives i s (put s gid { issued s g p close with pend := g.pend ++ later p.d [x] })
/-- R321, R440: the scroll that a handle of the group's block is bound to, Live, and owned by its context where asked; or the one
that the instruction's event set out for, still Live. -/
def Bound (s : State) (g : Group) (h : Nat) (owned : Bool) (id : Nat) (c : Scroll) : Prop :=
  scrollOf s g h = some id ∧ liveScroll s (gPart s g) id = some c ∧ ((owned && !isSent g) = true → c.owner = gCtx s g % 64)
/-- The frames of the slots a to b − 1 of a scroll. -/
def Slots (s : State) (g : Group) (c : Scroll) (a b : Nat) (fs : List (Nat × Nat)) : Prop := scrFrames s (gPart s g) c a b = (fs, none)
/-- The physical address of a slot record. -/
def slotPa (fs : List (Nat × Nat)) (c : Scroll) (k : Nat) : Nat := inFrames fs (slotAt c k)
/-- The slot records of a range do not share bytes and do not cross a sector, and none lies in a range of bytes. -/
def Apart (fs : List (Nat × Nat)) (c : Scroll) (a n lo len : Nat) : Prop :=
  ∀ k, a ≤ k → k < a + n → slotPa fs c k % 8 = 0 ∧ (slotPa fs c k + 8 ≤ lo ∨ lo + len ≤ slotPa fs c k) ∧
    ∀ j, a ≤ j → j < a + n → j ≠ k → slotPa fs c j ≠ slotPa fs c k
/-- Bytes of the slot records of a range. -/
def InSlots (fs : List (Nat × Nat)) (c : Scroll) (a n : Nat) (x : Nat) : Prop :=
  ∃ k, a ≤ k ∧ k < a + n ∧ slotPa fs c k ≤ x ∧ x < slotPa fs c k + 8
/-- The address of a scroll's record. -/
def recPa (s : State) (g : Group) (id : Nat) : Nat := (getPart s (gPart s g)).scrBase + 64 * id

/-- The flows and counters that a hart's access may touch, of another package alone (R379). -/
def HartFlows (s m : State) (pa : Nat) : Prop :=
  isFar s pa = false → m.parts = s.parts ∧ m.flowsT = s.flowsT ∧ m.ports = s.ports ∧ m.rr = s.rr
/-- A hart has written 8 bytes: at their home, discarded where the package cannot be reached (R384). -/
def HartWrote (s m : State) (pa x : Nat) : Prop :=
  (∀ a, Outside pa 8 a → memByte m a = memByte s a) ∧ HartFlows s m pa ∧
  (reachable s pa = true → pa % 128 ≤ 120 → (∀ a, ¬ Outside pa 8 a → PlainAt s a) → memRead m pa 8 = x % 2 ^ 64) ∧
  (reachable s pa = false → m = s) ∧
  m = { s with mem := m.mem, veils := m.veils, tags := m.tags, poison := m.poison, ecc := m.ecc, eccDc := m.eccDc, foundDc := m.foundDc,
               dc := m.dc, parts := m.parts, flowsT := m.flowsT, ports := m.ports, rr := m.rr }
/-- A queue as a hart that has it sees it. -/
def Runs (s : State) (h qk : Nat) : Prop := s.cur = .hart h ∧ (getHart s h).queue = some qk
/-- R86: Cons: the read index, or the start of the outermost open loop. -/
def consOf (q : Queue) : Nat := match q.loops with | [] => q.rd | l :: _ => l.2.2
/-- One queue has changed, with the descriptor that shows it, and no hart runs it any more. -/
def QueueNow (s t : State) (qk : Nat) (q : Queue) : Prop :=
  getQ t qk = { q with cons := consOf q } ∧ (∀ j, j ≠ qk → getQ t j = getQ s j) ∧
  (∀ h, getHart t h = if (getHart s h).queue = some qk then { getHart s h with queue := none } else getHart s h) ∧
  HomeOutside (queueA s qk) 64 s t ∧ t = { s with queues := t.queues, harts := t.harts, parts := t.parts, mem := t.mem, veils := t.veils }
/-- R86: a command of d words is complete: the read index moves over them, or the queue waits until Prod reaches them. -/
def NextCmd (s t : State) (qk : Nat) (q : Queue) (d : Nat) : Prop :=
  let to_ := (q.rd + d) % 2 ^ 32
  t.parts = s.parts ∧
  QueueNow s t qk (if d ≤ (q.prod + 2 ^ 32 - q.rd) % 2 ^ 32 then { q with rd := to_, wait := .none, st := if to_ = q.prod then .idle else .ready }
    else { q with st := .waiting, wait := .target to_ })
/-- R88, R89, R374: a queue has failed with a status at the command at its read index, and vector 3 of its partition is raised. -/
def Failed (s t : State) (qk status : Nat) : Prop :=
  QueueNow s t qk { getQ s qk with st := .failed, status := status, wait := .none, errAddr := wordVa (queueDesc s qk) (getQ s qk).rd } ∧
  t.parts = mset s.parts (qk / 64) { getPart s (qk / 64) with intStatus := (getPart s (qk / 64)).intStatus ||| 8 }

/-- A state with one engine operation changed. -/
def opSet (s : State) (id : Nat) (o : EOp) : State := { s with ops := mset s.ops id o }
/-- An event that may not happen now leaves the machine as it is. -/
def Still (i : Instr) (s : State) : Prop := exec i s = .next s
/-- A group after results of an operation have arrived for it. -/
def gotResult (g : Group) (id : Nat) (ws : List RegW) : Group :=
  { g with pend := g.pend.map (fun q => if q.op = id ∧ q.ready = false then { q with ws := ws, ready := true } else q) }
/-- A group that neither leaves nor waits for a batch, which the end of an operation may let go on. -/
def Stays (g : Group) : Prop := g.st ≠ .exiting ∧ ∀ n, g.st ≠ .waiting (.bat n)
/-- R68: an operation has been abandoned with a fault, told to its group. -/
def Abandoned (s t : State) (id : Nat) (o : EOp) (code lanes detail : Nat) : Prop :=
  mfind t.ops id = some { o with st := .abandoned, staged := [], folios := [], lgs := none, flt := some (code, lanes, detail) } ∧
  ∀ g, mfind s.groups o.gid = some g →
    mfind t.groups o.gid = some { g with asyncF := g.asyncF ++ [(code, id, lanes, detail)] }
/-- R77: an operation has been frozen under the next freeze number of its partition. -/
def Frosted (s t : State) (id : Nat) (o : EOp) : Prop :=
  mfind t.ops id = some { o with st := .frozen, staged := [], folios := [] } ∧
  mfind t.frozen (2 ^ 32 * (o.ctx / 64) + (getPart s (o.ctx / 64)).frzNum) = some (.op id, some o.ctx) ∧ t.groups = s.groups
/-- Staged bytes laid into a block: the last of each offset counts, and none beyond the block; no granule becomes poisoned, and a
stationary bank filled from a byte that is written is dropped. -/
def Laid (b b' : Block) (l : List StByte) : Prop :=
  b' = { b with scratch := b'.scratch, poison := b'.poison, foots := b'.foots } ∧ (∀ x ∈ b'.poison, x ∈ b.poison) ∧
  (∀ x ∈ b'.foots, x ∈ b.foots ∧ ∀ y ∈ l, y.spad = true → y.addr < b.size → y.addr ∉ x.2) ∧
  (∀ k x m, l = k ++ x :: m → x.spad = true → x.addr < b.size → (∀ y ∈ m, ¬ (y.spad = true ∧ y.addr = x.addr)) → spByte b' x.addr = x.val) ∧
  (∀ a, (∀ y ∈ l, ¬ (y.spad = true ∧ y.addr = a ∧ a < b.size)) → spByte b' a = spByte b a)
/-- An entry after a change: state, length, tag, check code, generation. -/
def EntryIs (t : State) (key st len tag crc gen : Nat) : Prop :=
  let e := (getCat t key).record
  enState e = st ∧ enLen e = len % 2 ^ 15 ∧ enTag e = tag % 2 ^ 16 ∧ enCrc e = crc % 2 ^ 16 ∧ enGen e = gen % 2 ^ 32
/-- Harts have written at addresses, and bytes of a set alone have changed; what they did to the flows to other packages only where one
of the addresses lies there. -/
def HartWroteIn (P A : Nat → Prop) (s m : State) : Prop :=
  (∀ a, ¬ A a → memByte m a = memByte s a) ∧
  ((∀ pa, P pa → ∀ i, i < 64 → isFar s (pa + i) = false) → m.parts = s.parts ∧ m.flowsT = s.flowsT ∧ m.ports = s.ports ∧ m.rr = s.rr) ∧
  m = { s with mem := m.mem, veils := m.veils, tags := m.tags, poison := m.poison, ecc := m.ecc, eccDc := m.eccDc, foundDc := m.foundDc,
               dc := m.dc, parts := m.parts, flowsT := m.flowsT, ports := m.ports, rr := m.rr }
/-- The tiles of every block have the elements of a tile: 128 rows of 256 (R287). -/
def TilesFit (s : State) : Prop := ∀ b ∈ s.blocks, ∀ t ∈ b.2.ac, (∀ x ∈ t.2.val, x.1 < 2 ^ 15) ∧ ∀ x ∈ t.2.stick, x.1 < 2 ^ 15
/-! R268, R279: what a command stages. -/
/-- The bit that the last value laid over bit k of byte a gives it, none where no value is laid. -/
def lastBit (r : Nat) (ss : List (Option Int)) (vs : List Nat) (a k : Nat) : Option Bool :=
  ((ss.zip vs).flatMap (fun x => match x.1 with
    | none => []
    | some at_ => (elBytes r at_).zipIdx.filterMap (fun y =>
        let j := 8 * y.2 + k
        let lo := (at_ % 8).toNat
        if y.1 = a ∧ lo ≤ j ∧ j < lo + lrW r then some (x.2.testBit (j - lo)) else none))).getLast?
/-- Values laid at the elements of a record: every byte that an element touches is staged once, in address order, its bits those of
the last value laid over them, and elsewhere those that the byte has; with the state after. -/
def Staged (v : State) (o : EOp) (b : Block) (r : Nat) (ss : List (Option Int)) (vs : List Nat) (bs : List StByte) (v' : State) : Prop :=
  let vas := sideVas ⟨r, ss, true⟩
  let t := framesOf v o.core o.ctx (opExts v o) 1 vas
  let place := fun a => if lrSpace r then a else inFrames t.2.1 a
  v' = countVas t.1 o t.2.1 vas ∧ bs.map (fun x => (x.spad, x.addr)) = (spotBytes r ss).map (fun a => (lrSpace r, place a)) ∧
  ∀ (i a : Nat) (x : StByte), (spotBytes r ss)[i]? = some a → bs[i]? = some x → ∀ k, k < 8 →
    x.val.getLsbD k = (lastBit r ss vs a k).getD ((if lrSpace r then spByte b a else (engRead1 t.1 o.pair (place a)).1).getLsbD k)
/-- Neither a pair nor its die holds a copy of the sector of an address. -/
def HomeOnly (s : State) (pair pa : Nat) : Prop :=
  mfind s.l1 (l1Key pair (sectorOf pa)) = none ∧ mfind s.dc (dcKey (pairDie pair) (sectorOf pa)) = none
/-- The values of the elements of a record, in window order: the fill beyond the extents, else the element's bits, from scratchpad or
from memory, where no cache holds a copy; with the state after. -/
def ReadBy (s : State) (o : EOp) (b : Block) (r : Nat) (ss : List (Option Int)) (vs : List Nat) (v : State) : Prop :=
  let fs := (framesOf s o.core o.ctx (opExts s o) 0 (sideVas ⟨r, ss, false⟩)).2.1
  v = (readSide s o b r ss).1 ∧ vs.length = ss.length ∧ (∀ i : Nat, ss[i]? = some none → vs[i]? = some (fillOf r)) ∧
  ∀ (i : Nat) (a : Int), ss[i]? = some (some a) → (lrSpace r = true ∨ ∀ y ∈ elBytes r a, HomeOnly s o.pair (inFrames fs y)) →
    vs[i]? = some (ofBytes ((elBytes r a).map (fun y => if lrSpace r then spByte b y else memByte s (inFrames fs y))) / 2 ^ (a % 8).toNat
      % 2 ^ lrW r)
/-- R279: one orientation of a quantisation, 0 blocks along dimension 0 and 1 along dimension 1: every block's scale comes from its
elements inside the extents, every code from its element and its block's scale; nothing for an orientation left out. -/
def QuantSide (v : State) (o : EOp) (b : Block) (rs : List Nat) (od : Nat) (z : List Nat) (ss : List (Option Int)) (vals : List FV)
    (ori : Nat) (bs : List StByte) (v' : State) : Prop :=
  let t := rs.getD (1 + 2 * ori) 0
  let sr := rs.getD (2 + 2 * ori) 0
  let c := lrFmt t
  let len := fmtBlk c
  let z0 := z.getD 0 0
  let z1 := z.getD 1 0
  (lrRank t = 0 → bs = [] ∧ v' = v) ∧
  (lrRank t ≠ 0 → ∃ codes scs x y w, bs = x ++ y ∧ codes.length = z0 * z1 ∧
    Staged v o b t (spots t od z) codes x w ∧ Staged w o b sr (spots sr (qOrigin ori len od) (qSize ori len z)) scs y v' ∧
    ∀ x0 x1, x0 < z0 → x1 < z1 →
      let block := (List.range (z0 * z1)).filterMap (fun k =>
        if (if ori = 0 then k % z0 / len = x0 / len ∧ k / z0 = x1 else k % z0 = x0 ∧ k / z0 / len = x1 / len) ∧ (ss.getD k none).isSome = true
        then vals[k]? else none)
      let sc := scaleFor c block
      scs[if ori = 0 then x0 / len + ceilDiv z0 len * x1 else x0 + z0 * (x1 / len)]? = some sc.1 ∧
      codes[x0 + z0 * x1]? = some (if sc.2 || (scaleV c sc.1).isNan then 0 else quantEl c (vals.getD (x0 + z0 * x1) .nan) (scaleV c sc.1)))


end Sys2Proof.Claim

open Sys2Proof Sys2Proof.Machine Sys2Proof.Claim

/-! ### Integer and address instructions (R129 to R135) -/

/-- R129, R131: sum, difference, products, extremes, absolute value, negation, shift and add,
clamp: the exact integer result of each element, clamped under .sat or reduced modulo 2^w. -/
def Obligations.IntegerArithmetic : Prop :=
  Computes .add false srcAB own (ints (fun _ a b _ => a + b)) ∧
  Computes .sub false srcAB own (ints (fun _ a b _ => a - b)) ∧
  Computes .mul false srcAB own (ints (fun _ a b _ => a * b)) ∧
  Computes .mulhi false srcAB own (ints (fun p a b _ => a * b / ((2 ^ tyW p.t : Nat) : Int))) ∧
  Computes .mad false srcAB own (ints (fun _ a b d => a * b + d)) ∧
  Computes .madhi false srcAB own (ints (fun p a b d => a * b / ((2 ^ tyW p.t : Nat) : Int) + d)) ∧
  Computes .min false srcAB own (ints (fun _ a b _ => min a b)) ∧
  Computes .max false srcAB own (ints (fun _ a b _ => max a b)) ∧
  Computes .abs false srcA own (one (fun p a => intMould p.t p.sat (fun a _ _ => a.natAbs) a 0 0)) ∧
  Computes .neg false srcA own (one (fun p a => intMould p.t p.sat (fun a _ _ => -a) a 0 0)) ∧
  Computes .shladd false srcAB own (ints (fun p a b _ => a * ((2 ^ (p.ext.toNat % 64 % tyW p.t) : Nat) : Int) + b)) ∧
  Computes .clamp false srcAB own (ints (fun _ a b d => min (max d a) b))

/-- R129, R133: bitwise functions, bit fields, permutation, ternary logic and the funnel shift, on the
pattern of the lane. -/
def Obligations.BitInstructions : Prop :=
  Computes .and false srcAB own (pats (fun _ _ a b _ => a &&& b)) ∧
  Computes .or false srcAB own (pats (fun _ _ a b _ => a ||| b)) ∧
  Computes .xor false srcAB own (pats (fun _ _ a b _ => a ^^^ b)) ∧
  Computes .not false srcA own (one (fun p a => 2 ^ tyW p.t - 1 - a % 2 ^ tyW p.t)) ∧
  Computes .bfx false srcAB own (pats (fun p w a b _ => bfxVal (tySigned p.t) w a b)) ∧
  Computes .bfi false srcAB own (pats (fun _ w a b d => bfiVal w a b d)) ∧
  Computes .perm false srcAB own (pats (fun p _ a b _ => permVal p.ext.toNat a b)) ∧
  Computes .tern false srcAB own (pats (fun p w a b d => ternVal w (p.ext.toNat % 256) a b d)) ∧
  Computes .shf false srcAB own (pats (fun p _ a b _ =>
    if p.f = 0 then (a * 2 ^ 32 + b) * 2 ^ (p.ext.toNat % 32) % 2 ^ 64 / 2 ^ 32
    else (a * 2 ^ 32 + b) / 2 ^ (p.ext.toNat % 32) % 2 ^ 32)) ∧
  Computes .brev false srcA own (one (fun p a => revW (tyW p.t) a))

/-- R129, R130: counts, whose result is one 32-bit word, and the instructions whose result is wider or narrower than
their sources. That popc, clz and ctz of .n64 may write their word to a latch too is the model's choice (assumption log 79). -/
def Obligations.CountsAndWidths : Prop :=
  Computes .popc false srcA word (one (fun p a => popW (tyW p.t) a)) ∧
  Computes .clz false srcA word (one (fun p a => clzW (tyW p.t) a)) ∧
  Computes .ctz false srcA word (one (fun p a => ctzW (tyW p.t) a)) ∧
  Computes .sad false srcAB (fun p => if p.t = 2 then 2 else 6)
    (fun p _ _ src => sadVal p.t (src p.t p.a) (src p.t p.b.opnd) (src 6 (dstSrc p.d))) ∧
  Computes .mulw false srcAB (fun p => if p.t = 2 then 3 else 7)
    (three (fun p a b _ => wrap 64 (rdInt (tySigned p.t) 32 a * rdInt (tySigned p.t) 32 b))) ∧
  Computes .ext false srcA (fun p => if p.f = 1 then (if tySigned p.t then 3 else 7) else (if tySigned p.t then 2 else 6))
    (one (fun p a => wrap (if p.f = 1 then 64 else 32) (rdInt (tySigned p.t) (tyW p.t) a))) ∧
  Computes .lea false srcAB (fun _ => 7)
    (fun p _ _ src => wrap 64 ((src 7 p.a : Int) + toSigned 32 (src 2 p.b.opnd) * ((2 ^ (p.ext.toNat % 8) : Nat) : Int)))

/-- R130, R132, R135: selection by a predicate, comparison into all ones or 0, moves, and the instructions with a 32-bit
immediate. A move from a special register is stated with rdsr. -/
def Obligations.SelectSetMove : Prop :=
  Computes .sel false srcAB own (fun p g lane src => if selPred g p lane then src p.t p.a else src p.t p.b.opnd) ∧
  Computes .set false srcAB own (three (fun p a b _ => setPat p.t p.f a b)) ∧
  Computes .movi false srcNone (fun p => if p.h.uni then 2 else 6) (fun p _ _ _ => p.imm32.toNat) ∧
  Computes .addi false srcA own (one (fun p a => intMould p.t p.sat (fun a _ _ =>
    a + (if tySigned p.t then toSigned (tyW p.t) (wrap (tyW p.t) p.imm32.toInt) else (wrap (tyW p.t) p.imm32.toInt : Int))) a 0 0)) ∧
  Computes .andi false srcA own (one (fun p a => a &&& wrap (tyW p.t) p.imm32.toInt)) ∧
  Computes .ori false srcA own (one (fun p a => a ||| wrap (tyW p.t) p.imm32.toInt)) ∧
  Computes .xori false srcA own (one (fun p a => a ^^^ wrap (tyW p.t) p.imm32.toInt))

/-! ### Floating instructions, functions and conversions (R136 to R144) -/

/-- R136, R137: each element of the result is the exact value rounded once under the mode, or by the rules of min, max, sign
and class.
R136, R137: absolute value and negation act on the sign bit and give the canonical NaN for a NaN; the class; rounding to
an integral value. -/
def Obligations.FloatInstructions : Prop :=
  (Computes .fadd false srcAB own (floats (fun p a b _ => addV a b p.rnd)) ∧
   Computes .fsub false srcAB own (floats (fun p a b _ => addV a (negV b) p.rnd)) ∧
   Computes .fmul false srcAB own (floats (fun _ a b _ => mulV a b)) ∧
   Computes .ffma false srcAB own (floats (fun p a b d => addV (mulV a b) d p.rnd)) ∧
   Computes .fmin false srcAB own (three (fun p a b _ => mapElems (tyW p.t) (elemN p.t) (fun e =>
     minMaxF (fmtOf p.t) false (elem (tyW p.t) e a) (elem (tyW p.t) e b)))) ∧
   Computes .fmax false srcAB own (three (fun p a b _ => mapElems (tyW p.t) (elemN p.t) (fun e =>
     minMaxF (fmtOf p.t) true (elem (tyW p.t) e a) (elem (tyW p.t) e b)))) ∧
   Computes .fset false srcAB own (three (fun p a b _ => setPat p.t p.f a b)) ∧
   Computes .faddi false srcA (fun _ => 8)
     (fun p _ _ src => fltRes 8 p.rnd p.sat (addV (decodeF f32 (src 8 p.a)) (decodeF f32 p.imm32.toNat) p.rnd)) ∧
   Computes .fmuli false srcA (fun _ => 8)
     (fun p _ _ src => fltRes 8 p.rnd p.sat (mulV (decodeF f32 (src 8 p.a)) (decodeF f32 p.imm32.toNat)))) ∧
  (Computes .fabs false srcA own (floatOne (fun _ f a => if (decodeF f a).isNan then f.nan else a % 2 ^ (f.eb + f.mb))) ∧
   Computes .fneg false srcA own (floatOne (fun _ f a => if (decodeF f a).isNan then f.nan else a ^^^ 2 ^ (f.eb + f.mb))) ∧
   Computes .fclass false srcA own (floatOne (fun _ f a => classF f a)) ∧
   Computes .frnd false srcA own (floatOne (fun p f a => roundIntegral f p.rnd a)))

/-- R139, R141, R142: conversion between the floating and integer types, between integer types, and with a power-of-two scale, rounded
once. R143: both conversions of a pack, into the elements that the function names.
R140: conversion between binary32 and the narrow formats; an immediate to be widened is first converted to the narrow
format. -/
def Obligations.Conversions : Prop :=
  (Computes .cvt false srcA (fun p => p.f) (one (fun p a => convTo p.f p.rnd p.sat (valTy p.t a))) ∧
   Computes .cvti false srcA (fun p => p.f) (one (fun p a => cvtiVal p.f p.t p.sat a)) ∧
   Computes .cvts false srcAB (fun p => p.f) (fun p _ _ src => convTo p.f p.rnd p.sat
     (cvtsScale (valTy p.t (src p.t p.a)) (clampI (-512) 511 (toSigned 32 (src 2 p.b.opnd))))) ∧
   Computes .pack false srcAB word (fun p _ _ src =>
     packVal p (src (if isInt p.t then 2 else 8) p.a) (src (if isInt p.t then 2 else 8) p.b.opnd) (src 6 (dstSrc p.d)))) ∧
  (Computes .cvtf false srcA (fun _ => 8) (fun p _ _ src =>
     if p.f = 0 then narrowOf p.t p.rnd p.sat (decodeF f32 (src 8 p.a))
     else roundF f32 0 false (narrowVal p.t (match p.a with
       | .imm i => narrowOf p.t 0 false (ofInt i.toInt)
       | _ => src 8 p.a))))
/-! ### SFU functions, dot products, predicates and exchange between lanes (R34, R134, R138, R144, R152 to R157) -/

/-- R138: the eight functions, element by element, on an SFU pipe. (Where the rule bounds the error alone, the value within the
bound is free: assumption log 3.) -/
def Obligations.SfuFunctions : Prop :=
  Computes .rcp true srcA own (floatOne (fun p f a => sfuF 0 f p.rnd a)) ∧
  Computes .rsqrt true srcA own (floatOne (fun p f a => sfuF 1 f p.rnd a)) ∧
  Computes .sqrt true srcA own (floatOne (fun p f a => sfuF 2 f p.rnd a)) ∧
  Computes .ex2 true srcA own (floatOne (fun p f a => sfuF 3 f p.rnd a)) ∧
  Computes .log2 true srcA own (floatOne (fun p f a => sfuF 4 f p.rnd a)) ∧
  Computes .sin true srcA own (floatOne (fun p f a => sfuF 5 f p.rnd a)) ∧
  Computes .cos true srcA own (floatOne (fun p f a => sfuF 6 f p.rnd a)) ∧
  Computes .tanh true srcA own (floatOne (fun p f a => sfuF 7 f p.rnd a))

/-- R34, R144: the products of the elements and d, summed exactly, then clamped or reduced for integers and rounded once for
formats. An immediate of dot8f is converted to E2M1. -/
def Obligations.DotProducts : Prop :=
  Computes .dot4 false srcAB (fun p => if p.t = 0 then 2 else 6) (fun p _ _ src =>
    dotInt p.t 4 p.sat (src p.t p.a) (src p.t p.b.opnd) (src 6 (dstSrc p.d))) ∧
  Computes .dot8 false srcAB (fun p => if p.t = 14 then 2 else 6) (fun p _ _ src =>
    dotInt p.t 8 p.sat (src p.t p.a) (src p.t p.b.opnd) (src 6 (dstSrc p.d))) ∧
  Computes .dot4f false srcAB (fun _ => 8) (fun p _ _ src =>
    dotFlt (fmtOf p.t) 4 p.rnd (src p.t p.a) (src p.t p.b.opnd) (src 6 (dstSrc p.d))) ∧
  Computes .dot8f false srcAB (fun _ => 8) (fun p _ _ src =>
    dotFlt e2m1 8 p.rnd (dot8fSrc src p.a) (dot8fSrc src p.b.opnd) (src 6 (dstSrc p.d))) ∧
  Computes .dot2h false srcAB (fun _ => 8) (fun p _ _ src =>
    dotFlt (fmtOf p.t) 2 p.rnd (src p.t p.a) (src p.t p.b.opnd) (src 6 (dstSrc p.d)))

/-- R134: D receives the sum, or difference, modulo 2^w and the output predicate the carry, or borrow, in the same lanes; the
uniform form writes k0 to k3 or, by index 7, nothing.
R132, R137: element 0 decides, in the executing lanes, or once for the uniform form; nothing but the predicate and the
issue bookkeeping changes. -/
def Obligations.CarryAndCompare : Prop :=
  (∀ k ∈ [(Instr.addc, fun (w a b c : Nat) => ((a + b + c) % 2 ^ w, decide (2 ^ w ≤ a + b + c))),
          (Instr.subb, fun (w a b c : Nat) => (((a : Int) - b - c) % ((2 ^ w : Nat) : Int) |>.toNat, decide ((a : Int) - b - c < 0)))],
     (∀ s gid busy g p, Issuer s gid busy g → p.h.uni = true → 7 ≤ carryOut p → carryOut p < 12 → patW p.t = tyW p.t →
       ∃ t g', exec (k.1 p) s = .next t ∧ RegStep s t gid g g' ∧ t.latches = s.latches ∧
         UniRegs g g' p p.t (carryOf k.2 s g p 0 0).1 ∧
         PredRegs g g' (carryOut p) (fun _ => actsOnce g p.h) (fun _ => (carryOf k.2 s g p 0 0).2)) ∧
     (∀ s gid busy g p pipe, Issuer s gid busy g → p.h.uni = false → carryOut p < 8 → patW p.t = tyW p.t →
       pickPipe s gid busy g false (srcAB p) = .pipe pipe →
       ∃ t g', exec (k.1 p) s = .next t ∧ RegStep s t gid g g' ∧
         VecRegs g g' p (is64 p.t) (fun i => (carryOf k.2 s g p pipe i).1) ∧
         Latched t g g' p s pipe (is64 p.t) (fun i => (carryOf k.2 s g p pipe i).1) ∧
         PredRegs g g' (carryOut p) (fun i => (guardLanes g p.h).getLsbD i) (fun i => (carryOf k.2 s g p pipe i).2))) ∧
  (∀ k ∈ [Instr.setp, Instr.fsetp],
     (∀ s gid busy g p n, Issuer s gid busy g → p.h.uni = true → p.d = .other (.pred n) → 8 ≤ n.toNat → n.toNat < 12 →
       ∃ t g', exec (k p) s = .next t ∧ RegStep s t gid g g' ∧ RegsSame g g' ∧ t.latches = s.latches ∧
         PredRegs g g' n.toNat (fun _ => actsOnce g p.h) (fun _ =>
           cmpElem p.t p.f (srcPat s g (gConsts s g) 0 p.t p.a 0 % 2 ^ tyW p.t) (srcPat s g (gConsts s g) 0 p.t p.b.opnd 0 % 2 ^ tyW p.t))) ∧
     (∀ s gid busy g p n pipe, Issuer s gid busy g → p.h.uni = false → p.d = .other (.pred n) → n.toNat < 8 →
       pickPipe s gid busy g false (srcAB p) = .pipe pipe →
       ∃ t g', exec (k p) s = .next t ∧ RegStep s t gid g g' ∧ RegsSame g g' ∧ t.latches = s.latches ∧
         PredRegs g g' n.toNat (fun i => (guardLanes g p.h).getLsbD i) (fun i =>
           cmpElem p.t p.f (srcPat s g (gConsts s g) pipe p.t p.a i % 2 ^ tyW p.t)
             (srcPat s g (gConsts s g) pipe p.t p.b.opnd i % 2 ^ tyW p.t))))

/-- R152, R153: plop combines two predicates lane by lane, or once for k predicates; census votes over the participating
lanes and writes the vote in them, or once when there is one; lmask gives the mask of the participating lanes whose
predicate is true, or false. That lmask to a uniform
register writes nothing there when no lane takes part is the model's choice (assumption log 114). -/
def Obligations.PredicateLogic : Prop :=
  (∀ s gid busy g p n, Issuer s gid busy g → p.d = .other (.pred n) → n.toNat < 12 → (p.h.uni = true ↔ 8 ≤ n.toNat) →
    ∃ t g', exec (.plop p) s = .next t ∧ RegStep s t gid g g' ∧ RegsSame g g' ∧ t.latches = s.latches ∧
      PredRegs g g' n.toNat (fun i => if p.h.uni then actsOnce g p.h else (guardLanes g p.h).getLsbD i)
        (fun i => plopFn p.f (rdPred g (predNo p.a) (if p.h.uni then 0 else i)) (rdPred g (predNo p.b.opnd) (if p.h.uni then 0 else i)))) ∧
  (∀ s gid busy g p n, Issuer s gid busy g → p.h.uni = false → p.d = .other (.pred n) → n.toNat < 12 →
    ∃ t g', exec (.census p) s = .next t ∧ RegStep s t gid g g' ∧ RegsSame g g' ∧ t.latches = s.latches ∧
      PredRegs g g' n.toNat (fun i => if n.toNat < 8 then (guardLanes g p.h).getLsbD i else guardLanes g p.h != 0)
        (fun _ => censusFn p.f (guardLanes g p.h) (predLanes g (predNo p.a)))) ∧
  (∀ s gid busy g p, Issuer s gid busy g → p.h.uni = false →
    ∃ t g', exec (.lmask p) s = .next t ∧ RegStep s t gid g g' ∧ PredsSame g g' ∧ t.latches = s.latches ∧
      (let m := (if p.f = 0 then guardLanes g p.h &&& predLanes g (predNo p.a)
                 else guardLanes g p.h &&& ~~~(predLanes g (predNo p.a))).toNat
       if (dstS p.d).isSome = true then UniRegs g g' p 6 m else VecRegs g g' p false (fun _ => m)))

/-- R154, R157: each executing lane receives A of its source lane, executing or not; match gives the mask of the participating
lanes whose A equals the lane's own.
R155, R156: the reduction of A over the participating lanes, given to each of them or once to a uniform register, and the
scan up to the lane, or below it for .exc. That a result of gred in a uniform register is zero-extended for .s32 too is the model's
choice (assumption log 18), and so is that nothing is written there when no lane takes part (log 114). -/
def Obligations.LaneExchange : Prop :=
  (ComputesIn .qxch false srcNone word (fun p s g i _ => laneA s g p.a (qxchLane p.f i)) ∧
   ComputesIn .lperm false (fun p => [p.b.opnd]) word (fun p s g i src => laneA s g p.a (lpermLane p.f i (src 6 p.b.opnd))) ∧
   ComputesIn .matchv false srcNone word (fun p s g i _ => (laneSet ((List.range 32).filter (fun j =>
     (guardLanes g p.h).getLsbD j && laneA s g p.a j == laneA s g p.a i))).toNat)) ∧
  (∀ s gid busy g p pipe, Issuer s gid busy g → p.h.uni = false → pickPipe s gid busy g false (srcA p) = .pipe pipe →
     (∃ t g', exec (.gred p) s = .next t ∧ RegStep s t gid g g' ∧ PredsSame g g' ∧
       (let r := gredVal p (guardLanes g p.h) (fun j => srcPat s g (gConsts s g) pipe p.t p.a j)
        (if (dstS p.d).isSome = true then UniRegs g g' p 6 r else VecRegs g g' p false (fun _ => r)) ∧
        Latched t g g' p s pipe false (fun _ => r))) ∧
     (dstS p.d = none →
       ∃ t g', exec (.gscan p) s = .next t ∧ RegStep s t gid g g' ∧ PredsSame g g' ∧
         (let r := gscanVal p (guardLanes g p.h) (fun j => srcPat s g (gConsts s g) pipe p.t p.a j)
          VecRegs g g' p false r ∧ Latched t g g' p s pipe false r)))

/-- R42, R43, R115: an instruction of the ALU or SFU pipes waits where it is while its pipe is occupied or kept, and raises
fault 0x03 for a latch that is stale, with the latch and its pipe in the detail; a stalled step changes nothing else.
R42, R43: the pipe that an instruction takes is of its class, free of other work and not kept for another group; every
latch that it reads lies in it, written there last by its own group. (Two latches in two pipes cannot be read together: the
model's reading, assumption log 12.) -/
def Obligations.Pipes : Prop :=
  (∀ k ∈ pipeInstrs, ∀ s gid busy g p, Issuer s gid busy g → p.h.uni = false →
     (∀ r, pickPipe s gid busy g k.2.1 (k.2.2 p) = .wait r →
       exec (k.1 p) s = .next (updG s gid (fun g => { g with st := .stalled r }))) ∧
     (∀ l n, pickPipe s gid busy g k.2.1 (k.2.2 p) = .stale l n →
       exec (k.1 p) s = .next (takeFault s gid 0x03 none allLanes (l + 16 * n)))) ∧
  (∀ s gid busy g sfu xs n, pickPipe s gid busy g sfu xs = .pipe n →
     n ∈ pipesOf sfu ∧ busy.getLsbD n = false ∧ keptBy s gid g n = false ∧
     ∀ l, Opnd.latch l ∈ xs → mfind g.latchPipe l.toNat = some (n, false))

/-- R32: integer results are reduced modulo 2^w, or clamped to the type's range under .sat; shift counts are taken modulo w; the
corners of division; no integer operation traps. -/
def Obligations.IntegerRules : Prop :=
  (∀ t, isInt t = true → ∀ (f : Int → Int → Int → Int) a b d e, e < elemN t →
    let w := tyW t
    let x := f (rdInt (tySigned t) w (elem w e a)) (rdInt (tySigned t) w (elem w e b)) (rdInt (tySigned t) w (elem w e d))
    let lo : Int := if tySigned t then -((2 ^ (w - 1) : Nat) : Int) else 0
    let hi : Int := if tySigned t then ((2 ^ (w - 1) : Nat) : Int) - 1 else ((2 ^ w : Nat) : Int) - 1
    (elem w e (intMould t false f a b d) : Int) = x % ((2 ^ w : Nat) : Int) ∧
    rdInt (tySigned t) w (elem w e (intMould t true f a b d)) = if x < lo then lo else if hi < x then hi else x) ∧
  Computes .shl false srcAB own (pats (fun _ w a b _ => a * 2 ^ (b % w))) ∧
  Computes .shr false srcAB own (pats (fun _ w a b _ => a / 2 ^ (b % w))) ∧
  Computes .sha false srcAB own (pats (fun _ w a b _ => wrap w (toSigned w a / ((2 ^ (b % w) : Nat) : Int)))) ∧
  Computes .rot false srcAB own (pats (fun _ w a b _ => a * 2 ^ (b % w) + a / 2 ^ (w - b % w))) ∧
  Computes .div true srcAB own (three (fun p => intMould p.t false (fun a b _ => (divRem (tySigned p.t) (tyW p.t) a b).1))) ∧
  Computes .rem true srcAB own (three (fun p => intMould p.t false (fun a b _ => (divRem (tySigned p.t) (tyW p.t) a b).2))) ∧
  (∀ sg w a b, (b ≠ 0 → divRem sg w a b = (Int.tdiv a b, Int.tmod a b)) ∧
    divRem false w a 0 = (((2 ^ w : Nat) : Int) - 1, a) ∧ divRem true w a 0 = (-1, a)) ∧
  (∀ w, 0 < w → toSigned w (wrap w (divRem true w (-((2 ^ (w - 1) : Nat) : Int)) (-1)).1) = -((2 ^ (w - 1) : Nat) : Int) ∧
    (divRem true w (-((2 ^ (w - 1) : Nat) : Int)) (-1)).2 = 0) ∧
  (∀ k ∈ intInstrs, ∀ s gid busy g p, Issuer s gid busy g →
    (p.h.uni = true ∨ ∃ n, pickPipe s gid busy g k.2.1 (k.2.2 p) = .pipe n) →
    ∃ t g', exec (k.1 p) s = .next t ∧ mfind t.groups gid = some g' ∧ g'.st = .ready)

/-! ### Control transfer (R50, R51, R106, R145 to R151) -/

/-- R50, R51: an instruction address is a sector base plus 12 times a slot from 0 to 9; slot 9 is followed by slot 0 of the next
sector; a relative target counts in instructions and is an instruction address again; a return or an indirect jump to any
other address raises trap 0x05, with the program counter where it was and the target in the record. -/
def Obligations.InstructionAddresses : Prop :=
  (∀ a, isInstrAddr a = true ↔ ∃ base slot, base % 128 = 0 ∧ slot < 10 ∧ a = base + 12 * slot) ∧
  (∀ base slot, base % 128 = 0 → slot < 10 → base + 128 ≤ 2 ^ 64 →
    isInstrAddr (base + 12 * slot) = true ∧
    nextPc (base + 12 * slot) = (if slot = 9 then base + 128 else base + 12 * (slot + 1)) % 2 ^ 64) ∧
  (∀ base slot off sec k, base % 128 = 0 → slot < 10 → k < 10 →
    ((base / 128 * 10 + slot : Nat) : Int) + off = ((sec * 10 + k : Nat) : Int) → sec * 128 + 128 ≤ 2 ^ 64 →
    branchTarget (base + 12 * slot) off = sec * 128 + 12 * k) ∧
  (∀ a off, isInstrAddr a = true → isInstrAddr (branchTarget a off) = true) ∧
  (∀ k ∈ [Instr.ret, Instr.jmp], ∀ s gid busy g p, Issuer s gid busy g → actsOnce g p.h = true →
    isInstrAddr (rdSn g (sNum p.a)) = false →
    ∃ t g', exec (k p) s = .next t ∧ exec (k p) s = .next (takeFault s gid 0x05 none allLanes (rdSn g (sNum p.a))) ∧
      mfind t.groups gid = some g' ∧ g'.st = .faulted ∧ g'.pc = g.pc) ∧
  (∀ s g lanes seq target, target < 2 ^ 64 → fld (faultRec s g 0x05 false 0 g.pc lanes seq target) 191 128 = g.pc % 2 ^ 64 ∧
    fld (faultRec s g 0x05 false 0 g.pc lanes seq target) 511 320 = target)

/-- R146, R147, R150: a branch taken by all of E moves the group; by none goes on; by some splits E, the rest waiting on the
divergence stack at the next instruction, or at the brx itself; a call writes the return address. -/
def Obligations.BranchesAndCalls : Prop :=
  ∀ s gid busy g p, Issuer s gid busy g →
    (∃ t g', exec (.bra p) s = .next t ∧ GroupStep s t gid g' ∧ g'.sr = g.sr ∧ g'.active = g.active ∧ g'.region = g.region ∧
      (let m := guardLanes g p.h
       if m = g.e then Moved g g' (branchTarget g.pc p.b.bits.toInt) ∧ FlowSame g g'
       else if m = 0 then Moved g g' (nextPc g.pc) ∧ FlowSame g g'
       else Moved g g' (branchTarget g.pc p.b.bits.toInt) ∧ g'.e = m ∧
         g'.stack = pushPending g.stack (nextPc g.pc) (if p.ext = 0 then none else some (branchTarget g.pc p.ext.toInt)) (g.e &&& ~~~m))) ∧
    (p.h.uni = false →
      ∃ t g', exec (.brx p) s = .next t ∧ GroupStep s t gid g' ∧ g'.sr = g.sr ∧ g'.active = g.active ∧ g'.region = g.region ∧
      (let ls := lanesOf (guardLanes g p.h)
       match ls with
       | [] => Moved g g' (nextPc g.pc) ∧ FlowSame g g'
       | l :: _ =>
         let a := branchTarget g.pc (brxOff g p.a l)
         let m := laneSet (ls.filter (fun i => branchTarget g.pc (brxOff g p.a i) == a))
         Moved g g' a ∧ (if m = g.e then FlowSame g g' else g'.e = m ∧
           g'.stack = pushPending g.stack g.pc (if p.ext = 0 then none else some (branchTarget g.pc p.ext.toInt)) (g.e &&& ~~~m)))) ∧
    (∃ t g', exec (.call p) s = .next t ∧ GroupStep s t gid g' ∧ FlowSame g g' ∧
      (if actsOnce g p.h = true then
        Moved g g' (branchTarget g.pc p.imm32.toInt) ∧
        ∀ m, rdS g' m = if dstS p.d = some m then BitVec.ofNat 64 (nextPc g.pc) else rdS g m
       else Moved g g' (nextPc g.pc) ∧ g'.sr = g.sr))

/-- R148, R150: a return and an indirect jump go to the address in A; a nop goes on; a join switches to what waits on the
divergence stack for it, or merges what has arrived and goes on. -/
def Obligations.ReturnsJumpsJoins : Prop :=
  (∀ k ∈ [Instr.ret, Instr.jmp], ∀ s gid busy g p, Issuer s gid busy g →
    (actsOnce g p.h = true → isInstrAddr (rdSn g (sNum p.a)) = true) →
    ∃ t g', exec (k p) s = .next t ∧ GroupStep s t gid g' ∧ FlowSame g g' ∧ g'.sr = g.sr ∧
      Moved g g' (if actsOnce g p.h then rdSn g (sNum p.a) else nextPc g.pc)) ∧
  (∀ s gid busy g p, Issuer s gid busy g →
    ∃ t g', exec (.nop p) s = .next t ∧ GroupStep s t gid g' ∧ FlowSame g g' ∧ g'.sr = g.sr ∧ Moved g g' (nextPc g.pc)) ∧
  (∀ s gid busy g p, Issuer s gid busy g →
    ∃ t g', exec (.join p) s = .next t ∧ GroupStep s t gid g' ∧ g'.sr = g.sr ∧ g'.active = g.active ∧ g'.region = g.region ∧
      (let r := joinRun g.pc g.stack g.e
       g'.stack = r.1 ∧ g'.e = r.2.1 ∧ Moved g g' (r.2.2.getD (nextPc g.pc)))) ∧
  (∀ here e top rest,
    (top.j ≠ some here → joinRun here (top :: rest) e = (top :: rest, e, none)) ∧
    (top.j = some here → top.pending = true → top.m ≠ 0 →
      joinRun here (top :: rest) e = ({ pending := false, a := here, j := some here, m := e } :: rest, top.m, some top.a)) ∧
    (top.j = some here → top.pending = true → top.m = 0 → joinRun here (top :: rest) e = (rest, e, none)) ∧
    (top.j = some here → top.pending = false → joinRun here (top :: rest) e = joinRun here rest (e ||| top.m)))

/-- R106, R149: the executing lanes leave (all lanes for the uniform form). While lanes of E remain the group goes on; when E
is empty it resumes what waits on its stack; when no lane is active it leaves its slot once what it issued has finished, its
block's token with it. -/
def Obligations.Exits : Prop :=
  ∀ s gid busy g p, Issuer s gid busy g →
    let leaving : Lanes := if p.h.uni then (if actsOnce g p.h then BitVec.allOnes 32 else 0) else guardLanes g p.h
    ∃ t g', exec (.exit p) s = .next t ∧ mfind t.groups gid = some g' ∧ MemSame s t ∧ g'.v = g.v ∧ g'.sr = g.sr ∧
      PredsSame g g' ∧ g'.active = (if leaving = 0 then g.active else g.active &&& ~~~leaving) ∧
      (if leaving = 0 then GroupStep s t gid g' ∧ Moved g g' (nextPc g.pc) ∧ FlowSame g g'
       else if g.active &&& ~~~leaving = 0 then
         hasLeft g' = true ∧ g'.e = 0 ∧ (outstanding t gid g' = false → g'.resident = false) ∧
         t = { s with groups := t.groups, blocks := t.blocks } ∧
         (∀ b, mfind t.blocks g.block = some b → b.token ≠ some g.num)
       else GroupStep s t gid g' ∧
         (if g.e &&& ~~~leaving ≠ 0 then Moved g g' (nextPc g.pc) ∧ g'.e = g.e &&& ~~~leaving ∧ g'.stack = g.stack
          else match refill g.stack with
            | some (st, m, a) => Moved g g' a ∧ g'.e = m ∧ g'.stack = st
            | none => Moved g g' (nextPc g.pc) ∧ g'.e = 0 ∧ g'.stack = g.stack))

/-! ### Memory (R207 to R230) -/

/-- R211, R212, R214, R216: a load whose accesses all find their page, in a group outside transactions, goes on with its values
under a result slot; memory keeps every byte (of the lines that it drops, under .lu, and of those that it reads at an execution
point, with acquire semantics, the caches' bytes may go home). A group that reads what others wrote carries it in its later
releases (R187); with no byte dirty it does not. The flow to another package has room for its request (R380).
What a lane receives (R187, R207, R208): the bytes of memory at its address where its pair and die hold no copy of the sector and no
granule of it is poisoned; the bytes that its pair's L1 holds, where it holds them all.
R223, R225: inside a transaction a lane's read is admitted, sees its own writes over what its die reads, and joins the lane's reads. -/
def Obligations.Loads : Prop :=
  (∀ k ∈ [Instr.ld, Instr.ldu], ∀ s gid busy g p, Issuer s gid busy g → accLanes g p.h ≠ [] → slotsFull g = false →
    g.reds = [] → g.tx = [] → (∀ i ∈ accLanes g p.h, pageLogged s g (effAddr g p i) = false) →
    ∀ r, r = accesses s g p (sizeB p.t) 0 effAddr →
    (∀ a ∈ r.2, a.c ≠ .wait ∧ (isHelper g p.h a.lane = false → isOk a.c = true)) →
    windowShut r.1 (gPart r.1 g) 0 (okPas r.2) = false →
    ∀ x, x = readLanes r.1 gid g p.h (sizeB p.t) p.f (if p.order = 1 then some p.scope else none) r.2 → x.2.2 = [] →
    (∀ a ∈ r.2, ∀ pa, a.c = .ok pa → pa % 128 + sizeB p.t ≤ 128 → CleanAt r.1 g pa → (a.lane, memBytes s pa (sizeB p.t)) ∈ x.2.1) ∧
    (∀ a ∈ r.2, ∀ pa l, a.c = .ok pa → pa % 128 + sizeB p.t ≤ 128 → mfind r.1.l1 (l1Key (gPair g) (sectorOf pa)) = some l →
      l.valid &&& byteMask (pa % 128) (sizeB p.t) = byteMask (pa % 128) (sizeB p.t) → l.poison = 0 → p.order = 0 → p.f ≠ 2 → isHelper g p.h a.lane = false →
      (a.lane, (List.range (sizeB p.t)).map (fun i => secByte l.data (pa % 128 + i))) ∈ x.2.1) ∧
    ∃ t g', exec (k p) s = .next t ∧ mfind t.groups gid = some g' ∧ MemIssue g g' ∧ RegionAfter g g' false ∧
      Pends g g' (x.2.1.flatMap (fun v => loadWs p.d p.t v.1 (ofBytes v.2))) true ∧ g'.reds = [] ∧ g'.bcs = g.bcs ∧ g'.tx = [] ∧
      (g.seen = true ∨ p.order = 1 → g'.seen = true) ∧
      ((∀ a, ¬ DirtyAt r.1 a) → g'.seen = (g.seen || p.order == 1)) ∧ OthersBare s t gid ∧ AccessRest s t ∧
      ∀ a, (p.f = 2 ∨ p.order = 1 → ∀ c ∈ r.2, isOk c.c = true → a / 256 ≠ Acc.pa c / 256) → memByte t a = memByte s a) ∧
  (∀ k ∈ [Instr.ld, Instr.ldu], ∀ s gid busy g p, Issuer s gid busy g → accLanes g p.h ≠ [] → slotsFull g = false →
    g.reds = [] → (∀ i ∈ accLanes g p.h, pageLogged s g (effAddr g p i) = false) →
    ∀ r, r = chkAll s g (sizeB p.t) (fun i => if (txLane g p.h i).isSome then [0, 3] else [0]) ((accLanes g p.h).map (fun i => (i, effAddr g p i))) →
    (∀ a ∈ r.2, isOk a.c = true) → windowShut r.1 (gPart r.1 g) 0 (okPas r.2) = false →
    ∀ x, x = readLanes (updG r.1 gid (fun g => doomLanes g [] 9)) gid g p.h (sizeB p.t) p.f (if p.order = 1 then some p.scope else none) r.2 →
    x.2.2 = [] → ∀ g1, mfind x.1.groups gid = some g1 →
    ∃ t g', exec (k p) s = .next t ∧ mfind t.groups gid = some g' ∧ g'.pc = nextPc g1.pc ∧ g'.st = .ready ∧ g'.tx = g1.tx ∧
      Pends g1 g' (x.2.1.flatMap (fun v => loadWs p.d p.t v.1 (ofBytes v.2))) true) ∧
  (∀ s gid g lane pa n tx, mfind s.groups gid = some g → mfind g.tx lane = some tx → (txAdmit s g lane pa true).2 = true →
    ∀ r, r = execRead (noteRead s gid g pa n) g 1 pa n → r.2.2 = false →
    (txRead s gid lane pa n).2 = (List.range n).map (fun i =>
      match tx.writes.find? (fun w => w.1 == pa + i) with | some w => w.2 | none => r.2.1.getD i 0) ∧
    ∃ g' tx', mfind (txRead s gid lane pa n).1.groups gid = some g' ∧ mfind g'.tx lane = some tx' ∧ tx'.writes = tx.writes ∧
      tx'.code = tx.code ∧ (∀ b ∈ tx.reads, b ∈ tx'.reads) ∧ pa / 256 ∈ tx'.rlines ∧ (∀ l ∈ tx.rlines, l ∈ tx'.rlines) ∧
      (∀ i, i < n → tx.writes.find? (fun w => w.1 == pa + i) = none → (pa + i, r.2.1.getD i 0) ∈ tx'.reads))

/-- R182, R208, R214: a store whose accesses all find their page: every byte of every lane that is no helper arrives, the
highest lane last (in a record of a context, a queue or the tensor directory its writable bits, R5); without release semantics every other byte reads
as before, with them only bytes that a cache held and its home had not received may also have moved. The core's store buffer has
room (R216), and the flow to another package, with its 256 flits, for the lanes' (R380). -/
def Obligations.Stores : Prop :=
  ∀ k ∈ [Instr.st, Instr.stu], ∀ s gid busy g p, Issuer s gid busy g → accLanes g p.h ≠ [] → g.reds = [] → g.tx = [] →
    (getCore s g.core).log = [] → p.order = 0 ∨ p.order = 2 →
    ∀ r, r = accesses s g p (sizeB p.t) 1 effAddr0 → (∀ a ∈ r.2, Placed r.1 (sizeB p.t) a) →
    (let act := r.2.filter (fun a => !isHelper g p.h a.lane)
     sbufRoom r.1 g.core (act.map (·.va)) = true ∧ windowFull r.1 (gPart r.1 g) 0 (okPas act) = false) →
    (p.order = 2 → releaseDone (releaseWrites r.1 gid g p.scope) gid g p.scope = true) →
    ∃ t g', exec (k p) s = .next t ∧ mfind t.groups gid = some g' ∧ MemIssue g g' ∧ RegionAfter g g' false ∧
      g'.pend = g.pend ∧ g'.reds = [] ∧ g'.bcs = g.bcs ∧ g'.tx = [] ∧ g'.seen = g.seen ∧ OthersBare s t gid ∧ AccessRest s t ∧
      (let act := r.2.filter (fun a => !isHelper g p.h a.lane)
       (∀ l a m i, act = l ++ a :: m → i < sizeB p.t → (∀ b ∈ m, ¬ (Acc.pa b ≤ Acc.pa a + i ∧ Acc.pa a + i < Acc.pa b + sizeB p.t)) →
         p.order = 0 ∨ storePlace r.1 g (Acc.pa a) (p.f == 1) = 0 →
         PlainAt s (Acc.pa a + i) →
         placeByte t g (storePlace r.1 g (Acc.pa a) (p.f == 1)) (Acc.pa a + i) = (toBytes (sizeB p.t) (stData s g p a.lane)).getD i 0) ∧
       (∀ a i, act = [a] → i < sizeB p.t → p.order = 0 →
         placeByte t g (storePlace r.1 g (Acc.pa a) (p.f == 1)) (Acc.pa a + i) = recByte s (Acc.pa a + i) ((toBytes (sizeB p.t) (stData s g p a.lane)).getD i 0)) ∧
       SameOutside (fun a => (∃ b ∈ act, Acc.pa b ≤ a ∧ a < Acc.pa b + sizeB p.t) ∨ (p.order = 2 ∧ DirtyAt s a)) s t)

/-- R213: an access that breaks a rule ends the instruction before any effect: a page that forbids it freezes the group, a
page that is not present raises fault 0x10 for loads and atomics, a misaligned address raises fault 0x11, for all lanes
that meet it; the address of the lowest is in the record. A store or reduction to a page that is not present goes on, but not one
that is misaligned there. -/
def Obligations.AccessFaults : Prop :=
  (∀ l npOk,
    ((∃ a ∈ l, ∃ k, Acc.c a = .forbid k) → ∃ a ∈ l, ∃ k, Acc.c a = .forbid k ∧ judge l npOk = .freeze k a.va) ∧
    ((∀ a ∈ l, isOk (Acc.c a) = true) → judge l npOk = .go) ∧
    ((∀ a ∈ l, isOk (Acc.c a) = true ∨ Acc.c a = .mis) → ∀ a t, l.filter (fun a => Acc.c a == .mis) = a :: t →
      judge l npOk = .fault 0x11 (laneSet ((a :: t).map (·.lane))) a.va 0 0) ∧
    ((∀ a ∈ l, isOk (Acc.c a) = true ∨ isNp (Acc.c a) = true) → ∀ a t lv w, l.filter (fun a => isNp (Acc.c a)) = a :: t →
      a.c = .np lv w → judge l false = .fault 0x10 (laneSet ((a :: t).map (·.lane))) a.va lv w) ∧
    ((∀ a ∈ l, isOk (Acc.c a) = true ∨ isNp (Acc.c a) = true) → ∀ a t, l.filter (fun a => a.mis && isNp a.c) = a :: t →
      judge l true = .fault 0x11 (laneSet ((a :: t).map (·.lane))) a.va 0 0) ∧
    ((∀ a ∈ l, isOk (Acc.c a) = true ∨ (isNp (Acc.c a) = true ∧ a.mis = false)) → judge l true = .go)) ∧
  (∀ k ∈ [Instr.ld, Instr.ldu], ∀ s gid busy g p, Issuer s gid busy g → accLanes g p.h ≠ [] → slotsFull g = false →
    g.reds = [] → g.tx = [] → (∀ i ∈ accLanes g p.h, pageLogged s g (effAddr g p i) = false) →
    let r := accesses s g p (sizeB p.t) 0 effAddr
    let l := r.2.filter (fun a => !isHelper g p.h a.lane)
    (∀ m va lv w, (∀ a ∈ r.2, a.c ≠ .wait) → judge l false = .fault 0x10 m va lv w →
      exec (k p) s = .next (takeFault r.1 gid 0x10 none (recLanes p.h.uni m) (detNp va lv w false))) ∧
    (∀ reason va, judge l false = .freeze reason va → exec (k p) s = .next (freezeGroup r.1 gid reason va 1)))

/-- R218, R219: at its execution point an atomic returns the old value of its aligned bytes and leaves the new value there.
R218, R219, R224: atom and cas give each executing lane the old value of its word, lane by lane, under a result slot, and
leave the new one; a lane with an open transaction only loses it. cas leaves b where the old value equals D and the old
value elsewhere. -/
def Obligations.Atomics : Prop :=
  (∀ s gid g scope pa n new ty b ret, n = 4 ∨ n = 8 → pa % 128 + n ≤ 128 → reachable s pa = true → (∀ i, i < n → PlainAt s (pa + i)) →
     (execRead s g (atomScope s scope pa) pa n).2.2 = false →
     let r := atomStep s gid g scope pa n new ty b ret
     let old := ofBytes (execRead s g (atomScope s scope pa) pa n).2.1
     r.2 = (old, false) ∧
     (execRead r.1 g (atomScope s scope pa) pa n).2.1 = toBytes n (new old) ∧
     AccessRest s r.1 ∧ r.1.groups = (noteRead s gid g pa n).groups) ∧
  (∀ k ∈ [(Instr.atom, fun (s : State) (g : Group) (p : P) (lane old : Nat) => atomNew p.f p.t old (atomVal s g p lane)),
          (Instr.cas, fun (s : State) (g : Group) (p : P) (lane old : Nat) =>
             if old = srcPat s g [] 0 p.t (dstSrc p.d) lane then atomVal s g p lane else old)],
     ∀ s gid busy g p, Issuer s gid busy g → accLanes g p.h ≠ [] → slotsFull g = false → g.reds = [] → g.tx = [] →
     (getCore s g.core).log = [] → p.f < 9 →
     ∀ r, r = accesses s g p (atomB p.t) 3 effAddr0 → (∀ a ∈ r.2, Placed r.1 (atomB p.t) a) →
     (let act := r.2.filter (fun a => !isHelper g p.h a.lane)
      let pre := act.foldl (fun q a =>
        let x := execRead q.1 g (atomScope q.1 p.scope (Acc.pa a)) (Acc.pa a) (atomB p.t)
        (x.1, q.2 || x.2.2)) (r.1, false)
      let rel := p.order = 2 ∨ p.order = 3
      let s2 := if rel then releaseWrites pre.1 gid g p.scope else pre.1
      let y := act.foldl (fun (q : State × List (Nat × Nat)) a =>
        let x := atomStep q.1 gid g p.scope (Acc.pa a) (atomB p.t) (k.2 s g p a.lane) p.t (atomVal s g p a.lane) true
        (x.1, q.2 ++ [(a.lane, x.2.1)])) (s2, [])
      windowShut r.1 (gPart r.1 g) 0 (okPas act) = false → pre.2 = false → (rel → releaseDone s2 gid g p.scope = true) →
      ∃ t g', exec (k.1 p) s = .next t ∧ mfind t.groups gid = some g' ∧ MemIssue g g' ∧ RegionAfter g g' true ∧
        Pends g g' ((accLanes g p.h).flatMap (fun i => atomWs p.d p.t i (((y.2.find? (fun v => v.1 == i)).map (·.2)).getD 0))) true ∧
        g'.reds = [] ∧ g'.bcs = g.bcs ∧ g'.tx = [] ∧
        g'.seen = (((mfind y.1.groups gid).map (·.seen)).getD false || p.order == 1 || p.order == 3) ∧ (g.seen = true → g'.seen = true) ∧
        OthersBare s t gid ∧ AccessRest s t ∧ HomeSame y.1 t))

/-- R218, R219, R220: red queues one reduction per executing lane and goes on; each is performed later, oldest first, at its
execution point, as an atomic that returns nothing. -/
def Obligations.Reductions : Prop :=
  (∀ s gid busy g p, Issuer s gid busy g → accLanes g p.h ≠ [] → g.tx = [] → (getCore s g.core).log = [] →
    ∀ r, r = chkAll s g (atomB p.t) (fun _ => [1, 3]) ((accLanes g p.h).map (fun i => (i, effAddr0 g p i))) →
    (∀ a ∈ r.2, Placed r.1 (atomB p.t) a) →
    (let act := r.2.filter (fun a => !isHelper g p.h a.lane)
     sbufRoom r.1 g.core (act.map (·.va)) = true ∧ windowFull r.1 (gPart r.1 g) 0 (okPas act) = false) →
    p.order = 0 ∨ (p.order = 2 ∧ g.reds = [] ∧ releaseDone (releaseWrites r.1 gid g p.scope) gid g p.scope = true) →
    ∃ t g', exec (.red p) s = .next t ∧ mfind t.groups gid = some g' ∧ MemIssue g g' ∧ RegionAfter g g' true ∧
      g'.pend = g.pend ∧ g'.bcs = g.bcs ∧ g'.tx = [] ∧ g'.seen = g.seen ∧
      g'.reds = g.reds ++ (r.2.filter (fun a => !isHelper g p.h a.lane)).map (fun a =>
        { f := p.f, t := p.t, va := a.va, pa := Acc.pa a, b := atomVal s g p a.lane, scope := p.scope }) ∧
      OthersBare s t gid ∧ AccessRest s t ∧ SameOutside (fun a => p.order = 2 ∧ DirtyAt s a) s t) ∧
  (∀ s gid g d ds, mfind s.groups gid = some g → g.reds = d :: ds → g.st ≠ .exiting → reachable s d.pa = true →
    let n := if is64 d.t then 8 else 4
    ∀ x, x = atomStep (updG s gid (fun g => { g with reds := ds })) gid { g with reds := ds } d.scope d.pa n
        (fun old => atomNew d.f d.t old d.b) d.t d.b false → x.2.2 = false →
      exec (.redPerformed gid) s = .next x.1 ∧
      ∃ g', mfind x.1.groups gid = some g' ∧ g' = { g with reds := ds, seen := g'.seen })

/-- R182, R212, R214, R218: scratchpad loads read, stores and atomics write the block's bytes at the lanes' offsets, ascending;
no byte of memory changes, and of the scratchpad only the bytes stored to. A load that meets a poisoned granule raises 0x41. No
resize of the block is under way (R181), and none of its groups waits on a byte-counting record, which a store may complete. -/
def Obligations.ScratchpadAccess : Prop :=
  ∀ s gid busy g p b, Issuer s gid busy g → gBlock s g = some b → accLanes g p.h ≠ [] →
    g.bcs = [] → b.resize = none →
    (let n := sizeB p.t
     let l := chkSpAll g p b n (accLanes g p.h)
     (slotsFull g = false → (∀ a ∈ l, isHelper g p.h a.lane = false → isOk a.c = true) → spBad g p.h b n l ≠ [] →
       ∃ det, exec (.lds p) s = .next (takeFault s gid 0x41 none (recLanes p.h.uni (laneSet ((spBad g p.h b n l).map (·.lane)))) det)) ∧
     (slotsFull g = false → p.order = 0 ∨ p.order = 1 → (∀ a ∈ l, isHelper g p.h a.lane = false → isOk a.c = true) →
       spBad g p.h b n l = [] →
       ∃ t g', exec (.lds p) s = .next t ∧ GroupStep s t gid g' ∧ MemIssue g g' ∧ RegionAfter g g' false ∧
         Pends g g' (l.flatMap (fun a => loadWs p.d p.t a.lane (match a.c with | .ok o => if spPoison b o n then 0 else spRead b o n | _ => 0))) true ∧
         g'.seen = (g.seen || p.order == 1) ∧ g'.reds = g.reds ∧ g'.bcs = [] ∧ g'.tx = g.tx) ∧
     (p.order = 0 ∨ (g.reds = [] ∧ releaseDone s gid g 0 = true) → (∀ a ∈ l, isOk a.c = true) →
       sbufRoom s g.core ((l.filter (fun a => !isHelper g p.h a.lane)).map (·.va)) = true → NoBcWait s g.block →
       ∃ t g' b', exec (.sts p) s = .next t ∧ mfind t.groups gid = some g' ∧ MemIssue g g' ∧ RegionAfter g g' false ∧
         g'.pend = g.pend ∧ g'.seen = g.seen ∧ g'.reds = g.reds ∧ g'.bcs = [] ∧ g'.tx = g.tx ∧
         t = { s with groups := t.groups, blocks := t.blocks, cores := t.cores } ∧ MemSame s t ∧
         (∀ j, j ≠ gid → mfind t.groups j = mfind s.groups j) ∧ (∀ c, getCore t c = { getCore s c with sbuf := (getCore t c).sbuf }) ∧
         mfind t.blocks g.block = some b' ∧ b' = { b with scratch := b'.scratch, poison := b'.poison, foots := b'.foots } ∧
         (∀ j, j ≠ g.block → mfind t.blocks j = mfind s.blocks j) ∧
         (let act := l.filter (fun a => !isHelper g p.h a.lane)
          (∀ l1 a m i, act = l1 ++ a :: m → i < n → (∀ c ∈ m, ¬ (Acc.pa c ≤ Acc.pa a + i ∧ Acc.pa a + i < Acc.pa c + n)) →
            spByte b' (Acc.pa a + i) = (toBytes n (stData s g p a.lane)).getD i 0) ∧
          (∀ o, (∀ a ∈ act, ¬ (Acc.pa a ≤ o ∧ o < Acc.pa a + n)) → spByte b' o = spByte b o)))) ∧
    (let n := atomB p.t
     let l := chkSpAll g p b n (accLanes g p.h)
     slotsFull g = false → p.order ≤ 1 ∨ (g.reds = [] ∧ releaseDone s gid g 0 = true) → (∀ a ∈ l, isOk a.c = true) →
       spBad g p.h b n l = [] → NoBcWait s g.block →
       let y := l.foldl (fun (q : Block × List (Nat × Nat)) a =>
         if isHelper g p.h a.lane then (q.1, q.2 ++ [(a.lane, 0)])
         else (spWrite q.1 (Acc.pa a) n (atomNew p.f p.t (spRead q.1 (Acc.pa a) n) (atomVal s g p a.lane)),
               q.2 ++ [(a.lane, spRead q.1 (Acc.pa a) n)])) (b, [])
       ∃ t g', exec (.atoms p) s = .next t ∧ mfind t.groups gid = some g' ∧ MemIssue g g' ∧ RegionAfter g g' true ∧
         Pends g g' (y.2.flatMap (fun v => atomWs p.d p.t v.1 v.2)) true ∧
         g'.seen = (g.seen || p.order == 1 || p.order == 3) ∧ g'.reds = g.reds ∧ g'.bcs = [] ∧ g'.tx = g.tx ∧
         t = { s with groups := t.groups, blocks := t.blocks } ∧ MemSame s t ∧ (∀ j, j ≠ gid → mfind t.groups j = mfind s.groups j) ∧
         mfind t.blocks g.block = some y.1 ∧ (∀ j, j ≠ g.block → mfind t.blocks j = mfind s.blocks j))

/-- R223, R224, R226: txbeg opens a transaction in every executing lane, or dooms the one that is open; txabt dooms the open
ones with its value; txend closes them, reports at once when none may commit, and otherwise sends them to the die with the
next ticket, its result outstanding.
R226: the commit of a die with the lowest ticket: a lane whose read bytes no longer hold the values that it read aborts
with CONFLICT; the writes of the others are what the die then reads; the group's result is ready with a status for every
lane. -/
def Obligations.Transactions : Prop :=
  (∀ s gid busy g p, Issuer s gid busy g →
     (g.reds = [] →
       ∃ t g', exec (.txbeg p) s = .next t ∧ GroupStep s t gid g' ∧ MemIssue g g' ∧ RegionAfter g g' false ∧ g'.pend = g.pend ∧
         g'.reds = [] ∧ g'.bcs = g.bcs ∧ g'.seen = g.seen ∧
         ∀ i, i < 32 → mfind g'.tx i = if (guardLanes g p.h).getLsbD i then txBegun (mfind g.tx i) else mfind g.tx i) ∧
     (valN g p.a ≤ 255 →
       ∃ t g', exec (.txabt p) s = .next t ∧ GroupStep s t gid g' ∧ MemIssue g g' ∧ RegionAfter g g' true ∧ g'.pend = g.pend ∧
         g'.reds = g.reds ∧ g'.bcs = g.bcs ∧ g'.seen = g.seen ∧
         ∀ i, i < 32 → mfind g'.tx i = (mfind g.tx i).map (fun x =>
           if (guardLanes g p.h).getLsbD i = true ∧ x.code = 0 then { doom x 6 with value := valN g p.a } else x)) ∧
     (guardLanes g p.h ≠ 0 → g.reds = [] → (∀ x ∈ txEnding g p, x.2.code ≠ 0) →
       ∃ t g', exec (.txend p) s = .next t ∧ mfind t.groups gid = some g' ∧ t = { s with groups := t.groups, parts := t.parts } ∧
         (∀ j, j ≠ gid → mfind t.groups j = mfind s.groups j) ∧
         g' = { g with pc := nextPc g.pc, st := .ready, age := g'.age, lastIssue := g'.lastIssue, waited := g'.waited, elig := g'.elig, burst := g'.burst, region := g'.region,
                       pend := g'.pend, tx := g.tx.filter (fun x => !(lanesOf (guardLanes g p.h)).contains x.1) } ∧
         RegionAfter g g' true ∧ Pends g g' (txWs (txReg p) (txEnding g p)) false) ∧
     (g.reds = [] → (∃ x ∈ txEnding g p, x.2.code = 0) →
       ∃ t g', exec (.txend p) s = .next t ∧ mfind t.groups gid = some g' ∧
         t = { s with groups := t.groups, fresh := s.fresh + 1 } ∧ (∀ j, j ≠ gid → mfind t.groups j = mfind s.groups j) ∧
         g' = { g with pc := nextPc g.pc, st := .ready, age := g'.age, lastIssue := g'.lastIssue, waited := g'.waited, elig := g'.elig, burst := g'.burst, region := g'.region,
                       pend := g'.pend, tx := g.tx.filter (fun x => !(lanesOf (guardLanes g p.h)).contains x.1),
                       commits := g.commits ++ [{ ticket := s.fresh, reg := txReg p, lanes := txEnding g p }] } ∧
         RegionAfter g g' true ∧
         g'.pend = g.pend ++ (match txReg p with | some n => [{ ws := [], ready := false, op := s.fresh, dst := [n] }] | none => []))) ∧
  (∀ s die gid c g, nextCommit s die = some (gid, c) → mfind s.groups gid = some g → g.st ≠ .exiting →
     let s1 := releaseWrites s gid g 1
     releaseDone s1 gid g 1 = true →
     let l := c.lanes.map (fun x =>
       if x.2.code = 0 ∧ x.2.reads.any (fun b => dieByte s1 die b.1 != b.2) = true then (x.1, doom x.2 1) else x)
     let ws := (l.filter (fun x => x.2.code = 0)).flatMap (fun x => x.2.writes)
     ∃ t g' g1, exec (.txCommit die) s = .next t ∧ mfind s1.groups gid = some g1 ∧ mfind t.groups gid = some g' ∧
       g' = { g1 with commits := g1.commits.filter (fun k => k.ticket != c.ticket),
                      pend := g1.pend.map (fun q => if q.op == c.ticket && !q.ready then { q with ws := txWs c.reg l, ready := true } else q),
                      seen := g1.seen || !(l.filter (fun x => x.2.code = 0)).isEmpty } ∧
       (∀ k a b m, ws = k ++ (a, b) :: m → (∀ x ∈ m, x.1 ≠ a) → PlainAt s a → dieByte t die a = b) ∧ (ws = [] → HomeSame s1 t) ∧
       (∀ j, j ≠ gid → mfind t.groups j = mfind s1.groups j))

/-- R221, R222: a monitor wait whose word already meets the comparison goes on with the word in D and its region closed; one
whose word does not waits, and goes on in the same way when a write or a tick finds it met. -/
def Obligations.MonitorWaits : Prop :=
  (∀ s gid busy g p, Issuer s gid busy g → actsOnce g p.h = true → slotsFull g = false → g.reds = [] →
    let g1 : Group := { hintG (doomAll g 7) s.cycle p.h with burst := 0 }
    let v := match p.b.opnd with | .imm i => wrap (tyW p.t) i.toInt | x => srcPat s g [] 0 p.t x 0
    ∀ r, r = mwTry (updG s gid (fun _ => g1)) g (effAddr0 g p 0) p.f p.t v →
    (∀ m, r.2 = .met m →
      ∃ t g' g2, exec (.mwait p) s = .next t ∧ mfind r.1.groups gid = some g2 ∧ mfind t.groups gid = some g' ∧
        g'.pc = nextPc g2.pc ∧ g'.st = .ready ∧
        g'.region = { entry := nextPc g2.pc, e := g2.e, stack := g2.stack } ∧
        (∀ n, rdS g' n = if dstS p.d = some n then BitVec.ofNat 64 (if tySigned p.t then wrap 64 (toSigned (tyW p.t) m) else m) else rdS g2 n) ∧
        g'.v = g2.v ∧ g'.seen = (g2.seen || p.order == 1) ∧ (p.order = 0 → HomeSame r.1 t ∧ t = { r.1 with groups := t.groups })) ∧
    (r.2 = .unmet →
      ∃ t g', exec (.mwait p) s = .next t ∧ mfind t.groups gid = some g' ∧ t = { r.1 with groups := t.groups } ∧
        g'.st = .waiting (.mw (effAddr0 g p 0) p.f p.t v (mwDest p.d) (p.order == 1).toNat p.scope) ∧ g'.pc = g.pc)) ∧
  (∀ k ∈ [Instr.mwaitWriteWake, Instr.mwaitTick], ∀ s gid g va f ty v d acq scope, mfind s.groups gid = some g →
    g.st = .waiting (.mw va f ty v d acq scope) → ∀ r, r = mwTry s g va f ty v →
    (r.2 = .unmet → exec (k gid) s = .next r.1) ∧
    (∀ m, r.2 = .met m →
      ∃ t g' g2, exec (k gid) s = .next t ∧ mfind r.1.groups gid = some g2 ∧ mfind t.groups gid = some g' ∧ g'.pc = nextPc g2.pc ∧
        g'.st = .ready ∧ g'.region = { entry := nextPc g2.pc, e := g2.e, stack := g2.stack } ∧
        (∀ n, rdS g' n = if n = d ∧ d < 64 then BitVec.ofNat 64 (if tySigned ty then wrap 64 (toSigned (tyW ty) m) else m) else rdS g2 n) ∧
        g'.v = g2.v ∧ (acq ≠ 1 → t = { r.1 with groups := t.groups }))) ∧
  (∀ s g va f ty v pa s1, chkVa s g va (tyW ty / 8) [0] = (s, .ok pa) → windowShut s (gPart s g) 0 [pa] = false →
    s1 = sendAccess s (gPart s g) 0 pa { kind := 1 } false → (execRead s1 g 2 pa (tyW ty / 8)).2.2 = false →
    (mwTry s g va f ty v).2 =
      if mwCmp f ty (ofBytes (execRead s1 g 2 pa (tyW ty / 8)).2.1) v then .met (ofBytes (execRead s1 g 2 pa (tyW ty / 8)).2.1) else .unmet)

/-- R209, R217: a fence that releases leaves in its pair's L1 no dirty byte of its group, at .die and wider; one that acquires
leaves there no byte that is not dirty; nothing moves but bytes that a cache held and their home had not received. -/
def Obligations.Fences : Prop :=
  ∀ s gid busy g p, Issuer s gid busy g → g.reds = [] →
    (actsOnce g p.h = true → p.f ≠ 1 → releaseDone (releaseWrites s gid g p.scope) gid g p.scope = true) →
    ∃ t g', exec (.fence p) s = .next t ∧ mfind t.groups gid = some g' ∧ MemIssue g g' ∧ RegionAfter g g' false ∧ g'.pend = g.pend ∧
      g'.reds = [] ∧ g'.bcs = g.bcs ∧ g'.tx = g.tx ∧ g'.seen = (g.seen || (actsOnce g p.h && p.f != 0)) ∧
      (∀ j, j ≠ gid → mfind t.groups j = mfind s.groups j) ∧ AccessRest s t ∧
      (∀ a, ¬ DirtyAt s a → memByte t a = memByte s a) ∧
      (actsOnce g p.h = true → p.scope ≠ 0 →
        (p.f ≠ 1 → ∀ sec k, sec < 2 ^ 42 → gBit g < 99 → mfind t.l1 (l1Key (gPair g) sec) = some k →
          k.writers.getLsbD (gBit g) = true → k.dirty = 0) ∧
        (p.f ≠ 0 → ∀ x ∈ t.l1, x.1 / 2 ^ 42 = gPair g → x.2.valid = x.2.dirty))

/-- R178 to R181: a prefetch brings lines in and raises nothing; an instruction-cache invalidation takes the lines of its range
out of the pair's L1; a page query answers from the page's home (how it rounds the settled time and what it says of a host page is the
model's choice, assumption log 112). A resize answers RANGE, BUSY or NOROOM at once; otherwise it is in
progress, its status outstanding, until the block's scratchpad rests, and then the block has its new ways: the kept bytes as they
were, the rest zero, no line left in a way that joined (of the pair's whole L1: the model's choice, assumption log 97), and the
status ready. -/
def Obligations.PageInstructions : Prop :=
  (∀ s gid busy g p, Issuer s gid busy g →
    (∃ t g', exec (.pfetch p) s = .next t ∧ mfind t.groups gid = some g' ∧ MemIssue g g' ∧ RegionAfter g g' false ∧ g'.pend = g.pend ∧
      g'.reds = g.reds ∧ g'.bcs = g.bcs ∧ g'.tx = g.tx ∧ g'.seen = g.seen ∧ (∀ j, j ≠ gid → mfind t.groups j = mfind s.groups j) ∧
      HomeSame s t ∧ AccessRest s t) ∧
    (actsOnce g p.h = true → valN g p.b.opnd < 2 ^ 32 →
      ∃ t g', exec (.icinv p) s = .next t ∧ mfind t.groups gid = some g' ∧ MemIssue { g with sectors := g'.sectors } g' ∧
        RegionAfter g g' true ∧ g'.pend = g.pend ∧ AccessRest s t ∧ (∀ a, ¬ DirtyAt s a → memByte t a = memByte s a) ∧
        (∀ base len pa sec, base = effAddr0 g p 0 → len = valN g p.b.opnd → 0 < len → base / 2 ^ 16 = (base + len - 1) / 2 ^ 16 →
          lookupPa s g (base / 2 ^ 16 * 2 ^ 16) = some pa → (pa + base % 2 ^ 16) / 128 ≤ sec →
          sec < (pa + base % 2 ^ 16 + len + 127) / 128 → sec < 2 ^ 42 → mfind t.l1 (l1Key (gPair g) sec) = none)) ∧
    (actsOnce g p.h = true →
      ∃ t g', exec (.pgq p) s = .next t ∧ GroupStep s t gid g' ∧ MemIssue g g' ∧ RegionAfter g g' false ∧
        Pends g g' (match dstS p.d with | some n => [.s n (BitVec.ofNat 64 (pgqVal s g (effAddr0 g p 0)))] | none => []) false ∧
        g'.reds = g.reds ∧ g'.bcs = g.bcs ∧ g'.tx = g.tx ∧ g'.seen = g.seen) ∧
    (actsOnce g p.h = true → ∀ b, gBlock s g = some b →
      let n := valN g p.a
      let full := 16 < otherWays s (gPair g) g.block + n + minWays s (gPair g) 0
      (14 < n → Answers (.wresz p) s gid g p true 3) ∧
      (n ≤ 14 → b.resize ≠ none → Answers (.wresz p) s gid g p true 2) ∧
      (n ≤ 14 → b.resize = none → full → Answers (.wresz p) s gid g p true 1) ∧
      (n ≤ 14 → b.resize = none → ¬ full →
        Gives (.wresz p) s { put s gid { issued s g p true with pend := g.pend ++
            [{ ws := (match dstS p.d with | some d => [.s d 0] | none => []), ready := false, op := s.fresh }] } with
          blocks := mset s.blocks g.block { b with resize := some (n, s.fresh) }, fresh := s.fresh + 1 }))) ∧
  (∀ s b k n id, mfind s.blocks b = some k → k.resize = some (n, id) → spadQuiet s b id = true →
    (∀ x ∈ taggedWays s k.pair, saveWaits s (blockCtx s x.2) = false) →
    ∃ k', mfind (resizeStep s b).blocks b = some k' ∧ k'.resize = none ∧ k'.ways = n ∧ k'.size = n * 131072 ∧
      (∀ o, spByte k' o = if o < min k.size (n * 131072) then spByte k o else 0) ∧
      (k.ways < n → ∀ x ∈ (resizeStep s b).l1, x.1 / 2 ^ 42 ≠ k.pair) ∧
      ∀ j g, mfind s.groups j = some g → g.block = b →
        mfind (resizeStep s b).groups j = some { g with pend := g.pend.map (fun q =>
          if q.op = id ∧ q.ready = false then { q with ready := true } else q) }) ∧
  (∀ s b k n id, mfind s.blocks b = some k → k.resize = some (n, id) → spadQuiet s b id = false → resizeStep s b = s)


/-! ### Barriers, byte counting and batches (R194 to R206) -/

/-- R201: bar.sync sends its arrival and waits; bar.arv sends its arrival and goes on with its region closed.
R194: an arrival that does not complete its barrier's phase counts; the one that does leaves the barrier idle and lets every
group go on that waits there with its own arrival applied. Count 0 stands for the groups that have not left. An arrival waits for what
its group wrote and added before it (R201). -/
def Obligations.Barriers : Prop :=
  (∀ s gid busy g p, Issuer s gid busy g → actsOnce g p.h = true → barOk s g (valN g p.a) (valN g p.b.opnd) = true →
     g.reds = [] → g.bcs = [] →
     (∃ t g', exec (.barSync p) s = .next t ∧ GroupStep { s with fresh := s.fresh + 1 } t gid g' ∧ NowWaits g g' (.bar (valN g p.a)) ∧ g'.tx = g.tx ∧
       g'.arrivals = g.arrivals ++ [{ id := valN g p.a, count := valN g p.b.opnd, sync := true, stamp := s.fresh }]) ∧
     (∃ t g', exec (.barArv p) s = .next t ∧ GroupStep { s with fresh := s.fresh + 1 } t gid g' ∧ RegionAfter g g' true ∧ g'.pc = nextPc g.pc ∧ g'.st = .ready ∧
       g' = { g with pc := g'.pc, st := .ready, age := g'.age, lastIssue := g'.lastIssue, waited := g'.waited, elig := g'.elig, burst := g'.burst, region := g'.region,
                     arrivals := g.arrivals ++ [{ id := valN g p.a, count := valN g p.b.opnd, sync := false, stamp := s.fresh }] })) ∧
  (∀ s gid g a rest, mfind s.groups gid = some g → g.arrivals = a :: rest →
     (loggedBefore s gid g.core a.stamp = true ∨ ∃ o ∈ g.bcs, o.stamp < a.stamp) → exec (.barArrivalApplied gid) s = .next s) ∧
  (∀ s gid g b id c w n rest, mfind s.groups gid = some g → g.arrivals = { id := id, count := c, sync := w, stamp := n } :: rest →
     mfind s.blocks g.block = some b → g.st ≠ .exiting → loggedBefore s gid g.core n = false → (∀ o ∈ g.bcs, n ≤ o.stamp) →
     let r := mget {} b.bars id
     let r' : Bar := if r.n = 0 then { want := c, n := 1 } else { r with n := r.n + 1 }
     let met := barMet (liveGroups (updG s gid (fun g => { g with arrivals := rest })) g.block) r'
     ∃ t b', exec (.barArrivalApplied gid) s = .next t ∧ mfind t.blocks g.block = some b' ∧
       t = { s with groups := t.groups, blocks := t.blocks } ∧ MemSame s t ∧
       b' = { b with bars := b'.bars } ∧ (∀ j, j ≠ id → mget {} b'.bars j = mget {} b.bars j) ∧
       mget {} b'.bars id = (if met then {} else r') ∧
       ∀ j x, mfind s.groups j = some x →
         let x1 := if j = gid then { x with arrivals := rest } else x
         ∃ x', mfind t.groups j = some x' ∧
           (if met = true ∧ x.block = g.block ∧ x.st = .waiting (.bar id) ∧ (∀ a ∈ x1.arrivals, ¬ (a.id = id ∧ a.sync = true)) then
             Returned x1 x' true
            else x' = x1))

/-- R196, R200, R202, R203: a byte-counting instruction whose record is aligned and inside the scratchpad sends its change and
goes on with its region closed.
R197, R202, R203, R204: a change applied: .init sets Expected, .exp adds to it, an add adds to Arrived, none beyond 2^32 − 1;
while Expected is not 0 and Arrived reaches it, phases complete; the groups that wait for a phase that has passed go on,
also where the phase number has come round to theirs. An add waits for what its group wrote before it (R203). -/
def Obligations.ByteCounts : Prop :=
  (∀ k ∈ [(Instr.bcsetInit, 0), (Instr.bcsetExp, 1), (Instr.bcadd, 2)],
     ∀ s gid busy g p b off, Issuer s gid busy g → actsOnce g p.h = true → g.reds = [] → gBlock s g = some b →
       b.resize = none → valN g p.b.opnd < 2 ^ 32 → chkSp b (spOffset g p 0).1 16 (spOffset g p 0).2 = .ok off →
       ∃ t g', exec (k.1 p) s = .next t ∧ GroupStep { s with fresh := s.fresh + 1 } t gid g' ∧ MemIssue g g' ∧ RegionAfter g g' true ∧ g'.pend = g.pend ∧
         g'.bcs = g.bcs ++ [{ f := k.2, off := off, n := valN g p.b.opnd, stamp := s.fresh }] ∧ g'.reds = [] ∧ g'.tx = g.tx ∧ g'.seen = g.seen) ∧
  (∀ k ∈ [(Instr.bcsetApplied, false), (Instr.bcaddApplied, true)],
     ∀ s gid g b f o n q0 rest, mfind s.groups gid = some g → g.bcs = { f := f, off := o, n := n, stamp := q0 } :: rest →
       (f == 2) = k.2 → n < 2 ^ 32 → mfind s.blocks g.block = some b → g.st ≠ .exiting →
       (f = 2 ∧ loggedBefore s gid g.core q0 = true → exec (k.1 gid) s = .next s) ∧
       ((f = 2 → loggedBefore s gid g.core q0 = false) →
       ∃ t b', exec (k.1 gid) s = .next t ∧ mfind t.blocks g.block = some b' ∧ t = { s with groups := t.groups, blocks := t.blocks } ∧
         MemSame s t ∧ b' = { b with scratch := b'.scratch, foots := b'.foots } ∧
         (∀ i, i < o ∨ o + 10 ≤ i → spByte b' i = spByte b i) ∧
         (let q := bcRead b o
          let e := if f = 0 then n else if f = 1 then min (q.expected + n) (2 ^ 32 - 1) else q.expected
          let a := if f = 0 then 0 else if f = 1 then q.arrived else min (q.arrived + n) (2 ^ 32 - 1)
          let ph := if f = 0 then 0 else q.phase
          bcRead b' o = (if e = 0 then { expected := 0, arrived := a, phase := ph }
                         else { expected := e, arrived := a % e, phase := (ph + a / e) % 65536 }) ∧
          ∀ j x, mfind s.groups j = some x →
            let x1 := if j = gid then { x with bcs := rest } else x
            ∃ x', mfind t.groups j = some x' ∧
              (if x.block = g.block ∧ (match x.st with
                 | .waiting (.bc o' w) => w != (bcRead b' o').phase || (o' == o && w == ph && e != 0 && decide (e ≤ a)) | _ => false) = true then
                 Returned x1 x' false else x' = x1))))

/-- R199, R204, R205, R206: bcwait goes on when the record's phase differs from its operand and waits when it does not; batf
closes the open batch and gives its number; batw goes on when every operation of the batches it names has retired, and
waits otherwise. -/
def Obligations.WaitsAndBatches : Prop :=
  ∀ s gid busy g p, Issuer s gid busy g → actsOnce g p.h = true →
    (∀ b off, gBlock s g = some b → g.bcs = [] → b.resize = none → valN g p.b.opnd < 2 ^ 16 →
      chkSp b (spOffset g p 0).1 16 (spOffset g p 0).2 = .ok off →
      ∃ t g', exec (.bcwait p) s = .next t ∧ GroupStep s t gid g' ∧
        (if (bcRead b off).phase = valN g p.b.opnd then NowWaits g g' (.bc off (valN g p.b.opnd)) ∧ g'.arrivals = g.arrivals ∧ g'.tx = g.tx
         else MemIssue g g' ∧ RegionAfter g g' false ∧ g'.seen = true ∧ g'.pend = g.pend ∧ g'.reds = g.reds ∧ g'.bcs = [] ∧ g'.tx = g.tx)) ∧
    (openBatches s gid g < 32767 →
      ∃ t g', exec (.batf p) s = .next t ∧ GroupStep s t gid g' ∧ RegionAfter g g' true ∧
        (∀ m, rdS g' m = if dstS p.d = some m then BitVec.ofNat 64 g.batch else rdS g m) ∧ g'.batch = (g.batch + 1) % 65536 ∧
        g' = { g with pc := nextPc g.pc, st := .ready, age := g'.age, lastIssue := g'.lastIssue, waited := g'.waited, elig := g'.elig, burst := g'.burst, region := g'.region,
                      sr := g'.sr, batch := g'.batch }) ∧
    (valN g p.a < 65536 →
      let target := if p.f = 0 then valN g p.a else (g.batch + 2 * 65536 - 1 - valN g p.a) % 65536
      let far := fun c b => (c + 65536 - b % 65536) % 65536
      ∃ t g', exec (.batw p) s = .next t ∧ GroupStep s t gid g' ∧
        (if 32768 ≤ far g.batch target ∨ (∀ x ∈ s.ops, x.2.gid = gid → far g.batch x.2.batch < far g.batch target) then
          MemIssue g g' ∧ RegionAfter g g' false ∧ g'.seen = true ∧ g'.pend = g.pend ∧ g'.reds = g.reds ∧ g'.bcs = g.bcs ∧ g'.tx = g.tx
         else NowWaits g g' (.bat target) ∧ g'.arrivals = g.arrivals ∧ g'.tx = g.tx))

/-! ### Contexts and faults (R61 to R84, R118 to R121, R402) -/

/-- R82, R83, R111, R135: a special register read into a vector or a uniform register, by rdsr and by mov; a read of %chunk
takes the next chunk of a guided kernel's range unit; writes of %hmask and of the freeze ring's consumer index. -/
def Obligations.SpecialRegisters : Prop :=
  Computes (fun p => .mov { p with a := plainSrc p.a }) false (fun p => [plainSrc p.a]) own
    (fun p _ _ src => src p.t (plainSrc p.a)) ∧
  (∀ s gid busy g p n, Issuer s gid busy g → p.a = .sr n → (srPriv n.toNat = true → holdsRight s (gCtx s g) 1 = true) →
    ∀ s1, s1 = (if actsOnce g p.h then srTouch s gid g n.toNat else s) →
    (p.h.uni = true → ∃ t g1 g', exec (.mov p) s = .next t ∧ mfind s1.groups gid = some g1 ∧ RegStep s1 t gid g1 g' ∧
      t.latches = s.latches ∧ PredsSame g g' ∧ UniRegs g g' p 7 (srVal s g n.toNat (lowLane g.e))) ∧
    (∀ pipe, p.h.uni = false → pickPipe s1 gid busy g false [] = .pipe pipe →
      ∃ t g1 g', exec (.mov p) s = .next t ∧ mfind s1.groups gid = some g1 ∧ RegStep s1 t gid g1 g' ∧ PredsSame g g' ∧
        VecRegs g g' p (is64 p.t) (srVal s g n.toNat))) ∧
  (∀ k n, ∀ s gid busy g p, Issuer s gid busy g → (k, n) = (Instr.rdsr p, srNo g p.a) ∨ (k, n) = (Instr.rdsrFrzprod p, 0x17) →
    actsOnce g p.h = true → srOk n = true → n ≠ 9 → (srPriv n = true → holdsRight s (gCtx s g) 1 = true) →
    let x := srVal s g n (lowLane (guardLanes g p.h))
    ∃ t g', exec k s = .next t ∧ mfind t.groups gid = some g' ∧ t = { srTouch s gid g n with groups := t.groups } ∧
      (∀ j, j ≠ gid → mfind t.groups j = mfind s.groups j) ∧
      g' = { issued s g p false with v := g'.v, sr := g'.sr, lastTime := g'.lastTime, seen := g'.seen } ∧
      (∀ m, rdS g' m = if dstS p.d = some m then BitVec.ofNat 64 x else rdS g m) ∧
      (∀ m lane, lane < 32 → rdV g' m lane = match p.d with
        | .v false _ d => if m = d.toNat ∧ (if p.h.uni then g.e else guardLanes g p.h).getLsbD lane = true
            then BitVec.ofNat 32 (if p.h.uni then x else srVal s g n lane) else rdV g m lane
        | _ => rdV g m lane)) ∧
  (∀ s gid g n, HomeSame s (srTouch s gid g n) ∧ (n ≠ 0x05 → n ≠ 0x17 → srTouch s gid g n = s)) ∧
  (∀ k, ∀ s gid busy g p kern, Issuer s gid busy g → k = Instr.rdsrChunk p ∨ (k = Instr.rdsr p ∧ srNo g p.a = 9) →
    actsOnce g p.h = true → isVDst p.d = false → gKernel s g = some kern →
    (krGuided kern.record = false → Gives k s (put s gid { issued s g p false with pend := g.pend ++ later p.d [0] })) ∧
    (krGuided kern.record = true →
      let left := krUnits kern.record - kern.next
      let n := min left (min (2 ^ 24 - 1) (max (krMinChunk kern.record) ((left + 2 * kern.blocks - 1) / (2 * kern.blocks))))
      Gives k s (put { s with kernels := mset s.kernels (gKid s g) { kern with next := kern.next + n } } gid
        { issued s g p false with pend := g.pend ++ later p.d [kern.next % 2 ^ 40 + 2 ^ 40 * n] }))) ∧
  (∀ s gid busy g p, Issuer s gid busy g → actsOnce g p.h = true →
    Gives (.wrsr p) s (put s gid { issued s g p true with hmask := BitVec.ofNat 32 (valN g p.a) }) ∧
    (holdsRight s (gCtx s g) 1 = true →
      ∃ t, exec (.wrsrFrzcons p) s = .next t ∧ (getPart t (gPart s g)).frzCons = valN g p.a % 65536 ∧
        mfind t.groups gid = some (issued s g p true) ∧ (∀ j, j ≠ gid → mfind t.groups j = mfind s.groups j) ∧
        t = { s with groups := t.groups, parts := t.parts, mem := t.mem, veils := t.veils } ∧
        ((getPart s (gPart s g)).frzPend = [] → MemSame s t ∧
          t.parts = mset s.parts (gPart s g) { getPart s (gPart s g) with frzCons := valN g p.a % 65536 })))

/-- R80, R81, R118 to R121, R401, R402, R403: trap and brk close the region and take their fault; yield goes on, or stops a
group whose context is asked to leave; the token moves; mark leaves a record; rdctr reads a counter and rdctr.sel selects
one. -/
def Obligations.TrapsTokensCounters : Prop :=
  ∀ s gid busy g p, Issuer s gid busy g → actsOnce g p.h = true →
    (∀ k code, (k, code) = (Instr.trap p, 0x06) ∨ (k, code) = (Instr.brk p, 0x07) →
      ∃ t g', exec k s = .next t ∧ mfind t.groups gid = some g' ∧ g'.st = .faulted ∧ g'.pc = g.pc ∧
        g'.region = { entry := nextPc g.pc, e := g.e, stack := g.stack } ∧ g'.v = g.v ∧ g'.sr = g.sr ∧ PredsSame g g' ∧
        g'.flt = some { code := code, seq := (getCtx s (gCtx s g)).seq, op := 0 } ∧
        t = takeFault (put s gid { g with region := g'.region }) gid code none allLanes (valN g p.a % 2 ^ 32)) ∧
    ((getCtx s (gCtx s g)).preq = false → Gives (.yield p) s (put s gid { issued s g p true with tx := illegalTx g p })) ∧
    ((getCtx s (gCtx s g)).preq = true →
      ∃ t g', exec (.yield p) s = .next t ∧ GroupStep s t gid g' ∧ (∀ x ∈ g'.tx, x.2.code ≠ 0) ∧
        g'.arrivals = g.arrivals.filter (fun a => !a.sync) ∧
        g' = { issued s g p true with st := .stopping, live := some (8 * ((valN g p.a + 7) / 8)), tx := g'.tx, arrivals := g'.arrivals,
                                       reads := none }) ∧
    (∀ b, gBlock s g = some b →
      let on := fun (k : Instr) (tok : Option Nat) (ok : Bool) =>
        Gives k s (put { s with blocks := mset s.blocks g.block { b with token := tok } } gid
          { issued s g p false with pend := g.pend ++ laterK p.d ok })
      let off := fun (k : Instr) (ok : Bool) => Gives k s (put s gid { issued s g p false with pend := g.pend ++ laterK p.d ok })
      (let live := valN g p.a < b.ngroups ∧ ∃ h, mfind s.groups (32 * g.block + valN g p.a) = some h ∧ h.st ≠ .exited ∧ h.st ≠ .exiting
       (b.token = some g.num ∧ live → on (.ptok p) (some (valN g p.a)) true) ∧
       (¬ (b.token = some g.num ∧ live) → off (.ptok p) false)) ∧
      (b.token = some g.num → on (.ptokRel p) none true) ∧ (b.token ≠ some g.num → off (.ptokRel p) false) ∧
      (b.token = none → on (.ttok p) (some g.num) true) ∧ (b.token = some g.num → off (.ttok p) true) ∧
      (b.token ≠ none → b.token ≠ some g.num → off (.ttok p) false)) ∧
    (let q := getPart s (gPart s g)
     let n := 2 ^ smpLogEff q.smpLog
     (q.smpEn = false → Gives (.mark p) s (put s gid (issued s g p true))) ∧
     (q.smpEn = true → (q.smpProd + 2 ^ 32 - q.smpCons) % 2 ^ 32 = n →
       Gives (.mark p) s (put { s with parts := mset s.parts (gPart s g) { q with smpDropped := (q.smpDropped + 1) % 2 ^ 32 } } gid
         (issued s g p true))) ∧
     (q.smpEn = true → (q.smpProd + 2 ^ 32 - q.smpCons) % 2 ^ 32 ≠ n →
       let a := q.smpBase + 32 * (q.smpProd % n)
       ∃ t, exec (.mark p) s = .next t ∧ HomeOutside a 32 s t ∧
         memRead t a 32 = mkRec [(63, 0, g.pc), (67, 64, 0), (69, 68, 1), (71, 70, g.last), (80, 72, g.core), (86, 81, g.slot),
           (92, 87, gCtx s g % 64), (127, 96, valN g p.a % 2 ^ 32), (191, 128, s.time), (255, 192, g.region.entry)] ∧
         t = { s with mem := t.mem, veils := t.veils, groups := mset s.groups gid (issued s g p true),
                      parts := mset s.parts (gPart s g) { q with smpProd := (q.smpProd + 1) % 2 ^ 32 } })) ∧
    (valN g p.a ≤ 63 →
      let c := mget {} (getPart s (gPart s g)).ctrs (valN g p.a)
      let xs := if (fld (ctxDesc s (gCtx s g)) 447 384).testBit (valN g p.a) then
          [if c.counted = 0 then 0 else c.raw * c.elapsed / c.counted % 2 ^ 64, c.counted % 2 ^ 32 + 2 ^ 32 * (c.elapsed % 2 ^ 32)]
        else [0, 0]
      Gives (.rdctr p) s (put s gid { issued s g p false with pend := g.pend ++ later p.d xs }) ∧
      (holdsRight s (gCtx s g) 2 = true →
        let v := valN g p.b.opnd % 256
        ∃ t, Gives (.rdctrSel p) s t ∧
          t = put { s with parts := t.parts } gid { issued s g p false with pend := g.pend ++ later p.d [if selOk v then c.sel else 0x100] } ∧
          (∀ j, j ≠ gPart s g → getPart t j = getPart s j) ∧
          (selOk v = false → t.parts = s.parts) ∧
          (selOk v = true → (mget {} (getPart t (gPart s g)).ctrs (valN g p.a)).sel = v ∧
            (mget {} (getPart t (gPart s g)).ctrs (valN g p.a)).raw = 0)))

/-- R91, R94 to R96, R107: a record that passes its checks becomes a pending kernel of its context with the next number, a grid
with a zero dimension completes at once, a record that fails a check answers the status of the first; launch makes the
group's writes visible at .pkg, offers the record, with the grid in memory where an operand names one, and gives the
answer to D. That a guided record is checked before the right to offer it (assumption log 92), and that a reserved low bit of an address
answers ALIGN (log 91), are the model's choices. -/
def Obligations.Launches : Prop :=
  (∀ s ctx va grid pa rec, va % 64 = 0 → firmRead s ctx va 512 = (.ok pa, rec) →
    ∀ r, r = (match grid with | some (x, y, z) => krGrid rec x y z | none => rec) →
    (recordBad r grid.isSome ≠ 0 → ∀ q, offer s ctx va grid q = (s, .fail (recordBad r grid.isSome))) ∧
    (recordBad r grid.isSome = 0 → (krDone r = 0 ∨ ∃ a, taskTranslate s ctx (krDone r) 1 = .ok a) →
      (krGuided r = true → holdsRight s ctx 0 = true) →
      (krTileN r = 0 → ∀ q, offer s ctx va grid q = (doneWrite s ctx (krDone r) 0, .ok)) ∧
      (krTileN r ≠ 0 →
        (((ctxKernels s ctx).filter (fun k => k.2.queue == none && k.2.st == .pending)).length < 64 → offer s ctx va grid none =
          ({ s with fresh := s.fresh + 1, kernels := mset s.kernels s.fresh { ctx := ctx, record := r } }, .ok)) ∧
        (∀ q, offer s ctx va grid (some q) =
          ({ s with fresh := s.fresh + 1, kernels := mset s.kernels s.fresh { ctx := ctx, record := r, queue := some q },
                    queues := mset s.queues q { getQ s q with launches := (getQ s q).launches ++ [s.fresh] } }, .ok))))) ∧
  (∀ s gid busy g p, Issuer s gid busy g → actsOnce g p.h = true → holdsRight s (gCtx s g) 3 = true →
    ∀ s1, s1 = releaseWrites s gid g 2 → releaseDone s1 gid g 2 = true →
    ∀ grid, ((∀ n, p.b.opnd ≠ .s n) ∧ grid = none) ∨
      (∃ n x pa, p.b.opnd = .s n ∧ rdSn g (sNum p.a) % 64 = 0 ∧ rdSn g n.toNat % 16 = 0 ∧
        gridRead s1 (gCtx s g) (rdSn g n.toNat) = (.ok pa, x) ∧ grid = some x) →
    ∀ r, r = offer s1 (gCtx s g) (rdSn g (sNum p.a)) grid none →
    ∀ st, r.2 = .ok ∧ st = 0 ∨ (∃ k, r.2 = .fail k ∧ st = (match k with | 2 => 1 | 3 => 2 | 5 => 3 | 7 => 4 | _ => 5)) →
    ∀ g1, mfind r.1.groups gid = some g1 →
      exec (.launch p) s = .next (put r.1 gid { issued r.1 g1 p true with tx := illegalTx g1 p, pend := g1.pend ++ later p.d [st] }))

/-- R71, R76, R84: the partition manager's return from a freeze and from a fault: the agent of a number goes on where it
stopped, or is destroyed; a faulted group goes on at the next instruction (0x06, 0x07), at its region entry with the copy of
E and the stack (0x10), less the lanes that have exited since and from the stack when no other is left in E (R106, R149), or where
it was; an unknown number answers 1, one of a Saved context 2, a fault that cannot be
resumed 3. -/
def Obligations.Releases : Prop :=
  ∀ s gid busy g p, Issuer s gid busy g → actsOnce g p.h = true → holdsRight s (gCtx s g) 1 = true → hasLeft g = false →
    let v := valN g p.a
    let part := gPart s g
    let n := v % 2 ^ 32
    let key := 64 * part + v / 2 ^ 32 % 64
    let goes : Group → GSt := fun h => if h.active = 0 then .exiting else match mfind s.kernels (gKid s h) with
      | some k => if k.st = .faulting then .stopping else .ready
      | none => .ready
    let ends := fun (k : Instr) (t : State) (st : Nat) =>
      exec k s = .next t ∧ mfind t.groups gid = some { issued s g p true with pend := g.pend ++ later p.d [st] }
    part < 8 → v / 2 ^ 40 = part → v / 2 ^ 38 % 4 = 0 →
    (∀ k ∈ [Instr.frelRel p, .frelDst p],
      (frozenAgent s part n = none → ∃ t, ends k t 1 ∧ GroupStep s t gid { issued s g p true with pend := g.pend ++ later p.d [1] }) ∧
      (∀ a c, frozenAgent s part n = some (a, some c) → (getCtx s c).st = .saved →
        ∃ t, ends k t 2 ∧ GroupStep s t gid { issued s g p true with pend := g.pend ++ later p.d [2] })) ∧
    (∀ j h c, frozenAgent s part n = some (.group j, some c) → (getCtx s c).st ≠ .saved → mfind s.groups j = some h → j ≠ gid →
      ∃ t, ends (.frelRel p) t 0 ∧ frozenAgent t part n = none ∧ (getCtx t c).frozen = (getCtx s c).frozen - 1 ∧
        mfind t.groups j = some { h with st := goes h, frz := none } ∧
        (∀ i, i ≠ gid → i ≠ j → mfind t.groups i = mfind s.groups i) ∧ HomeOutside (ctxDescA s c) 64 s t ∧
        t = { s with groups := t.groups, frozen := t.frozen, ctxs := t.ctxs, mem := t.mem, veils := t.veils, banks := t.banks }) ∧
    (∀ h, frozenAgent s part n = some (.hart h, none) →
      ∃ t, ends (.frelRel p) t 0 ∧ frozenAgent t part n = none ∧ getHart t h = { getHart s h with frz := none } ∧ MemSame s t ∧
        (∀ i, i ≠ gid → mfind t.groups i = mfind s.groups i) ∧
        t = { s with groups := t.groups, frozen := t.frozen, harts := t.harts }) ∧
    (∀ r, frozenAgent s part n = some (.requester r, none) →
      ∃ t, ends (.frelDst p) t 0 ∧ frozenAgent t part n = none ∧ t.heldReqs = s.heldReqs.filter (fun q => q.requester.toNat != r) ∧
        MemSame s t ∧ (∀ i, i ≠ gid → mfind t.groups i = mfind s.groups i) ∧
        t = { s with groups := t.groups, frozen := t.frozen, heldReqs := t.heldReqs }) ∧
    (∀ j c, frozenAgent s part n = some (.group j, some c) ∨ frozenAgent s part n = some (.op j, some c) → (getCtx s c).st ≠ .saved →
      ∃ t, exec (.frelDst p) s = .next t ∧ frozenAgent t part n = none ∧ (getCtx t c).st = .destroying ∧ (getCtx t c).frozen = 0 ∧
        (getCtx t c).faulted = 0) ∧
    (faultedGroup s key n = none → ∃ t, ends (.frelRes p) t 1) ∧
    (∀ j h f, faultedGroup s key n = some (j, h) → h.flt = some f →
      ((getCtx s key).st = .saved → ∃ t, ends (.frelRes p) t 2) ∧
      ((getCtx s key).st ≠ .saved → resumable f.code = false → ∃ t, ends (.frelRes p) t 3) ∧
      ((getCtx s key).st ≠ .saved → resumable f.code = true → mfind s.groups j = some h → j ≠ gid → f.op = 0 →
        let e0 := h.region.e &&& h.active
        let st0 := liveStack h.active h.region.stack
        let back := if e0 = 0 then (refill st0).getD (st0, e0, h.region.entry) else (st0, e0, h.region.entry)
        ∃ t h', ends (.frelRes p) t 0 ∧ mfind t.groups j = some h' ∧ h'.flt = none ∧
          h'.st = goes h ∧
          h'.pc = (if f.code = 0x06 ∨ f.code = 0x07 then nextPc h.pc else if f.code = 0x10 then back.2.2 else h.pc) ∧
          h'.e = (if f.code = 0x10 then back.2.1 else h.e) ∧
          h'.stack = (if f.code = 0x10 then back.1 else h.stack) ∧
          h' = { h with flt := none, st := h'.st, pc := h'.pc, e := h'.e, stack := h'.stack, latchPipe := h'.latchPipe } ∧
          (getCtx t key).faulted = (getCtx s key).faulted - 1 ∧ (∀ i, i ≠ gid → i ≠ j → mfind t.groups i = mfind s.groups i) ∧
          HomeOutside (ctxDescA s key) 64 s t ∧ t = { s with groups := t.groups, ctxs := t.ctxs, mem := t.mem, veils := t.veils, banks := t.banks }))

/-! ### Transfer (R264 to R284) -/

/-- R264 to R279, R281, R283: a command of the Pantograph whose records, windows and operands pass their checks enters its
channel with the values that it read at issue, and the group goes on. -/
def Obligations.TransferIssue : Prop :=
  ∀ s gid busy g p b, Issuer s gid busy g → XOpen s g p b →
    let w := dNum p.d
    let os := winVal g w 0
    let od := winVal g w 1
    let zv := winVal g w 2
    (∀ m ra rb s1, ReadsRecs s gid g [recVa g p.a, recVa g p.b.opnd] 96 32 m [ra, rb] →
      let n := lrRank ra
      let z := winSize zv n
      let k := EK.copy 0 [ra, rb] [os, od, zv] (cntOff p)
      lrOk ra = true → lrOk rb = true → n ≠ 0 → lrRank rb = n → pairOk ra rb = true →
      winOk os n = true → winOk od n = true → winOk zv n = true →
      catBad m g ra = false → catBad m g rb = false → winWhole ra os z = true → winWhole rb od z = true →
      let xa := if lrCat ra then [] else spots ra os z
      let xb := if lrCat rb then [] else spots rb od z
      (if lrKeep rb then (match lrTensor (gRecord m g) ra with | some t => keepFoot m (gPart m g) t (winFolios ra os z) | none => 0)
       else if lrEnc rb then encFoot m (opOf m gid g p true k) b ra rb os od zv
       else (spotBytes rb xb).length) ≤ 65536 →
      XClear m g p b ((spotMis ra xa).orElse (fun _ => spotMis rb xb)) [ra, rb] (sideVas ⟨ra, xa, false⟩) (sideVas ⟨rb, xb, true⟩)
        ((spotOut b.size ra xa).orElse (fun _ => spotOut b.size rb xb)) ((catUnbound m g ra).orElse (fun _ => catUnbound m g rb)) s1 →
      Queues (.xcpy p) s s1 gid g p true k) ∧
    (∀ m r s1, ReadsRec s gid g (recVa g p.a) 96 32 m r →
      lrOk r = true → lrRank r ≠ 0 → lrCat r = false → os = 0 → winOk od (lrRank r) = true → winOk zv (lrRank r) = true →
      let xd := spots r od (winSize zv (lrRank r))
      XClear m g p b (spotMis r xd) [r] [] (sideVas ⟨r, xd, true⟩) (spotOut b.size r xd) none s1 →
      Queues (.xfil p) s s1 gid g p true (.copy 3 [r] [os, od, zv] (cntOff p))) ∧
    (∀ m src t0 c0 t1 c1 s1,
      ReadsRecs s gid g ((List.range 5).map (fun i => recVa g p.a + 96 * i)) 96 32 m [src, t0, c0, t1, c1] →
      (∀ r ∈ [src, t0, c0, t1, c1], lrOk r = true) → lrRank src = 2 → lrFmt src = 0x20 ∨ lrFmt src = 0 ∨ lrFmt src = 1 →
      lrPerm src 0 = 0 → lrCat src = false → qOk t0 c0 = true → qOk t1 c1 = true → winOk os 2 = true → winOk od 2 = true →
      winOk zv 2 = true → winDim od 0 % 32 = 0 → winDim od 1 % 32 = 0 →
      let sides := qSides [src, t0, c0, t1, c1] os od (winSize zv 2)
      let wr := sides.filter (·.wr)
      sidesFoot wr ≤ 65536 →
      XClear m g p b (sides.findSome? (fun x => spotMis x.r x.ss)) [src, t0, c0, t1, c1] ((sides.filter (fun x => !x.wr)).flatMap sideVas)
        (wr.flatMap sideVas) (sides.findSome? (fun x => spotOut b.size x.r x.ss)) none s1 →
      Queues (.xqnt p) s s1 gid g p true (.copy 2 [src, t0, c0, t1, c1] [os, od, zv] (cntOff p))) ∧
    (∀ n t, p.a = .v n → tensorOf s g p.b.opnd = some t →
      let ls := lanesOf (guardLanes g p.h &&& ~~~g.hmask)
      let slot := 512 * 2 ^ p.f
      let base := rdSn g w % 2 ^ 32
      ls.length * slot ≤ 65536 → base % 256 = 0 → base + slot * ls.getLastD 0 + slot ≤ b.size →
      (∀ c, cntOff p = some c → c + 16 ≤ b.size) →
      Queues (.xgat p) s s gid g p true (.gather p.f base t (ls.map (fun i => (i, (rdV g n.toNat i).toNat))) (cntOff p))) ∧
    (∀ s1, let d := rdSn g w
      let a := rdSn g (sNum p.a)
      let n := rdSn g (sNum p.b.opnd)
      n ≤ 2 ^ 32 → d % 1024 = 0 → n % 1024 = 0 →
      (a % 1024 = 0 → XClear s g p b none [] (rangeVas a n) (rangeVas d n) none none s1 →
        Queues (.xrowCpy p) s s1 gid g p true (.rowCpy d a n)) ∧
      (a < 2 ^ 32 → XClear s g p b none [] [] (rangeVas d n) none none s1 →
        Queues (.xrowIni p) s s1 gid g p true (.rowIni d a n))) ∧
    (∀ s1, regAddr g p % 8 = 0 →
      XClear s g { p with ty := 0, ext := 0 } b none [] [] [regAddr g p] none none s1 →
      Queues (.xsta p) s s1 gid g p true (.stamp (regAddr g p) (rdSn g (sNum p.b.opnd))))

/-! ### Folios and legends (R231 to R263) -/

/-- R251, R254, R255, R256, R259, R260: lgld takes an image that is a legend and answers 0, or answers 1; lgst stores the image of
a slot, zeros for an Empty one, every byte at its address; lgclr empties a slot; fget reads an entry, 0 for none; fref counts
the references of a Stored or Open entry, which retires at 0; falc gives the first free identifier and empties its entries. That falc
checks the request before it looks for a free record, so that it answers 2 for a bad one also where none is free, is the model's choice
(assumption log 31). -/
def Obligations.LegendsAndEntries : Prop :=
  ∀ s gid busy g p, Issuer s gid busy g → elects g p.h = true →
    let part := gPart s g
    (∀ s1 img g1, g.reds = [] → ReadsRec s gid g (regAddr g p) 512 64 s1 img → mfind s1.groups gid = some g1 →
      HomeSame s s1 ∧
      (let c := getCtx s1 (gCtx s1 g)
       lgValid img = true →
        Ends (.lgld p) s { s1 with ctxs := mset s1.ctxs (gCtx s1 g) { c with lg := mset c.lg (lgNo p.b.opnd) img } } gid g1 p true 0) ∧
      (lgValid img = false → Ends (.lgld p) s s1 gid g1 p true 1)) ∧
    (regAddr g p % 64 = 0 → g.reds = [] → (getCore s g.core).log = [] →
      ∀ r, r = chkAll s g 1 (fun _ => [1]) ((List.range 16).map (fun i => (i, regAddr g p + 32 * i))) →
      (∀ a ∈ r.2, Placed r.1 32 a) → sbufRoom r.1 g.core (r.2.map (·.va)) = true →
      windowFull r.1 (gPart r.1 g) 0 (r.2.map Acc.pa) = false →
      ∃ t g', exec (.lgst p) s = .next t ∧ mfind t.groups gid = some g' ∧ MemIssue g g' ∧ RegionAfter g g' true ∧ g'.pend = g.pend ∧
        g'.reds = [] ∧ g'.bcs = g.bcs ∧ g'.seen = g.seen ∧ OthersBare s t gid ∧ AccessRest s t ∧
        (∀ l a m i, r.2 = l ++ a :: m → i < 32 → PlainAt s (Acc.pa a + i) → (∀ b ∈ m, ¬ (Acc.pa b ≤ Acc.pa a + i ∧ Acc.pa a + i < Acc.pa b + 32)) →
          placeByte t g (storePlace r.1 g (Acc.pa a) false) (Acc.pa a + i) =
            BitVec.ofNat 8 ((legendOf s (gCtx s g) (lgNo p.b.opnd)).getD 0 / 2 ^ (8 * (32 * a.lane + i)))) ∧
        SameOutside (fun a => ∃ b ∈ r.2, Acc.pa b ≤ a ∧ a < Acc.pa b + 32) s t) ∧
    (let c := getCtx s (gCtx s g)
     ∀ k, p.d = .other (.lg k) →
      Gives (.lgclr p) s (put { s with ctxs := mset s.ctxs (gCtx s g) { c with lg := mdel c.lg k.toNat } } gid (issued s g p true))) ∧
    (∀ t c, tensorOf s g p.b.opnd = some t → c = rdSn g (sNum p.a) →
      let x := entryAt s part t (coRow c) (coCol c)
      let key := entryKey part t (coRow c) (coCol c)
      (∀ e, x = .ok e ∨ (e = 0 ∧ ∃ a b, x = .miss a b) →
        let ws := (List.range 4).map (fun i => e / 2 ^ (64 * i))
        exec (.fget p) s = .next (put (acquireAt s (gPair g) 2) gid { issued s g p false with seen := true, pend := g.pend ++ later p.d ws }) ∧
        HomeSame s (acquireAt s (gPair g) 2)) ∧
      (∀ k ∈ [Instr.frefInc p, .frefDec p],
        ((∃ a b, x = .miss a b) → Answers k s gid g p true 3) ∧
        (∀ e, x = .ok e → enState e = 0 ∨ enState e = 5 → Answers k s gid g p true (2 + 2 ^ 16 * enRef e))) ∧
      (∀ e pa d, x = .ok e → enState e = 2 ∨ enState e = 3 → dirRec s part t = some d → entryPa s part d (coRow c) (coCol c) = .ok pa →
        let now := fun (i : Instr) (e' n : Nat) => ∃ m, WroteRec s m pa 32 e' ∧
          Ends i s { m with cat := mset s.cat key { getCat s key with record := e' } } gid g p true (2 ^ 16 * n)
        (enRef e = 65535 → Answers (.frefInc p) s gid g p true (1 + 2 ^ 16 * 65535)) ∧
        (enRef e < 65535 → now (.frefInc p) (setFld e 87 72 (enRef e + 1)) (enRef e + 1)) ∧
        (1 < enRef e → now (.frefDec p) (setFld e 87 72 (enRef e - 1)) (enRef e - 1)) ∧
        (enRef e ≤ 1 → now (.frefDec p) (setFld (setFld e 87 72 0) 47 45 5) 0))) ∧
    (∀ s1 r g1, g.reds = [] → ReadsRec s gid g (regAddr g p) 32 32 s1 r → mfind s1.groups gid = some g1 →
      let part := gPart s1 g
      let free := (List.range (2 ^ dirLogEff (getPart s1 part))).find? (fun i => (dirRec s1 part i).isNone)
      HomeSame s s1 ∧ (falcOk r = false → Ends (.falc p) s s1 gid g1 p true 2) ∧
      (falcOk r = true → free = none → Ends (.falc p) s s1 gid g1 p true 1) ∧
      (∀ i l, falcOk r = true → free = some i → ownerRange s1 (gCtx s1 g) (dtVa r) (32 * dtRows r * dtCols r) = (l, none) →
        ∃ m, Ends (.falc p) s m gid g1 p true (i * 2 ^ 32) ∧
          (∀ c ∈ m.cat, c.1 / 2 ^ 32 ≠ part * 2 ^ 32 + i) ∧ (∀ c ∈ s1.cat, c.1 / 2 ^ 32 ≠ part * 2 ^ 32 + i → c ∈ m.cat) ∧
          (∀ a, Outside (dirAddr s1 part i) 32 a → memByte m a = if (∃ x ∈ l, x.1 ≤ a ∧ a < x.1 + x.2) then 0 else memByte s1 a) ∧
          (dirAddr s1 part i % 32 = 0 → memRead m (dirAddr s1 part i) 32 = setFld (setFld r 105 105 1) 133 128 (gCtx s1 g % 64) % 2 ^ 256) ∧
          m = { s1 with mem := m.mem, veils := m.veils, tags := m.tags, poison := m.poison, ecc := m.ecc, eccDc := m.eccDc,
                         foundDc := m.foundDc, dc := m.dc, cat := m.cat }))

/-- R257, R258, R261, R262: fenc and fdec enter the queue of their engine behind what holds them back, or start at once: fenc
with a coded tile on its way into a block of the pool, or done with its status; fdec with the decoded tile on its way to
scratchpad. ffre applies one decrement to every Stored or Open entry of a Live tensor now, to those in Writing or Growing
after their transition, and answers 0; it answers 3 for a tensor that is not Live. fqry counts free and waiting blocks. -/
def Obligations.FolioWork : Prop :=
  ∀ s gid busy g p b, Issuer s gid busy g → elects g p.h = true →
    let part := gPart s g
    (Calm s g b → ∀ t c, tensorOf s g p.b.opnd = some t → c = rdSn g (sNum p.a) →
      let n := match dirRec s part t with | some r => tileBytes (dtFmt r) | none => 0
      let d := (dstS p.d).getD 64
      let held := fun (o : EOp) => (∃ x ∈ s.ops, x.1 < s.fresh ∧ holdsBack x.2 o = true)
      let free := fun (o : EOp) => (∀ x ∈ s.ops, x.1 < s.fresh → holdsBack x.2 o = false) ∧ loggedBefore s gid g.core s.fresh = false
      let ke := EK.enc c t (p.ext.toNat % 8) (p.f == 1) d
      let oe := opOf s gid g p false ke
      let od := opOf s gid g p false (.dec c t)
      let wait : List Pend := if d < 64 then [{ ws := [], ready := false, op := s.fresh, dst := [1000 + d] }] else []
      coOff c % 128 = 0 → coOff c + n ≤ b.size →
      (held oe → Gives (.fenc p) s (put (withOp s oe) gid { issued s g p true with tx := illegalTx g p, pend := g.pend ++ wait })) ∧
      (held od → Gives (.fdec p) s (put (withOp s od) gid { issued s g p false with tx := illegalTx g p })) ∧
      (free od → isAppend s part t = false → ∀ v f y, v = put (withOp s od) gid { g with tx := illegalTx g p } →
        (readFolio v s.fresh (gPair g) part t (coRow c) (coCol c) 2 0xA5).2 = .ok f →
        readTile (some (entOf f.key f.record)) f.bits (legendFor s (gCtx s g) f.bits) = .ok y →
        ∃ u, exec (.fdec p) s = .next u ∧ mfind u.groups gid = some { issued s g p false with tx := illegalTx g p } ∧
          mfind u.ops s.fresh = some { od with st := .publishing, staged := tileStage (enFmt f.record) (coOff c) y } ∧
          (∀ j, j ≠ gid → mfind u.groups j = mfind s.groups j) ∧ (∀ j, j ≠ s.fresh → mfind u.ops j = mfind s.ops j) ∧ CleanSame s u) ∧
      (free oe → ∀ r, dirRec s part t = some r →
        let going := fun (u : State) => exec (.fenc p) s = .next u ∧
          mfind u.groups gid = some { issued s g p true with tx := illegalTx g p, pend := g.pend ++ wait } ∧
          (∀ j, j ≠ gid → mfind u.groups j = mfind s.groups j) ∧ (∀ j, j ≠ s.fresh → mfind u.ops j = mfind s.ops j)
        (dtAppend r = false → dtRetiring r = false → ∀ img e a, entryAt s part t (coRow c) (coCol c) = .ok e →
          enState e ≠ 1 → enState e ≠ 4 → enState e ≠ 5 → legendOf s (gCtx s g) (p.ext.toNat % 8) = some img →
          spPoison b (coOff c) (tileBytes (dtFmt r)) = false →
          let x := spTile b (dtFmt r) (coOff c)
          let f := makeTile (dtFmt r) t (coRow c) (coCol c) (p.ext.toNat % 8) (p.f == 1).toNat (some img) x.1 x.2
          let key := entryKey part t (coRow c) (coCol c)
          poolTake (getPart s part).pool ((classFor f.len).getD 5) = some a →
          ∃ u, going u ∧ mfind u.ops s.fresh = some { oe with st := .publishing } ∧
            enState (getCat u key).record = 1 ∧ (getCat u key).from_ = enState e ∧
            (getCat u key).new = some (a.2, (classFor f.len).getD 5, f.len, f.tag, f.crc, f.segs) ∧ (getPart u part).pool = a.1) ∧
        (∀ e, entryAt s part t (coRow c) (coCol c) = .ok e → enState e = 1 ∨ enState e = 4 → dtAppend r = false →
          Gives (.fenc p) s (put (withOp s oe) gid { issued s g p true with tx := illegalTx g p, pend := g.pend ++ wait })))) ∧
    (∀ t, tensorOf s g p.b.opnd = some t →
      (dirRec s part t = none → Answers (.ffre p) s gid g p true 3) ∧
      (∀ r, dirRec s part t = some r → entriesBar s part t (fun _ c => enState c.record == 2 || enState c.record == 3) = none →
        ∃ u, exec (.ffre p) s = .next u ∧ mfind u.groups gid = some { issued s g p true with pend := g.pend ++ later p.d [0] } ∧
          (∀ j, j ≠ gid → mfind u.groups j = mfind s.groups j) ∧
          u = { s with mem := u.mem, veils := u.veils, tags := u.tags, poison := u.poison, ecc := u.ecc, eccDc := u.eccDc,
                       foundDc := u.foundDc, dc := u.dc, cat := u.cat,
                       groups := u.groups } ∧
          (∀ k, k / 2 ^ 32 ≠ part * 2 ^ 32 + t → getCat u k = getCat s k) ∧
          (sortedKeys s.cat = true → ∀ k c, mfind s.cat k = some c → k / 2 ^ 32 = part * 2 ^ 32 + t →
            getCat u k = if enState c.record = 2 ∨ enState c.record = 3 then { c with record := refDec c.record }
              else if enState c.record = 1 ∨ enState c.record = 4 then { c with decs := c.decs + 1 } else c))) ∧
    (valN g p.a ≤ 5 →
      let free := ((getPart s part).pool.filter (fun x => x.1 == valN g p.a)).length
      let wait := (s.limbo.filter (fun l => keyPart l.1 == part && l.2.2.1 == valN g p.a)).length +
        (s.cat.filter (fun x => keyPart x.1 == part && enState x.2.record == 5 && enClass x.2.record == valN g p.a)).length
      Answers (.fqry p) s gid g p false (free + 2 ^ 32 * wait))

/-! ### Matrix arrays (R285 to R316) -/

/-- R287, R294, R307 to R314: mma, mmag, mld, mclr and mint enter the queue of the pair's arrays with what they read at issue, and
the first operation on a tile gives it its mode; mrd, mrdm, tcls and mstk read a tile that no earlier operation works on, a reader that
has waited in the mode that the tile had at its place. -/
def Obligations.ArrayInstructions : Prop :=
  ∀ s gid busy g p b, Issuer s gid busy g → Calm s g b →
    let r := recOf g (sNum p.a)
    let da := descOf r 0
    let db := descOf r 1
    let t := dstAc p.d
    let mode := fun (k : EK) (int : Bool) => put { withOp s (opOf s gid g p false k) with
      blocks := mset s.blocks g.block { b with ac := mset b.ac t { mget {} b.ac t with int := int } } } gid
        { issued s g p true with tx := illegalTx g p }
    (elects g p.h = true → (s.ops.filter (fun x => x.2.kind.cls == 3 && x.2.pair == gPair g)).length < 16 →
      (∀ k gath opc sw idx,
        (k = Instr.mma p ∧ gath = false ∧ opc = 0xB0 ∧ idx = [] ∧ sw = (match p.b.opnd with | .s n => some (rdSn g n.toNat) | _ => none)) ∨
        (∃ n, k = Instr.mmag p ∧ gath = true ∧ opc = 0xB1 ∧ p.b.opnd = .v n ∧ sw = none ∧ idx = (List.range 128).map (fun i =>
          let x := (rdV g (n.toNat + i / 64) (i % 32)).toNat
          if i % 64 < 32 then x % 65536 else x / 65536)) →
        da.cols = db.rows → descBad r 0 opc gath = none → descBad r 1 opc false = none →
        ctlBad r opc gath sw.isSome (mget {} b.ac t).int = none → opndOut b da 0 (ctScale r 0) idx = none →
        opndOut b db 1 (ctScale r 1) [] = none → descUnbound (gRecord s g) da = none → descUnbound (gRecord s g) db = none →
        (sw = none → Gives k s (mode (.mm gath t r idx none) (intMode r))) ∧
        (∀ x id c, sw = some x → x < 2 ^ 35 → Bound s g (x / 2 ^ 32) false id c →
          Gives k s (mode (.mm gath t r idx (some (x % 2 ^ 32 + 2 ^ 32 * id))) (intMode r)))) ∧
      (descBad r 1 0xB5 false = none → opndOut b db 1 (ctScale r 1) [] = none → descUnbound (gRecord s g) db = none →
        Queues (.mld p) s s gid g p false (.mld r)) ∧
      Gives (.mclr p) s (mode (.mclr t (p.t == 2)) (p.t == 2)) ∧
      (∀ off : Nat, rdSn g (sNum p.b.opnd) < 2 ^ 32 → rdSn g (sNum p.a) < 2 ^ 32 → (off : Int) = (rdSn g (sNum p.a) : Int) + p.off →
        off % 32 = 0 → off + 256 ≤ b.size → spPoison b off 256 = false →
        Queues (.mint p) s s gid g p false (.mint t (spRead b off 256) (rdSn g (sNum p.b.opnd))))) ∧
    (let a := acNo p.a
     let at0 := mget {} b.ac a
     let tile := if (readPlace g a).isSome then { at0 with int := g.readInt } else at0
     tileBusy s g a = false →
      (∀ k masked, (k, masked) = (Instr.mrd p, false) ∨ (k, masked) = (Instr.mrdm p, true) → elects g p.h = true →
        let x := rdSn g (sNum p.b.opnd)
        let row := x % 256
        let col := x / 256
        x < 2 ^ 17 → row + p.f + 1 ≤ 128 → col + (if p.t = 0xA then 64 else 32) ≤ 256 →
        let ws : List Pend := match p.d with
          | .v false _ n => [{ ws := (lanesOf (guardLanes g p.h)).flatMap (fun i => (List.range (p.f + 1)).map (fun u =>
              RegW.v (n.toNat + u) i (BitVec.ofNat 32 (mrdVal tile p.t masked (row + u) col i)))) }]
          | _ => []
        Gives k s (put s gid { issued s g p false with reads := none, pend := g.pend ++ ws })) ∧
      (elects g p.h = true →
        Gives (.mstk p) s (put s gid { issued s g p false with reads := none, pend := g.pend ++ later p.d [mstkVal tile] })) ∧
      (elects g p.h = true →
        let x := rdSn g (sNum p.b.opnd)
        let w := x / 2 ^ 32
        let cls := fun (i : Nat) =>
          let l := (List.range 16).flatMap (fun d => (rng (x % 2 ^ 32) w).map (fun q => keyLive tile (16 * i + d) q))
          if l.all id then 2 else if l.any id then 1 else 0
        x < 2 ^ 41 → 0 < w → w ≤ 256 →
        let word := sumNat ((List.range 8).map (fun i => cls i * 4 ^ i)) +
          65536 * (if (List.range 8).all (fun i => cls i == 2) then 2 else if (List.range 8).all (fun i => cls i == 0) then 0 else 1)
        Gives (.tcls p) s (put s gid { issued s g p false with reads := none, pend := g.pend ++ later p.d [word] })))

/-! ### Scrolls (R317 to R351) -/

/-- R324, R325, R329, R337 to R339, R348: sres opens the next slots or answers FULL; scom makes filled slots Ready, moves the
committed length and shows it to its core's mirror; strm cuts the uncommitted end, starts a new epoch and rewrites the folios that
hold cut segments, whose entries are Open after it (R249, R329); sdel begins the end of a scroll, once every page that the deletion needs
can be reached (assumption log 116: the model's choice). What the caches hold of the slots comes home first (R319), and nothing else moves.
Each event finds the home of its scroll with no other event in progress (R326). -/
def Obligations.ScrollLengths : Prop :=
  (∀ s fs c a b, s.ecc = [] → s.eccDc = [] →
    let u := flushSlots s fs c a b
    (∀ x, ¬ DirtyAt s x → memByte u x = memByte s x) ∧
    u = { s with mem := u.mem, veils := u.veils, tags := u.tags, poison := u.poison, ecc := u.ecc, eccDc := u.eccDc,
                 foundDc := u.foundDc, stackCtl := u.stackCtl, l1 := u.l1, dc := u.dc }) ∧
  ∀ s gid busy g p id c, Issuer s gid busy g → elects g p.h = true → Bound s g (shNo p.a) true id c → homeBusy s (gPart s g) id 0 = false →
    let part := gPart s g
    let now := fun (s m : State) (c' : Scroll) => { m with scrolls := mset s.scrolls (scrKey part id) c' }
    (let n := valN g p.b.opnd
     n < 2 ^ 24 →
      (c.cap < c.res + n → Answers (.sres p) s gid g p true (1 + 2 ^ 8 * c.epoch + 2 ^ 32 * c.res)) ∧
      (c.res + n ≤ c.cap → ∀ fs, Slots s g c c.res (c.res + n) fs →
        let u := flushSlots s fs c c.res (c.res + n)
        ∃ m, WroteIn (fun a => InSlots fs c c.res n a ∨ ¬ Outside (recPa s g id) 64 a) u m ∧
          Ends (.sres p) s (now s m { c with res := c.res + n }) gid g p true (2 ^ 8 * c.epoch + 2 ^ 32 * c.res) ∧
          (Apart fs c c.res n (recPa s g id) 64 → ∀ k, c.res ≤ k → k < c.res + n →
            memRead m (slotPa fs c k) 8 = (2 ^ 32 + 2 ^ 40 * c.epoch) % 2 ^ 64))) ∧
    (let x := rdSn g (sNum p.b.opnd)
     let lo := x % 2 ^ 32
     let n := x / 2 ^ 32
     n < 2 ^ 16 → ∀ s1 g1, s1 = releaseWrites s gid g 2 → releaseDone s1 gid g 2 = true → mfind s1.groups gid = some g1 →
      let seen := fun (m : State) (com : Nat) => mirrorCl m (gPart s1 g) id g.core com
      (n = 0 → Ends (.scom p) s (seen s1 c.com) gid g1 p true (2 ^ 32 * c.com)) ∧
      (0 < n → c.res < lo + n → Ends (.scom p) s (seen s1 c.com) gid g1 p true (2 + 2 ^ 32 * c.com)) ∧
      (0 < n → lo + n ≤ c.res → ∀ fs, Slots s1 g c 0 c.res fs →
        let u := flushSlots s1 fs c 0 c.res
        let st := fun k => slState (memRead u (slotPa fs c k) 8)
        ((∃ k, lo ≤ k ∧ k < lo + n ∧ (k < c.com ∨ st k = 3)) → Ends (.scom p) s (seen u c.com) gid g1 p true (3 + 2 ^ 32 * c.com)) ∧
        ((∀ k, lo ≤ k → k < lo + n → c.com ≤ k ∧ st k ≠ 3) → (∃ k, lo ≤ k ∧ k < lo + n ∧ st k ≠ 2) →
          Ends (.scom p) s (seen u c.com) gid g1 p true (1 + 2 ^ 32 * c.com)) ∧
        ((∀ k, lo ≤ k → k < lo + n → c.com ≤ k ∧ st k = 2) →
          ∃ m com, c.com ≤ com ∧ (com = c.com ∨ com ≤ c.res) ∧ WroteIn (fun a => InSlots fs c lo n a ∨ ¬ Outside (recPa s1 g id) 64 a) u m ∧
            Ends (.scom p) s (seen { m with scrolls := mset s1.scrolls (scrKey (gPart s1 g) id) { c with com := com } } com) gid g1 p true
              (2 ^ 32 * com) ∧
            (Apart fs c 0 c.res (recPa s1 g id) 64 →
              (∀ k, lo ≤ k → k < lo + n → slState (memRead m (slotPa fs c k) 8) = 3) ∧
              (∀ k, c.com ≤ k → k < com → slState (memRead m (slotPa fs c k) 8) = 3) ∧
              (com < c.res → slState (memRead m (slotPa fs c com) 8) ≠ 3))))) ∧
    (let t := valN g p.b.opnd
     (2 ^ 24 ≤ t ∨ c.res ≤ t → Answers (.strm p) s gid g p true (2 ^ 8 * c.epoch + 2 ^ 32 * c.res)) ∧
     (t < 2 ^ 24 → t < c.res → ∀ fs, Slots s g c t c.res fs →
      let u := flushSlots s fs c t c.res
      let st := fun k => slState (memRead u (slotPa fs c k) 8)
      let ep := (c.epoch + 1) % 65536
      (t < c.com ∨ (∃ k, t ≤ k ∧ k < c.res ∧ st k = 3) → Ends (.strm p) s u gid g p true (1 + 2 ^ 8 * c.epoch + 2 ^ 32 * c.res)) ∧
      (c.com ≤ t → (∀ k, t ≤ k → k < c.res → st k ≠ 3 ∧ st k ≠ 2) →
        ∃ m, WroteIn (fun a => InSlots fs c t (c.res - t) a ∨ ¬ Outside (recPa s g id) 64 a) (releasePair u (gPair g) 2) m ∧
          Ends (.strm p) s (now s m { c with epoch := ep, res := t }) gid g p true (2 ^ 8 * ep + 2 ^ 32 * t) ∧
          (Apart fs c t (c.res - t) (recPa s g id) 64 →
            ∀ k, t ≤ k → k < c.res → slState (memRead m (slotPa fs c k) 8) = 0)) ∧
      (c.com ≤ t → (∀ k, t ≤ k → k < c.res → st k ≠ 3) →
        let keys := ((((rng t (c.res - t)).filter (fun k => st k == 2)).map (· / 64)).eraseDups).map (rdMap u fs part c)
        keysBar u keys = none → (∀ k ∈ keys, enState (getCat s k).record ≠ 1 ∧ enState (getCat s k).record ≠ 4) →
        let a := allocAll u part (keys.map (fun k => enClass (getCat s k).record)) []
        (a.2 = none → Ends (.strm p) s a.1 gid g p true (2 + 2 ^ 8 * c.epoch + 2 ^ 32 * c.res)) ∧
        (a.2 ≠ none → ∃ v, exec (.strm p) s = .next v ∧
          v.scrolls = mset s.scrolls (scrKey part id) { c with epoch := ep, res := t } ∧
          (keys.Nodup → ∀ k ∈ keys, (getCat s k).decs = 0 →
            enState (getCat v k).record = 3 ∧
            enGen (getCat v k).record = (enGen (getCat s k).record + 1) % 2 ^ 32) ∧
          (∀ k, k ∉ keys → getCat v k = getCat s k) ∧
          (Apart fs c t (c.res - t) (recPa s g id) 64 → ∀ k, t ≤ k → k < c.res → slState (memRead v (slotPa fs c k) 8) = 0) ∧
          mfind v.groups gid = some { issued s g p true with pend := g.pend ++ later p.d [2 ^ 8 * ep + 2 ^ 32 * t] })))) ∧
    (∀ fs, Slots s g c 0 c.res fs →
      let u := flushSlots s fs c 0 c.res
      keysBar u ((List.range ((c.res + 63) / 64)).map (rdMap u fs part c)) = none →
      ∃ m, WroteRec u m (recPa s g id) 64 (scrRec { c with st := 2 }) ∧ Ends (.sdel p) s (now s m { c with st := 2 }) gid g p true 0)

/-- R326, R330, R340 to R347: sfil queues one fill for the group or for each lane with the bytes it read from scratchpad, as many as
the channel of the Burin has room for; the rest enter when the group issues again (assumption log 32: the model's choice). sfrk shares
the folios of a committed prefix and copies the committed part of a last folio that is not full under the destination's name; sbnd
changes a handle of the block; snew begins a scroll over an empty append tensor.
R440: an instruction whose event set out for a scroll that is no longer Live changes nothing and answers 0xFF, srd.map 0; scom makes the
group's writes visible all the same. -/
def Obligations.ScrollWork : Prop :=
  ∀ s gid busy g p b, Issuer s gid busy g → elects g p.h = true → Calm s g b →
    let part := gPart s g
    (∀ id sb n,
      (g.fillIn = some (id, sb, n) ∨
       (g.fillIn = none ∧ n = 0 ∧ ∃ c, Bound s g (shNo p.a) true id c ∧ sb = c.slotBytes ∧
        ∀ x ∈ fillList g p, 32 * fld x.2 63 48 + sb ≤ b.size)) →
      let room := 16 - ((channelOf s 1 (gPair g) (gCtx s g)).filter (fun x => x.2.kind.isFill)).length
      let l := (fillList g p).drop n
      let fs := l.take room
      let tx := if fs = [] then g.tx else illegalTx g p
      (∀ x ∈ fs, spPoison b (32 * fld x.2 63 48) sb = false) →
      ∃ u, exec (.sfil p) s = .next u ∧ u = { s with ops := u.ops, groups := u.groups, fresh := s.fresh + fs.length } ∧ MemSame s u ∧
        (l.length ≤ room → mfind u.groups gid = some { issued s g p true with tx := tx, fillIn := none }) ∧
        (room < l.length → mfind u.groups gid = some { g with
          st := .stalled 9, tx := tx, fillIn := if room = 0 ∧ n = 0 then g.fillIn else some (id, sb, n + room) }) ∧
        (∀ j, j ≠ gid → mfind u.groups j = mfind s.groups j) ∧
        (∀ k, k < s.fresh → mfind u.ops k = mfind s.ops k) ∧
        (∀ i x, fs[i]? = some x → mfind u.ops (s.fresh + i) = some (opOf s gid g p false (.fill id (x.2 % 2 ^ 32) (fld x.2 47 32)
          ((List.range sb).map (fun k => spByte b (32 * fld x.2 63 48 + k))) (p.ext.toNat % 8) (p.f == 1) (shNo p.a))))) ∧
    (∀ id c, Bound s g (shNo p.a) false id c → homeBusy s part id 0 = false →
      let did := rdSn g (sNum p.b.opnd) % 2 ^ 32
      let n := rdSn g (sNum p.b.opnd) / 2 ^ 32
      (c.com < n → Answers (.sfrk p) s gid g p true (1 + 2 ^ 32 * n)) ∧
      (n ≤ c.com → liveScroll s part did = none → Answers (.sfrk p) s gid g p true (4 + 2 ^ 32 * n)) ∧
      (∀ d fs fd s1, n ≤ c.com → liveScroll s part did = some d → homeBusy s part did 0 = false → d.owner = gCtx s g % 64 → d.res = 0 →
        d.slotBytes = c.slotBytes → d.format = c.format → n ≤ d.cap → Slots s g c 0 n fs →
        let u1 := flushSlots s fs c 0 n
        Slots u1 g d 0 n fd →
        let u := flushSlots u1 fd d 0 n
        let keys := (List.range (n / 64)).map (rdMap u fs part c)
        let tail := rdMap u fs part c (n / 64)
        let dk := entryKey part d.tensor 0 (n / 64)
        let idle := fun (k : Nat) => enState (getCat s k).record ≠ 1 ∧ enState (getCat s k).record ≠ 4
        let ends := { d with res := n, com := n }
        let mirrors := (mirrorCl s part did g.core n).blocks
        keysBar u (keys ++ if n % 64 = 0 then [] else [tail, dk]) = none → (∀ k ∈ keys, idle k) → (n % 64 ≠ 0 → idle dk) →
        (shareAll (releasePair u (gPair g) 2) keys = none → Ends (.sfrk p) s u gid g p true (2 + 2 ^ 32 * n)) ∧
        (shareAll (releasePair u (gPair g) 2) keys = some s1 →
          (n % 64 = 0 →
            ∃ m, (∀ a, (∀ j, j < n / 64 → Outside (inFrames fd (mapAt d j)) 8 a) → ¬ InSlots fd d 0 n a →
                Outside ((getPart s part).scrBase + 64 * did) 64 a → memByte m a = memByte s1 a) ∧
              m = { s1 with mem := m.mem, veils := m.veils, tags := m.tags, poison := m.poison, ecc := m.ecc, eccDc := m.eccDc,
                            foundDc := m.foundDc, dc := m.dc } ∧
              Ends (.sfrk p) s { m with scrolls := mset s.scrolls (scrKey part did) ends, blocks := mirrors } gid g p true (2 ^ 32 * n)) ∧
          (n % 64 ≠ 0 → ∀ e, e = (getCat s1 tail).record →
            (poolTake (getPart s1 part).pool (enClass e) = none → Ends (.sfrk p) s (setInt u part 2) gid g p true (3 + 2 ^ 32 * n)) ∧
            (∀ pool pa, poolTake (getPart s1 part).pool (enClass e) = some (pool, pa) →
              let src := (getImage (allocBlock s1 part (enClass e)).1 (gPair g) (enSector e) (enLen e)).2.1
              let kept := clearSlots src (fun k => n % 64 ≤ k)
              let fo := appendFol (setFld (setFld (setFld kept 63 32 d.tensor) 79 64 0) 95 80 (n / 64))
              ∃ v, exec (.sfrk p) s = .next v ∧ v.scrolls = mset s.scrolls (scrKey part did) ends ∧ v.blocks = mirrors ∧
                mfind v.groups gid = some { issued s g p true with pend := g.pend ++ later p.d [2 ^ 32 * n] } ∧
                (∀ j, j ≠ gid → mfind v.groups j = mfind s.groups j) ∧
                (∀ k, k ≠ dk → getCat v k = getCat s1 k) ∧
                (let x := (getCat v dk).record
                 enState x = 3 ∧ enSector x = pa / 128 % 2 ^ 42 * 128 ∧ enClass x = enClass e ∧ enLen x = fo.len % 2 ^ 15 ∧ enRef x = 1 ∧
                 enTag x = fo.tag % 2 ^ 16 ∧ enCrc x = fo.crc % 2 ^ 16 ∧ enSegs x = fo.segs % 2 ^ 7 ∧
                 enGen x = (enGen (getCat s1 dk).record + 1) % 2 ^ 32)))))) ∧
    (∀ id, g.st = .sent id → liveScroll s part id = none →
      let x := rdSn g (sNum p.b.opnd)
      (∀ k ∈ [Instr.strm, .sfrk, .spin, .sdel], Answers (k p) s gid g p true 0xFF) ∧
      (valN g p.b.opnd < 2 ^ 24 → Answers (.sres p) s gid g p true 0xFF) ∧
      (x < 2 ^ 48 → ∀ s1 g1, s1 = releaseWrites s gid g 2 → releaseDone s1 gid g 2 = true → mfind s1.groups gid = some g1 →
        Ends (.scom p) s s1 gid g1 p true 0xFF) ∧
      (x / 2 ^ 48 = 0 ∨ 32 * p.ext.toNat + 4 * (x / 2 ^ 48) ≤ b.size → Answers (.stopk p) s gid g p false 0xFF) ∧
      (x / 2 ^ 32 ≤ 4096 → Answers (.srdDat p) s gid g p false 0xFF) ∧
      Answers (.srdMap p) s gid g p false 0) ∧
    (∀ h, p.d = .other (.sh h) →
      Gives (.sbnd p) s (put { s with blocks := mset s.blocks g.block { b with
        sh := match p.a with | .s n => mset b.sh h.toNat (rdSn g n.toNat % 2 ^ 32) | _ => mdel b.sh h.toNat,
        cl := mdel (mdel b.cl h.toNat) (8 + h.toNat) } } gid (issued s g p true))) ∧
    (∀ s1 r g1, ReadsRec s gid g (regAddr g p) 32 32 s1 r → mfind s1.groups gid = some g1 →
      let pt := gPart s1 g
      let ok := snewOk s1 pt (gCtx s1 g) r
      let free := (List.range (2 ^ scrLogEff (getPart s1 pt))).find? (fun i =>
        match mfind s1.scrolls (scrKey pt i) with | some c => c.st == 0 | none => true)
      HomeSame s s1 ∧ (ok = false → Ends (.snew p) s s1 gid g1 p true 2) ∧
      (ok = true → free = none → Ends (.snew p) s s1 gid g1 p true 1) ∧
      (∀ i d fs, ok = true → free = some i → dirRec s1 pt (r % 2 ^ 32) = some d →
        let c : Scroll := Scroll.mk (r % 2 ^ 32) 1 (gCtx s1 g % 64) 0 0 0 (fld r 111 64) (fld r 175 128) (64 * dtCols d) (dtSlot d) (dtFmt d)
        Slots s1 g c 0 c.cap fs →
        let u := flushSlots s1 fs c 0 c.cap
        ∃ m, Ends (.snew p) s { m with scrolls := mset s1.scrolls (scrKey pt i) c } gid g1 p true (i * 2 ^ 32) ∧
          m = { u with mem := m.mem, veils := m.veils, tags := m.tags, poison := m.poison, ecc := m.ecc, eccDc := m.eccDc,
                       foundDc := m.foundDc, dc := m.dc } ∧
          (recPa s1 g i % 64 = 0 → memRead m (recPa s1 g i) 64 = scrRec c % 2 ^ 512)))

/-- R322, R331 to R334, R343 to R346: spfx finds a prefix whose folio still stands, counting what it met, and removes an entry
whose scroll is gone; spin adds a folio to a set of the prefix index; stopk gives the highest scores; srd reads slots, a folio's
identity word and a length, with an acquire. The slots of a folio that no cache holds newer and that is not poisoned decode from the
bytes that memory holds at its entry's address. -/
def Obligations.ScrollReads : Prop :=
  (∀ s pair part ctx sb key e slots l, lookup s part (keyTensor key) (keyRow key) (keyCol key) = .ok e → enSector e + enLen e ≤ 2 ^ 49 →
    s.eccDc = [] →
    (∀ i, i < enLen e → ¬ DirtyAt s (enSector e + i) ∧ mfind s.ecc (granOf (enSector e + i)) = none ∧
      grPoison s (granOf (enSector e + i)) = false) →
    let bits := memRead s (enSector e) (enLen e)
    readSegs (entOf (entryKey part (keyTensor key) (keyRow key) (keyCol key)) e) sb bits (legendFor s ctx bits) slots = .ok l →
    (readSlots s pair part ctx sb key slots).2 = .ok l) ∧
  ∀ s gid busy g p b, Issuer s gid busy g → elects g p.h = true → Calm s g b →
    let part := gPart s g
    (let h := rdSn g (sNum p.a)
     let q := rdSn g (sNum p.a + 1)
     let pt := getPart s part
     let out := fun (m : State) (q' : Part) (xs : List Nat) =>
       exec (.spfx p) s = .next (put { m with parts := mset s.parts part q' } gid { issued s g p false with pend := g.pend ++ later p.d xs })
     (findWay s part h = none → out s { pt with lookups := (pt.lookups + 1) % 2 ^ 32 } [1, 0, 0]) ∧
     (∀ k w, findWay s part h = some (k, w) → fld w 255 192 ≠ q →
       out s { pt with lookups := (pt.lookups + 1) % 2 ^ 32, collisions := (pt.collisions + 1) % 2 ^ 32 } [1, 0, 0]) ∧
     (∀ k w, findWay s part h = some (k, w) → fld w 255 192 = q → homeBusy s part (fld w 95 64) 0 = false →
       liveScroll s part (fld w 95 64) = none →
       ∃ m, WroteRec s m (wayAddr s part h k) 32 (setFld w 112 112 0) ∧
         out m { pt with lookups := (pt.lookups + 1) % 2 ^ 32, stale := (pt.stale + 1) % 2 ^ 32 } [1, 0, 0]) ∧
     (∀ k w c fs, findWay s part h = some (k, w) → fld w 255 192 = q → homeBusy s part (fld w 95 64) 0 = false →
       liveScroll s part (fld w 95 64) = some c →
       let j := fld w 111 96
       64 * (j + 1) ≤ c.com → scrFrames s part c (64 * j) (64 * j + 1) = (fs, none) →
       let key := rdMap (flushSlots s fs c (64 * j) (64 * j + 1)) fs part c j
       keysBar s [key] = none → identity s key = fld w 191 128 → enState (getCat s key).record = 2 →
       out s { pt with lookups := (pt.lookups + 1) % 2 ^ 32, hits := (pt.hits + 1) % 2 ^ 32 } [2 ^ 32 * fld w 95 64, 64 * (j + 1), fld w 191 128])) ∧
    (∀ id c, Bound s g (shNo p.a) true id c → homeBusy s part id 0 = false →
      let j := p.ext.toNat
      let h := rdSn g (sNum p.b.opnd)
      let q := rdSn g (sNum p.b.opnd + 1)
      (c.com < 64 * (j + 1) → Answers (.spin p) s gid g p true 2) ∧
      (∀ fs, 64 * (j + 1) ≤ c.com → Slots s g c (64 * (j - 1)) (64 * (j + 1)) fs →
        let u := flushSlots s fs c (64 * (j - 1)) (64 * (j + 1))
        keysBar u ((rng (j - 1) (j + 1 - (j - 1))).map (rdMap u fs part c)) = none →
        let idw := fun i => identity u (rdMap u fs part c i)
        let prev := if j = 0 then 0 else idw (j - 1)
        (q ≠ prev → Ends (.spin p) s u gid g p true 3) ∧
        (q = prev → findWay u part h ≠ none → Ends (.spin p) s u gid g p true 1) ∧
        (q = prev → findWay u part h = none →
          let k := ((List.range 16).find? (fun k => !bitAt (rdWay u part h k) 112)).getD (h / 2 ^ 60)
          ∃ m, WroteRec u m (wayAddr s part h k) 32 (mkRec [(63, 0, h), (95, 64, id), (111, 96, j), (112, 112, 1), (191, 128, idw j), (255, 192, q)]) ∧
            Ends (.spin p) s m gid g p true 0))) ∧
    (∀ id c, Bound s g (shNo p.a) false id c → homeBusy s part id 0 = false →
      let acq := fun (k : Instr) (u : State) (x : Nat) => HomeSame u (acquireAt u (gPair g) 2) ∧
        exec k s = .next (put (acquireAt u (gPair g) 2) gid { issued s g p false with seen := true, pend := g.pend ++ later p.d [x] })
      (∀ fs, let j := valN g p.b.opnd
        64 * j < c.com → Slots s g c (64 * j) (64 * j + 1) fs →
        let u := flushSlots s fs c (64 * j) (64 * j + 1)
        keysBar u [rdMap u fs part c j] = none → acq (.srdMap p) u (identity s (rdMap u fs part c j))) ∧
      (∀ x, mfind b.cl (8 * (g.core % 2) + shNo p.a) = some x → acq (.srdLen p) s x) ∧
      (let x := rdSn g (sNum p.b.opnd)
       let f := x % 2 ^ 32
       let n := x / 2 ^ 32
       let off := 32 * p.ext.toNat
       n ≤ 4096 → (n = 0 ∨ off + n * c.slotBytes ≤ b.size) → f + n ≤ c.com → ∀ fs u vs, Slots s g c f (f + n) fs →
        readAllSlots (flushSlots s fs c f (f + n)) (gPair g) part (gCtx s g) c fs (if n = 0 then [] else rng (f / 64) ((f + n - 1) / 64 + 1 - f / 64)) f (f + n) =
          (u, .ok vs) → NoBcWait u g.block →
        let l := vs.flatMap (toBytes c.slotBytes)
        ∃ t b1, acq (.srdDat p) t 0 ∧ t = { u with blocks := t.blocks } ∧ mfind t.blocks g.block = some b1 ∧
          (∀ o, spByte b1 o = if off ≤ o ∧ o < off + l.length then l.getD (o - off) 0 else spByte b o) ∧
          ∀ j, j ≠ g.block → mfind t.blocks j = mfind s.blocks j) ∧
      (let x := rdSn g (sNum p.b.opnd)
       let lo := x % 2 ^ 32
       let n := fld x 47 32
       let k := x / 2 ^ 48
       let off := 32 * p.ext.toNat
       k = 0 ∨ off + 4 * k ≤ b.size →
        (n = 0 ∨ k = 0 ∨ n < k ∨ c.res < lo + n → Answers (.stopk p) s gid g p false 2) ∧
        (0 < k → k ≤ n → lo + n ≤ c.res → ∀ fs, Slots s g c lo (lo + n) fs → NoBcWait s g.block →
          let u := flushSlots s fs c lo (lo + n)
          ∃ v, ∃ l : List (Nat × Nat), exec (.stopk p) s = .next v ∧ mfind v.groups gid = some { issued s g p false with pend := g.pend ++ later p.d [0] } ∧
            v = { u with blocks := v.blocks, groups := v.groups } ∧
            mfind v.blocks g.block = some (spClear (spPuts b off ((l.take k).flatMap (fun y => toBytes 4 y.1))) [(off, 4 * k)]) ∧
            (l.map (·.1)).Perm (rng lo n) ∧ (∀ y ∈ l, y.2 = memRead u (slotPa fs c y.1) 8 % 2 ^ 32) ∧
            l.Pairwise (fun x y => scoreBefore y.2 x.2 = false ∧ (scoreBefore x.2 y.2 = false → x.1 < y.1)))))

/-! ### Chains (R352 to R372) -/

/-- R353 to R355, R362, R366 to R370: bindings, bond registers and boundary limits of a block, and the runs that crun and cstp
queue with a snapshot of them. -/
def Obligations.ChainInstructions : Prop :=
  ∀ s gid busy g p b, Issuer s gid busy g → elects g p.h = true → Calm s g b →
    let blk := fun (b' : Block) => { s with blocks := mset s.blocks g.block b' }
    (∀ h, p.a = .imm h → Gives (.cbnd p) s (put (blk { b with
      ch := match p.b.opnd with | .s n => mset b.ch h.toNat (rdSn g n.toNat % 2 ^ 32) | _ => mdel b.ch h.toNat }) gid (issued s g p true))) ∧
    (∀ k, p.d = .other (.bd k) → bdOk k.toNat (rdSn g (sNum p.a)) = true →
      ∃ b', Gives (.cmodSet p) s (put (blk b') gid (issued s g p false)) ∧ b' = { b with bd := b'.bd } ∧
        ∀ i, i < 16 → bdOf b' i = if i = k.toNat then rdS g (sNum p.a) else bdOf b i) ∧
    (∀ k, p.a = .bd k → Answers (.cmodGet p) s gid g p false (bdOf b k.toNat).toNat) ∧
    (limOk (rdSn g (sNum p.a)) = true → Gives (.cblim p) s (put (blk { b with blim := rdS g (sNum p.a) }) gid (issued s g p true))) ∧
    (∀ k single, (k, single) = (Instr.crun p, false) ∨ (k, single) = (Instr.cstp p, true) →
      (channelOf s 4 (gPair g) (gCtx s g)).length < 16 →
      let w := rdSn g (sNum p.b.opnd)
      ∀ (off id : Nat), (off : Int) = (rdSn g (sNum p.a) : Int) + p.off → rdSn g (sNum p.a) < 2 ^ 32 → off % 32 = 0 →
      w < 2 ^ 24 → w % 2 ^ 16 ≠ 0 → (single = true ↔ fld w 19 16 = 0) → w / 2 ^ 20 ≤ 1 →
      off + 32 * (if single then 1 else fld w 19 16) ≤ b.size → limBase b.blim + 2 * limSize b.blim ≤ b.size → mfind b.ch p.chain = some id →
      Queues k s s gid g p true (.chain single off w (if single then p.f else 0) p.chain id ((List.range 16).map (bdOf b)) b.blim))

/-! ### Queues (R85 to R93) -/

/-- R86, R88 to R91: a command of a running queue takes its effect and the read index moves over its words; a loop remembers its
start and goes back while its count lasts; a wait and a serial launch leave the queue waiting; an operand that is wrong fails
the queue. That the read index moves by the exact distance, and waits beyond Prod, for every count up to 2^32 is the model's choice
(assumption log 44), and so is what happens to a record that cannot be read (log 91). -/
def Obligations.QueueCommands : Prop :=
  ∀ s h qk, Runs s h qk →
    let q := getQ s qk
    let done := fun (i : Instr) (m : State) (q' : Queue) (d : Nat) => ∃ t, exec i s = .next t ∧ NextCmd m t qk q' d
    let waitsIn := fun (m : State) (i : Instr) (w : QWait) =>
      ∃ t, exec i s = .next t ∧ t.parts = m.parts ∧ QueueNow m t qk { q with st := .waiting, wait := w }
    let waits := waitsIn s
    let fails := fun (i : Instr) (st : Nat) => ∃ t, exec i s = .next t ∧ Failed s t qk st
    done .cmdNop s q 1 ∧
    (∀ n : W32, done (.cmdSkip n) s q (1 + n.toNat)) ∧
    (∀ (l : BitVec 2) (c : W32),
      (c = 0 ∨ (∃ x ∈ q.loops, x.1 = l.toNat) → fails (.cmdLoop l c) 4) ∧
      (c ≠ 0 → (∀ x ∈ q.loops, x.1 ≠ l.toNat) →
        done (.cmdLoop l c) s { q with loops := q.loops ++ [(l.toNat, c.toNat, (q.rd + 1) % 2 ^ 32)] } 1)) ∧
    (∀ l : BitVec 2,
      ((∀ x ∈ q.loops, x.1 ≠ l.toNat) → fails (.cmdEndl l) 4) ∧
      (∀ n c start, q.loops.find? (fun x => x.1 == l.toNat) = some (n, c, start) →
        (c ≤ 1 → done (.cmdEndl l) s { q with loops := q.loops.filter (fun x => x.1 != l.toNat) } 1) ∧
        (1 < c → ∃ t, exec (.cmdEndl l) s = .next t ∧ t.parts = s.parts ∧ QueueNow s t qk { q with
          loops := q.loops.map (fun x => if x.1 = l.toNat then (x.1, c - 1, start) else x), rd := start,
          st := if start = q.prod then .idle else .ready }))) ∧
    (∀ (f : BitVec 3) (n : W32) (a v : W64) pa, hartTranslate s (qCtx s qk) a.toNat 0 = .ok pa → windowFull s (qk / 64) 2 [pa] = false →
      let m := hartRead s qk pa
      (isFar s pa = false → m = s) ∧
      m = { s with parts := m.parts, flowsT := m.flowsT, ports := m.ports, rr := m.rr } ∧
      (cmpQ f.toNat (memRead s pa 8) v.toNat = true → done (.cmdCond f n a v) m q 3 ∧ done (.cmdWait f n a v) m q 3) ∧
      (cmpQ f.toNat (memRead s pa 8) v.toNat = false → done (.cmdCond f n a v) m q (3 + n.toNat) ∧
        waitsIn m (.cmdWait f n a v) (.sem f.toNat a.toNat v.toNat (if n = 0 then 0 else s.time + 1000 * n.toNat)))) ∧
    (∀ m v : Nat, (cmpQ 0 m v = true ↔ m = v) ∧ (cmpQ 1 m v = true ↔ m ≠ v) ∧ (cmpQ 2 m v = true ↔ m < v) ∧ (cmpQ 3 m v = true ↔ v ≤ m) ∧
      (cmpQ 4 m v = true ↔ toSigned 64 m < toSigned 64 v) ∧ (cmpQ 5 m v = true ↔ toSigned 64 v ≤ toSigned 64 m) ∧
      (cmpQ 6 m v = true ↔ m &&& v ≠ 0) ∧ (cmpQ 7 m v = true ↔ m &&& v = 0)) ∧
    (∀ (f : BitVec 2) (a v : W64) pa, hartTranslate s (qCtx s qk) a.toNat 3 = .ok pa →
      windowFull s (qk / 64) 2 [pa] = false →
      ∃ m, HartWrote s m pa (match f.toNat with | 0 => v.toNat | 1 => memRead s pa 8 + v.toNat | _ => max (memRead s pa 8) v.toNat) ∧
        done (.cmdSignal f a v) m q 3) ∧
    (q.launches = [] → done .cmdWaitk s q 1) ∧ (q.launches ≠ [] → waits .cmdWaitk (.kernels true)) ∧
    (∀ (serial : Bool) (rec_ grid : W64),
      (serial = true → q.launches ≠ [] → waits (.cmdLaunch serial rec_) (.kernels false) ∧ waits (.cmdLaunchi serial rec_ grid) (.kernels false)) ∧
      (serial = false ∨ q.launches = [] →
        (∀ m, offer s (qCtx s qk) rec_.toNat none (some qk) = (m, .ok) → done (.cmdLaunch serial rec_) m (getQ m qk) 2) ∧
        (∀ st, offer s (qCtx s qk) rec_.toNat none (some qk) = (s, .fail st) → fails (.cmdLaunch serial rec_) st) ∧
        (rec_.toNat % 64 ≠ 0 ∨ grid.toNat % 16 ≠ 0 → fails (.cmdLaunchi serial rec_ grid) 3) ∧
        (∀ m pa x, rec_.toNat % 64 = 0 → grid.toNat % 16 = 0 → gridRead s (qCtx s qk) grid.toNat = (.ok pa, x) →
          offer s (qCtx s qk) rec_.toNat (some x) (some qk) = (m, .ok) → done (.cmdLaunchi serial rec_ grid) m (getQ m qk) 3)))

/-- R63, R64, R89, R92: the context commands of a queue whose context is the partition manager: each answers 1 in a state that
does not allow it; Create makes a Free context Idle, Preempt asks a Running one to leave, Resume makes a Saved one Running,
Destroy ends any; without the right the queue fails with 1. That the address of the answer is translated when the command runs
(assumption log 43), and that a missing right is found before it (log 86), are the model's choices. -/
def Obligations.ContextCommands : Prop :=
  ∀ s h qk (c : BitVec 6) (a : W64), Runs s h qk → (getQ s qk).st = .running →
    let key := 64 * (qk / 64) + c.toNat
    let x := getCtx s key
    let plain := fun (pa : Nat) => reachable s pa = true ∧ pa % 128 ≤ 120 ∧ ∀ a, ¬ Outside pa 8 a → PlainAt s a
    let done := fun (i : Instr) (m : State) => ∃ t, exec i s = .next t ∧ NextCmd m t qk (getQ s qk) 2
    let near := fun (m : State) (pa : Nat) (x' : Ctx) =>
      (∀ b, Outside (ctxDescA s key) 64 b → Outside pa 8 b → memByte m b = memByte s b) ∧
      HartFlows s m pa ∧
      m = { s with ctxs := mset s.ctxs key x', blocks := m.blocks, mem := m.mem, veils := m.veils, tags := m.tags, poison := m.poison, ecc := m.ecc,
                   eccDc := m.eccDc, foundDc := m.foundDc, dc := m.dc, parts := m.parts, flowsT := m.flowsT, ports := m.ports, rr := m.rr }
    (holdsRight s (qCtx s qk) 1 = false → ∀ k ∈ [Instr.cmdCtxCreate c a, .cmdCtxPreempt c a, .cmdCtxResume c a, .cmdCtxDestroy c a],
      ∃ t, exec k s = .next t ∧ Failed s t qk 1) ∧
    (∀ pa, holdsRight s (qCtx s qk) 1 = true → hartTranslate s (qCtx s qk) a.toNat 1 = .ok pa →
      windowFull s (qk / 64) 2 [pa] = false →
      (∀ k ok, (k, ok) ∈ [(Instr.cmdCtxCreate c a, decide (x.st = .free)), (.cmdCtxPreempt c a, decide (x.st = .running)),
          (.cmdCtxResume c a, decide (x.st = .saved)), (.cmdCtxDestroy c a, decide (x.st ≠ .free ∧ x.st ≠ .destroying))] →
        ok = false → ∃ m, HartWrote s m pa 1 ∧ done k m) ∧
      (x.st = .free → ∃ m, near m pa { x with st := .idle, faulted := 0, frozen := 0, seq := 0, lg := [], preq := false, deadline := 0, answer := [] } ∧
        m.blocks = s.blocks ∧ (plain pa → memRead m pa 8 = 0) ∧ done (.cmdCtxCreate c a) m) ∧
      (x.st = .running → 1024 * fld (ctxDesc s key) 223 192 < saveNeed s key → ∃ m, HartWrote s m pa 2 ∧ done (.cmdCtxPreempt c a) m) ∧
      (x.st = .running → saveNeed s key ≤ 1024 * fld (ctxDesc s key) 223 192 →
        ∃ m, near m pa { x with st := .draining, preq := true, deadline := max 1024 (fld (ctxDesc s key) 63 32), answer := x.answer ++ [(1, pa)] } ∧
          m.blocks = s.blocks ∧ done (.cmdCtxPreempt c a) m) ∧
      (x.st = .saved → ∃ m, near m pa { x with st := .running, preq := false } ∧ (plain pa → memRead m pa 8 = 0) ∧
        (sortedKeys s.blocks = true → ∀ b, mfind m.blocks b = (mfind s.blocks b).map (fun k =>
          if k.saved ∧ k.done = false ∧ ((mfind s.kernels k.kernel).map (·.ctx) = some key) then { k with reloading := true } else k)) ∧
        done (.cmdCtxResume c a) m) ∧
      (x.st ≠ .free → x.st ≠ .destroying →
        ∃ t, exec (.cmdCtxDestroy c a) s = .next t ∧ (getCtx t key).st = .destroying ∧ (getCtx t key).frozen = 0 ∧ (getCtx t key).faulted = 0 ∧
          (getCtx t key).preq = false ∧ (3, pa) ∈ (getCtx t key).answer ∧
          (sortedKeys s.kernels = true → ∀ k ∈ t.kernels, k.2.ctx = key → k.2.st = .done ∨ (k.2.st = .faulting ∧ k.2.status = 2)) ∧ (∀ o ∈ t.ops, o.2.ctx ≠ key)))

/-- R85 to R88: enabling a queue takes its context and clears its indices; disabling frees its hart; a written Prod wakes an
Idle queue; a hart takes the Ready queue of the highest priority, round robin among equals; a wait that is met makes its queue
Ready and one that expires fails it with 6. A wait for a target is met when Prod has reached it, a wait for words when the command's are
there, a wait for a semaphore when the comparison holds of the value in memory, a wait for kernels when none of the queue's is left; that
a semaphore which cannot be read keeps the queue waiting is the model's choice (assumption log 88). -/
def Obligations.QueueSteps : Prop :=
  (∀ s qk, let q := getQ s qk
    let d := queueDesc s qk
    (q.st = .disabled → ∃ t, exec (.queueEnable qk) s = .next t ∧ (∀ j, j ≠ qk → getQ t j = getQ s j) ∧ HomeOutside (queueA s qk) 64 s t ∧
      t = { s with queues := t.queues, mem := t.mem, veils := t.veils } ∧
      getQ t qk = { st := if fld d 127 96 = 0 then .idle else .ready, prod := fld d 127 96, ctx := fld d 85 80, errAddr := fld d 255 192,
                    launches := q.launches }) ∧
    (∃ t, exec (.queueDisable qk) s = .next t ∧ t.parts = s.parts ∧ QueueNow s t qk { q with st := .disabled, wait := .none }) ∧
    (∀ x : W32, q.st ≠ .disabled → q.st ≠ .failed →
      ∃ t, exec (.queueProdWrite qk x) s = .next t ∧ (∀ j, j ≠ qk → getQ t j = getQ s j) ∧ HomeOutside (queueA s qk) 64 s t ∧
        t = { s with queues := t.queues, mem := t.mem, veils := t.veils } ∧
        getQ t qk = { q with prod := x.toNat, st := if q.st = .idle ∧ q.rd ≠ x.toNat then .ready else q.st, cons := (getQ t qk).cons }) ∧
    (refreshQ s qk = s → q.st = .waiting →
      (∀ n, qMet s qk = some n → ∃ t, exec (.queueWaitMet qk) s = .next t ∧ HomeOutside (queueA s qk) 64 s t ∧
        (∀ j, j ≠ qk → getQ t j = getQ s j) ∧ t = { s with queues := t.queues, mem := t.mem, veils := t.veils } ∧
        (let to_ := (q.rd + n) % 2 ^ 32
         let q' : Queue := { q with rd := to_, wait := .none, st := .ready }
         getQ t qk = { q' with cons := consOf q' })) ∧
      (qMet s qk = none → exec (.queueWaitMet qk) s = .next s)) ∧
    (∀ f a v limit, q.st = .waiting → q.wait = .sem f a v limit →
      (limit ≠ 0 ∧ limit ≤ s.time → ∃ t, exec (.queueWaitTimeout qk) s = .next t ∧ Failed s t qk 6) ∧
      (limit = 0 ∨ s.time < limit → exec (.queueWaitTimeout qk) s = .next s))) ∧
  (∀ s qk, let q := getQ s qk
    let room := (q.prod + 2 ^ 32 - q.rd) % 2 ^ 32
    (q.wait = .none → qMet s qk = none) ∧
    (∀ t, q.wait = .target t → qMet s qk = if (t + 2 ^ 32 - q.rd) % 2 ^ 32 ≤ room then some ((t + 2 ^ 32 - q.rd) % 2 ^ 32) else none) ∧
    (q.wait = .words → ∀ pa, hartTranslate s (qCtx s qk) (wordVa (queueDesc s qk) q.rd) 0 = .ok pa →
      qMet s qk = if cmdWords (memRead s pa 8 / 2 ^ 56 % 256) ≤ room then some 0 else none) ∧
    (∀ f a v limit, q.wait = .sem f a v limit →
      (∀ pa, hartTranslate s (qCtx s qk) a 0 = .ok pa → qMet s qk = if cmpQ f (memRead s pa 8) v = true then some 3 else none) ∧
      ((∀ pa, hartTranslate s (qCtx s qk) a 0 ≠ .ok pa) → qMet s qk = none)) ∧
    (∀ ends, q.wait = .kernels ends → qMet s qk = if q.launches = [] then some ends.toNat else none)) ∧
  (∀ s hart, (getHart s hart).frz = none → (getHart s hart).queue = none → (∀ n, n < 64 → refreshQ s (64 * (hart / 2) + n) = s) →
    (pickQueue (readyQueues s hart) (getHart s hart).last = none → exec (.hartSelectQueue hart) s = .next s) ∧
    (∀ n, pickQueue (readyQueues s hart) (getHart s hart).last = some n →
      let qk := 64 * (hart / 2) + n
      ∃ t, exec (.hartSelectQueue hart) s = .next t ∧ getHart t hart = { getHart s hart with queue := some qk, last := n } ∧
        getQ t qk = { getQ s qk with st := .running, cons := consOf (getQ s qk) } ∧ (∀ j, j ≠ qk → getQ t j = getQ s j) ∧
        (∀ j, j ≠ hart → getHart t j = getHart s j) ∧ HomeOutside (queueA s qk) 64 s t ∧
        t = { s with queues := t.queues, harts := t.harts, mem := t.mem, veils := t.veils })) ∧
  (∀ l last n, pickQueue l last = some n → ∃ pr, (n, pr) ∈ l ∧
    ∀ x ∈ l, x.2 ≤ pr ∧ (x.2 = pr → (n + 63 - last) % 64 ≤ (x.1 + 63 - last) % 64))

/-! ### Guards (R45, R79, R109) -/

/-- R45, R79, R109: an instruction that acts once for the group, and whose guard holds in no lane of E (for one that elects a lane:
in no lane that is not a helper), does nothing but go on at the next instruction, with its region closed as if it had acted. -/
def Obligations.GuardOff : Prop :=
  ∀ s gid busy g p, Issuer s gid busy g →
    (actsOnce g p.h = false →
      (∀ k ∈ [Instr.trap, .brk, .yield, .wrsr, .wrsrFrzcons, .mark, .launch, .frelRel, .frelDst, .frelRes],
        Gives (k p) s (put s gid (issued s g p true))) ∧
      (∀ k ∈ [Instr.rdsr, .rdsrChunk, .rdsrFrzprod, .ptok, .ptokRel, .ttok, .rdctr, .rdctrSel],
        Gives (k p) s (put s gid (issued s g p false)))) ∧
    (elects g p.h = false →
      (∀ k ∈ [Instr.xcpy, .xqnt, .xfil, .xgat, .xrowCpy, .xrowIni, .xsta, .lgld, .lgst, .lgclr, .fenc, .frefInc, .frefDec, .falc, .ffre,
          .mma, .mmag, .mld, .mclr, .mint, .sres, .scom, .strm, .sfrk, .sfil, .sbnd, .snew, .sdel, .spin, .cbnd, .crun, .cstp, .cblim],
        Gives (k p) s (put s gid (issued s g p true))) ∧
      (∀ k ∈ [Instr.fget, .fdec, .fqry, .tcls, .mstk, .spfx, .stopk, .srdDat, .srdMap, .srdLen, .cmodSet, .cmodGet, .mrd, .mrdm],
        Gives (k p) s (put s gid (issued s g p false))))

/-! ### Steps of the engines (R248 to R250, R258, R272 to R276, R326, R327, R441) -/

/-- R273: a command of the Pantograph starts at the head of its channel, reads, publishes, and retires; one that meets a page that
is not present, or that drains, starts again later. -/
def Obligations.TransferSteps : Prop :=
  (∀ s id, mfind s.ops id = none → ∀ k ∈ [Instr.xferChannelHead id, .xferReadDone id, .xferAbandon id, .xferRetire id, .xferParkedTick id],
    Still k s) ∧
  (∀ s id o, mfind s.ops id = some o → o.kind.cls = 0 →
    (¬ (o.st = .queued ∧ opBlocked s id o = false) → Still (.xferChannelHead id) s) ∧
    (o.st = .queued → opBlocked s id o = false →
      let m := if o.order = 1 ∨ o.order = 3 then acquireAt s o.pair o.scope else s
      HomeSame s m ∧
      (o.kind.reads = true → exec (.xferChannelHead id) s = .next (opSet m id { o with st := .reading })) ∧
      (o.kind.reads = false → ∀ u bs n, xRead m id o = (u, .ok bs [] n) →
        exec (.xferChannelHead id) s =
          .next (opSet (unregister u id) id { o with st := .publishing, staged := bs, folios := [], foot := n, units := rowUnits u o }))) ∧
    (o.st ≠ .reading → Still (.xferReadDone id) s ∧ Still (.xferAbandon id) s) ∧
    (o.st = .reading → ∀ r, r = xRead s id o →
      (∀ bs fs n, r.2 = .ok bs fs n → Still (.xferAbandon id) s ∧
        exec (.xferReadDone id) s =
          .next (opSet (unregister r.1 id) id { o with st := .publishing, staged := bs, folios := fs, foot := n, units := rowUnits r.1 o })) ∧
      (r.2 = .wait → Still (.xferAbandon id) s ∧
        exec (.xferReadDone id) s = .next (opSet (unregister r.1 id) id { o with st := .retrying })) ∧
      (r.2 = .np → Still (.xferAbandon id) s ∧
        exec (.xferReadDone id) s = .next (opSet (unregister r.1 id) id { o with st := .parked })) ∧
      (∀ c l d, r.2 = .fault c l d → Still (.xferReadDone id) s ∧ ∃ t, exec (.xferAbandon id) s = .next t ∧ Abandoned r.1 t id o c l d) ∧
      (∀ k va, r.2 = .freeze k va → Still (.xferReadDone id) s ∧ ∃ t, exec (.xferAbandon id) s = .next t ∧ Frosted r.1 t id o)) ∧
    (o.st = .parked ∨ o.st = .retrying →
      exec (.xferParkedTick id) s = .next (match (xRead s id o).2 with
        | .wait => s
        | .np => opSet s id { o with st := .parked }
        | _ => opSet s id { o with st := if o.kind.reads then .reading else .queued })) ∧
    (o.st ≠ .parked → o.st ≠ .retrying → Still (.xferParkedTick id) s) ∧
    (o.st ≠ .publishing → o.st ≠ .starved → o.st ≠ .done → Still (.xferRetire id) s) ∧
    (o.st = .publishing ∨ o.st = .starved → o.order < 2 → xferBusy s o = true → Still (.xferRetire id) s) ∧
    (∀ b, o.st = .publishing → o.order < 2 → xferBusy s o = false → (fitOp s o).2 = ([], []) → o.folios = [] → (∀ d a n, o.kind ≠ .rowCpy d a n) → (∀ d a n, o.kind ≠ .rowIni d a n) →
      mfind s.blocks o.block = some b → (o.staged.map (fun x => (x.spad, x.addr))).Nodup →
      (∀ x ∈ o.staged, x.spad = false → reachable s x.addr = true ∧ PlainAt s x.addr) →
      ∃ t b', exec (.xferRetire id) s = .next t ∧ mfind t.ops id = none ∧ Laid b b' o.staged ∧
        mfind t.blocks o.block = some (match opCount o.kind with
          | some c => bcWrite b' c (bcApply 2 o.foot (bcRead b' c)) | none => b') ∧
        (∀ x ∈ o.staged, x.spad = false → dieByte t (pairDie o.pair) x.addr = x.val) ∧
        (∀ a, (∀ x ∈ o.staged, ¬ (x.spad = false ∧ x.addr = a)) → memByte t a = memByte s a)) ∧
    (o.st = .publishing → o.order < 2 → xferBusy s o = false → (fitOp s o).2 = ([], []) → o.folios = [] →
      (∀ d pat n, o.kind = .rowIni d pat n → pat < 2 ^ 32 →
        (∀ u ∈ o.units, u.2 = none ∧ u.1 % 1024 = 0 ∧ reachable s u.1 = true ∧ ∀ i, i < 1024 → PlainAt s (u.1 + i)) →
        ∃ t, exec (.xferRetire id) s = .next t ∧ mfind t.ops id = none ∧
          (∀ u ∈ o.units, ∀ i, i < 1024 → memByte t (u.1 + i) = (toBytes 4 pat).getD (i % 4) 0) ∧
          (∀ a, (∀ u ∈ o.units, Outside u.1 1024 a) → memByte t a = memByte s a)) ∧
      (∀ d a n, o.kind = .rowCpy d a n → (o.units.map (·.1)).Nodup →
        (∀ u ∈ o.units, u.1 % 1024 = 0 ∧ reachable s u.1 = true ∧ (∀ i, i < 1024 → PlainAt s (u.1 + i)) ∧ ∃ b, u.2 = some b ∧ b % 1024 = 0 ∧ b < 2 ^ 49 ∧
          (∀ i, i < 1024 → ¬ DirtyAt s (b + i)) ∧ ∀ w ∈ o.units, w.1 ≠ b) →
        ∃ t, exec (.xferRetire id) s = .next t ∧ mfind t.ops id = none ∧
          (∀ u ∈ o.units, ∀ b, u.2 = some b → ∀ i, i < 1024 → memByte t (u.1 + i) = memByte s (b + i)) ∧
          (∀ a, (∀ u ∈ o.units, Outside u.1 1024 a) → memByte t a = memByte s a))) ∧
    (o.st = .publishing ∨ o.st = .starved → o.order < 2 → xferBusy s o = false → (fitOp s o).2 = ([], []) →
      (∀ d a n, o.kind ≠ .rowCpy d a n) → (∀ d a n, o.kind ≠ .rowIni d a n) →
      ∀ u l x, installAll (publish s (fitOp s o).1) id o.folios = (u, l, x) →
      (x = .done → ∃ t, exec (.xferRetire id) s = .next t ∧ mfind t.ops id = none) ∧
      (x = .wait → exec (.xferRetire id) s = .next (opSet u id { o with folios := l, staged := [], units := [], st := .publishing })) ∧
      (x = .starved → exec (.xferRetire id) s = .next (opSet u id { o with folios := l, staged := [], units := [], st := .starved })) ∧
      (∀ k va, x = .freeze k va → ∃ t, exec (.xferRetire id) s = .next t ∧ Frosted u t id o))) ∧
  (∀ s id o b bs fs n, mfind s.blocks o.block = some b → (xRead s id o).2 = .ok bs fs n →
    (∀ ra rb os od zv c, o.kind = .copy 0 [ra, rb] [os, od, zv] c → lrCat ra = false → lrCat rb = false →
      let z := winSize zv (lrRank ra)
      fs = [] ∧ n = bs.length ∧ ∃ vs v v', ReadBy s o b ra (spots ra os z) vs v ∧ Staged v o b rb (spots rb od z) vs bs v') ∧
    (∀ r x od zv c, o.kind = .copy 3 [r] [x, od, zv] c →
      let ss := spots r od (winSize zv (lrRank r))
      fs = [] ∧ n = bs.length ∧ ∃ v', Staged s o b r ss (ss.map (fun _ => fillOf r)) bs v') ∧
    (∀ rs os od zv c, o.kind = .copy 2 rs [os, od, zv] c →
      (∀ ori, ori < 2 → lrRank (rs.getD (1 + 2 * ori) 0) ≠ 0 → fmtBlk (lrFmt (rs.getD (1 + 2 * ori) 0)) ≠ 0) →
      let z := winSize zv 2
      let src := rs.getD 0 0
      let ss := spots src os z
      fs = [] ∧ ∃ raw v0 v1 v2 b0 b1, bs = b0 ++ b1 ∧ ReadBy s o b src ss raw v0 ∧
        QuantSide v0 o b rs od z ss (raw.map (elemV (lrFmt src))) 0 b0 v1 ∧
        QuantSide v1 o b rs od z ss (raw.map (elemV (lrFmt src))) 1 b1 v2) ∧
    (∀ va v, o.kind = .stamp va v → fs = [] ∧ n = 8 ∧
      ∃ pa, bs = (List.range 8).map (fun i => { spad := false, addr := pa + i, val := BitVec.ofNat 8 (v / 2 ^ (8 * i)) }))) ∧
  (∀ c vs, (vs.any (fun v => v.isNan || v.isInf) = true → scaleFor c vs = (if fmtBlk c = 32 then 0xFF else 0x7F, false)) ∧
    ((∀ v ∈ vs, ∃ n e, v = FV.fin n 0 e) → scaleFor c vs = (0, true))) ∧
  (∀ s id f r pa q p0, dirRec s (keyPart f.key) (keyTensor f.key) = some r → dtRetiring r = false → (getCat s f.key).decs = 0 →
    entryPa s (keyPart f.key) r (keyRow f.key) (keyCol f.key) = .ok p0 →
    (let st := enState (getCat s f.key).record; st ≠ 1 ∧ st ≠ 4 ∧ st ≠ 5) →
    allocBlock s (keyPart f.key) ((classFor f.len).getD 5) = (q, some pa) →
    ∃ t, installFolio s id f = (t, .done) ∧ EntryIs t f.key 2 f.len f.tag f.crc (enGen (getCat s f.key).record + 1))

/-- R248 to R250, R257, R258, R326, R327: the Burin and the Loupe: a coded tile becomes its entry's content, a decoded one reaches
scratchpad, a fill is written to its slot's folio; a Retiring entry without registrations is freed; a Deleting scroll ends. -/
def Obligations.FolioSteps : Prop :=
  (∀ s id, mfind s.ops id = none → ∀ k ∈ [Instr.burinDone id, .fdecRetire id, .fillInstall id], Still k s) ∧
  (∀ s id o c t slot col d, mfind s.ops id = some o → o.kind = .enc c t slot col d →
    (o.st = .queued → opBlocked s id o = true → Still (.burinDone id) s) ∧
    (o.st = .queued → opBlocked s id o = false → ∀ r e img b pa q,
      dirRec s (o.ctx / 64) t = some r → dtAppend r = false → dtRetiring r = false →
      entryAt s (o.ctx / 64) t (coRow c) (coCol c) = .ok e → enState e ≠ 1 → enState e ≠ 4 → enState e ≠ 5 →
      legendOf s o.ctx slot = some img → mfind s.blocks o.block = some b → spPoison b (coOff c) (tileBytes (dtFmt r)) = false →
      let x := spTile b (dtFmt r) (coOff c)
      let f := makeTile (dtFmt r) t (coRow c) (coCol c) slot col.toNat (some img) x.1 x.2
      let key := entryKey (o.ctx / 64) t (coRow c) (coCol c)
      allocBlock s (o.ctx / 64) ((classFor f.len).getD 5) = (q, some pa) →
      ∃ u, exec (.burinDone id) s = .next u ∧ mfind u.ops id = some { o with st := .publishing } ∧ enState (getCat u key).record = 1 ∧
        (getCat u key).from_ = enState e ∧ (getCat u key).new = some (pa, (classFor f.len).getD 5, f.len, f.tag, f.crc, f.segs)) ∧
    (o.st = .publishing → let key := entryKey (o.ctx / 64) t (coRow c) (coCol c)
      let at_ := entryAt s (o.ctx / 64) t (coRow c) (coCol c)
      (∀ k va, at_ = .forbid k va → ∃ u, exec (.burinDone id) s = .next u ∧ Frosted (undoChange s key) u id o) ∧
      (at_ = .wait ∨ (∃ va l w, at_ = .np va l w) → Still (.burinDone id) s) ∧
      ∀ a cls len tag crc segs, (∃ e, at_ = .ok e) ∨ (∃ k n, at_ = .miss k n) →
      (getCat s key).new = some (a, cls, len, tag, crc, segs) → (getCat s key).decs = 0 → enState (getCat s key).record = 1 →
      ∃ u, exec (.burinDone id) s = .next u ∧ mfind u.ops id = none ∧
        EntryIs u key 2 len tag crc (enGen (getCat s key).record + 1) ∧
        ∀ g, mfind s.groups o.gid = some g → Stays g →
          mfind u.groups o.gid = some (gotResult g id (if d < 64 then [.s d 0] else [])))) ∧
  (∀ s id o c t, mfind s.ops id = some o → o.kind = .dec c t →
    (o.st = .queued → opBlocked s id o = true → Still (.fdecRetire id) s) ∧
    (o.st = .queued → opBlocked s id o = false → isAppend s (o.ctx / 64) t = true →
      ∃ u det, exec (.fdecRetire id) s = .next u ∧ Abandoned s u id o 0x22 allLanes det) ∧
    (o.st = .queued → opBlocked s id o = false → isAppend s (o.ctx / 64) t = false → ∀ r, r = readFolio s id o.pair (o.ctx / 64) t (coRow c) (coCol c) 2 0xA5 →
      (r.2 = .wait → Still (.fdecRetire id) s) ∧
      (∀ f y, r.2 = .ok f → readTile (some (entOf f.key f.record)) f.bits (legendFor r.1 o.ctx f.bits) = .ok y →
        exec (.fdecRetire id) s = .next (opSet r.1 id { o with st := .publishing, staged := tileStage (enFmt f.record) (coOff c) y })) ∧
      (∀ f x, r.2 = .ok f → readTile (some (entOf f.key f.record)) f.bits (legendFor r.1 o.ctx f.bits) = .error x →
        ∃ u det, exec (.fdecRetire id) s = .next u ∧ Abandoned r.1 u id o x.code allLanes det) ∧
      (∀ code det, r.2 = .fault code det → ∃ u, exec (.fdecRetire id) s = .next u ∧ Abandoned r.1 u id o code allLanes det) ∧
      (∀ k va, r.2 = .freeze k va → ∃ u, exec (.fdecRetire id) s = .next u ∧ Frosted r.1 u id o)) ∧
    (∀ b, o.st = .publishing → mfind s.blocks o.block = some b →
      ∃ u b', exec (.fdecRetire id) s = .next u ∧ mfind u.ops id = none ∧ mfind u.blocks o.block = some b' ∧ Laid b b' o.staged ∧ HomeSame s u)) ∧
  (∀ s id o scr slot ep data lg sto h c fs, mfind s.ops id = some o → o.kind = .fill scr slot ep data lg sto h →
    (opBlocked s id o = true ∨ o.stopped = true ∨ homeBusy s (o.ctx / 64) scr id = true → Still (.fillInstall id) s) ∧
    (opBlocked s id o = false → o.stopped = false → homeBusy s (o.ctx / 64) scr id = false → liveScroll s (o.ctx / 64) scr = none →
      ∃ u det, exec (.fillInstall id) s = .next u ∧ Abandoned s u id o 0x29 allLanes det) ∧
    (opBlocked s id o = false → o.stopped = false → homeBusy s (o.ctx / 64) scr id = false → liveScroll s (o.ctx / 64) scr = some c → slot < c.res →
      scrFrames s (o.ctx / 64) c slot (slot + 1) = (fs, none) →
      let m := flushSlots s fs c slot (slot + 1)
      let r := rdSlot m fs c slot
      (slState r ≠ 1 ∨ slTag r ≠ ep → ∃ u det, exec (.fillInstall id) s = .next u ∧ Abandoned m u id o 0x29 allLanes det) ∧
      (slState r = 1 → slTag r = ep →
        let key := rdMap m fs (o.ctx / 64) c (slot / 64)
        let y := fillEntry (installRelease m id) id o key c.slotBytes lg (slot % 64) sto data
        (∀ va k, keysBar m [key] = some (va, .forbid k) → ∃ u, exec (.fillInstall id) s = .next u ∧ Frosted m u id o) ∧
        (keysBar m [key] = none → y.2 = false → exec (.fillInstall id) s = .next y.1) ∧
        (keysBar m [key] = none → y.2 = true → ∃ u, exec (.fillInstall id) s = .next u ∧ mfind u.ops id = none ∧
          (slotPa fs c slot % 128 ≤ 120 →
            memRead u (slotPa fs c slot) 8 = slSet r 2 % 2 ^ 64))))) ∧
  (∀ s key,
    (enState (getCat s key).record ≠ 4 → Still (.growingCopyDone key) s) ∧
    (enState (getCat s key).record ≠ 5 ∨ (∃ r ∈ s.regs, r.1 = key) → Still (.entryRetireFree key) s) ∧
    (∀ r, dirRec s (keyPart key) (keyTensor key) = some r → (∀ pa, entryPa s (keyPart key) r (keyRow key) (keyCol key) ≠ .ok pa) →
      Still (.entryRetireFree key) s) ∧
    (enState (getCat s key).record = 5 → (∀ r ∈ s.regs, r.1 ≠ key) →
      (∀ r, dirRec s (keyPart key) (keyTensor key) = some r → ∃ pa, entryPa s (keyPart key) r (keyRow key) (keyCol key) = .ok pa) →
      ∃ u, exec (.entryRetireFree key) s = .next u ∧ (getCat u key).record = mkRec [(151, 120, enGen (getCat s key).record)] ∧
        ∀ k, k ≠ key → getCat u k = getCat s k) ∧
    (enState (getCat s key).record = 4 → ∀ r x, dirRec s (keyPart key) (keyTensor key) = some r →
      entryPa s (keyPart key) r (keyRow key) (keyCol key) = x → (∀ pa, x ≠ .ok pa) →
      (∀ k id o, x = .forbid k → growerOf s key = some id → mfind s.ops id = some o →
        ∃ u, exec (.growingCopyDone key) s = .next u ∧ Frosted s u id o) ∧
      ((∀ k, x ≠ .forbid k) ∨ growerOf s key = none → Still (.growingCopyDone key) s)) ∧
    (∀ a cls len tag crc segs, enState (getCat s key).record = 4 → (getCat s key).decs = 0 →
      (∀ r, dirRec s (keyPart key) (keyTensor key) = some r → ∃ pa, entryPa s (keyPart key) r (keyRow key) (keyCol key) = .ok pa) →
      (getCat s key).new = some (a, cls, len, tag, crc, segs) →
      ∃ u, exec (.growingCopyDone key) s = .next u ∧
        EntryIs u key (if segs = 64 then 2 else 3) len tag crc (enGen (getCat s key).record + 1) ∧ ∀ k, k ≠ key → getCat u k = getCat s k)) ∧
  (∀ s part scr,
    ((∀ c, mfind s.scrolls (scrKey part scr) = some c → c.st ≠ 2) → Still (.scrollDeleteFree part scr) s) ∧
    (∀ c fs, mfind s.scrolls (scrKey part scr) = some c → c.st = 2 → scrFrames s part c 0 c.res = (fs, none) →
      let m := flushSlots s fs c 0 c.res
      let keys := (List.range (ceilDiv c.res 64)).map (rdMap m fs part c)
      keysBar m keys = none → (∀ k ∈ keys, enState (getCat m k).record ≠ 1 ∧ enState (getCat m k).record ≠ 4) →
      ∃ u, exec (.scrollDeleteFree part scr) s = .next u ∧ mfind u.scrolls (scrKey part scr) = some { c with st := 0 } ∧
        ∀ j, j ≠ scrKey part scr → mfind u.scrolls j = mfind s.scrolls j)) ∧
  (∀ s blk core h b c, mfind s.blocks blk = some b →
    (mfind b.sh h).bind (liveScroll s ((mfind s.kernels b.kernel).map (·.ctx / 64) |>.getD 0)) = some c →
    exec (.clMirrorUpdate blk core h) s = .next { s with blocks := mset s.blocks blk { b with cl := mset b.cl (8 * (core % 2) + h) c.com } }) ∧
  (∀ s part,
    ((getPart s part).donateGo = false → Still (.folioDonate part) s) ∧
    ((getPart s part).donateGo = true →
      ∃ u, exec (.folioDonate part) s = .next u ∧ (getPart u part).donateGo = false ∧
        freeBytes (getPart u part).pool = freeBytes (getPart s part).pool + 2 ^ 21 ∧ HomeSame s u ∧ ∀ j, j ≠ part → getPart u j = getPart s j) ∧
    ((∀ x ∈ s.ops, ¬ (x.2.ctx / 64 = part ∧ x.2.st = .starved)) → Still (.lowmarkTick part) s) ∧
    ((∃ x ∈ s.ops, x.2.ctx / 64 = part ∧ x.2.st = .starved) →
      exec (.lowmarkTick part) s = .next { s with parts := mset s.parts part { getPart s part with intStatus := (getPart s part).intStatus ||| 4 } }))

/-- R289, R296, R298, R300, R302, R356, R359 to R362: the steps of the arrays and of the chain engine: an operation starts with its
folios and a copy of its tile, writes every element of the product, or leaves the tile as it was; a run is checked, goes step by
step, and retires; one that a fault meets is held. The model's choices among these, which the rules do not give: a chain record on a page
that is not present lets the run wait, and poison in the record or the program holds it (assumption log 37); what an abandoned step
leaves in its destination is free (assumption log 103); a run frozen in a step goes on at that step (assumption log 117). -/
def Obligations.ArrayAndChainSteps : Prop :=
  (∀ s id, mfind s.ops id = none → ∀ k ∈ [Instr.mmaStart id, .mmaRetire id, .mmaFault id, .tileTurnEffect id, .chainChannelHead id,
    .chainStepDone id, .chainStepFault id, .chainRetire id], Still k s) ∧
  (∀ s id o, mfind s.ops id = some o → isMat o.kind = true →
    (o.st = .queued → tileTurn s id o = false → Still (.mmaStart id) s ∧ Still (.mmaFault id) s) ∧
    (o.st ≠ .queued → Still (.mmaStart id) s) ∧
    (tileTurn s id o = true → mmBegin s id o = none → Still (.mmaStart id) s ∧ Still (.mmaFault id) s) ∧
    (tileTurn s id o = true → ∀ m r, mmBegin s id o = some (m, r) →
      (∀ la lb h k x, r = .ok (la, lb, some h, k) → mfind m.banks h = some x → Still (.mmaFault id) s ∧ exec (.mmaStart id) s =
        .next (opSet { m with banks := mset m.banks h { x with ops := x.ops ++ [id], used := id } } id
          { o with st := .reading, folios := la ++ lb, lgs := some (getCtx m o.ctx).lg, shadow := o.kind.tile.map (getTile m o.block) })) ∧
      (∀ la lb k, r = .ok (la, lb, none, k) → Still (.mmaFault id) s ∧ exec (.mmaStart id) s =
        .next (opSet (bankFill m id o k lb) id
          { o with st := .reading, folios := la ++ lb, lgs := some (getCtx m o.ctx).lg, shadow := o.kind.tile.map (getTile m o.block) })) ∧
      (∀ c l d, r = .error (.fault c l d) → Still (.mmaStart id) s ∧ ∃ t, exec (.mmaFault id) s = .next t ∧ Abandoned m t id o c l d) ∧
      (∀ k va, r = .error (.freeze k va) → Still (.mmaStart id) s ∧ ∃ t, exec (.mmaFault id) s = .next t ∧ Frosted m t id o)) ∧
    (o.st = .reading →
      (∀ a b, mmOperands s id o = .ok (a, b) → Still (.mmaFault id) s ∧
        (let bar := (scoreOf o.kind).bind (fun x => scoreBar s (o.ctx / 64) x.1 x.2.1 x.2.2)
         (∀ va k, bar = some (va, .forbid k) → ∃ t, exec (.mmaRetire id) s = .next t ∧ Frosted s t id o) ∧
         (∀ va x, bar = some (va, x) → (∀ k, x ≠ .forbid k) → Still (.mmaRetire id) s) ∧
         (bar = none → ∃ t, exec (.mmaRetire id) s = .next t ∧ mfind t.ops id = none ∧
          ∀ gath tile r idx sc blk, o.kind = .mm gath tile r idx sc → mfind s.blocks o.block = some blk →
            mfind t.blocks o.block = some { blk with ac := mset blk.ac tile (mmTile r a b (mget {} blk.ac tile)) } ∧
            (sc = none → HomeSame s t)))) ∧
      (∀ e, mmOperands s id o = .error e → Still (.mmaRetire id) s ∧
        ∃ t, exec (.mmaFault id) s = .next t ∧ Abandoned s t id o e.code allLanes e.det ∧ HomeSame s t ∧
          ∀ tile sh blk, o.kind.tile = some tile → o.shadow = some sh → mfind s.blocks o.block = some blk →
            mfind t.blocks o.block = some { blk with ac := mset blk.ac tile { sh with int := (mget {} blk.ac tile).int } }))) ∧
  (∀ r (a b : Opd) (t : Tile) i j, i < a.d.rows → j < b.d.cols → b.d.cols ≤ 256 →
    let g := min (fmtProd a.d.fmt) (fmtProd b.d.fmt)
    let q0 : W32 := if ctAcc r then mget 0 t.val (256 * i + j) else 0
    let s0 : BitVec 4 := if ctAcc r then mget 0 t.stick (256 * i + j) else 0
    let t' := mmTile r a b t
    t'.written = true ∧ t' = { t with val := t'.val, stick := t'.stick, written := true } ∧
    (intMode r = true →
      let x := icellRun g a.d.cols (fun k => a.ival i k) (fun k => b.ival k j) 0 (ceilDiv a.d.cols g) (q0.toInt, s0)
      mget 0 t'.val (256 * i + j) = BitVec.ofInt 32 x.1 ∧ mget 0 t'.stick (256 * i + j) = x.2) ∧
    (intMode r = false →
      let x := cellRun g a.d.cols (ctProm r) (fun k => a.val i k) (fun k => b.val k j) 0 (ceilDiv a.d.cols g)
        { w := .fin false 0 0, q := q0.toNat, st := s0 }
      mget 0 t'.val (256 * i + j) = BitVec.ofNat 32 x.q ∧ mget 0 t'.stick (256 * i + j) = x.st)) ∧
  (∀ s id o, mfind s.ops id = some o →
    (tileTurn s id o = false → Still (.tileTurnEffect id) s) ∧
    (tileTurn s id o = true → ∀ blk, mfind s.blocks o.block = some blk → ∀ tile,
      let old := mget {} blk.ac tile
      (∀ int, o.kind = .mclr tile int → ∃ t, exec (.tileTurnEffect id) s = .next t ∧ mfind t.ops id = none ∧ MemSame s t ∧
        mfind t.blocks o.block = some { blk with ac := mset blk.ac tile { old with val := [], stick := [], written := true } }) ∧
      (∀ img key, o.kind = .mint tile img key → ∃ t new, exec (.tileTurnEffect id) s = .next t ∧ mfind t.ops id = none ∧ MemSame s t ∧
        mfind t.blocks o.block = some { blk with ac := mset blk.ac tile new } ∧ new = { old with iv := new.iv, keyBase := key } ∧
        ∀ i, i < 32 → mget 0x7FFFFFFF00000000 new.iv i = BitVec.ofNat 64 (fld img (64 * i + 63) (64 * i))))) ∧
  (∀ s id o x, mfind s.ops id = some o → runOf o = some x →
    let held := fun (u t : State) (step c l d : Nat) =>
      mfind t.ops id = some { o with st := .held, staged := [], folios := [], lgs := none, flt := some (c, l, d), step := step } ∧
      ∀ g, mfind u.groups o.gid = some g → mfind t.groups o.gid = some { g with asyncF := g.asyncF ++ [(c, id, l, d)] }
    (o.st ≠ .queued ∨ opBlocked s id o = true → Still (.chainChannelHead id) s) ∧
    (o.st = .queued → opBlocked s id o = false →
      let m := if o.order = 1 ∨ o.order = 3 then acquireAt s o.pair o.scope else s
      let b := opBlock s o
      let prog := x.program b
      ∀ u r, chainRec m o x.chain = (u, r) → HomeSame s u ∧
      (∀ c l d, r = .error (.fault c l d) → c ≠ 0x32 → ∃ t, exec (.chainChannelHead id) s = .next t ∧ held u t 16 c l d) ∧
      (∀ k va, r = .error (.freeze k va) → ∃ t, exec (.chainChannelHead id) s = .next t ∧ Frosted u t id o) ∧
      (r = .error .wait → exec (.chainChannelHead id) s = .next u) ∧
      (∀ c, r = .ok c → spPoison b x.base (32 * x.steps) = true → ∃ t d, exec (.chainChannelHead id) s = .next t ∧ held u t 16 0x41 allLanes d) ∧
      (∀ c, r = .ok c → spPoison b x.base (32 * x.steps) = false →
       (∀ st k size, runOver x prog c = some (st, k, size) →
        ∃ t, exec (.chainChannelHead id) s = .next t ∧ held u t o.step 0x31 allLanes (detChain x st k 0 size)) ∧
       (∀ reason st, runOver x prog c = none → runBad u (o.ctx / 64) x b.size prog c = some (reason, st) →
        ∃ t, exec (.chainChannelHead id) s = .next t ∧
          Abandoned u t id o 0x32 allLanes (detChain x st (srFactor (recAt prog st)) reason 0)) ∧
       (runOver x prog c = none → runBad u (o.ctx / 64) x b.size prog c = none →
        exec (.chainChannelHead id) s = .next (opSet u id { o with st := .stepping, step := if o.step < x.steps then o.step else 0, prog := c :: prog })))) ∧
    (o.st ≠ .stepping → Still (.chainStepDone id) s ∧ Still (.chainStepFault id) s) ∧
    (o.st = .stepping → ∀ u r, chainStep s id o x = (u, r) →
      (∀ at_ l b, r = .ok (at_, l) → mfind s.blocks o.block = some b → Still (.chainStepFault id) s ∧
        ∃ t, exec (.chainStepDone id) s = .next t ∧ mfind t.blocks o.block = some (spClear (spPuts b at_ l) [(at_, l.length)]) ∧ CleanSame s t ∧
          mfind t.ops id = some (if o.step + 1 < x.steps then { o with step := o.step + 1 } else { o with st := .done })) ∧
      (∀ c l d, r = .error (.fault c l d) → c ≠ 0x32 → Still (.chainStepDone id) s ∧
        let v := if c = 0x22 then u else chainTorn u o x
        ∃ t, exec (.chainStepFault id) s = .next t ∧ held v t o.step c l d ∧ CleanSame s t ∧
          ∀ b, mfind s.blocks o.block = some b → ∃ b', mfind t.blocks o.block = some b' ∧
            let sr := recAt o.prog.tail o.step
            ∀ a, Outside (if srDirect sr then srDest sr else x.dst o.step) (x.outSize (crCount (o.prog.headD 0)) (srFactor sr) (srFmt sr)) a →
              spByte b' a = spByte b a) ∧
      (∀ k va, r = .error (.freeze k va) → Still (.chainStepDone id) s ∧ ∃ t, exec (.chainStepFault id) s = .next t ∧ Frosted u t id o) ∧
      (r = .error .wait → Still (.chainStepDone id) s ∧ Still (.chainStepFault id) s)) ∧
    (o.st ≠ .done → Still (.chainRetire id) s) ∧
    (o.st = .done → ¬ ((o.order = 2 ∨ o.order = 3) ∧ o.scope = 3 ∧ unackedFlows s (o.ctx / 64) = true) →
      ∃ t, exec (.chainRetire id) s = .next t ∧ mfind t.ops id = none ∧ t.blocks = s.blocks ∧
        (∀ a, ¬ DirtyAt s a → memByte t a = memByte s a) ∧ (o.order < 2 → HomeSame s t))) ∧
  (∀ s id o x u at_ l, mfind s.ops id = some o → runOf o = some x → chainStep s id o x = (u, .ok (at_, l)) →
    let c := o.prog.headD 0
    let sr := recAt o.prog.tail o.step
    let k := srFactor sr
    let kk := x.r (k - 1) * x.m k
    let nn := x.p k * x.r k
    let mi := x.ms (k + 1) (crCount c)
    let pj := x.ps 1 (k - 1)
    let rows := rwBatch x.word * pj * mi
    let w := outB (srFmt sr)
    let part := o.ctx / 64
    let desc := Desc.mk (match dirRec s part (crTensor c) with | some q => dtFmt q | none => 0) kk (64 * ceilDiv nn 64) 1 false 0 0 0 0 0 0 0
    at_ = (if srDirect sr then srDest sr else x.dst o.step) ∧ l.length = w * (rows * nn) ∧
    ∃ fs : List StFolio, ∃ tiles : List TileD,
      fs.map (·.key) = (factorFolios x c k).map (fun y => entryKey part (crTensor c) y.1 y.2) ∧ tiles.length = fs.length ∧
      (∀ (i : Nat) (f : StFolio) (y : TileD), fs[i]? = some f → tiles[i]? = some y → f.record = (getCat s f.key).record ∧
        portTile desc 1 (some (entOf f.key f.record)) f.bits (mfind (o.lgs.getD (getCtx s o.ctx).lg) (fld f.bits 10 8)) = .ok y ∧
        ((∀ z ∈ s.l1, z.2.dirty = 0) → (∀ z ∈ s.dc, z.2.dirty = 0) → f.bits = memRead s (enSector f.record) (enLen f.record))) ∧
      ∀ rho nu, rho < rows → nu < nn →
        let e := nu % x.r k + x.r k * (rho % mi + mi * (rho / mi % pj + pj * (nu / x.r k + x.p k * (rho / mi / pj))))
        (l.drop (w * e)).take w = toBytes w (chainEl
          (fun kp => decodeF (x.inFmt o.prog.tail o.step) (spRead (opBlock s o) (x.src o.step + 2 * (rho * kk + kp)) 2))
          { d := desc, part := 1, tiles := tiles } kk nu (srProm sr) (ceilDiv kk 128) (srAlpha sr) (srFmt sr)))

/-! ### Steps of kernels, contexts and groups (R64, R65, R68, R69, R72 to R74, R97 to R106, R112, R115) -/

/-- R97 to R106: a kernel is translated, gets its extents and its blocks, and completes when they have retired, or FAULTED. The model's
choices among these: a guided kernel waits for a range unit of the I/O die of its partition (assumption log 89), and nothing of a context
that is Draining, Saved or Destroying is translated or placed (assumption log 49). -/
def Obligations.KernelSteps : Prop :=
  (∀ s kid k, mfind s.kernels kid = some k →
    let go := k.st = .pending ∧ ctxOpen s k.ctx = true ∧ launchAhead s kid k = false ∧
      (krGuided k.record = true → (freeUnit s (k.ctx / 64 / 4)).isSome = true)
    (¬ go → Still (.kernelTranslatingStart kid) s) ∧
    (go → ∃ t, exec (.kernelTranslatingStart kid) s = .next t ∧
      t = { s with kernels := mset s.kernels kid { k with st := .translating,
                                                          unit := if krGuided k.record then freeUnit s (k.ctx / 64 / 4) else none },
                   ctxs := mset s.ctxs k.ctx { getCtx s k.ctx with st := .running }, mem := t.mem, veils := t.veils } ∧
      HomeOutside (ctxDescA s k.ctx) 64 s t) ∧
    (k.st ≠ .translating ∨ ctxOpen s k.ctx = false → Still (.extentTableBuilt kid) s) ∧
    (k.st = .translating → ctxOpen s k.ctx = true →
      ∀ f, f = (if krGuided k.record then PaR.ok [] else fixFlags s k.ctx (krFixBase k.record) (blockCount s k.record)) →
      (∀ pas ex ws, f = .ok pas → extentsOf s k.ctx k.record = some ex → constWords s k.ctx k.record = some ws →
        ∃ m, HartWroteIn (fun pa => pa ∈ pas) (fun a => ∃ pa ∈ pas, pa ≤ a ∧ a < pa + 64) s m ∧
          (∀ pa ∈ pas, pa % 64 = 0 → reachable s pa = true → (∀ i, i < 64 → PlainAt s (pa + i)) → ∀ i, i < 64 → memByte m (pa + i) = 0) ∧
          exec (.extentTableBuilt kid) s = .next { m with kernels := mset s.kernels kid { k with
            st := .dispatching, blocks := blockCount s k.record, exts := ex, consts := ws } }) ∧
      (f ≠ .bad → f = .wait ∨ extentsOf s k.ctx k.record = none ∨ constWords s k.ctx k.record = none → Still (.extentTableBuilt kid) s) ∧
      (f = .bad → canComplete (releaseKernel s kid) k = false → exec (.extentTableBuilt kid) s = .next (releaseKernel s kid)) ∧
      (f = .bad → canComplete (releaseKernel s kid) k = true →
        ∃ t, exec (.extentTableBuilt kid) s = .next t ∧
          mfind t.kernels kid = some { k with st := .done, status := 3, unit := none, exts := [], consts := [] }))) ∧
  (∀ s kid, (nextPlace s kid = none → Still (.blockPlacement kid) s) ∧
    (∀ k pair cores, nextPlace s kid = some (k, pair, cores) →
      ((placeLack s k.record pair cores).none = false → Still (.blockPlacement kid) s) ∧
      ((placeLack s k.record pair cores).none = true →
        ∃ t, exec (.blockPlacement kid) s = .next t ∧ HomeSame s t ∧ (∀ x ∈ t.l1, x.1 / 2 ^ 42 = pair → x.2.valid = x.2.dirty) ∧
          mfind t.blocks s.fresh = some (newBlock s kid k pair) ∧ (∀ b, b ≠ s.fresh → mfind t.blocks b = mfind s.blocks b) ∧
          mfind t.kernels kid = some { k with placed := k.placed + 1, st := if k.placed + 1 = k.blocks then .running else k.st } ∧
          (∀ i, i < cores.length → ∃ slot, mfind t.groups (gidOf s.fresh i) =
            some (newGroup s k s.fresh i (2 * pair + cores.getD i 0) slot k.placed)) ∧
          ∀ j, (∀ i, i < cores.length → j ≠ gidOf s.fresh i) → mfind t.groups j = mfind s.groups j))) ∧
  (∀ s blk b k, mfind s.blocks blk = some b → mfind s.kernels b.kernel = some k →
    let idle := b.done = false ∧ b.saved = false ∧ (k.st = .dispatching ∨ k.st = .running) ∧
      (∀ g ∈ s.groups, g.2.block = blk → g.2.st = .exited) ∧ ∀ o ∈ s.ops, o.2.block ≠ blk
    let last := k.st = .running ∧ k.retired + 1 = k.blocks
    (¬ idle → Still (.blockRetire blk) s) ∧
    (idle → last → canComplete (releaseKernel s b.kernel) k = false → exec (.blockRetire blk) s = .next (releaseKernel s b.kernel)) ∧
    (idle → ¬ last → ∃ t, exec (.blockRetire blk) s = .next t ∧ mfind t.blocks blk = some (freeBlockRes b) ∧
      mfind t.kernels b.kernel = some { k with retired := k.retired + 1 } ∧ t.groups = s.groups ∧
      ∀ a, ¬ DirtyAt s a → memByte t a = memByte s a) ∧
    (idle → last → canComplete (releaseKernel s b.kernel) k = true → ∃ t, exec (.blockRetire blk) s = .next t ∧
      mfind t.kernels b.kernel = some { k with retired := k.retired + 1, st := .done, status := 0, unit := none, exts := [], consts := [] })) ∧
  (∀ s kid k, mfind s.kernels kid = some k →
    (k.st ≠ .faulting → Still (.kernelFaultingDone kid) s) ∧
    (k.st = .faulting → let m := discardOps s kid
      let calm := (∀ x ∈ m.groups, gKid m x.2 = kid → x.2.st = .exited ∨
          ((x.2.st = .faulted ∨ x.2.st = .frozen ∨ x.2.st = .stopping ∨ x.2.st = .saved) ∧ outstanding m x.1 x.2 = false)) ∧
        ∀ o ∈ m.ops, o.2.kernel ≠ kid
      (¬ calm → Still (.kernelFaultingDone kid) s) ∧
      (calm → canComplete (releaseKernel m kid) k = false → exec (.kernelFaultingDone kid) s = .next (releaseKernel m kid)) ∧
      (calm → canComplete (releaseKernel m kid) k = true →
      ∃ t, exec (.kernelFaultingDone kid) s = .next t ∧
        mfind t.kernels kid = some { k with st := .done, unit := none, exts := [], consts := [] })))

/-- R64, R65, R68, R69, R72 to R74, R115: pre-emption stops a context's groups, saves it and brings its blocks back; a destroyed
context is freed; waiting records reach their ring; results and reports reach their group. (What the spec leaves open of a save
image is veiled, its legend images and spilled tiles lie at a free place: the model's choice,
assumption log 11. What a claim spills, and of whom: assumption log 46. The leader group that a failed check freezes: assumption
log 51.) -/
def Obligations.ContextSteps : Prop :=
  (∀ s ctx, let c := getCtx s ctx
    (¬ (c.st = .draining ∧ c.deadline = 0) → Still (.preemptDeadlineExpires ctx) s) ∧
    (c.st = .draining → c.deadline = 0 → sortedKeys s.groups = true →
      ∃ t, exec (.preemptDeadlineExpires ctx) s = .next t ∧ t = { s with groups := t.groups, blocks := t.blocks } ∧
        ∀ gid g, mfind s.groups gid = some g →
          if gCtx s g = ctx ∧ (match g.st with | .ready => true | .stalled _ => true | .sent _ => true | .waiting _ => true | _ => false) = true then
            ∃ g', mfind t.groups gid = some g' ∧ g' = { g with st := .stopping, region := (unmark g).region, arrivals := g'.arrivals, tx := g'.tx, reads := none }
          else mfind t.groups gid = some g)) ∧
  (∀ s gid g, mfind s.groups gid = some g →
    let base := fld (ctxDesc s (gCtx s g)) 191 128 / 4096 * 4096
    let go := g.st = .stopping ∧ (gKernel s g).map (·.st) ≠ some .faulting ∧ saveWaits s (gCtx s g) = false ∧ stopDone s gid g = true
    (¬ go → Still (.groupStopComplete gid) s) ∧
    (go → ∃ t, exec (.groupStopComplete gid) s = .next t ∧
      (TilesFit s → HomeOutside base (1024 * fld (ctxDesc s (gCtx s g)) 223 192) s t) ∧
      t = { s with groups := t.groups, mem := t.mem, veils := t.veils, free := t.free, tags := t.tags, poison := t.poison, ecc := t.ecc,
                   eccDc := t.eccDc, foundDc := t.foundDc, dc := t.dc } ∧
      mfind t.groups gid = some { g with st := .saved, v := match g.live with | some n => g.v.filter (fun x => x.1 < 32 * n) | none => g.v })) ∧
  (∀ s ctx, let c := getCtx s ctx
    let go := c.st = .draining ∧ saveWaits s ctx = false ∧ allStopped s ctx = true
    (¬ go → Still (.contextSaved ctx) s) ∧
    (go → ∃ t, exec (.contextSaved ctx) s = .next t ∧
      getCtx t ctx = { c with st := .saved, deadline := 0, answer := c.answer.filter (fun a => a.1 != 1) } ∧
      (sortedKeys s.groups = true → ∀ gid g, mfind s.groups gid = some g → mfind t.groups gid =
        some (if g.st ≠ .exited ∧ gCtx s g = ctx then { g with resident := false, sectors := [], latchPipe := [] } else g)) ∧
      (sortedKeys s.blocks = true → ∀ j b, mfind s.blocks j = some b → mfind t.blocks j =
        some (if b.done = false ∧ (mfind s.kernels b.kernel).map (·.ctx) = some ctx then
          if b.saved then { b with reloading := false } else
          { b with saved := true, tagChunks0 := blockChunks s j (2 * b.pair), tagChunks1 := blockChunks s j (2 * b.pair + 1),
                   tagWays := b.ways, tagTiles := b.tiles.isSome, ac := b.ac.map (fun t => (t.1, { t.2 with written := false })) } else b)) ∧
      (∀ a ∈ c.answer, a.1 = 1 → reachable s a.2 = true → a.2 % 128 ≤ 120 → (∀ i, i < 8 → PlainAt s (a.2 + i)) → memRead t a.2 8 = 0) ∧
      (let base := fld (ctxDesc s ctx) 191 128 / 4096 * 4096
       let size := 1024 * fld (ctxDesc s ctx) 223 192
       (∀ a ∈ c.answer, a.1 ≠ 1) → (∀ x ∈ s.l1, x.2.dirty = 0) → (∀ x ∈ s.dc, x.2.dirty = 0) → TilesFit s →
       sortedKeys c.lg = true → (∀ x ∈ c.lg, x.1 < 8) → 4096 + 278528 * (spilledTiles t ctx).length ≤ size →
       ∃ at_, base ≤ at_ ∧ at_ + 4096 ≤ base + size ∧ ∀ k, k < 8 → memRead t (at_ + 512 * k) 512 = ((legendOf s ctx k).getD 0) % 2 ^ 4096))) ∧
  (∀ s blk w b, mfind s.blocks blk = some b →
    let owner := blockCtx s b
    let claim := (claimsOn s b.pair).find? (fun x => x.1 != owner && (match w with
      | .chunks => (x.2.chunks0 != 0 && b.tagChunks0 != 0) || (x.2.chunks1 != 0 && b.tagChunks1 != 0)
      | .ways => x.2.ways != 0 && b.tagWays != 0
      | .tiles => x.2.set && b.tagTiles))
    let may := b.saved = true ∧ b.reloading = false ∧ b.done = false ∧ saveWaits s owner = false
    (¬ may ∨ claim = none → Still (.spillOnClaim blk w) s) ∧
    (∀ x l, may → claim = some (x, l) → ∃ t, exec (.spillOnClaim blk w) s = .next t ∧
      (TilesFit s → HomeOutside (fld (ctxDesc s owner) 191 128 / 4096 * 4096) (1024 * fld (ctxDesc s owner) 223 192) s t) ∧
      mfind t.blocks blk = some (match w with
        | .chunks => { b with tagChunks0 := b.tagChunks0 - l.chunks0, tagChunks1 := b.tagChunks1 - l.chunks1 }
        | .ways => { b with tagWays := b.tagWays - l.ways }
        | .tiles => { b with tagTiles := false, tiles := none }))) ∧
  (∀ s blk b, mfind s.blocks blk = some b →
    let owner := blockCtx s b
    let moves := fun (pair : Nat) => pair ≠ b.pair ∧ (b.tagChunks0 ≠ 0 ∨ b.tagChunks1 ≠ 0 ∨ b.tagWays ≠ 0 ∨ b.tagTiles = true)
    (∀ ok, ¬ (b.saved = true ∧ b.reloading = true ∧ b.done = false) ∨ ctxRuns s owner = false ∨ reloadPlace s blk b = none → Still (.blockReloadDone blk ok) s) ∧
    (∀ ok pair cores l, reloadPlace s blk b = some (pair, cores, l) → l.none = false ∨ (moves pair ∧ saveWaits s owner = true) →
      Still (.blockReloadDone blk ok) s) ∧
    (∀ pair cores l, b.saved = true → b.reloading = true → b.done = false → ctxRuns s owner = true →
      reloadPlace s blk b = some (pair, cores, l) → l.none = true →
      ¬ (moves pair ∧ saveWaits s owner = true) →
      (∃ t b', exec (.blockReloadDone blk true) s = .next t ∧
        (TilesFit s → HomeOutside (fld (ctxDesc s owner) 191 128 / 4096 * 4096) (1024 * fld (ctxDesc s owner) 223 192) s t) ∧
        (¬ moves pair → HomeSame s t) ∧
        mfind t.blocks blk = some b' ∧
        b' = { b with pair := pair, saved := false, reloading := false, tagChunks0 := 0, tagChunks1 := 0, tagWays := 0, tagTiles := false, cl := [],
                      foots := [], tiles := b'.tiles } ∧
        (sortedKeys s.groups = true → ∀ gid g, mfind s.groups gid = some g → g.block = blk → g.st ≠ .exited →
          ∃ g', mfind t.groups gid = some g' ∧ g'.core / 2 = pair ∧
            g' = { g with core := g'.core, slot := g'.slot, resident := true, age := s.cycle, live := none,
                          st := if g.st = .saved then awake s g else g.st })) ∧
      (∀ x, (stayers s blk).head? = some x → ∃ t g', exec (.blockReloadDone blk false) s = .next t ∧ mfind t.groups x.1 = some g' ∧ g'.st = .frozen))) ∧
  (∀ s ctx, let c := getCtx s ctx
    let go := c.st = .destroying ∧ (∀ x ∈ s.groups, gCtx s x.2 = ctx → x.2.st = .exited) ∧
      (∀ x ∈ s.kernels, x.2.ctx = ctx → x.2.st = .done) ∧ ∀ o ∈ s.ops, o.2.ctx ≠ ctx
    (¬ go → Still (.contextFreed ctx) s) ∧
    (go → ∃ t, exec (.contextFreed ctx) s = .next t ∧ getCtx t ctx = { c with st := .free, answer := [] } ∧
      ∀ x ∈ c.answer, x.1 = 3 → reachable s x.2 = true → x.2 % 128 ≤ 120 → Outside (ctxDescA s ctx) 64 x.2 → Outside (ctxDescA s ctx) 64 (x.2 + 7) →
        (∀ i, i < 8 → PlainAt s (x.2 + i)) → memRead t x.2 8 = 0)) ∧
  (∀ s ctx, let c := getCtx s ctx
    let d := ctxDesc s ctx
    let slot := fld d 319 256 / 64 * 64 + 64 * (c.fltProd % 2 ^ ringLog (fld d 323 320))
    (c.fltPend = [] ∨ fltFull s ctx = true → Still (.faultRingDrain (.fault ctx)) s) ∧
    (∀ r rest, c.fltPend = r :: rest → fltFull s ctx = false → ∃ t, exec (.faultRingDrain (.fault ctx)) s = .next t ∧
      getCtx t ctx = { c with fltPend := rest, fltProd := (c.fltProd + 1) % 2 ^ 16 } ∧
      (∀ a, Outside (ctxDescA s ctx) 64 a → Outside slot 64 a → memByte t a = memByte s a) ∧
      (slot + 64 ≤ ctxDescA s ctx ∨ ctxDescA s ctx + 64 ≤ slot → memRead t slot 64 = r % 2 ^ 512))) ∧
  (∀ s p, let q := getPart s p
    let slot := q.frzBase / 64 * 64 + 64 * (q.frzProd % 2 ^ ringLog q.frzLog)
    (q.frzPend = [] ∨ frzFull s p = true → Still (.faultRingDrain (.freeze p)) s) ∧
    (∀ r rest, q.frzPend = r :: rest → frzFull s p = false → ∃ t, exec (.faultRingDrain (.freeze p)) s = .next t ∧
      getPart t p = { q with frzPend := rest, frzProd := (q.frzProd + 1) % 2 ^ 16, intStatus := q.intStatus ||| 2 } ∧
      HomeOutside slot 64 s t ∧ memRead t slot 64 = r % 2 ^ 512)) ∧
  (∀ s gid g0, mfind s.groups gid = some g0 → let u := resizeStep s g0.block
    ∀ g, mfind u.groups gid = some g → g.st ≠ .exiting →
      (∀ l q m, g.pend = l ++ q :: m → (∀ x ∈ l, x.ready = false) → q.ready = true →
        exec (.splitPhaseResult gid) s = .next (put u gid (applyWs { g with pend := l ++ m } q.ws))) ∧
      ((∀ x ∈ g.pend, x.ready = false) → exec (.splitPhaseResult gid) s = .next (put u gid g))) ∧
  (∀ s gid g, mfind s.groups gid = some g →
    (g.asyncF = [] → Still (.asyncFaultReport gid) s) ∧
    (∀ code id lanes det rest, g.asyncF = (code, id, lanes, det) :: rest → (gKernel s g).map (·.st) ≠ some .faulting →
      ((match g.st with | .ready => true | .stalled _ => true | .sent _ => true | .waiting _ => true | .exiting => true | _ => false) = true →
        exec (.asyncFaultReport gid) s =
          .next (takeFault (put s gid { g with asyncF := rest }) gid code (some (id, opWhere s id)) lanes det)) ∧
      ((match g.st with | .ready => true | .stalled _ => true | .sent _ => true | .waiting _ => true | .exiting => true | _ => false) = false →
        Still (.asyncFaultReport gid) s)))

/-! ### Steps of the pages (R151, R163 to R170, R172 to R174, R208, R229) -/

/-- R151, R163 to R170, R172 to R174, R208: a Remove drains its range and ends when its writes are visible, a Notify and a Donate
take their effect, a page that has been copied answers at its new frame, a Remove that can start comes before the other events of its page, a walk is
installed, logged writes are tried again, a sector leaves its cache without a
byte of memory as the home shows it changing but those that it was to receive, and a fetched sector is held. The model's choices among
these: what must be visible before a Remove is confirmed (assumption log 61), and the pools, one for each size and each die of any
package, which take no frame of host memory (assumption log 62). -/
def Obligations.PageSteps : Prop :=
  (∀ s part, let q := getPart s part
    (rmHead q 0 = none ∨ (rmRunning q 1).isSome = true ∨ (rmRunning q 2).isSome = true → Still (.rmRemove part) s) ∧
    (∀ r, rmHead q 0 = some r → rmRunning q 1 = none → rmRunning q 2 = none →
      ∃ t, exec (.rmRemove part) s = .next t ∧ HomeSame s t ∧
        (getPart t part).rmq = q.rmq.map (fun x => if x = r then { r with phase := 1 } else x) ∧
        (∀ c ∈ t.cores, ∀ e ∈ c.2.tlb, e.ctx = 64 * part + r.ctx → e.va < r.va + 2 ^ r.sizeLog → r.va < e.va + e.len → e.draining = true) ∧
        (∀ k ∈ t.kernels, ∀ e ∈ k.2.exts, e.ctx = 64 * part + r.ctx → e.va < r.va + 2 ^ r.sizeLog → r.va < e.va + e.len → e.draining = true)) ∧
    (rmRunning q 1 = none → Still (.removeDrainEnd part) s) ∧
    (∀ r, rmRunning q 1 = some r → exec (.removeDrainEnd part) s = 
      .next { s with parts := mset s.parts part { q with rmq := q.rmq.map (fun x => if x = r then { r with phase := 2 } else x) } }) ∧
    (rmRunning q 2 = none → Still (.removeConfirm part) s) ∧
    (∀ r, rmRunning q 2 = some r →
      (rmBusy s (64 * part + r.ctx) r = true → Still (.removeConfirm part) s) ∧
      (rmBusy s (64 * part + r.ctx) r = false → ∃ t, exec (.removeConfirm part) s = .next t ∧
        (getPart t part).rmDone = r.gen ∧ (getPart t part).rmq = q.rmq.erase r ∧
        (∀ c ∈ t.cores, ∀ e ∈ c.2.tlb, ¬ (e.draining = true ∧ e.ctx = 64 * part + r.ctx ∧ e.va < r.va + 2 ^ r.sizeLog ∧ r.va < e.va + e.len)) ∧
        (∀ x ∈ t.pages, ¬ (x.2.ctx = 64 * part + r.ctx ∧ r.va ≤ x.2.va ∧ x.2.va < r.va + 2 ^ r.sizeLog)) ∧
        ((∀ g ∈ s.groups, g.2.reds = []) → (∀ x ∈ s.ecc, x.2 = false) → ∀ a, ¬ DirtyAt s a → memByte t a = memByte s a))) ∧
    (rmHead q 1 = none → Still (.rmNotify part) s) ∧
    (∀ r, rmHead q 1 = some r → s.cores = [] → (∀ o ∈ s.ops, o.2.st ≠ .parked) →
      exec (.rmNotify part) s = .next { s with parts := mset s.parts part { q with rmq := q.rmq.erase r } }) ∧
    (rmHead q 2 = none → Still (.rmDonate part) s) ∧
    (∀ r, rmHead q 2 = some r →
      let die := if isLocal s r.va then homeDie r.va else 8 + 4 * paPkg r.va + homeDie r.va
      let full := 256 ≤ (q.migPool.filter (fun e => e.1 == die && e.2.1 == r.sizeLog)).length
      (paOk r.va = true → isHost r.va = false → ¬ full →
        exec (.rmDonate part) s = .next { s with parts := mset s.parts part { q with
          rmq := q.rmq.erase r, migPool := q.migPool ++ [(die, r.sizeLog, r.va)] } }) ∧
      (paOk r.va = false ∨ isHost r.va = true ∨ full →
        exec (.rmDonate part) s = .next { s with parts := mset s.parts part { q with rmq := q.rmq.erase r } }))) ∧
  (∀ s page,
    (((mfind s.pages page).bind (·.moving)) = none → Still (.migrationCopyDone page) s) ∧
    (∀ pg die frame leaf addr, mfind s.pages page = some pg → pg.moving = some (die, frame, leaf, addr) →
      let len := 2 ^ pg.size
      (removeDue s pg.ctx pg.va = true → exec (.migrationCopyDone page) s = exec (.rmRemove (pg.ctx / 64)) s) ∧
      let ready := moveBusy s page len = false ∧ reachable s frame = true ∧ stackBusy s page = false ∧ stackBusy s frame = false
      (removeDue s pg.ctx pg.va = false → ¬ ready → Still (.migrationCopyDone page) s) ∧
      (removeDue s pg.ctx pg.va = false → ready → (∀ g ∈ s.groups, g.2.reds = []) → (∀ a, ¬ DirtyAt s a) → sortedKeys s.mem = true →
        (memRead s addr 8 = leaf → frame + len ≤ page ∨ page + len ≤ frame → addr % 8 = 0 → Outside page len addr → Outside frame len addr →
          8 ≤ len → page % 8 = 0 → frame % 8 = 0 → 16 ≤ pg.size →
          ∃ t, exec (.migrationCopyDone page) s = .next t ∧
            (∀ i, i < len → memByte t (frame + i) = memByte s (page + i)) ∧ memRead t addr 8 = setFld leaf 48 16 (frame / 2 ^ 16) % 2 ^ 64 ∧
            (∀ a, Outside frame len a → Outside addr 8 a → memByte t a = memByte s a) ∧
            (page ≠ frame → mfind t.pages frame = some { pg with
                moving := none, moves := pg.moves + 1, window := true, windowLeft := if pg.window = true then pg.windowLeft else 1000000, counts := [] } ∧
              mfind t.pages page = none)) ∧
        (memRead s addr 8 ≠ leaf → ∃ t, exec (.migrationCopyDone page) s = .next t ∧ HomeSame s t ∧ mfind t.pages page = none))) ∧
    (mfind s.pages page = none → Still (.migrationWindowExpire page) s ∧ Still (.migrationSettleExpire page) s) ∧
    (∀ pg, mfind s.pages page = some pg →
      let due := removeDue s pg.ctx pg.va
      let ended := pg.window = true ∧ pg.windowLeft = 0
      let rested := pg.settled = true ∧ pg.settleLeft = 0
      (¬ ended → Still (.migrationWindowExpire page) s) ∧ (¬ rested → Still (.migrationSettleExpire page) s) ∧
      (ended → due = true → exec (.migrationWindowExpire page) s = exec (.rmRemove (pg.ctx / 64)) s) ∧
      (rested → due = true → exec (.migrationSettleExpire page) s = exec (.rmRemove (pg.ctx / 64)) s) ∧
      (ended → due = false →
        exec (.migrationWindowExpire page) s = .next { s with pages := mset s.pages page { pg with window := false, moves := 0 } }) ∧
      (rested → due = false → exec (.migrationSettleExpire page) s =
        .next { s with pages := mset s.pages page { pg with settled := false, window := false, windowLeft := 0, moves := 0 } })) ∧
    exec .migCountClear s = .next { s with pages := s.pages.map (fun x => (x.1, { x.2 with counts := [] })) }) ∧
  (∀ s core ctx va,
    (2 ^ 48 ≤ va ∨ removeOver s ctx va = true ∨ walkDrains s (coreDie core) ctx va = true → Still (.walkComplete core ctx va) s) ∧
    (va < 2 ^ 48 → removeOver s ctx va = false → walkDrains s (coreDie core) ctx va = false → (getCore s core).log = [] →
      (∀ l w acc, walk s (coreDie core) ctx va = (.np l w, acc) →
        exec (.walkComplete core ctx va) s = .next (addWalkc s (coreDie core) acc)) ∧
      (∀ e l a acc, walk s (coreDie core) ctx va = (.leaf e l a, acc) → movingAt s (leafTr ctx va e l).pa = true →
        exec (.walkComplete core ctx va) s = .next (addWalkc s (coreDie core) acc)) ∧
      (∀ e l a acc, walk s (coreDie core) ctx va = (.leaf e l a, acc) → movingAt s (leafTr ctx va e l).pa = false →
        ∃ t, exec (.walkComplete core ctx va) s = .next t ∧ t = { addWalkc s (coreDie core) acc with cores := t.cores } ∧
          (getCore t core).log = [] ∧ leafTr ctx va e l ∈ (getCore t core).tlb)) ∧
    ((getCore s core).log = [] → Still (.sideLogRetryTick core) s) ∧
    (∀ e g u l w, (getCore s core).log = [e] → mfind s.groups e.gid = some g → e.bytes ≠ [] →
      translate s core e.ctx [] e.va 1 = (u, .np l w) →
      ∃ t, exec (.sideLogRetryTick core) s = .next t ∧ (getCore t core).log = [e] ∧ HomeSame s t) ∧
    (∀ e g u pa a l, (getCore s core).log = [e] → mfind s.groups e.gid = some g → e.reds = [] → e.atoms = [] →
      translate s core e.ctx [] e.va 1 = (u, .ok pa) → runs (e.bytes.map (fun b => (pa + b.1, b.2))) = [(a, l)] →
      (windowFull u (gPart s g) 0 (List.replicate e.bytes.length pa) = true →
        ∃ t, exec (.sideLogRetryTick core) s = .next t ∧ (getCore t core).log = [e] ∧ HomeSame s t) ∧
      (windowFull u (gPart s g) 0 (List.replicate e.bytes.length pa) = false →
        ∃ t, exec (.sideLogRetryTick core) s = .next t ∧ (getCore t core).log = [] ∧
        (storePlace u g a false = 0 → (∀ i, i < l.length → PlainAt s (a + i)) →
          (∀ i, i < l.length → (engRead1 t (gPair g) (a + i)).1 = l.getD i 0) ∧
          ∀ sc, e.rel = some sc → sc ≠ 0 → ∀ i, i < l.length → dieByte t (gDie g) (a + i) = l.getD i 0)))) ∧
  (∀ s loc sec unc, sec < 2 ^ 42 →
    ∃ t, exec (.storeWriteBack loc sec unc) s = .next t ∧
      (match loc with
       | .l1 pair => mfind t.l1 (l1Key pair sec) = none ∧ (∀ a, ¬ DirtyAt s a → memByte t a = memByte s a) ∧
           ∀ k i, mfind s.l1 (l1Key pair sec) = some k → i < 128 → k.dirty.getLsbD i = true → PlainAt s (128 * sec + i) →
             dieByte t (pairDie pair) (128 * sec + i) = secByte k.data i
       | .die d => mfind t.dc (dcKey d sec) = none ∧
           (isGuest s d sec = true → (∀ a, ¬ DirtyAt s a → memByte t a = memByte s a) ∧
             ∀ k i, mfind s.dc (dcKey d sec) = some k → i < 128 → k.dirty.getLsbD i = true → PlainAt s (128 * sec + i) →
               memByte t (128 * sec + i) = secByte k.data i) ∧
           (isGuest s d sec = false → unc = false → (∀ x ∈ s.ecc, x.2 = false) → HomeSame s t) ∧
           (isGuest s d sec = false → unc = true → ∀ k i, mfind s.dc (dcKey d sec) = some k → i < 4 → granAny k.dirty i = true →
             granFull k.valid i = false → mfind t.poison (4 * sec + i) = some true))) ∧
  (∀ s gid g va, mfind s.groups gid = some g →
    (g.resident = false ∨ heldOk g va = false ∨ (∃ f ∈ g.sectors, f.1 = va) → Still (.fetchSectorArrival gid va) s) ∧
    (g.resident = true → heldOk g va = true → (∀ f ∈ g.sectors, f.1 ≠ va) → ∀ m r, fetchSector s g va = (m, r) →
      HomeSame s m ∧ (r = none → exec (.fetchSectorArrival gid va) s = .next m) ∧
      ∀ f g1, r = some f → mfind m.groups gid = some g1 → exec (.fetchSectorArrival gid va) s =
        .next (put m gid { g1 with sectors := g1.sectors.filter (fun x => heldOk g1 x.1) ++ [(va, f)] })))

/-! ### The host, the fabric and device time (R374 to R386, R439) -/

/-- R374 to R380, R383 to R386, R439: a host request is admitted by its requester's window, held or frozen; a register of a window is
written in the fields that the writer may write; ports change state as R383 says, with vector 4 in every partition and their flits
handed on; a flit is dropped, acknowledged or delivered; a timer acts on its flow; the time is set forward, locked and unlocked.
The model's choices among these: where a partition's offsets lie in physical memory (assumption log 8), the record of a frozen host
request (assumption log 58), an access of a window at an offset that is no multiple of 8 (assumption log 59), what a received atomic
reads of its flit (assumption log 65), the number that an acknowledgement carries (assumption log 64), the end of the time lock and its
vector 5 (assumption log 67), what a sync sends (assumption log 68) and the rate at which the time is corrected (assumption log 118). -/
def Obligations.LinkSteps : Prop :=
  (∀ s q i st',
    let s1 := portSt s q
    let old := (mfind s.ports q).getD {}
    let live := s1 = 2 ∨ s1 = 3
    let lost := live ∧ st' ≠ 2 ∧ st' ≠ 3 ∧ ∀ j, j < 24 → j ≠ q → portLive s j = false
    let goes : Prop := ∃ t, exec i s = .next t ∧ portSt t q = st' ∧ (∀ j, j ≠ q → portSt t j = portSt s j) ∧ t.groups = s.groups ∧
      (¬ lost → HomeSame s t ∧ ∀ p, p < 8 → (getPart t p).intStatus = (getPart s p).intStatus ||| 16) ∧
      (¬ live ∨ st' = 2 ∨ st' = 3 → t.flowsT = s.flowsT) ∧
      (lost → (∀ p, p < 8 → (getPart t p).intStatus.testBit 4 = true) ∧ ∀ x ∈ t.flowsT, x.2.unacked = [])
    (24 ≤ q → ∀ k ∈ [Instr.portEnable q, .portFence q, .portUnfence q, .portLaneLoss q, .portKeepaliveLoss q, .portRetrainTimeout q,
      .flitReplay q, .keepaliveSend q], Still k s) ∧
    (∀ lanes, 24 ≤ q → Still (.portTrainingResult q lanes) s) ∧
    (q < 24 →
      (s1 ≠ 0 → Still (.portEnable q) s) ∧ (s1 = 5 → Still (.portFence q) s) ∧ (s1 ≠ 5 → Still (.portUnfence q) s) ∧
      (¬ live → Still (.portLaneLoss q) s ∧ Still (.portKeepaliveLoss q) s ∧ Still (.flitReplay q) s ∧ Still (.keepaliveSend q) s) ∧
      (live → let w : WireF := ⟨none, 0, { kind := 7, port := q }⟩
        exec (.keepaliveSend q) s = .next { s with ports := mset s.ports q { old with
          wire := old.wire ++ [w], replayBuf := (old.replayBuf ++ [w]).drop (old.replayBuf.length + 1 - 64) } }) ∧
      (live → ∃ t, exec (.portLaneLoss q) s = .next t ∧ ((mfind t.ports q).getD {}).lanes = old.lanes - 1) ∧
      (s1 ≠ 4 → Still (.portRetrainTimeout q) s) ∧
      (∀ lanes, s1 ≠ 1 → (s1 ≠ 4 ∨ (lanes ≠ 8 ∧ lanes ≠ 4)) → Still (.portTrainingResult q lanes) s) ∧
      (∀ lanes, s1 = 1 → lanes ≠ 8 → lanes ≠ 4 → old.attempts + 1 ≠ 3 →
        exec (.portTrainingResult q lanes) s = .next { s with ports := mset s.ports q { old with attempts := old.attempts + 1 } }) ∧
      (s1 = 0 → (i, st') = (.portEnable q, 1) → goes) ∧ (s1 ≠ 5 → (i, st') = (.portFence q, 5) → goes) ∧
      (s1 = 5 → (i, st') = (.portUnfence q, 1) → goes) ∧
      (s1 = 1 ∨ s1 = 4 → (i, st') = (.portTrainingResult q 8, 2) ∨ (i, st') = (.portTrainingResult q 4, 3) → goes) ∧
      (∀ lanes, s1 = 1 → lanes ≠ 8 → lanes ≠ 4 → old.attempts + 1 = 3 → (i, st') = (.portTrainingResult q lanes, 0) → goes) ∧
      (live → (i, st') = (.portLaneLoss q, 4) ∨ (i, st') = (.portKeepaliveLoss q, 0) → goes) ∧
      (s1 = 4 → (i, st') = (.portRetrainTimeout q, 0) → goes) ∧
      (live → let l := s.time :: old.replays.filter (fun t => s.time < t + 1000000)
        (16 ≤ l.length → (i, st') = (.flitReplay q, 4) → goes) ∧
        (l.length < 16 → exec (.flitReplay q) s =
          .next { s with ports := mset s.ports q { old with replays := l, wire := old.wire ++ old.replayBuf } })))) ∧
  (∀ s pkg, (144 ≤ pkg ∨ pkg = s.pkg → Still (.markUnreachable pkg) s) ∧
    (pkg < 144 → pkg ≠ s.pkg →
      let m := { s with
        unreachable := mset s.unreachable pkg true,
        flowsT := s.flowsT.map (fun x => (x.1, { x.2 with unacked := if x.1 / 64 = pkg then [] else x.2.unacked })) }
      (∃ t, exec (.markUnreachable pkg) s = .next t ∧ t.unreachable = m.unreachable ∧ t.flowsT = m.flowsT ∧ t.groups = s.groups) ∧
      ((∀ x ∈ s.flowsT, x.1 / 64 = pkg → ∀ f ∈ x.2.unacked, f.kind ≠ 0 ∧ f.kind ≠ 3) → exec (.markUnreachable pkg) s = .next m) ∧
      (∀ k r f, s.flowsT = [(k, r)] → k / 64 = pkg → r.unacked = [f] → f.kind = 0 ∨ f.kind = 3 → f.tag = 0 →
        ∃ t, exec (.markUnreachable pkg) s = .next t ∧ let pa := pkg * 2 ^ 40 + f.off
          (∀ x ∈ t.l1, x.1 % 2 ^ 42 ≠ sectorOf pa) ∧ (∀ a, Outside pa f.put.length a → memByte t a = memByte s a) ∧
          ∀ i, i < f.put.length → memByte t (pa + i) = if memByte s (pa + i) = f.put.getD i 0 then f.old.getD i 0 else memByte s (pa + i)) ∧
      (∀ k r f, s.flowsT = [(k, r)] → k / 64 = pkg → r.unacked = [f] → f.kind = 0 ∨ f.kind = 3 → f.tag ≠ 0 →
        ∃ t, exec (.markUnreachable pkg) s = .next t ∧ let c := (f.tag - 1) / (64 * 512)
          (getCtx t c).seq = ((getCtx s c).seq + 1) % 2 ^ 32))) ∧
  (∀ s q (flit : BitVec 2048), let f := flit.toNat
    let old := (mfind s.ports q).getD {}
    let key := flowKey (fld f 15 8) (fld f 21 16)
    (24 ≤ q ∨ portLive s q = false ∨ old.asked = true → Still (.flitReceived q flit) s) ∧
    (q < 24 → portLive s q = true → old.asked = false →
      (flitBad f = true → exec (.flitReceived q flit) s =
        .next { s with ports := mset s.ports q { old with dropped := (old.dropped + 1) % 2 ^ 32, asked := true } }) ∧
      (flitBad f = false →
        (fld f 7 0 ≠ s.pkg ∨ 6 ≤ fld f 21 16 % 8 ∨ flKind f = 7 → Still (.flitReceived q flit) s) ∧
        (fld f 7 0 = s.pkg → fld f 21 16 % 8 < 6 → flKind f = 5 → ∀ r, mfind s.flowsT key = some r → exec (.flitReceived q flit) s = .next { s with
          flowsT := mset s.flowsT key { r with unacked := r.unacked.filter (fun x => !(seqDist (flSeq f) x.seq < 2 ^ 23)) } }) ∧
        (fld f 7 0 = s.pkg → fld f 21 16 % 8 < 6 → flKind f ≠ 5 → flKind f ≠ 7 → let r := (mfind s.flowsR key).getD {}
          let answered := flKind f = 1 ∨ flKind f = 3
          let noRoom := answered ∧ 256 ≤ (match mfind s.flowsT key with | some x => x.unacked.length | none => 0) + r.held.length
          let pa := s.pkg * 2 ^ 40 + fld f 103 64
          (256 ≤ seqDist (flSeq f) r.next ∨ (∃ h ∈ r.held, h.1 = flSeq f) ∨ noRoom → Still (.flitReceived q flit) s) ∧
          (r.held = [] → r.seen = [] → flSeq f = r.next → ¬ noRoom → flitBusy s f = true →
            ∃ t, exec (.flitReceived q flit) s = .next t ∧ HomeSame s t ∧
              (mfind t.flowsR key).map (fun x => (x.next, x.held, x.seen)) = some (r.next, [(flSeq f, flit)], [])) ∧
          (r.held = [] → r.seen = [] → flSeq f = r.next → ¬ noRoom → flitBusy s f = false → ∃ t, exec (.flitReceived q flit) s = .next t ∧
            (let next := (r.next + 1) % 2 ^ 24
             mfind t.flowsR key = some (if 16 ≤ r.since + 1 then { next := next, acked := next }
               else { next := next, since := r.since + 1, acked := r.acked })) ∧
            (flKind f = 0 → (∀ x ∈ flitBytes f, x.1 < 768 * 2 ^ 30 → PlainAt s (s.pkg * 2 ^ 40 + x.1) → memByte t (s.pkg * 2 ^ 40 + x.1) = x.2) ∧
              ∀ a, (∀ x ∈ flitBytes f, x.1 < 768 * 2 ^ 30 → s.pkg * 2 ^ 40 + x.1 ≠ a) → memByte t a = memByte s a) ∧
            (flKind f = 3 → ∀ fn ty b cmp, Config.atomicFlit flit = (fn, ty, b, cmp) → HomeOutside pa (atomB ty) s t ∧
              (fld f 103 64 + atomB ty ≤ 768 * 2 ^ 30 → pa % atomB ty = 0 → mfind s.poison (granOf pa) ≠ some true → s.ecc = [] → s.eccDc = [] →
                (∀ i, i < atomB ty → PlainAt s (pa + i)) →
                memRead t pa (atomB ty) = atomStepNew fn ty cmp b (memRead s pa (atomB ty)) % 2 ^ (8 * atomB ty))) ∧
            (flKind f ≠ 0 → flKind f ≠ 3 → HomeSame s t)))))) ∧
  (∀ s src flow, let key := flowKey src flow
    (∀ r, mfind s.flowsR key = some r →
      (r.since = 0 → Still (.flowAckTimer src flow) s) ∧
      (r.since ≠ 0 → ∃ t, exec (.flowAckTimer src flow) s = .next t ∧
        t = { s with flowsR := mset s.flowsR key { r with since := 0, acked := r.next }, ports := t.ports, rr := t.rr } ∧
        ∀ q, nextPort s = some q → ((mfind t.ports q).getD {}).wire =
          ((mfind s.ports q).getD {}).wire ++ [⟨some (key / 64), key % 64, { kind := 5, seq := r.next, port := q }⟩])) ∧
    (mfind s.flowsR key = none → Still (.flowAckTimer src flow) s) ∧
    (mfind s.flowsT key = none → Still (.flowRetransmitTimeout src flow) s) ∧
    (∀ r f rest, mfind s.flowsT key = some r → r.unacked = f :: rest →
      (nextPort s = none → exec (.flowRetransmitTimeout src flow) s = .next { s with flowsT := mset s.flowsT key r }) ∧
      ∀ q, nextPort s = some q → exec (.flowRetransmitTimeout src flow) s =
        .next { toWire (usePort s q) q ⟨some (key / 64), key % 64, { f with port := q }⟩ with
          flowsT := mset s.flowsT key { r with unacked := { f with port := q } :: rest } }) ∧
    (∀ r, mfind s.flowsT key = some r → r.unacked = [] → Still (.flowRetransmitTimeout src flow) s)) ∧
  (∀ s (v : W64), exec (.timesetWrite v) s = .next (if s.timeLocked = false ∧ s.time < v.toNat then { s with timeSet := v.toNat, time := v.toNat } else s) ∧
    (s.timeMaster = false → Still .timeSyncSend s) ∧
    (s.timeMaster = true → ∃ t, exec .timeSyncSend s = .next t ∧ t = { s with flowsT := t.flowsT, ports := t.ports } ∧
      ∀ q, q < 24 → if portLive s q = true then ∃ n m, ((mfind t.ports q).getD {}).wire = ((mfind s.ports q).getD {}).wire ++
          [⟨none, 5, { kind := 6, seq := n, port := q }⟩, ⟨none, 5, { kind := 6, seq := m, port := q }⟩]
        else mfind t.ports q = mfind s.ports q) ∧
    (let n := v.toNat % 256
     let ok := n ≤ 143 ∧ n ≠ s.pkg ∧ ∀ q, q < 24 → portSt s q = 0 ∨ portSt s q = 5
     (ok → ∃ t, exec (.packageNumberWrite v) s = .next t ∧ t.pkg = n ∧
       (s.pkg ≤ 143 → sortedKeys s.mem = true → (∀ x ∈ s.veils, x.len = 0 ∨ x.lo / 2 ^ 40 = (x.lo + x.len - 1) / 2 ^ 40) →
         (∀ o, o < 2 ^ 40 → memByte t (n * 2 ^ 40 + o) = memByte s (s.pkg * 2 ^ 40 + o) ∧
           memByte t (s.pkg * 2 ^ 40 + o) = memByte s (n * 2 ^ 40 + o)) ∧
         ∀ a, a / 2 ^ 40 ≠ n → a / 2 ^ 40 ≠ s.pkg → memByte t a = memByte s a)) ∧
     (¬ ok → Still (.packageNumberWrite v) s))) ∧
  (∀ s q (off : W32),
    (s.timeSource ≠ 2 → s.timeSource ≠ 1 ∨ portLive s q = false → Still (.timeSyncReceive q off) s) ∧
    (s.timeSource = 2 ∨ (s.timeSource = 1 ∧ portLive s q = true) →
      (off.toInt.natAbs < 25 → exec (.timeSyncReceive q off) s = .next { s with
        timeOffset := off, slew := -(10000 * off.toInt), syncGood := min 8 (s.syncGood + 1), timeLocked := min 8 (s.syncGood + 1) == 8 || s.timeLocked }) ∧
      (25 ≤ off.toInt.natAbs → ∃ t, exec (.timeSyncReceive q off) s = .next t ∧
        t = { s with timeLocked := false, syncGood := 0, timeOffset := off, slew := -(10000 * off.toInt), parts := t.parts } ∧
        (s.timeLocked = true → ∀ p, p < 8 → (getPart t p).intStatus = (getPart s p).intStatus ||| 32) ∧ (s.timeLocked = false → t.parts = s.parts))) ∧
    (s.timeLocked = false → Still .timeLockLoss s) ∧
    (s.timeLocked = true → ∃ t, exec .timeLockLoss s = .next t ∧ t.timeLocked = false ∧ t.syncGood = 0 ∧ t.slew = 0 ∧
      ∀ p, p < 8 → (getPart t p).intStatus = (getPart s p).intStatus ||| 32)) ∧
  (∀ s (r : HostReq), let pa := hostPa s r.part r.off
    let whole := match r.data with | some l => l.length = r.len | none => r.atom = none
    let held := s.heldReqs.any (fun h => h.requester == r.requester)
    (s.booted = false ∨ 8 ≤ r.part ∨ ¬ whole → Still (.hostRequest r) s) ∧
    (s.booted = true → r.part < 8 → whole →
      (reqFrozen s r.requester.toNat = true ∨ held = true → exec (.hostRequest r) s = .next { s with heldReqs := s.heldReqs ++ [r] }) ∧
      (reqFrozen s r.requester.toNat = false → held = false → hostCheck s r = none → hostBusy s r = true →
        exec (.hostRequest r) s = .next { s with heldReqs := s.heldReqs ++ [r] }) ∧
      (reqFrozen s r.requester.toNat = false → held = false → hostCheck s r = none → hostBusy s r = false →
        (r.data = none → ∃ t, exec (.hostRequest r) s = .next t ∧ HomeSame s t) ∧
        (∀ l, r.data = some l → ∃ t, exec (.hostRequest r) s = .next t ∧ HomeOutside pa r.len s t ∧
          (r.atom = none → ∀ i, i < r.len → PlainAt s (pa + i) → memByte t (pa + i) = l.getD i 0) ∧
          (∀ f, r.atom = some f → s.poison = [] → s.ecc = [] → (∀ i, i < r.len → PlainAt s (pa + i)) →
            memRead t pa r.len = Config.hostAtomic f (memRead s pa r.len) (ofBytes l) % 2 ^ (8 * r.len)))) ∧
      (∀ k, reqFrozen s r.requester.toNat = false → held = false → hostCheck s r = some k →
        exec (.hostRequest r) s = .next (takeFreeze { s with heldReqs := s.heldReqs ++ [r] } r.part none (.requester r.requester.toNat) 3
          r.requester.toNat k 0 pa (if r.data.isNone then 1 else if r.atom.isSome then 4 else 2))))) ∧
  (∀ s, s.booted = false → (∀ fn off v, fn ≠ 0 ∨ s.bootStatus = 0 → Still (.registerWrite fn off v) s ∧ windowRead s fn off = none) ∧
    (s.bootStatus ≠ 0 → windowRead s 0 0 = some s.bootStatus)) ∧
  (∀ s p (v : W64), p < 8 → s.booted = true → let q := getPart s p
    let x := v.toNat
    let now := fun (i : Instr) (q' : Part) => exec i s = .next { s with parts := mset s.parts p q' }
    let both := fun (off : Nat) (q' : Part) => now (.registerWrite 0 (0x8000 + 0x1000 * p + off) v) q' ∧ now (.registerWrite (p + 1) off v) q'
    (∀ fn off, off % 8 ≠ 0 → Still (.registerWrite fn off v) s) ∧ (∀ fn off, 8 < fn → Still (.registerWrite fn off v) s) ∧
    (∃ t, exec (.registerWrite 0 (0x8000 + 0x1000 * p) v) s = .next t ∧ HomeOutside (x / 2 ^ 12 * 2 ^ 12) 0x2000 s t ∧
      t = { s with parts := mset s.parts p { q with ctxBase := x / 2 ^ 12 * 2 ^ 12 }, mem := t.mem, veils := t.veils }) ∧
    Still (.registerWrite (p + 1) 0 v) s ∧
    (fld x 62 62 = 1 → fld x 61 60 < 3 → 16 ≤ fld x 53 48 → fld x 53 48 ≤ 47 → (q.rmq.filter (fun r => r.phase == 0)).length < 16 →
      let va := if fld x 61 60 = 2 then fld x 47 0 else fld x 47 16 * 2 ^ 16
      let gen := if fld x 61 60 = 0 then (q.rmGen + 1) % 2 ^ 32 else q.rmGen
      both 0x40 { q with
        rmVa := va, rmSizeLog := fld x 53 48, rmCtx := fld x 59 54, rmFunc := fld x 61 60, rmGen := gen,
        rmq := q.rmq ++ [{ func := fld x 61 60, va := va, sizeLog := fld x 53 48, ctx := fld x 59 54, gen := gen }] }) ∧
    (∀ off, windowRead s (p + 1) (8 * off) = if off < 512 then windowRead s 0 (0x8000 + 0x1000 * p + 8 * off) else none) ∧
    windowRead s (p + 1) 0x48 = some (q.rmGen + 2 ^ 32 * q.rmDone) ∧
    now (.registerWrite 0 (0x8008 + 0x1000 * p) v) { q with frzBase := x / 2 ^ 6 * 2 ^ 6 } ∧ Still (.registerWrite (p + 1) 8 v) s ∧
    both 0x50 { q with migThresh := fld x 15 0, migMax := fld x 23 16, migSettle := fld x 39 24 } ∧
    both 0x80 { q with dirBase := fld x 47 12 * 2 ^ 12, dirLog := fld x 51 48 } ∧ both 0x90 { q with lowMark := fld x 15 0 } ∧
    both 0xC0 { q with scrBase := fld x 47 12 * 2 ^ 12, scrLog := fld x 51 48 } ∧
    both 0xC8 { q with idxBase := fld x 47 12 * 2 ^ 12, idxLog := fld x 51 48 } ∧
    both 0x300 { q with smpBase := fld x 47 12 * 2 ^ 12, smpLog := fld x 51 48, smpPeriod := fld x 56 52, smpEn := bitAt x 57 } ∧
    both 0x308 { q with smpCons := fld x 63 32 })

/-! ### Stacks, watch and trust (R390 to R409) -/

/-- R390 to R409: a change of ganging takes effect with its regions zero; a change of rate is deferred behind a save; a scrub read
moves on; a core samples a group; counters are selected and counted by slices; the device boots by its flash, signs under the next
index, slows, trips and loses its supply. The model's choices among these: the draw of a sample tick comes with its
event (assumption log 10), the flash (assumption log 15, 40), what a histogram record holds (assumption log 69), what a loss of supply
keeps (assumption log 70), and the scrub settings that let no scrub read happen (assumption log 72). -/
def Obligations.WatchSteps : Prop :=
  (∀ s k, let c := getStack s k
    let now := fun (i : Instr) (c' : Stack) => exec i s = .next { s with stackCtl := mset s.stackCtl k c' }
    (12 ≤ k → ∀ v ok, ∀ i ∈ [Instr.gangWrite k v, .gangInitDone k, .rateChangeRequest k, .rateChangeStart k, .rateChangeDone k ok, .scrubRead k,
      .scrubEscalateTick k], Still i s) ∧
    (k < 12 →
      (∀ v, let m := c.gangMask ||| (c.gangNew.getD c.gang ^^^ v)
        now (.gangWrite k v) { c with gangNew := if m = 0 then none else some v, gangMask := m }) ∧
      (c.gangNew = none → Still (.gangInitDone k) s) ∧
      (∀ n, c.gangNew = some n → ∃ t, exec (.gangInitDone k) s = .next t ∧
        ((getStack t k).gang = n ∧ (getStack t k).gangNew = none ∧ (getStack t k).gangMask = 0) ∧
        (s.heldReqs = [] → s.flowsR = [] → getStack t k = { c with gang := n, gangNew := none, gangMask := 0 } ∧
        ∀ a, memByte t a = if (∃ r, r < 64 ∧ c.gangMask.getLsbD r = true ∧ stackBase s k + r * 2 ^ 30 ≤ a ∧ a < stackBase s k + (r + 1) * 2 ^ 30) then 0
          else memByte s a)) ∧
      (c.rateStatus = 1 ∨ c.rateStatus = 3 → Still (.rateChangeRequest k) s) ∧
      (c.rateStatus ≠ 1 → c.rateStatus ≠ 3 → now (.rateChangeRequest k) { c with rateGo := true, rateTo := c.rateWant, rateStatus := if saveOn s k then 3 else 1 }) ∧
      (c.rateStatus ≠ 3 ∨ saveOn s k = true → Still (.rateChangeStart k) s) ∧
      (c.rateStatus = 3 → saveOn s k = false → now (.rateChangeStart k) { c with rateStatus := 1, rateTo := c.rateWant }) ∧
      (c.rateStatus ≠ 1 → ∀ ok, Still (.rateChangeDone k ok) s) ∧
      (c.rateStatus = 1 → s.heldReqs = [] → s.flowsR = [] →
        now (.rateChangeDone k true) { c with rate := c.rateTo, rateStatus := 2, rateGo := false } ∧
        now (.rateChangeDone k false) { c with rateWant := if c.rateWant = c.rateTo then c.rate else c.rateWant, rateStatus := 4, rateGo := false }) ∧
      (c.rateStatus = 1 → ∀ ok, ∃ t, exec (.rateChangeDone k ok) s = .next t ∧ (getStack t k).rateGo = false ∧
        (getStack t k).rate = (if ok then c.rateTo else c.rate) ∧ (getStack t k).rateStatus = if ok then 2 else 4) ∧
      (c.scrubHours = 0 ∨ c.scrubThresh = 0 ∨ scrubBusy s k = true → Still (.scrubRead k) s) ∧
      (scrubBusy s k = true → Still (.scrubEscalateTick k) s) ∧
      (let late := c.scrubPos + 2 ^ 25 ≤ scrubDue s c ∨ (c.escal = true ∧ c.scrubPos < scrubDue s c)
       (scrubBusy s k = false → c.scrubHours = 0 ∨ ¬ late → (c.escal = false → Still (.scrubEscalateTick k) s) ∧
         (c.escal = true → now (.scrubEscalateTick k) { c with escal := false })) ∧
       (∀ i, (i = .scrubRead k ∧ c.scrubThresh ≠ 0) ∨ (i = .scrubEscalateTick k ∧ late) → c.scrubHours ≠ 0 → scrubBusy s k = false →
        ∃ t, exec i s = .next t ∧ HomeSame s t ∧ (getStack t k).scrubPos = (c.scrubPos + 1) % 2 ^ 29 ∧
          (getStack t k).escal = (c.escal || i == .scrubEscalateTick k) ∧
          ∀ g, granOf (stackBase s k + 128 * c.scrubPos) ≤ g → g < granOf (stackBase s k + 128 * c.scrubPos) + 4 →
            mfind t.ecc g = none ∧ (mfind t.poison g = if mfind s.ecc g = some true then some true else mfind s.poison g))))) ∧
  (∀ s core draw, (384 ≤ core → Still (.pcSampleTick core draw) s) ∧
    (core < 384 → let gs := residents s core
      let m := { s with lfsr := mset s.lfsr core (BitVec.ofNat 32 draw) }
      (gs = [] → exec (.pcSampleTick core draw) s = .next m) ∧
      (∀ gid g, gs[draw % 2 ^ 32 % gs.length]? = some (gid, g) →
        exec (.pcSampleTick core draw) s = .next (smpPush m (gPart m g) (smpRec m g (reasonOf m gid g) 0 0))))) ∧
  (∀ s p rec_, let q := getPart s p
    let n := 2 ^ smpLogEff q.smpLog
    (q.smpEn = false → smpPush s p rec_ = s) ∧
    (q.smpEn = true → (q.smpProd + 2 ^ 32 - q.smpCons) % 2 ^ 32 = n →
      smpPush s p rec_ = { s with parts := mset s.parts p { q with smpDropped := (q.smpDropped + 1) % 2 ^ 32 } }) ∧
    (q.smpEn = true → (q.smpProd + 2 ^ 32 - q.smpCons) % 2 ^ 32 ≠ n →
      let t := smpPush s p rec_
      let a := q.smpBase + 32 * (q.smpProd % n)
      getPart t p = { q with smpProd := (q.smpProd + 1) % 2 ^ 32 } ∧ HomeOutside a 32 s t ∧ memRead t a 32 = rec_ % 2 ^ 256)) ∧
  (∀ s p i (v : W64), let x := v.toNat % 256
    (8 ≤ p ∨ 64 ≤ i ∨ selOk x = false → Still (.counterSelectWrite p i v) s) ∧
    (p < 8 → i < 64 → selOk x = true → ∃ t, exec (.counterSelectWrite p i v) s = .next t ∧ t = { s with parts := t.parts } ∧
      (∀ j, j ≠ p → mfind t.parts j = mfind s.parts j) ∧
      (∀ j, j ≠ i → let c := mget {} (getPart s p).ctrs j
        mget {} (getPart t p).ctrs j = c ∨
          (c.inSlice = false ∧ mget {} (getPart t p).ctrs j = { c with inSlice := true, counted := c.counted + 1 })) ∧
      (∀ j ∈ ctrActive t p, (mget {} (getPart t p).ctrs j).inSlice = true) ∧
      (x = 0 → mget {} (getPart t p).ctrs i = {}) ∧
      (x ≠ 0 → ∃ b : Bool, mget {} (getPart t p).ctrs i = { sel := x, raw := 0, counted := b.toNat, elapsed := 1, inSlice := b }))) ∧
  (∀ s, ∃ t, exec .counterSlice s = .next t ∧ t = { s with slice := s.slice + 1, parts := t.parts } ∧
    ∀ p i, p < 8 → let c := mget {} (getPart s p).ctrs i
      ∃ b : Bool, mget {} (getPart t p).ctrs i =
        if c.sel = 0 then c else { c with elapsed := c.elapsed + 1, inSlice := b, counted := c.counted + b.toNat }) ∧
  (∀ s,
    (let n := if s.flash.hist = 0 then 0 else (s.flash.newest + 1) % 64
     exec .histogramRecord s = .next { s with
       free := s.free + 1, flash := { s.flash with ring := mset s.flash.ring n (histNow s), hist := s.flash.hist + 1, newest := n } }) ∧
    (s.booted = true → Still .boot s) ∧
    (s.booted = false → exec .boot s = .next { s with
      booted := bootFail s.flash == 0, bootStatus := bootFail s.flash,
      trims := if bootFail s.flash = 0 ∨ 5 ≤ bootFail s.flash then (s.flash.conf.map (·.trims)).getD s.trims else s.trims }) ∧
    (∀ c, s.flash.conf = some c → (bootFail s.flash = 0 ↔ c.root = s.flash.rom ∧ s.flash.minVersion ≤ c.version ∧
      (∀ l ∈ [c.pairs0, c.pairs1, c.pairs2, c.pairs3], pairsOk l = true) ∧ (∀ x ∈ s.flash.images, x.root = s.flash.rom) ∧ s.flash.link = true)) ∧
    (s.flash.conf = none → bootFail s.flash = 1) ∧
    (∀ nonce, exec (.attestation nonce) s = .next (if 2 ^ 20 ≤ s.flash.sigIndex then { s with attStatus := 2 } else
      { s with flash := { s.flash with sigIndex := s.flash.sigIndex + 1 }, attStatus := 1, attIndex := s.flash.sigIndex, attNonce := nonce,
               attHash := confHash s.flash, attImages := s.flash.images.map (·.hash), attSig := Config.signature nonce s.flash.sigIndex })) ∧
    exec .powerCapExceeded s =
      .next (if s.powerCap < s.power ∨ 105 ≤ s.temp then { s with clockMHz := max 350 (s.clockMHz - 50) } else s) ∧
    (∀ w, exec (.powerLoss w) s = .next { State.reset with
      free := s.free, agenda := s.agenda,
      flash := { s.flash with base := mfind s.flash.ring s.flash.newest,
                              ring := if w then mdel s.flash.ring (histNext s.flash) else s.flash.ring } }) ∧
    ∃ t, exec .thermalTrip s = .next t ∧ t.tripped = true ∧ (∀ q, q < 24 → portSt t q = 5) ∧ t.groups = s.groups ∧
      (∀ p, p < 8 → (getPart t p).intStatus.testBit 1 = true) ∧
      ((∀ x ∈ s.flowsT, ∀ f ∈ x.2.unacked, f.kind ≠ 0 ∧ f.kind ≠ 3) → HomeSame s t))

/-! ### The machine as a whole (R7, R38 to R52, R66 to R69, R76 to R78, R89, R90, R115) -/

/-- R48 to R50, R68, R89, R115, R440: A STEP RUNS THE DECODED INSTRUCTION. The turn of a group that may issue, with the word at its
program counter held and decoded, is exec of that instruction; a hart's turn is exec of the command it fetched; an event is its own
meaning. A group that holds no sector of its program counter fetches it, and so does one whose earlier fetch
found no page, a forbidden one or poison (R162); the sector is what memory holds at the address that the program counter translates
to. A word that does not decode raises its trap, and no instruction runs. An instruction
that names a register of a result to come waits, and so does one that reaches memory behind a txend whose commit is still to come (R185).
Before boot no event comes about but the boot, a loss of supply and, after a boot that failed, the writes to function 0 (R407). The event of a scroll instruction may set out before its turn (R440). Whose turn it is the
model takes from its agenda (the model's choice, assumption log 1). -/
def Obligations.StepRunsDecoded : Prop :=
  let runs := fun (s t : State) (gid : Option Nat) (i : Instr) =>
    step s = match exec i t with | .next u => .next (endTurn { s with agenda := s.agenda.tail } u gid i) | .fault r => .fault r | .refused r => .refused r
  let issues := fun (s s0 : State) (gid : Nat) (g : Group) (k : Kernel) (busy : BitVec 10) (bits : BitVec 1024) =>
    let w := bits.extractLsb' (8 * (g.pc % 128)) 96
    let d := decodeWord (8 * krChunks k.record) (krTiles k.record) w
    let trailer := (bits.extractLsb' 960 64).toNat
    (2 ^ 10 ≤ trailer → step s = .next (takeFault s0 gid 0x04 none (2 ^ 32 - 1) trailer)) ∧
    (trailer < 2 ^ 10 →
      (∀ e, d = .error e → step s = .next (takeFault s0 gid (if e = .illegal then 0x01 else 0x02) none (2 ^ 32 - 1) w.toNat)) ∧
      (∀ i, d = .ok i →
        (waitsFor g i = true → step s = .next (put s0 gid { g with st := .stalled 3, burst := if waitsInBurst g i then 0 else g.burst })) ∧
        (waitsFor g i = false → commitFirst g i = true → step s = .next (put s0 gid { g with st := .stalled 9 })) ∧
        (waitsFor g i = false → commitFirst g i = false →
          runs s { put s0 gid { g with
              region := if bits.getLsbD (960 + g.pc % 128 / 12) then { entry := g.pc, e := g.e, stack := g.stack } else g.region,
              sectors := g.sectors.filter (fun x => heldOk g x.1) } with cur := .group gid busy } (some gid) i)))
  (∀ s core slot busy rest gid g k f, s.agenda = .issue core slot busy :: rest → groupAt s core slot = some (gid, g) →
    gKernel s g = some k → mfind s.groups gid = some g → canIssue s g = true → g.asyncF = [] → g.sectors.find? (fun x => x.1 == secBase g.pc) = some f →
    let s0 := { s with agenda := rest }
    (∀ bits, f.2 = .ok bits → issues s s0 gid g k busy bits) ∧
    ((∀ bits, f.2 ≠ .ok bits) →
      let r := fetchSector (put s0 gid { g with sectors := g.sectors.filter (fun x => x.1 != secBase g.pc) }) g (secBase g.pc)
      (∀ l, r.2 = some (.notPresent l) → step s = .next (takeFault r.1 gid 0x10 none (2 ^ 32 - 1) (detNp g.pc l 3 false))) ∧
      (∀ n, r.2 = some (.forbidden n) → step s = .next (freezeGroup r.1 gid n g.pc 3)) ∧
      (∀ pa l, r.2 = some (.poisoned pa l) →
        step s = .next (takeFault r.1 gid 0x41 none (2 ^ 32 - 1) (detMem g.pc 0 9 false l (pa / 32 * 32)))) ∧
      ∃ g1, mfind r.1.groups gid = some g1 ∧ g1 = { g with sectors := g1.sectors, tx := g1.tx } ∧
        (r.2 = none → step s = .next (put r.1 gid { g1 with st := .stalled 1 })) ∧
        (∀ bits, r.2 = some (.ok bits) →
          let g2 := { g1 with sectors := g1.sectors ++ [(secBase g.pc, .ok bits)] }
          issues s (put r.1 gid g2) gid g2 k busy bits))) ∧
  (∀ s core slot busy rest gid g, s.agenda = .issue core slot busy :: rest → groupAt s core slot = some (gid, g) →
    mfind s.groups gid = some g → canIssue s g = true → g.asyncF = [] → g.sectors.find? (fun x => x.1 == secBase g.pc) = none →
    runs s (put { s with agenda := rest } gid { g with st := .stalled 1 }) none (.fetchSectorArrival gid (secBase g.pc))) ∧
  (∀ s core slot busy rest gid g, s.agenda = .issue core slot busy :: rest → groupAt s core slot = some (gid, g) →
    canIssue s g = true → g.asyncF ≠ [] → runs s { s with agenda := rest } none (.asyncFaultReport gid)) ∧
  (∀ s g va m pa, translate s g.core (gCtx s g) [] va 2 = (m, .ok pa) → pa % 128 = 0 → windowShut m (gPart s g) 0 [pa] = false → CleanAt m g pa →
    ∃ t bits, fetchSector s g va = (t, some (.ok bits)) ∧ ∀ i, i < 128 → bits.extractLsb' (8 * i) 8 = memByte s (pa + i)) ∧
  (∀ s h rest i, s.agenda = .hart h :: rest → h < 16 → s.booted = true → hartFetch { s with agenda := rest } h = .run i →
    runs s { s with agenda := rest, cur := .hart h } none i) ∧
  (∀ s i rest, s.agenda = .event i :: rest →
    (isEvent i = true → s.booted = true ∨ bootEvent i = true ∨ (s.bootStatus ≠ 0 ∧ windowEvent i = true) → runs s { s with agenda := rest } none i) ∧
    (isEvent i = false ∨ (s.booted = false ∧ bootEvent i = false ∧ (s.bootStatus = 0 ∨ windowEvent i = false)) → step s = .next { s with agenda := rest })) ∧
  (∀ s core slot busy rest, s.agenda = .issue core slot busy :: rest →
    (groupAt s core slot = none ∨ ∃ gid g, groupAt s core slot = some (gid, g) ∧ canIssue s g = false) →
    step s = .next { s with agenda := rest }) ∧
  (∀ s core slot rest gid g, s.agenda = .send core slot :: rest → groupAt s core slot = some (gid, g) → mfind s.groups gid = some g →
    (step s = .next { s with agenda := rest } ∨
      ∃ id c, liveScroll s (gPart s g) id = some c ∧ step s = .next (put { s with agenda := rest } gid { g with st := .sent id })) ∧
    (canIssue s g = true → isSent g = false → g.asyncF = [] → ∀ bits, g.sectors.find? (fun x => x.1 == secBase g.pc) = some (secBase g.pc, .ok bits) →
      (bits.extractLsb' 960 64).toNat < 2 ^ 10 → ∀ i, groupDecode s g (bits.extractLsb' (8 * (g.pc % 128)) 96) = .ok i →
      ∀ o p owned, i.split = some (o, p) → sends o = some owned → waitsFor g i = false → commitFirst g i = false → elects g p.h = true →
      ∀ id c, Bound s g (shNo p.a) owned id c → step s = .next (put { s with agenda := rest } gid { g with st := .sent id })))

/-- R38 to R47, R89, R90: words of the opcode table written out bit by bit, and what they decode to. -/
def Obligations.DecodeWords : Prop :=
  let h0 : Hdr := { neg := false, guard := 7, burst := 0, yld := false, keep := false, reuse := false, uni := false }
  let p0 : P := { h := h0, fn := 0, ty := 0, rs := 0, d := .other .none, a := .none, b := .op .none, ext := 0 }
  let is := fun (w : Nat) (i : Instr) => decodeTableWord 96 w = some i
  is 0x0024_4020_0207_0003_2000_0000 (.add { p0 with
    h := { h0 with guard := 2, burst := 2, reuse := true }, ty := 2, d := .v false 1 7, a := .v 3, b := .op (.latch 0) }) ∧
  is 0x0170_0022_0004_0005_9007_0000 (.sub { p0 with ty := 2, rs := 2, d := .v false 0 4, a := .v 5, b := .op (.imm 7) }) ∧
  is 0x4470_2864_1011_1010_F000_0000 (.cvt { p0 with
    h := { h0 with uni := true }, fn := 8, ty := 6, rs := 4, d := .s false 0 17, a := .s 16 }) ∧
  is 0x1F70_0000_0000_F000_3F80_0000 (.movi { p0 with d := .v false 0 0, b := .raw 0x3F80 }) ∧
  is 0x6270_0260_0006_0005_9001_0000 (.lperm { p0 with fn := 2, ty := 6, d := .v false 0 6, a := .v 5, b := .op (.imm 1) }) ∧
  is 0x5D70_0000_F000_F000_F000_0000 (.exit p0) ∧
  is 0x7670_006A_0009_1002_0003_0008 (.atom { p0 with ty := 6, rs := 10, d := .v false 0 9, a := .s 2, b := .op (.v 3), ext := 8 }) ∧
  is 0x7E70_0302_F000_F000_F000_0000 (.fence { p0 with fn := 3, rs := 2 }) ∧
  is 0x8170_0000_1006_1002_F000_0040 (.pgq { p0 with d := .s false 0 6, a := .s 2, ext := 0x40 }) ∧
  is 0x9870_0018_1008_1002_1003_0002 (.xcpy { p0 with ty := 1, rs := 8, d := .s false 0 8, a := .s 2, b := .op (.s 3), ext := 2 }) ∧
  is 0xA470_0000_1005_1008_9001_0003 (.fenc { p0 with d := .s false 0 5, a := .s 8, b := .op (.imm 1), ext := 3 }) ∧
  is 0xB170_0000_5000_1004_0006_0000 (.mmag { p0 with d := .other (.ac 0), a := .s 4, b := .op (.v 6) }) ∧
  is 0xC070_0000_1004_8001_9004_0000 (.sres { p0 with d := .s false 0 4, a := .sh 1, b := .op (.imm 4) }) ∧
  is 0xD270_0018_F000_1004_1005_0040 (.crun { p0 with ty := 1, rs := 8, a := .s 4, b := .op (.s 5), ext := 0x40 }) ∧
  is 0xE270_0000_1009_4006_F000_0000 (.rdsr { p0 with d := .s false 0 9, a := .sr 6 }) ∧
  is 0xE470_0000_3009_9005_F000_0000 (.ptok { p0 with d := .other (.pred 9), a := .imm 5 }) ∧
  is 0xE870_0100_1004_9003_1006_0000 (.rdctrSel { p0 with fn := 1, d := .s false 0 4, a := .imm 3, b := .op (.s 6) }) ∧
  decodeTableWord 64 0x0000_0000_0000_0001 = none ∧ decodeTableWord 64 0x0B00_0000_0000_0000 = none ∧
  decodeTableWord 64 0x0204_0000_0000_0009 = some (.cmdLoop 1 9) ∧
  decodeTableWord 192 (0x0510_0000_0000_0020 + 2 ^ 64 * 0x1000 + 2 ^ 128 * 7) = some (.cmdWait 1 0x20 0x1000 7) ∧
  decodeTableWord 128 (0x0802_0000_0000_0000 + 2 ^ 64 * 0x4040) = some (.cmdLaunch true 0x4040) ∧
  decodeTableWord 128 (0x0A20_0005_0000_0000 + 2 ^ 64 * 0x18) = some (.cmdCtxResume 5 0x18)

/-- R38 to R48, R89, R90: DECODING AND ENCODING AGREE. The word of every well-formed program instruction decodes to it, and the words
of every well-formed command; and a word that decodes is the word of what it decodes to, so no bit of a word is dropped. -/
def Obligations.DecodeEncode : Prop :=
  (∀ i o p, i.wellFormed = true → i.split = some (o, p) → decodeWord 128 true (encodeP o p) = .ok i) ∧
  (∀ w i, decodeWord 128 true w = .ok i → ∃ o p, i.split = some (o, p) ∧ i.wellFormed = true ∧ encodeP o p = w) ∧
  (∀ i l, i.wellFormed = true → encodeCmd i = some l →
    l.length = cmdWords ((l.getD 0 0).toNat / 2 ^ 56) ∧
    decodeCmd (l.getD 0 0).toNat (l.getD 1 0).toNat (l.getD 2 0).toNat = .ok i) ∧
  (∀ w a b i, w < 2 ^ 64 → a < 2 ^ 64 → b < 2 ^ 64 → decodeCmd w a b = .ok i →
    i.wellFormed = true ∧ encodeCmd i = some (([w, a, b].take (cmdWords (w / 2 ^ 56))).map (BitVec.ofNat 64)))

/-- The model's form of memory (assumption log 4): EVERY STEP KEEPS IT. Whatever agent acts, physical memory stays a list of bytes
under strictly rising addresses that lists no zero. -/
def Obligations.StepKeepsMemory : Prop :=
  ∀ s t, Safety.memInv s → step s = .next t → Safety.memInv t

/-- R5, R62, R78, R164, R172, R232, R317, R382, R383, R391, R397, R407, R439: what reset leaves. That every byte
of memory reads 0 is the model's choice (assumption log 4). -/
def Obligations.ResetState : Prop :=
  let s := State.reset
  Safety.memInv s ∧ (∀ a, memByte s a = 0) ∧ s.booted = false ∧ s.tripped = false ∧
  s.l1 = [] ∧ s.dc = [] ∧ s.groups = [] ∧ s.blocks = [] ∧ s.kernels = [] ∧ s.ops = [] ∧ s.harts = [] ∧ s.pkg = 0 ∧
  s.timeSource = 0 ∧ s.timeMaster = false ∧
  (∀ k, (getCtx s k).st = .free ∧ (getCtx s k).faulted = 0 ∧ (getCtx s k).frozen = 0) ∧ (∀ q, (getQ s q).st = .disabled) ∧
  (∀ q, portLive s q = false) ∧ (∀ n, (getCore s n).tlb = []) ∧
  (∀ p, let q := getPart s p
    q.ctxBase = 0 ∧ q.frzBase = 0 ∧ q.frzLog = 4 ∧ q.frzProd = 0 ∧ q.frzCons = 0 ∧ q.ceil = 0 ∧
    q.rmVa = 0 ∧ q.rmSizeLog = 16 ∧ q.rmCtx = 0 ∧ q.rmFunc = 0 ∧ q.rmGen = 0 ∧ q.rmDone = 0 ∧
    q.migThresh = 256 ∧ q.migMax = 4 ∧ q.migSettle = 16000 ∧ q.migPool = [] ∧
    q.dirBase = 0 ∧ q.dirLog = 4 ∧ q.donate = 0 ∧ q.donateGo = false ∧ q.lowMark = 64 ∧ q.pool = [] ∧
    q.scrBase = 0 ∧ q.scrLog = 4 ∧ q.idxBase = 0 ∧ q.idxLog = 4 ∧ q.lookups = 0 ∧ q.hits = 0 ∧ q.collisions = 0 ∧ q.stale = 0 ∧
    q.ordered = 0 ∧ q.seqPkg = 0 ∧ q.intStatus = 0 ∧ (∀ w, mget 0 q.windows w = 0) ∧
    q.smpBase = 0 ∧ q.smpLog = 8 ∧ q.smpPeriod = 16 ∧ q.smpEn = false ∧ q.smpProd = 0 ∧ q.smpCons = 0 ∧ q.smpDropped = 0 ∧
    ∀ c, (mget {} q.ctrs c).sel = 0) ∧
  (∀ t, let k := (mfind s.stackCtl t).getD {}
    k.gang = 0 ∧ k.rate = 0 ∧ k.rateGo = false ∧ k.rateStatus = 0 ∧ k.scrubThresh = 8 ∧ k.scrubHours = 24 ∧ k.scrubPos = 0 ∧
    k.corrected = 0 ∧ k.poisoned = 0)

/-- R66, R68, R69, R97, R195, R227: TAKING A FAULT. The group stops where it is, a wait instruction that it stopped at not issued (R72),
its open transactions doomed and its barrier arrival
withdrawn; the record, under the next fault number, goes to the ring of its context or behind the records that wait, and vector 0 is
raised with it; a fault that cannot be resumed ends the kernel. R76 to R78: TAKING A FREEZE, the same into the partition's ring. -/
def Obligations.FaultsAndFreezes : Prop :=
  let stopped : Group → Group := fun g => { g with
    region := (match g.st, g.prior with | .waiting _, some r => r | _, _ => g.region),
    arrivals := g.arrivals.filter (fun a => !a.sync), reads := none,
    tx := g.tx.map (fun x => (x.1, if x.2.code = 0 then { x.2 with code := 11, reads := [], rlines := [], writes := [] } else x.2)) }
  let entryOf : Group → Option (Nat × Nat × Nat) → Region := fun g async => if async.isSome then (stopped g).region else g.region
  let bars := fun (s t : State) (g : Group) =>
    ((∀ id, g.st ≠ .waiting (.bar id)) → t.blocks = s.blocks) ∧
    (∀ id b, g.st = .waiting (.bar id) → mfind s.blocks g.block = some b →
      t.blocks = if g.arrivals.any (fun a => a.id == id && a.sync) then s.blocks else mset s.blocks g.block (barWithdraw b id))
  (∀ s gid g code (async : Option (Nat × Nat × Nat)) lanes detail, mfind s.groups gid = some g → resumable code = true →
    let key := gCtx s g
    let c := getCtx s key
    let d := ctxDesc s key
    let log := ringLog (fld d 323 320)
    let slot := fld d 319 256 / 64 * 64 + 64 * (c.fltProd % 2 ^ log)
    let rec_ := mkRec [(7, 0, code), (8, 8, async.isSome.toNat), (18, 16, key / 64), (24, 19, key % 64), (40, 32, g.core), (46, 41, g.slot),
      (63, 48, (async.map (·.2.1)).getD 0), (127, 64, (entryOf g async).entry), (191, 128, (async.map (·.2.2)).getD g.pc), (223, 192, lanes),
      (255, 224, c.seq), (319, 256, s.time), (511, 320, detail)]
    let c1 := { c with seq := (c.seq + 1) % 2 ^ 32, faulted := c.faulted + 1 }
    let t := takeFault s gid code async lanes detail
    t = { s with groups := t.groups, blocks := t.blocks, ctxs := t.ctxs, parts := t.parts, mem := t.mem, veils := t.veils } ∧
    mfind t.groups gid = some { stopped g with st := .faulted, region := entryOf g async, flt := some { code := code, seq := c.seq, op := (async.map (·.1)).getD 0 } } ∧
    (∀ j, j ≠ gid → mfind t.groups j = mfind s.groups j) ∧ bars s t g ∧
    (∀ j, j ≠ key → getCtx t j = getCtx s j) ∧
    fld (ctxDesc t key) 463 448 = (c.faulted + 1) % 2 ^ 16 ∧ fld (ctxDesc t key) 351 336 = (getCtx t key).fltProd % 2 ^ 16 ∧
    (c.fltPend ≠ [] ∨ ringFull c.fltProd (fld d 367 352) log = true →
      getCtx t key = { c1 with fltPend := c.fltPend ++ [rec_] } ∧ t.parts = s.parts ∧ HomeOutside (ctxDescA s key) 64 s t) ∧
    (c.fltPend = [] → ringFull c.fltProd (fld d 367 352) log = false →
      getCtx t key = { c1 with fltProd := (c.fltProd + 1) % 2 ^ 16 } ∧
      (∀ a, Outside (ctxDescA s key) 64 a → Outside slot 64 a → memByte t a = memByte s a) ∧
      ((∀ a, slot ≤ a → a < slot + 64 → Outside (ctxDescA s key) 64 a) → memRead t slot 64 = rec_) ∧
      (∀ p, p ≠ key / 64 → getPart t p = getPart s p) ∧
      ∃ cs, getPart t (key / 64) = { getPart s (key / 64) with intStatus := (getPart s (key / 64)).intStatus ||| 1, ctrs := cs })) ∧
  (∀ s gid g k code (async : Option (Nat × Nat × Nat)) lanes detail, mfind s.groups gid = some g → sortedKeys s.groups = true → resumable code = false →
    mfind s.kernels (gKid s g) = some k →
    let t := takeFault s gid code async lanes detail
    (∃ g', mfind t.groups gid = some g' ∧ g' = { stopped g with st := .faulted, region := entryOf g async, flt := g'.flt, pend := g'.pend } ∧
      g'.flt = some { code := code, seq := (getCtx s (gCtx s g)).seq, op := (async.map (·.1)).getD 0 }) ∧
    (k.st = .dispatching ∨ k.st = .running → mfind t.kernels (gKid s g) = some { k with st := .faulting, status := 1 } ∧
      ∀ j h, j ≠ gid → mfind s.groups j = some h → gKid s h = gKid s g →
        (match h.st with | .ready => true | .stalled _ => true | .sent _ => true | .waiting _ => true | _ => false) = true →
        ∃ h', mfind t.groups j = some h' ∧ h' = { stopped h with st := .stopping, pend := h'.pend }) ∧
    (¬ (k.st = .dispatching ∨ k.st = .running) → t.kernels = s.kernels)) ∧
  (∀ s gid g reason target access, mfind s.groups gid = some g →
    let key := gCtx s g
    let p := key / 64
    let q := getPart s p
    let slot := q.frzBase / 64 * 64 + 64 * (q.frzProd % 2 ^ ringLog q.frzLog)
    let rec_ := mkRec [(7, 0, reason), (10, 8, 0), (18, 16, p), (24, 19, key % 64), (63, 32, g.core + 2 ^ 9 * g.slot), (127, 64, g.pc),
      (191, 128, target), (223, 192, q.frzNum), (319, 256, s.time), (327, 320, access)]
    let q1 := { q with frzNum := (q.frzNum + 1) % 2 ^ 32 }
    let t := freezeGroup s gid reason target access
    t = { s with groups := t.groups, blocks := t.blocks, ctxs := t.ctxs, parts := t.parts, frozen := t.frozen, mem := t.mem, veils := t.veils } ∧
    mfind t.groups gid = some { stopped g with st := .frozen, frz := some q.frzNum } ∧
    (∀ j, j ≠ gid → mfind t.groups j = mfind s.groups j) ∧ bars s t g ∧
    t.frozen = mset s.frozen (2 ^ 32 * p + q.frzNum) (.group gid, some key) ∧
    t.ctxs = mset s.ctxs key { getCtx s key with frozen := (getCtx s key).frozen + 1 } ∧
    (q.frzPend ≠ [] ∨ ringFull q.frzProd q.frzCons (ringLog q.frzLog) = true →
      t.parts = mset s.parts p { q1 with frzPend := q.frzPend ++ [rec_] } ∧ HomeOutside (ctxDescA s key) 64 s t ∧
      fld (ctxDesc t key) 479 464 = ((getCtx s key).frozen + 1) % 2 ^ 16) ∧
    (q.frzPend = [] → ringFull q.frzProd q.frzCons (ringLog q.frzLog) = false →
      t.parts = mset s.parts p { q1 with frzProd := (q.frzProd + 1) % 2 ^ 16, intStatus := q.intStatus ||| 2 } ∧
      memRead t slot 64 = rec_ ∧ ∀ a, Outside (ctxDescA s key) 64 a → Outside slot 64 a → memByte t a = memByte s a))
end

