-- ==== Sys2Proof/Laws/Maps.lean ====
section
/-! SUPPORT. The laws of the sparse maps: what a lookup answers after each update, and that the canonical form is kept. -/

namespace Sys2Proof.Machine

variable {α : Type}

theorem mfind_mdel_same (m : AMap α) (k : Nat) : mfind (mdel m k) k = none := by
  induction m with
  | nil => rfl
  | cons x t ih =>
    obtain ⟨k', v⟩ := x
    by_cases h : k' = k
    · simp [mdel, h, ih]
    · simp [mdel, mfind, h, ih]

theorem mfind_mdel_ne (m : AMap α) {k j : Nat} (h : j ≠ k) : mfind (mdel m k) j = mfind m j := by
  induction m with
  | nil => rfl
  | cons x t ih =>
    obtain ⟨k', v⟩ := x
    by_cases hk : k' = k
    · subst hk; simp [mdel, mfind, ih, Ne.symm h]
    · simp [mdel, mfind, hk, ih]

theorem mfind_mins_same (m : AMap α) (k : Nat) (v : α) (h : mfind m k = none) : mfind (mins m k v) k = some v := by
  induction m with
  | nil => simp [mins, mfind]
  | cons x t ih =>
    obtain ⟨k', w⟩ := x
    by_cases hk : k' = k
    · simp [mfind, hk] at h
    · have h' : mfind t k = none := by simpa [mfind, hk] using h
      by_cases hl : k < k' <;> simp [mins, mfind, hl, hk, ih h']

theorem mfind_mins_ne (m : AMap α) (v : α) {k j : Nat} (h : j ≠ k) : mfind (mins m k v) j = mfind m j := by
  induction m with
  | nil => simp [mins, mfind, Ne.symm h]
  | cons x t ih =>
    obtain ⟨k', w⟩ := x
    by_cases hl : k < k'
    · simp [mins, mfind, hl, Ne.symm h]
    · simp [mins, mfind, hl, ih]

/-- A read after a write to the same key gives the value written. -/
@[simp] theorem mfind_mset_same (m : AMap α) (k : Nat) (v : α) : mfind (mset m k v) k = some v :=
  mfind_mins_same _ _ _ (mfind_mdel_same m k)

/-- A write leaves every other key alone. -/
theorem mfind_mset_ne (m : AMap α) (v : α) {k j : Nat} (h : j ≠ k) : mfind (mset m k v) j = mfind m j := by
  rw [mset, mfind_mins_ne _ _ h, mfind_mdel_ne _ h]

theorem mfind_mset (m : AMap α) (k j : Nat) (v : α) : mfind (mset m k v) j = if j = k then some v else mfind m j := by
  by_cases h : j = k
  · subst h; simp
  · simp [h, mfind_mset_ne m v h]

/-- An update at a key acts on the value there. -/
@[simp] theorem mfind_mupd_same (m : AMap α) (k : Nat) (f : α → α) : mfind (mupd m k f) k = (mfind m k).map f := by
  unfold mupd
  cases h : mfind m k <;> simp [h]

theorem mfind_mupd_ne (m : AMap α) (f : α → α) {k j : Nat} (h : j ≠ k) : mfind (mupd m k f) j = mfind m j := by
  unfold mupd
  cases hk : mfind m k <;> simp [mfind_mset_ne m _ h]

variable [DecidableEq α]

@[simp] theorem mget_mput_same (d : α) (m : AMap α) (k : Nat) (v : α) : mget d (mput d m k v) k = v := by
  unfold mput mget
  by_cases h : v = d
  · simp [h, mfind_mdel_same]
  · simp [h]

theorem mget_mput_ne (d : α) (m : AMap α) (v : α) {k j : Nat} (h : j ≠ k) : mget d (mput d m k v) j = mget d m j := by
  unfold mput mget
  by_cases hv : v = d
  · simp [hv, mfind_mdel_ne m h]
  · simp [hv, mfind_mset_ne m v h]

theorem mget_mput (d : α) (m : AMap α) (k j : Nat) (v : α) : mget d (mput d m k v) j = if j = k then v else mget d m j := by
  by_cases h : j = k
  · subst h; simp
  · simp [h, mget_mput_ne d m v h]

omit [DecidableEq α]

/-! ### The canonical form -/

/-- Every key of a map lies above a bound. -/
theorem sortedKeys_cons (k : Nat) (v : α) (m : AMap α) :
    sortedKeys ((k, v) :: m) = true ↔ sortedKeys m = true ∧ ∀ x ∈ m, k < x.1 := by
  induction m generalizing k v with
  | nil => simp [sortedKeys]
  | cons x t ih =>
    obtain ⟨k', v'⟩ := x
    simp only [sortedKeys, Bool.and_eq_true, decide_eq_true_eq, List.mem_cons, forall_eq_or_imp]
    constructor
    · rintro ⟨h1, h2⟩
      exact ⟨h2, h1, fun x hx => Nat.lt_trans h1 (((ih k' v').1 h2).2 x hx)⟩
    · rintro ⟨h2, h1, _⟩
      exact ⟨h1, h2⟩

theorem mem_mdel {m : AMap α} {k : Nat} {x : Nat × α} (h : x ∈ mdel m k) : x ∈ m ∧ x.1 ≠ k := by
  induction m with
  | nil => simp [mdel] at h
  | cons y t ih =>
    obtain ⟨k', v⟩ := y
    by_cases hk : k' = k
    · simp only [mdel, hk, if_true] at h
      exact ⟨List.mem_cons_of_mem _ (ih h).1, (ih h).2⟩
    · simp only [mdel, hk, if_false, List.mem_cons] at h
      rcases h with h | h
      · subst h; exact ⟨List.mem_cons_self, hk⟩
      · exact ⟨List.mem_cons_of_mem _ (ih h).1, (ih h).2⟩

theorem mem_mins {m : AMap α} {k : Nat} {v : α} {x : Nat × α} (h : x ∈ mins m k v) : x = (k, v) ∨ x ∈ m := by
  induction m with
  | nil => simpa [mins] using h
  | cons y t ih =>
    obtain ⟨k', w⟩ := y
    by_cases hl : k < k'
    · simpa [mins, hl] using h
    · simp only [mins, hl, if_false, List.mem_cons] at h
      rcases h with h | h
      · exact .inr (by simp [h])
      · rcases ih h with h | h
        · exact .inl h
        · exact .inr (List.mem_cons_of_mem _ h)

theorem sortedKeys_mdel {m : AMap α} (k : Nat) (h : sortedKeys m = true) : sortedKeys (mdel m k) = true := by
  induction m with
  | nil => rfl
  | cons y t ih =>
    obtain ⟨k', w⟩ := y
    have h' := (sortedKeys_cons k' w t).1 h
    by_cases hk : k' = k
    · simp [mdel, hk, ih h'.1]
    · simp only [mdel, hk, if_false]
      exact (sortedKeys_cons _ _ _).2 ⟨ih h'.1, fun x hx => h'.2 x (mem_mdel hx).1⟩

theorem sortedKeys_mins {m : AMap α} (k : Nat) (v : α) (h : sortedKeys m = true) (hk : ∀ x ∈ m, x.1 ≠ k) :
    sortedKeys (mins m k v) = true := by
  induction m with
  | nil => rfl
  | cons y t ih =>
    obtain ⟨k', w⟩ := y
    have h' := (sortedKeys_cons k' w t).1 h
    by_cases hl : k < k'
    · simp only [mins, hl, if_true]
      refine (sortedKeys_cons _ _ _).2 ⟨h, fun x hx => ?_⟩
      rcases List.mem_cons.1 hx with hx | hx
      · simpa [hx] using hl
      · exact Nat.lt_trans hl (h'.2 x hx)
    · simp only [mins, hl, if_false]
      refine (sortedKeys_cons _ _ _).2 ⟨ih h'.1 (fun x hx => hk x (List.mem_cons_of_mem _ hx)), fun x hx => ?_⟩
      rcases mem_mins hx with hx | hx
      · have : k' ≠ k := hk (k', w) List.mem_cons_self
        subst hx; simp; omega
      · exact h'.2 x hx

theorem sortedKeys_mset {m : AMap α} (k : Nat) (v : α) (h : sortedKeys m = true) : sortedKeys (mset m k v) = true :=
  sortedKeys_mins k v (sortedKeys_mdel k h) (fun _ hx => (mem_mdel hx).2)

theorem sortedKeys_mupd {m : AMap α} (k : Nat) (f : α → α) (h : sortedKeys m = true) : sortedKeys (mupd m k f) = true := by
  unfold mupd
  cases mfind m k with
  | none => exact h
  | some v => exact sortedKeys_mset k _ h

theorem sortedKeys_filter {m : AMap α} (p : Nat × α → Bool) (h : sortedKeys m = true) : sortedKeys (m.filter p) = true := by
  induction m with
  | nil => rfl
  | cons y t ih =>
    obtain ⟨k', w⟩ := y
    have h' := (sortedKeys_cons k' w t).1 h
    cases hp : p (k', w) with
    | false => simpa [hp] using ih h'.1
    | true =>
      rw [List.filter_cons_of_pos hp]
      exact (sortedKeys_cons _ _ _).2 ⟨ih h'.1, fun x hx => h'.2 x (List.mem_filter.1 hx).1⟩

variable [DecidableEq α]

/-- A write with a default keeps the canonical form. -/
theorem wfMap_mput {d : α} {m : AMap α} (k : Nat) (v : α) (h : wfMap d m = true) : wfMap d (mput d m k v) = true := by
  simp only [wfMap, Bool.and_eq_true, List.all_eq_true, bne_iff_ne] at h ⊢
  unfold mput
  by_cases hv : v = d
  · simp only [hv, if_true]
    exact ⟨sortedKeys_mdel k h.1, fun x hx => h.2 x (mem_mdel hx).1⟩
  · simp only [hv, if_false]
    refine ⟨sortedKeys_mset k v h.1, fun x hx => ?_⟩
    rcases mem_mins hx with hx | hx
    · subst hx; exact hv
    · exact h.2 x (mem_mdel hx).1

/-- Leaving entries out keeps the canonical form. -/
theorem wfMap_filter {d : α} {m : AMap α} (p : Nat × α → Bool) (h : wfMap d m = true) : wfMap d (m.filter p) = true := by
  simp only [wfMap, Bool.and_eq_true, List.all_eq_true] at h ⊢
  exact ⟨sortedKeys_filter p h.1, fun x hx => h.2 x (List.mem_filter.1 hx).1⟩

end Sys2Proof.Machine
end

