-- ==== Sys2Proof/Laws/State.lean ====
section
/-! SUPPORT. What each named update of State leaves in each field, one lemma per field per update; and what a lookup of an
object answers after one. -/

namespace Sys2Proof.Machine

/-! ### updG -/

@[simp] theorem updG_mem (s : State) (k : Nat) (f : Group → Group) : (updG s k f).mem = s.mem := rfl
@[simp] theorem updG_veils (s : State) (k : Nat) (f : Group → Group) : (updG s k f).veils = s.veils := rfl
@[simp] theorem updG_poison (s : State) (k : Nat) (f : Group → Group) : (updG s k f).poison = s.poison := rfl
@[simp] theorem updG_ecc (s : State) (k : Nat) (f : Group → Group) : (updG s k f).ecc = s.ecc := rfl
@[simp] theorem updG_eccDc (s : State) (k : Nat) (f : Group → Group) : (updG s k f).eccDc = s.eccDc := rfl
@[simp] theorem updG_foundDc (s : State) (k : Nat) (f : Group → Group) : (updG s k f).foundDc = s.foundDc := rfl
@[simp] theorem updG_tags (s : State) (k : Nat) (f : Group → Group) : (updG s k f).tags = s.tags := rfl
@[simp] theorem updG_l1 (s : State) (k : Nat) (f : Group → Group) : (updG s k f).l1 = s.l1 := rfl
@[simp] theorem updG_dc (s : State) (k : Nat) (f : Group → Group) : (updG s k f).dc = s.dc := rfl
@[simp] theorem updG_walkc (s : State) (k : Nat) (f : Group → Group) : (updG s k f).walkc = s.walkc := rfl
@[simp] theorem updG_pages (s : State) (k : Nat) (f : Group → Group) : (updG s k f).pages = s.pages := rfl
@[simp] theorem updG_groups (s : State) (k : Nat) (f : Group → Group) : (updG s k f).groups = mupd s.groups k f := rfl
@[simp] theorem updG_blocks (s : State) (k : Nat) (f : Group → Group) : (updG s k f).blocks = s.blocks := rfl
@[simp] theorem updG_kernels (s : State) (k : Nat) (f : Group → Group) : (updG s k f).kernels = s.kernels := rfl
@[simp] theorem updG_ctxs (s : State) (k : Nat) (f : Group → Group) : (updG s k f).ctxs = s.ctxs := rfl
@[simp] theorem updG_parts (s : State) (k : Nat) (f : Group → Group) : (updG s k f).parts = s.parts := rfl
@[simp] theorem updG_queues (s : State) (k : Nat) (f : Group → Group) : (updG s k f).queues = s.queues := rfl
@[simp] theorem updG_harts (s : State) (k : Nat) (f : Group → Group) : (updG s k f).harts = s.harts := rfl
@[simp] theorem updG_cores (s : State) (k : Nat) (f : Group → Group) : (updG s k f).cores = s.cores := rfl
@[simp] theorem updG_latches (s : State) (k : Nat) (f : Group → Group) : (updG s k f).latches = s.latches := rfl
@[simp] theorem updG_ops (s : State) (k : Nat) (f : Group → Group) : (updG s k f).ops = s.ops := rfl
@[simp] theorem updG_cat (s : State) (k : Nat) (f : Group → Group) : (updG s k f).cat = s.cat := rfl
@[simp] theorem updG_banks (s : State) (k : Nat) (f : Group → Group) : (updG s k f).banks = s.banks := rfl
@[simp] theorem updG_regs (s : State) (k : Nat) (f : Group → Group) : (updG s k f).regs = s.regs := rfl
@[simp] theorem updG_limbo (s : State) (k : Nat) (f : Group → Group) : (updG s k f).limbo = s.limbo := rfl
@[simp] theorem updG_scrolls (s : State) (k : Nat) (f : Group → Group) : (updG s k f).scrolls = s.scrolls := rfl
@[simp] theorem updG_frozen (s : State) (k : Nat) (f : Group → Group) : (updG s k f).frozen = s.frozen := rfl
@[simp] theorem updG_heldReqs (s : State) (k : Nat) (f : Group → Group) : (updG s k f).heldReqs = s.heldReqs := rfl
@[simp] theorem updG_ports (s : State) (k : Nat) (f : Group → Group) : (updG s k f).ports = s.ports := rfl
@[simp] theorem updG_flowsT (s : State) (k : Nat) (f : Group → Group) : (updG s k f).flowsT = s.flowsT := rfl
@[simp] theorem updG_flowsR (s : State) (k : Nat) (f : Group → Group) : (updG s k f).flowsR = s.flowsR := rfl
@[simp] theorem updG_rr (s : State) (k : Nat) (f : Group → Group) : (updG s k f).rr = s.rr := rfl
@[simp] theorem updG_unreachable (s : State) (k : Nat) (f : Group → Group) : (updG s k f).unreachable = s.unreachable := rfl
@[simp] theorem updG_pkg (s : State) (k : Nat) (f : Group → Group) : (updG s k f).pkg = s.pkg := rfl
@[simp] theorem updG_hdm (s : State) (k : Nat) (f : Group → Group) : (updG s k f).hdm = s.hdm := rfl
@[simp] theorem updG_timeSource (s : State) (k : Nat) (f : Group → Group) : (updG s k f).timeSource = s.timeSource := rfl
@[simp] theorem updG_timeMaster (s : State) (k : Nat) (f : Group → Group) : (updG s k f).timeMaster = s.timeMaster := rfl
@[simp] theorem updG_timeLocked (s : State) (k : Nat) (f : Group → Group) : (updG s k f).timeLocked = s.timeLocked := rfl
@[simp] theorem updG_syncGood (s : State) (k : Nat) (f : Group → Group) : (updG s k f).syncGood = s.syncGood := rfl
@[simp] theorem updG_timeOffset (s : State) (k : Nat) (f : Group → Group) : (updG s k f).timeOffset = s.timeOffset := rfl
@[simp] theorem updG_slew (s : State) (k : Nat) (f : Group → Group) : (updG s k f).slew = s.slew := rfl
@[simp] theorem updG_slewFrac (s : State) (k : Nat) (f : Group → Group) : (updG s k f).slewFrac = s.slewFrac := rfl
@[simp] theorem updG_timeSet (s : State) (k : Nat) (f : Group → Group) : (updG s k f).timeSet = s.timeSet := rfl
@[simp] theorem updG_time (s : State) (k : Nat) (f : Group → Group) : (updG s k f).time = s.time := rfl
@[simp] theorem updG_cycle (s : State) (k : Nat) (f : Group → Group) : (updG s k f).cycle = s.cycle := rfl
@[simp] theorem updG_stackCtl (s : State) (k : Nat) (f : Group → Group) : (updG s k f).stackCtl = s.stackCtl := rfl
@[simp] theorem updG_slice (s : State) (k : Nat) (f : Group → Group) : (updG s k f).slice = s.slice := rfl
@[simp] theorem updG_lfsr (s : State) (k : Nat) (f : Group → Group) : (updG s k f).lfsr = s.lfsr := rfl
@[simp] theorem updG_booted (s : State) (k : Nat) (f : Group → Group) : (updG s k f).booted = s.booted := rfl
@[simp] theorem updG_bootStatus (s : State) (k : Nat) (f : Group → Group) : (updG s k f).bootStatus = s.bootStatus := rfl
@[simp] theorem updG_flash (s : State) (k : Nat) (f : Group → Group) : (updG s k f).flash = s.flash := rfl
@[simp] theorem updG_clockMHz (s : State) (k : Nat) (f : Group → Group) : (updG s k f).clockMHz = s.clockMHz := rfl
@[simp] theorem updG_powerCap (s : State) (k : Nat) (f : Group → Group) : (updG s k f).powerCap = s.powerCap := rfl
@[simp] theorem updG_trims (s : State) (k : Nat) (f : Group → Group) : (updG s k f).trims = s.trims := rfl
@[simp] theorem updG_temp (s : State) (k : Nat) (f : Group → Group) : (updG s k f).temp = s.temp := rfl
@[simp] theorem updG_power (s : State) (k : Nat) (f : Group → Group) : (updG s k f).power = s.power := rfl
@[simp] theorem updG_inlet (s : State) (k : Nat) (f : Group → Group) : (updG s k f).inlet = s.inlet := rfl
@[simp] theorem updG_tempBins (s : State) (k : Nat) (f : Group → Group) : (updG s k f).tempBins = s.tempBins := rfl
@[simp] theorem updG_powerBins (s : State) (k : Nat) (f : Group → Group) : (updG s k f).powerBins = s.powerBins := rfl
@[simp] theorem updG_inletBins (s : State) (k : Nat) (f : Group → Group) : (updG s k f).inletBins = s.inletBins := rfl
@[simp] theorem updG_tripped (s : State) (k : Nat) (f : Group → Group) : (updG s k f).tripped = s.tripped := rfl
@[simp] theorem updG_attStatus (s : State) (k : Nat) (f : Group → Group) : (updG s k f).attStatus = s.attStatus := rfl
@[simp] theorem updG_attIndex (s : State) (k : Nat) (f : Group → Group) : (updG s k f).attIndex = s.attIndex := rfl
@[simp] theorem updG_attNonce (s : State) (k : Nat) (f : Group → Group) : (updG s k f).attNonce = s.attNonce := rfl
@[simp] theorem updG_attHash (s : State) (k : Nat) (f : Group → Group) : (updG s k f).attHash = s.attHash := rfl
@[simp] theorem updG_attImages (s : State) (k : Nat) (f : Group → Group) : (updG s k f).attImages = s.attImages := rfl
@[simp] theorem updG_attSig (s : State) (k : Nat) (f : Group → Group) : (updG s k f).attSig = s.attSig := rfl
@[simp] theorem updG_fresh (s : State) (k : Nat) (f : Group → Group) : (updG s k f).fresh = s.fresh := rfl
@[simp] theorem updG_free (s : State) (k : Nat) (f : Group → Group) : (updG s k f).free = s.free := rfl
@[simp] theorem updG_agenda (s : State) (k : Nat) (f : Group → Group) : (updG s k f).agenda = s.agenda := rfl
@[simp] theorem updG_rotor (s : State) (k : Nat) (f : Group → Group) : (updG s k f).rotor = s.rotor := rfl
@[simp] theorem updG_cur (s : State) (k : Nat) (f : Group → Group) : (updG s k f).cur = s.cur := rfl

/-! ### updB -/

@[simp] theorem updB_mem (s : State) (k : Nat) (f : Block → Block) : (updB s k f).mem = s.mem := rfl
@[simp] theorem updB_veils (s : State) (k : Nat) (f : Block → Block) : (updB s k f).veils = s.veils := rfl
@[simp] theorem updB_poison (s : State) (k : Nat) (f : Block → Block) : (updB s k f).poison = s.poison := rfl
@[simp] theorem updB_ecc (s : State) (k : Nat) (f : Block → Block) : (updB s k f).ecc = s.ecc := rfl
@[simp] theorem updB_eccDc (s : State) (k : Nat) (f : Block → Block) : (updB s k f).eccDc = s.eccDc := rfl
@[simp] theorem updB_foundDc (s : State) (k : Nat) (f : Block → Block) : (updB s k f).foundDc = s.foundDc := rfl
@[simp] theorem updB_tags (s : State) (k : Nat) (f : Block → Block) : (updB s k f).tags = s.tags := rfl
@[simp] theorem updB_l1 (s : State) (k : Nat) (f : Block → Block) : (updB s k f).l1 = s.l1 := rfl
@[simp] theorem updB_dc (s : State) (k : Nat) (f : Block → Block) : (updB s k f).dc = s.dc := rfl
@[simp] theorem updB_walkc (s : State) (k : Nat) (f : Block → Block) : (updB s k f).walkc = s.walkc := rfl
@[simp] theorem updB_pages (s : State) (k : Nat) (f : Block → Block) : (updB s k f).pages = s.pages := rfl
@[simp] theorem updB_groups (s : State) (k : Nat) (f : Block → Block) : (updB s k f).groups = s.groups := rfl
@[simp] theorem updB_blocks (s : State) (k : Nat) (f : Block → Block) : (updB s k f).blocks = mupd s.blocks k f := rfl
@[simp] theorem updB_kernels (s : State) (k : Nat) (f : Block → Block) : (updB s k f).kernels = s.kernels := rfl
@[simp] theorem updB_ctxs (s : State) (k : Nat) (f : Block → Block) : (updB s k f).ctxs = s.ctxs := rfl
@[simp] theorem updB_parts (s : State) (k : Nat) (f : Block → Block) : (updB s k f).parts = s.parts := rfl
@[simp] theorem updB_queues (s : State) (k : Nat) (f : Block → Block) : (updB s k f).queues = s.queues := rfl
@[simp] theorem updB_harts (s : State) (k : Nat) (f : Block → Block) : (updB s k f).harts = s.harts := rfl
@[simp] theorem updB_cores (s : State) (k : Nat) (f : Block → Block) : (updB s k f).cores = s.cores := rfl
@[simp] theorem updB_latches (s : State) (k : Nat) (f : Block → Block) : (updB s k f).latches = s.latches := rfl
@[simp] theorem updB_ops (s : State) (k : Nat) (f : Block → Block) : (updB s k f).ops = s.ops := rfl
@[simp] theorem updB_cat (s : State) (k : Nat) (f : Block → Block) : (updB s k f).cat = s.cat := rfl
@[simp] theorem updB_banks (s : State) (k : Nat) (f : Block → Block) : (updB s k f).banks = s.banks := rfl
@[simp] theorem updB_regs (s : State) (k : Nat) (f : Block → Block) : (updB s k f).regs = s.regs := rfl
@[simp] theorem updB_limbo (s : State) (k : Nat) (f : Block → Block) : (updB s k f).limbo = s.limbo := rfl
@[simp] theorem updB_scrolls (s : State) (k : Nat) (f : Block → Block) : (updB s k f).scrolls = s.scrolls := rfl
@[simp] theorem updB_frozen (s : State) (k : Nat) (f : Block → Block) : (updB s k f).frozen = s.frozen := rfl
@[simp] theorem updB_heldReqs (s : State) (k : Nat) (f : Block → Block) : (updB s k f).heldReqs = s.heldReqs := rfl
@[simp] theorem updB_ports (s : State) (k : Nat) (f : Block → Block) : (updB s k f).ports = s.ports := rfl
@[simp] theorem updB_flowsT (s : State) (k : Nat) (f : Block → Block) : (updB s k f).flowsT = s.flowsT := rfl
@[simp] theorem updB_flowsR (s : State) (k : Nat) (f : Block → Block) : (updB s k f).flowsR = s.flowsR := rfl
@[simp] theorem updB_rr (s : State) (k : Nat) (f : Block → Block) : (updB s k f).rr = s.rr := rfl
@[simp] theorem updB_unreachable (s : State) (k : Nat) (f : Block → Block) : (updB s k f).unreachable = s.unreachable := rfl
@[simp] theorem updB_pkg (s : State) (k : Nat) (f : Block → Block) : (updB s k f).pkg = s.pkg := rfl
@[simp] theorem updB_hdm (s : State) (k : Nat) (f : Block → Block) : (updB s k f).hdm = s.hdm := rfl
@[simp] theorem updB_timeSource (s : State) (k : Nat) (f : Block → Block) : (updB s k f).timeSource = s.timeSource := rfl
@[simp] theorem updB_timeMaster (s : State) (k : Nat) (f : Block → Block) : (updB s k f).timeMaster = s.timeMaster := rfl
@[simp] theorem updB_timeLocked (s : State) (k : Nat) (f : Block → Block) : (updB s k f).timeLocked = s.timeLocked := rfl
@[simp] theorem updB_syncGood (s : State) (k : Nat) (f : Block → Block) : (updB s k f).syncGood = s.syncGood := rfl
@[simp] theorem updB_timeOffset (s : State) (k : Nat) (f : Block → Block) : (updB s k f).timeOffset = s.timeOffset := rfl
@[simp] theorem updB_slew (s : State) (k : Nat) (f : Block → Block) : (updB s k f).slew = s.slew := rfl
@[simp] theorem updB_slewFrac (s : State) (k : Nat) (f : Block → Block) : (updB s k f).slewFrac = s.slewFrac := rfl
@[simp] theorem updB_timeSet (s : State) (k : Nat) (f : Block → Block) : (updB s k f).timeSet = s.timeSet := rfl
@[simp] theorem updB_time (s : State) (k : Nat) (f : Block → Block) : (updB s k f).time = s.time := rfl
@[simp] theorem updB_cycle (s : State) (k : Nat) (f : Block → Block) : (updB s k f).cycle = s.cycle := rfl
@[simp] theorem updB_stackCtl (s : State) (k : Nat) (f : Block → Block) : (updB s k f).stackCtl = s.stackCtl := rfl
@[simp] theorem updB_slice (s : State) (k : Nat) (f : Block → Block) : (updB s k f).slice = s.slice := rfl
@[simp] theorem updB_lfsr (s : State) (k : Nat) (f : Block → Block) : (updB s k f).lfsr = s.lfsr := rfl
@[simp] theorem updB_booted (s : State) (k : Nat) (f : Block → Block) : (updB s k f).booted = s.booted := rfl
@[simp] theorem updB_bootStatus (s : State) (k : Nat) (f : Block → Block) : (updB s k f).bootStatus = s.bootStatus := rfl
@[simp] theorem updB_flash (s : State) (k : Nat) (f : Block → Block) : (updB s k f).flash = s.flash := rfl
@[simp] theorem updB_clockMHz (s : State) (k : Nat) (f : Block → Block) : (updB s k f).clockMHz = s.clockMHz := rfl
@[simp] theorem updB_powerCap (s : State) (k : Nat) (f : Block → Block) : (updB s k f).powerCap = s.powerCap := rfl
@[simp] theorem updB_trims (s : State) (k : Nat) (f : Block → Block) : (updB s k f).trims = s.trims := rfl
@[simp] theorem updB_temp (s : State) (k : Nat) (f : Block → Block) : (updB s k f).temp = s.temp := rfl
@[simp] theorem updB_power (s : State) (k : Nat) (f : Block → Block) : (updB s k f).power = s.power := rfl
@[simp] theorem updB_inlet (s : State) (k : Nat) (f : Block → Block) : (updB s k f).inlet = s.inlet := rfl
@[simp] theorem updB_tempBins (s : State) (k : Nat) (f : Block → Block) : (updB s k f).tempBins = s.tempBins := rfl
@[simp] theorem updB_powerBins (s : State) (k : Nat) (f : Block → Block) : (updB s k f).powerBins = s.powerBins := rfl
@[simp] theorem updB_inletBins (s : State) (k : Nat) (f : Block → Block) : (updB s k f).inletBins = s.inletBins := rfl
@[simp] theorem updB_tripped (s : State) (k : Nat) (f : Block → Block) : (updB s k f).tripped = s.tripped := rfl
@[simp] theorem updB_attStatus (s : State) (k : Nat) (f : Block → Block) : (updB s k f).attStatus = s.attStatus := rfl
@[simp] theorem updB_attIndex (s : State) (k : Nat) (f : Block → Block) : (updB s k f).attIndex = s.attIndex := rfl
@[simp] theorem updB_attNonce (s : State) (k : Nat) (f : Block → Block) : (updB s k f).attNonce = s.attNonce := rfl
@[simp] theorem updB_attHash (s : State) (k : Nat) (f : Block → Block) : (updB s k f).attHash = s.attHash := rfl
@[simp] theorem updB_attImages (s : State) (k : Nat) (f : Block → Block) : (updB s k f).attImages = s.attImages := rfl
@[simp] theorem updB_attSig (s : State) (k : Nat) (f : Block → Block) : (updB s k f).attSig = s.attSig := rfl
@[simp] theorem updB_fresh (s : State) (k : Nat) (f : Block → Block) : (updB s k f).fresh = s.fresh := rfl
@[simp] theorem updB_free (s : State) (k : Nat) (f : Block → Block) : (updB s k f).free = s.free := rfl
@[simp] theorem updB_agenda (s : State) (k : Nat) (f : Block → Block) : (updB s k f).agenda = s.agenda := rfl
@[simp] theorem updB_rotor (s : State) (k : Nat) (f : Block → Block) : (updB s k f).rotor = s.rotor := rfl
@[simp] theorem updB_cur (s : State) (k : Nat) (f : Block → Block) : (updB s k f).cur = s.cur := rfl

/-! ### updK -/

@[simp] theorem updK_mem (s : State) (k : Nat) (f : Kernel → Kernel) : (updK s k f).mem = s.mem := rfl
@[simp] theorem updK_veils (s : State) (k : Nat) (f : Kernel → Kernel) : (updK s k f).veils = s.veils := rfl
@[simp] theorem updK_poison (s : State) (k : Nat) (f : Kernel → Kernel) : (updK s k f).poison = s.poison := rfl
@[simp] theorem updK_ecc (s : State) (k : Nat) (f : Kernel → Kernel) : (updK s k f).ecc = s.ecc := rfl
@[simp] theorem updK_eccDc (s : State) (k : Nat) (f : Kernel → Kernel) : (updK s k f).eccDc = s.eccDc := rfl
@[simp] theorem updK_foundDc (s : State) (k : Nat) (f : Kernel → Kernel) : (updK s k f).foundDc = s.foundDc := rfl
@[simp] theorem updK_tags (s : State) (k : Nat) (f : Kernel → Kernel) : (updK s k f).tags = s.tags := rfl
@[simp] theorem updK_l1 (s : State) (k : Nat) (f : Kernel → Kernel) : (updK s k f).l1 = s.l1 := rfl
@[simp] theorem updK_dc (s : State) (k : Nat) (f : Kernel → Kernel) : (updK s k f).dc = s.dc := rfl
@[simp] theorem updK_walkc (s : State) (k : Nat) (f : Kernel → Kernel) : (updK s k f).walkc = s.walkc := rfl
@[simp] theorem updK_pages (s : State) (k : Nat) (f : Kernel → Kernel) : (updK s k f).pages = s.pages := rfl
@[simp] theorem updK_groups (s : State) (k : Nat) (f : Kernel → Kernel) : (updK s k f).groups = s.groups := rfl
@[simp] theorem updK_blocks (s : State) (k : Nat) (f : Kernel → Kernel) : (updK s k f).blocks = s.blocks := rfl
@[simp] theorem updK_kernels (s : State) (k : Nat) (f : Kernel → Kernel) : (updK s k f).kernels = mupd s.kernels k f := rfl
@[simp] theorem updK_ctxs (s : State) (k : Nat) (f : Kernel → Kernel) : (updK s k f).ctxs = s.ctxs := rfl
@[simp] theorem updK_parts (s : State) (k : Nat) (f : Kernel → Kernel) : (updK s k f).parts = s.parts := rfl
@[simp] theorem updK_queues (s : State) (k : Nat) (f : Kernel → Kernel) : (updK s k f).queues = s.queues := rfl
@[simp] theorem updK_harts (s : State) (k : Nat) (f : Kernel → Kernel) : (updK s k f).harts = s.harts := rfl
@[simp] theorem updK_cores (s : State) (k : Nat) (f : Kernel → Kernel) : (updK s k f).cores = s.cores := rfl
@[simp] theorem updK_latches (s : State) (k : Nat) (f : Kernel → Kernel) : (updK s k f).latches = s.latches := rfl
@[simp] theorem updK_ops (s : State) (k : Nat) (f : Kernel → Kernel) : (updK s k f).ops = s.ops := rfl
@[simp] theorem updK_cat (s : State) (k : Nat) (f : Kernel → Kernel) : (updK s k f).cat = s.cat := rfl
@[simp] theorem updK_banks (s : State) (k : Nat) (f : Kernel → Kernel) : (updK s k f).banks = s.banks := rfl
@[simp] theorem updK_regs (s : State) (k : Nat) (f : Kernel → Kernel) : (updK s k f).regs = s.regs := rfl
@[simp] theorem updK_limbo (s : State) (k : Nat) (f : Kernel → Kernel) : (updK s k f).limbo = s.limbo := rfl
@[simp] theorem updK_scrolls (s : State) (k : Nat) (f : Kernel → Kernel) : (updK s k f).scrolls = s.scrolls := rfl
@[simp] theorem updK_frozen (s : State) (k : Nat) (f : Kernel → Kernel) : (updK s k f).frozen = s.frozen := rfl
@[simp] theorem updK_heldReqs (s : State) (k : Nat) (f : Kernel → Kernel) : (updK s k f).heldReqs = s.heldReqs := rfl
@[simp] theorem updK_ports (s : State) (k : Nat) (f : Kernel → Kernel) : (updK s k f).ports = s.ports := rfl
@[simp] theorem updK_flowsT (s : State) (k : Nat) (f : Kernel → Kernel) : (updK s k f).flowsT = s.flowsT := rfl
@[simp] theorem updK_flowsR (s : State) (k : Nat) (f : Kernel → Kernel) : (updK s k f).flowsR = s.flowsR := rfl
@[simp] theorem updK_rr (s : State) (k : Nat) (f : Kernel → Kernel) : (updK s k f).rr = s.rr := rfl
@[simp] theorem updK_unreachable (s : State) (k : Nat) (f : Kernel → Kernel) : (updK s k f).unreachable = s.unreachable := rfl
@[simp] theorem updK_pkg (s : State) (k : Nat) (f : Kernel → Kernel) : (updK s k f).pkg = s.pkg := rfl
@[simp] theorem updK_hdm (s : State) (k : Nat) (f : Kernel → Kernel) : (updK s k f).hdm = s.hdm := rfl
@[simp] theorem updK_timeSource (s : State) (k : Nat) (f : Kernel → Kernel) : (updK s k f).timeSource = s.timeSource := rfl
@[simp] theorem updK_timeMaster (s : State) (k : Nat) (f : Kernel → Kernel) : (updK s k f).timeMaster = s.timeMaster := rfl
@[simp] theorem updK_timeLocked (s : State) (k : Nat) (f : Kernel → Kernel) : (updK s k f).timeLocked = s.timeLocked := rfl
@[simp] theorem updK_syncGood (s : State) (k : Nat) (f : Kernel → Kernel) : (updK s k f).syncGood = s.syncGood := rfl
@[simp] theorem updK_timeOffset (s : State) (k : Nat) (f : Kernel → Kernel) : (updK s k f).timeOffset = s.timeOffset := rfl
@[simp] theorem updK_slew (s : State) (k : Nat) (f : Kernel → Kernel) : (updK s k f).slew = s.slew := rfl
@[simp] theorem updK_slewFrac (s : State) (k : Nat) (f : Kernel → Kernel) : (updK s k f).slewFrac = s.slewFrac := rfl
@[simp] theorem updK_timeSet (s : State) (k : Nat) (f : Kernel → Kernel) : (updK s k f).timeSet = s.timeSet := rfl
@[simp] theorem updK_time (s : State) (k : Nat) (f : Kernel → Kernel) : (updK s k f).time = s.time := rfl
@[simp] theorem updK_cycle (s : State) (k : Nat) (f : Kernel → Kernel) : (updK s k f).cycle = s.cycle := rfl
@[simp] theorem updK_stackCtl (s : State) (k : Nat) (f : Kernel → Kernel) : (updK s k f).stackCtl = s.stackCtl := rfl
@[simp] theorem updK_slice (s : State) (k : Nat) (f : Kernel → Kernel) : (updK s k f).slice = s.slice := rfl
@[simp] theorem updK_lfsr (s : State) (k : Nat) (f : Kernel → Kernel) : (updK s k f).lfsr = s.lfsr := rfl
@[simp] theorem updK_booted (s : State) (k : Nat) (f : Kernel → Kernel) : (updK s k f).booted = s.booted := rfl
@[simp] theorem updK_bootStatus (s : State) (k : Nat) (f : Kernel → Kernel) : (updK s k f).bootStatus = s.bootStatus := rfl
@[simp] theorem updK_flash (s : State) (k : Nat) (f : Kernel → Kernel) : (updK s k f).flash = s.flash := rfl
@[simp] theorem updK_clockMHz (s : State) (k : Nat) (f : Kernel → Kernel) : (updK s k f).clockMHz = s.clockMHz := rfl
@[simp] theorem updK_powerCap (s : State) (k : Nat) (f : Kernel → Kernel) : (updK s k f).powerCap = s.powerCap := rfl
@[simp] theorem updK_trims (s : State) (k : Nat) (f : Kernel → Kernel) : (updK s k f).trims = s.trims := rfl
@[simp] theorem updK_temp (s : State) (k : Nat) (f : Kernel → Kernel) : (updK s k f).temp = s.temp := rfl
@[simp] theorem updK_power (s : State) (k : Nat) (f : Kernel → Kernel) : (updK s k f).power = s.power := rfl
@[simp] theorem updK_inlet (s : State) (k : Nat) (f : Kernel → Kernel) : (updK s k f).inlet = s.inlet := rfl
@[simp] theorem updK_tempBins (s : State) (k : Nat) (f : Kernel → Kernel) : (updK s k f).tempBins = s.tempBins := rfl
@[simp] theorem updK_powerBins (s : State) (k : Nat) (f : Kernel → Kernel) : (updK s k f).powerBins = s.powerBins := rfl
@[simp] theorem updK_inletBins (s : State) (k : Nat) (f : Kernel → Kernel) : (updK s k f).inletBins = s.inletBins := rfl
@[simp] theorem updK_tripped (s : State) (k : Nat) (f : Kernel → Kernel) : (updK s k f).tripped = s.tripped := rfl
@[simp] theorem updK_attStatus (s : State) (k : Nat) (f : Kernel → Kernel) : (updK s k f).attStatus = s.attStatus := rfl
@[simp] theorem updK_attIndex (s : State) (k : Nat) (f : Kernel → Kernel) : (updK s k f).attIndex = s.attIndex := rfl
@[simp] theorem updK_attNonce (s : State) (k : Nat) (f : Kernel → Kernel) : (updK s k f).attNonce = s.attNonce := rfl
@[simp] theorem updK_attHash (s : State) (k : Nat) (f : Kernel → Kernel) : (updK s k f).attHash = s.attHash := rfl
@[simp] theorem updK_attImages (s : State) (k : Nat) (f : Kernel → Kernel) : (updK s k f).attImages = s.attImages := rfl
@[simp] theorem updK_attSig (s : State) (k : Nat) (f : Kernel → Kernel) : (updK s k f).attSig = s.attSig := rfl
@[simp] theorem updK_fresh (s : State) (k : Nat) (f : Kernel → Kernel) : (updK s k f).fresh = s.fresh := rfl
@[simp] theorem updK_free (s : State) (k : Nat) (f : Kernel → Kernel) : (updK s k f).free = s.free := rfl
@[simp] theorem updK_agenda (s : State) (k : Nat) (f : Kernel → Kernel) : (updK s k f).agenda = s.agenda := rfl
@[simp] theorem updK_rotor (s : State) (k : Nat) (f : Kernel → Kernel) : (updK s k f).rotor = s.rotor := rfl
@[simp] theorem updK_cur (s : State) (k : Nat) (f : Kernel → Kernel) : (updK s k f).cur = s.cur := rfl

/-! ### updOp -/

@[simp] theorem updOp_mem (s : State) (k : Nat) (f : EOp → EOp) : (updOp s k f).mem = s.mem := rfl
@[simp] theorem updOp_veils (s : State) (k : Nat) (f : EOp → EOp) : (updOp s k f).veils = s.veils := rfl
@[simp] theorem updOp_poison (s : State) (k : Nat) (f : EOp → EOp) : (updOp s k f).poison = s.poison := rfl
@[simp] theorem updOp_ecc (s : State) (k : Nat) (f : EOp → EOp) : (updOp s k f).ecc = s.ecc := rfl
@[simp] theorem updOp_eccDc (s : State) (k : Nat) (f : EOp → EOp) : (updOp s k f).eccDc = s.eccDc := rfl
@[simp] theorem updOp_foundDc (s : State) (k : Nat) (f : EOp → EOp) : (updOp s k f).foundDc = s.foundDc := rfl
@[simp] theorem updOp_tags (s : State) (k : Nat) (f : EOp → EOp) : (updOp s k f).tags = s.tags := rfl
@[simp] theorem updOp_l1 (s : State) (k : Nat) (f : EOp → EOp) : (updOp s k f).l1 = s.l1 := rfl
@[simp] theorem updOp_dc (s : State) (k : Nat) (f : EOp → EOp) : (updOp s k f).dc = s.dc := rfl
@[simp] theorem updOp_walkc (s : State) (k : Nat) (f : EOp → EOp) : (updOp s k f).walkc = s.walkc := rfl
@[simp] theorem updOp_pages (s : State) (k : Nat) (f : EOp → EOp) : (updOp s k f).pages = s.pages := rfl
@[simp] theorem updOp_groups (s : State) (k : Nat) (f : EOp → EOp) : (updOp s k f).groups = s.groups := rfl
@[simp] theorem updOp_blocks (s : State) (k : Nat) (f : EOp → EOp) : (updOp s k f).blocks = s.blocks := rfl
@[simp] theorem updOp_kernels (s : State) (k : Nat) (f : EOp → EOp) : (updOp s k f).kernels = s.kernels := rfl
@[simp] theorem updOp_ctxs (s : State) (k : Nat) (f : EOp → EOp) : (updOp s k f).ctxs = s.ctxs := rfl
@[simp] theorem updOp_parts (s : State) (k : Nat) (f : EOp → EOp) : (updOp s k f).parts = s.parts := rfl
@[simp] theorem updOp_queues (s : State) (k : Nat) (f : EOp → EOp) : (updOp s k f).queues = s.queues := rfl
@[simp] theorem updOp_harts (s : State) (k : Nat) (f : EOp → EOp) : (updOp s k f).harts = s.harts := rfl
@[simp] theorem updOp_cores (s : State) (k : Nat) (f : EOp → EOp) : (updOp s k f).cores = s.cores := rfl
@[simp] theorem updOp_latches (s : State) (k : Nat) (f : EOp → EOp) : (updOp s k f).latches = s.latches := rfl
@[simp] theorem updOp_ops (s : State) (k : Nat) (f : EOp → EOp) : (updOp s k f).ops = mupd s.ops k f := rfl
@[simp] theorem updOp_cat (s : State) (k : Nat) (f : EOp → EOp) : (updOp s k f).cat = s.cat := rfl
@[simp] theorem updOp_banks (s : State) (k : Nat) (f : EOp → EOp) : (updOp s k f).banks = s.banks := rfl
@[simp] theorem updOp_regs (s : State) (k : Nat) (f : EOp → EOp) : (updOp s k f).regs = s.regs := rfl
@[simp] theorem updOp_limbo (s : State) (k : Nat) (f : EOp → EOp) : (updOp s k f).limbo = s.limbo := rfl
@[simp] theorem updOp_scrolls (s : State) (k : Nat) (f : EOp → EOp) : (updOp s k f).scrolls = s.scrolls := rfl
@[simp] theorem updOp_frozen (s : State) (k : Nat) (f : EOp → EOp) : (updOp s k f).frozen = s.frozen := rfl
@[simp] theorem updOp_heldReqs (s : State) (k : Nat) (f : EOp → EOp) : (updOp s k f).heldReqs = s.heldReqs := rfl
@[simp] theorem updOp_ports (s : State) (k : Nat) (f : EOp → EOp) : (updOp s k f).ports = s.ports := rfl
@[simp] theorem updOp_flowsT (s : State) (k : Nat) (f : EOp → EOp) : (updOp s k f).flowsT = s.flowsT := rfl
@[simp] theorem updOp_flowsR (s : State) (k : Nat) (f : EOp → EOp) : (updOp s k f).flowsR = s.flowsR := rfl
@[simp] theorem updOp_rr (s : State) (k : Nat) (f : EOp → EOp) : (updOp s k f).rr = s.rr := rfl
@[simp] theorem updOp_unreachable (s : State) (k : Nat) (f : EOp → EOp) : (updOp s k f).unreachable = s.unreachable := rfl
@[simp] theorem updOp_pkg (s : State) (k : Nat) (f : EOp → EOp) : (updOp s k f).pkg = s.pkg := rfl
@[simp] theorem updOp_hdm (s : State) (k : Nat) (f : EOp → EOp) : (updOp s k f).hdm = s.hdm := rfl
@[simp] theorem updOp_timeSource (s : State) (k : Nat) (f : EOp → EOp) : (updOp s k f).timeSource = s.timeSource := rfl
@[simp] theorem updOp_timeMaster (s : State) (k : Nat) (f : EOp → EOp) : (updOp s k f).timeMaster = s.timeMaster := rfl
@[simp] theorem updOp_timeLocked (s : State) (k : Nat) (f : EOp → EOp) : (updOp s k f).timeLocked = s.timeLocked := rfl
@[simp] theorem updOp_syncGood (s : State) (k : Nat) (f : EOp → EOp) : (updOp s k f).syncGood = s.syncGood := rfl
@[simp] theorem updOp_timeOffset (s : State) (k : Nat) (f : EOp → EOp) : (updOp s k f).timeOffset = s.timeOffset := rfl
@[simp] theorem updOp_slew (s : State) (k : Nat) (f : EOp → EOp) : (updOp s k f).slew = s.slew := rfl
@[simp] theorem updOp_slewFrac (s : State) (k : Nat) (f : EOp → EOp) : (updOp s k f).slewFrac = s.slewFrac := rfl
@[simp] theorem updOp_timeSet (s : State) (k : Nat) (f : EOp → EOp) : (updOp s k f).timeSet = s.timeSet := rfl
@[simp] theorem updOp_time (s : State) (k : Nat) (f : EOp → EOp) : (updOp s k f).time = s.time := rfl
@[simp] theorem updOp_cycle (s : State) (k : Nat) (f : EOp → EOp) : (updOp s k f).cycle = s.cycle := rfl
@[simp] theorem updOp_stackCtl (s : State) (k : Nat) (f : EOp → EOp) : (updOp s k f).stackCtl = s.stackCtl := rfl
@[simp] theorem updOp_slice (s : State) (k : Nat) (f : EOp → EOp) : (updOp s k f).slice = s.slice := rfl
@[simp] theorem updOp_lfsr (s : State) (k : Nat) (f : EOp → EOp) : (updOp s k f).lfsr = s.lfsr := rfl
@[simp] theorem updOp_booted (s : State) (k : Nat) (f : EOp → EOp) : (updOp s k f).booted = s.booted := rfl
@[simp] theorem updOp_bootStatus (s : State) (k : Nat) (f : EOp → EOp) : (updOp s k f).bootStatus = s.bootStatus := rfl
@[simp] theorem updOp_flash (s : State) (k : Nat) (f : EOp → EOp) : (updOp s k f).flash = s.flash := rfl
@[simp] theorem updOp_clockMHz (s : State) (k : Nat) (f : EOp → EOp) : (updOp s k f).clockMHz = s.clockMHz := rfl
@[simp] theorem updOp_powerCap (s : State) (k : Nat) (f : EOp → EOp) : (updOp s k f).powerCap = s.powerCap := rfl
@[simp] theorem updOp_trims (s : State) (k : Nat) (f : EOp → EOp) : (updOp s k f).trims = s.trims := rfl
@[simp] theorem updOp_temp (s : State) (k : Nat) (f : EOp → EOp) : (updOp s k f).temp = s.temp := rfl
@[simp] theorem updOp_power (s : State) (k : Nat) (f : EOp → EOp) : (updOp s k f).power = s.power := rfl
@[simp] theorem updOp_inlet (s : State) (k : Nat) (f : EOp → EOp) : (updOp s k f).inlet = s.inlet := rfl
@[simp] theorem updOp_tempBins (s : State) (k : Nat) (f : EOp → EOp) : (updOp s k f).tempBins = s.tempBins := rfl
@[simp] theorem updOp_powerBins (s : State) (k : Nat) (f : EOp → EOp) : (updOp s k f).powerBins = s.powerBins := rfl
@[simp] theorem updOp_inletBins (s : State) (k : Nat) (f : EOp → EOp) : (updOp s k f).inletBins = s.inletBins := rfl
@[simp] theorem updOp_tripped (s : State) (k : Nat) (f : EOp → EOp) : (updOp s k f).tripped = s.tripped := rfl
@[simp] theorem updOp_attStatus (s : State) (k : Nat) (f : EOp → EOp) : (updOp s k f).attStatus = s.attStatus := rfl
@[simp] theorem updOp_attIndex (s : State) (k : Nat) (f : EOp → EOp) : (updOp s k f).attIndex = s.attIndex := rfl
@[simp] theorem updOp_attNonce (s : State) (k : Nat) (f : EOp → EOp) : (updOp s k f).attNonce = s.attNonce := rfl
@[simp] theorem updOp_attHash (s : State) (k : Nat) (f : EOp → EOp) : (updOp s k f).attHash = s.attHash := rfl
@[simp] theorem updOp_attImages (s : State) (k : Nat) (f : EOp → EOp) : (updOp s k f).attImages = s.attImages := rfl
@[simp] theorem updOp_attSig (s : State) (k : Nat) (f : EOp → EOp) : (updOp s k f).attSig = s.attSig := rfl
@[simp] theorem updOp_fresh (s : State) (k : Nat) (f : EOp → EOp) : (updOp s k f).fresh = s.fresh := rfl
@[simp] theorem updOp_free (s : State) (k : Nat) (f : EOp → EOp) : (updOp s k f).free = s.free := rfl
@[simp] theorem updOp_agenda (s : State) (k : Nat) (f : EOp → EOp) : (updOp s k f).agenda = s.agenda := rfl
@[simp] theorem updOp_rotor (s : State) (k : Nat) (f : EOp → EOp) : (updOp s k f).rotor = s.rotor := rfl
@[simp] theorem updOp_cur (s : State) (k : Nat) (f : EOp → EOp) : (updOp s k f).cur = s.cur := rfl

/-! ### updQ -/

@[simp] theorem updQ_mem (s : State) (k : Nat) (f : Queue → Queue) : (updQ s k f).mem = s.mem := rfl
@[simp] theorem updQ_veils (s : State) (k : Nat) (f : Queue → Queue) : (updQ s k f).veils = s.veils := rfl
@[simp] theorem updQ_poison (s : State) (k : Nat) (f : Queue → Queue) : (updQ s k f).poison = s.poison := rfl
@[simp] theorem updQ_ecc (s : State) (k : Nat) (f : Queue → Queue) : (updQ s k f).ecc = s.ecc := rfl
@[simp] theorem updQ_eccDc (s : State) (k : Nat) (f : Queue → Queue) : (updQ s k f).eccDc = s.eccDc := rfl
@[simp] theorem updQ_foundDc (s : State) (k : Nat) (f : Queue → Queue) : (updQ s k f).foundDc = s.foundDc := rfl
@[simp] theorem updQ_tags (s : State) (k : Nat) (f : Queue → Queue) : (updQ s k f).tags = s.tags := rfl
@[simp] theorem updQ_l1 (s : State) (k : Nat) (f : Queue → Queue) : (updQ s k f).l1 = s.l1 := rfl
@[simp] theorem updQ_dc (s : State) (k : Nat) (f : Queue → Queue) : (updQ s k f).dc = s.dc := rfl
@[simp] theorem updQ_walkc (s : State) (k : Nat) (f : Queue → Queue) : (updQ s k f).walkc = s.walkc := rfl
@[simp] theorem updQ_pages (s : State) (k : Nat) (f : Queue → Queue) : (updQ s k f).pages = s.pages := rfl
@[simp] theorem updQ_groups (s : State) (k : Nat) (f : Queue → Queue) : (updQ s k f).groups = s.groups := rfl
@[simp] theorem updQ_blocks (s : State) (k : Nat) (f : Queue → Queue) : (updQ s k f).blocks = s.blocks := rfl
@[simp] theorem updQ_kernels (s : State) (k : Nat) (f : Queue → Queue) : (updQ s k f).kernels = s.kernels := rfl
@[simp] theorem updQ_ctxs (s : State) (k : Nat) (f : Queue → Queue) : (updQ s k f).ctxs = s.ctxs := rfl
@[simp] theorem updQ_parts (s : State) (k : Nat) (f : Queue → Queue) : (updQ s k f).parts = s.parts := rfl
@[simp] theorem updQ_queues (s : State) (k : Nat) (f : Queue → Queue) : (updQ s k f).queues = mset s.queues k (f (getQ s k)) := rfl
@[simp] theorem updQ_harts (s : State) (k : Nat) (f : Queue → Queue) : (updQ s k f).harts = s.harts := rfl
@[simp] theorem updQ_cores (s : State) (k : Nat) (f : Queue → Queue) : (updQ s k f).cores = s.cores := rfl
@[simp] theorem updQ_latches (s : State) (k : Nat) (f : Queue → Queue) : (updQ s k f).latches = s.latches := rfl
@[simp] theorem updQ_ops (s : State) (k : Nat) (f : Queue → Queue) : (updQ s k f).ops = s.ops := rfl
@[simp] theorem updQ_cat (s : State) (k : Nat) (f : Queue → Queue) : (updQ s k f).cat = s.cat := rfl
@[simp] theorem updQ_banks (s : State) (k : Nat) (f : Queue → Queue) : (updQ s k f).banks = s.banks := rfl
@[simp] theorem updQ_regs (s : State) (k : Nat) (f : Queue → Queue) : (updQ s k f).regs = s.regs := rfl
@[simp] theorem updQ_limbo (s : State) (k : Nat) (f : Queue → Queue) : (updQ s k f).limbo = s.limbo := rfl
@[simp] theorem updQ_scrolls (s : State) (k : Nat) (f : Queue → Queue) : (updQ s k f).scrolls = s.scrolls := rfl
@[simp] theorem updQ_frozen (s : State) (k : Nat) (f : Queue → Queue) : (updQ s k f).frozen = s.frozen := rfl
@[simp] theorem updQ_heldReqs (s : State) (k : Nat) (f : Queue → Queue) : (updQ s k f).heldReqs = s.heldReqs := rfl
@[simp] theorem updQ_ports (s : State) (k : Nat) (f : Queue → Queue) : (updQ s k f).ports = s.ports := rfl
@[simp] theorem updQ_flowsT (s : State) (k : Nat) (f : Queue → Queue) : (updQ s k f).flowsT = s.flowsT := rfl
@[simp] theorem updQ_flowsR (s : State) (k : Nat) (f : Queue → Queue) : (updQ s k f).flowsR = s.flowsR := rfl
@[simp] theorem updQ_rr (s : State) (k : Nat) (f : Queue → Queue) : (updQ s k f).rr = s.rr := rfl
@[simp] theorem updQ_unreachable (s : State) (k : Nat) (f : Queue → Queue) : (updQ s k f).unreachable = s.unreachable := rfl
@[simp] theorem updQ_pkg (s : State) (k : Nat) (f : Queue → Queue) : (updQ s k f).pkg = s.pkg := rfl
@[simp] theorem updQ_hdm (s : State) (k : Nat) (f : Queue → Queue) : (updQ s k f).hdm = s.hdm := rfl
@[simp] theorem updQ_timeSource (s : State) (k : Nat) (f : Queue → Queue) : (updQ s k f).timeSource = s.timeSource := rfl
@[simp] theorem updQ_timeMaster (s : State) (k : Nat) (f : Queue → Queue) : (updQ s k f).timeMaster = s.timeMaster := rfl
@[simp] theorem updQ_timeLocked (s : State) (k : Nat) (f : Queue → Queue) : (updQ s k f).timeLocked = s.timeLocked := rfl
@[simp] theorem updQ_syncGood (s : State) (k : Nat) (f : Queue → Queue) : (updQ s k f).syncGood = s.syncGood := rfl
@[simp] theorem updQ_timeOffset (s : State) (k : Nat) (f : Queue → Queue) : (updQ s k f).timeOffset = s.timeOffset := rfl
@[simp] theorem updQ_slew (s : State) (k : Nat) (f : Queue → Queue) : (updQ s k f).slew = s.slew := rfl
@[simp] theorem updQ_slewFrac (s : State) (k : Nat) (f : Queue → Queue) : (updQ s k f).slewFrac = s.slewFrac := rfl
@[simp] theorem updQ_timeSet (s : State) (k : Nat) (f : Queue → Queue) : (updQ s k f).timeSet = s.timeSet := rfl
@[simp] theorem updQ_time (s : State) (k : Nat) (f : Queue → Queue) : (updQ s k f).time = s.time := rfl
@[simp] theorem updQ_cycle (s : State) (k : Nat) (f : Queue → Queue) : (updQ s k f).cycle = s.cycle := rfl
@[simp] theorem updQ_stackCtl (s : State) (k : Nat) (f : Queue → Queue) : (updQ s k f).stackCtl = s.stackCtl := rfl
@[simp] theorem updQ_slice (s : State) (k : Nat) (f : Queue → Queue) : (updQ s k f).slice = s.slice := rfl
@[simp] theorem updQ_lfsr (s : State) (k : Nat) (f : Queue → Queue) : (updQ s k f).lfsr = s.lfsr := rfl
@[simp] theorem updQ_booted (s : State) (k : Nat) (f : Queue → Queue) : (updQ s k f).booted = s.booted := rfl
@[simp] theorem updQ_bootStatus (s : State) (k : Nat) (f : Queue → Queue) : (updQ s k f).bootStatus = s.bootStatus := rfl
@[simp] theorem updQ_flash (s : State) (k : Nat) (f : Queue → Queue) : (updQ s k f).flash = s.flash := rfl
@[simp] theorem updQ_clockMHz (s : State) (k : Nat) (f : Queue → Queue) : (updQ s k f).clockMHz = s.clockMHz := rfl
@[simp] theorem updQ_powerCap (s : State) (k : Nat) (f : Queue → Queue) : (updQ s k f).powerCap = s.powerCap := rfl
@[simp] theorem updQ_trims (s : State) (k : Nat) (f : Queue → Queue) : (updQ s k f).trims = s.trims := rfl
@[simp] theorem updQ_temp (s : State) (k : Nat) (f : Queue → Queue) : (updQ s k f).temp = s.temp := rfl
@[simp] theorem updQ_power (s : State) (k : Nat) (f : Queue → Queue) : (updQ s k f).power = s.power := rfl
@[simp] theorem updQ_inlet (s : State) (k : Nat) (f : Queue → Queue) : (updQ s k f).inlet = s.inlet := rfl
@[simp] theorem updQ_tempBins (s : State) (k : Nat) (f : Queue → Queue) : (updQ s k f).tempBins = s.tempBins := rfl
@[simp] theorem updQ_powerBins (s : State) (k : Nat) (f : Queue → Queue) : (updQ s k f).powerBins = s.powerBins := rfl
@[simp] theorem updQ_inletBins (s : State) (k : Nat) (f : Queue → Queue) : (updQ s k f).inletBins = s.inletBins := rfl
@[simp] theorem updQ_tripped (s : State) (k : Nat) (f : Queue → Queue) : (updQ s k f).tripped = s.tripped := rfl
@[simp] theorem updQ_attStatus (s : State) (k : Nat) (f : Queue → Queue) : (updQ s k f).attStatus = s.attStatus := rfl
@[simp] theorem updQ_attIndex (s : State) (k : Nat) (f : Queue → Queue) : (updQ s k f).attIndex = s.attIndex := rfl
@[simp] theorem updQ_attNonce (s : State) (k : Nat) (f : Queue → Queue) : (updQ s k f).attNonce = s.attNonce := rfl
@[simp] theorem updQ_attHash (s : State) (k : Nat) (f : Queue → Queue) : (updQ s k f).attHash = s.attHash := rfl
@[simp] theorem updQ_attImages (s : State) (k : Nat) (f : Queue → Queue) : (updQ s k f).attImages = s.attImages := rfl
@[simp] theorem updQ_attSig (s : State) (k : Nat) (f : Queue → Queue) : (updQ s k f).attSig = s.attSig := rfl
@[simp] theorem updQ_fresh (s : State) (k : Nat) (f : Queue → Queue) : (updQ s k f).fresh = s.fresh := rfl
@[simp] theorem updQ_free (s : State) (k : Nat) (f : Queue → Queue) : (updQ s k f).free = s.free := rfl
@[simp] theorem updQ_agenda (s : State) (k : Nat) (f : Queue → Queue) : (updQ s k f).agenda = s.agenda := rfl
@[simp] theorem updQ_rotor (s : State) (k : Nat) (f : Queue → Queue) : (updQ s k f).rotor = s.rotor := rfl
@[simp] theorem updQ_cur (s : State) (k : Nat) (f : Queue → Queue) : (updQ s k f).cur = s.cur := rfl

/-! ### updPart -/

@[simp] theorem updPart_mem (s : State) (k : Nat) (f : Part → Part) : (updPart s k f).mem = s.mem := rfl
@[simp] theorem updPart_veils (s : State) (k : Nat) (f : Part → Part) : (updPart s k f).veils = s.veils := rfl
@[simp] theorem updPart_poison (s : State) (k : Nat) (f : Part → Part) : (updPart s k f).poison = s.poison := rfl
@[simp] theorem updPart_ecc (s : State) (k : Nat) (f : Part → Part) : (updPart s k f).ecc = s.ecc := rfl
@[simp] theorem updPart_eccDc (s : State) (k : Nat) (f : Part → Part) : (updPart s k f).eccDc = s.eccDc := rfl
@[simp] theorem updPart_foundDc (s : State) (k : Nat) (f : Part → Part) : (updPart s k f).foundDc = s.foundDc := rfl
@[simp] theorem updPart_tags (s : State) (k : Nat) (f : Part → Part) : (updPart s k f).tags = s.tags := rfl
@[simp] theorem updPart_l1 (s : State) (k : Nat) (f : Part → Part) : (updPart s k f).l1 = s.l1 := rfl
@[simp] theorem updPart_dc (s : State) (k : Nat) (f : Part → Part) : (updPart s k f).dc = s.dc := rfl
@[simp] theorem updPart_walkc (s : State) (k : Nat) (f : Part → Part) : (updPart s k f).walkc = s.walkc := rfl
@[simp] theorem updPart_pages (s : State) (k : Nat) (f : Part → Part) : (updPart s k f).pages = s.pages := rfl
@[simp] theorem updPart_groups (s : State) (k : Nat) (f : Part → Part) : (updPart s k f).groups = s.groups := rfl
@[simp] theorem updPart_blocks (s : State) (k : Nat) (f : Part → Part) : (updPart s k f).blocks = s.blocks := rfl
@[simp] theorem updPart_kernels (s : State) (k : Nat) (f : Part → Part) : (updPart s k f).kernels = s.kernels := rfl
@[simp] theorem updPart_ctxs (s : State) (k : Nat) (f : Part → Part) : (updPart s k f).ctxs = s.ctxs := rfl
@[simp] theorem updPart_parts (s : State) (k : Nat) (f : Part → Part) : (updPart s k f).parts = mset s.parts k (f (getPart s k)) := rfl
@[simp] theorem updPart_queues (s : State) (k : Nat) (f : Part → Part) : (updPart s k f).queues = s.queues := rfl
@[simp] theorem updPart_harts (s : State) (k : Nat) (f : Part → Part) : (updPart s k f).harts = s.harts := rfl
@[simp] theorem updPart_cores (s : State) (k : Nat) (f : Part → Part) : (updPart s k f).cores = s.cores := rfl
@[simp] theorem updPart_latches (s : State) (k : Nat) (f : Part → Part) : (updPart s k f).latches = s.latches := rfl
@[simp] theorem updPart_ops (s : State) (k : Nat) (f : Part → Part) : (updPart s k f).ops = s.ops := rfl
@[simp] theorem updPart_cat (s : State) (k : Nat) (f : Part → Part) : (updPart s k f).cat = s.cat := rfl
@[simp] theorem updPart_banks (s : State) (k : Nat) (f : Part → Part) : (updPart s k f).banks = s.banks := rfl
@[simp] theorem updPart_regs (s : State) (k : Nat) (f : Part → Part) : (updPart s k f).regs = s.regs := rfl
@[simp] theorem updPart_limbo (s : State) (k : Nat) (f : Part → Part) : (updPart s k f).limbo = s.limbo := rfl
@[simp] theorem updPart_scrolls (s : State) (k : Nat) (f : Part → Part) : (updPart s k f).scrolls = s.scrolls := rfl
@[simp] theorem updPart_frozen (s : State) (k : Nat) (f : Part → Part) : (updPart s k f).frozen = s.frozen := rfl
@[simp] theorem updPart_heldReqs (s : State) (k : Nat) (f : Part → Part) : (updPart s k f).heldReqs = s.heldReqs := rfl
@[simp] theorem updPart_ports (s : State) (k : Nat) (f : Part → Part) : (updPart s k f).ports = s.ports := rfl
@[simp] theorem updPart_flowsT (s : State) (k : Nat) (f : Part → Part) : (updPart s k f).flowsT = s.flowsT := rfl
@[simp] theorem updPart_flowsR (s : State) (k : Nat) (f : Part → Part) : (updPart s k f).flowsR = s.flowsR := rfl
@[simp] theorem updPart_rr (s : State) (k : Nat) (f : Part → Part) : (updPart s k f).rr = s.rr := rfl
@[simp] theorem updPart_unreachable (s : State) (k : Nat) (f : Part → Part) : (updPart s k f).unreachable = s.unreachable := rfl
@[simp] theorem updPart_pkg (s : State) (k : Nat) (f : Part → Part) : (updPart s k f).pkg = s.pkg := rfl
@[simp] theorem updPart_hdm (s : State) (k : Nat) (f : Part → Part) : (updPart s k f).hdm = s.hdm := rfl
@[simp] theorem updPart_timeSource (s : State) (k : Nat) (f : Part → Part) : (updPart s k f).timeSource = s.timeSource := rfl
@[simp] theorem updPart_timeMaster (s : State) (k : Nat) (f : Part → Part) : (updPart s k f).timeMaster = s.timeMaster := rfl
@[simp] theorem updPart_timeLocked (s : State) (k : Nat) (f : Part → Part) : (updPart s k f).timeLocked = s.timeLocked := rfl
@[simp] theorem updPart_syncGood (s : State) (k : Nat) (f : Part → Part) : (updPart s k f).syncGood = s.syncGood := rfl
@[simp] theorem updPart_timeOffset (s : State) (k : Nat) (f : Part → Part) : (updPart s k f).timeOffset = s.timeOffset := rfl
@[simp] theorem updPart_slew (s : State) (k : Nat) (f : Part → Part) : (updPart s k f).slew = s.slew := rfl
@[simp] theorem updPart_slewFrac (s : State) (k : Nat) (f : Part → Part) : (updPart s k f).slewFrac = s.slewFrac := rfl
@[simp] theorem updPart_timeSet (s : State) (k : Nat) (f : Part → Part) : (updPart s k f).timeSet = s.timeSet := rfl
@[simp] theorem updPart_time (s : State) (k : Nat) (f : Part → Part) : (updPart s k f).time = s.time := rfl
@[simp] theorem updPart_cycle (s : State) (k : Nat) (f : Part → Part) : (updPart s k f).cycle = s.cycle := rfl
@[simp] theorem updPart_stackCtl (s : State) (k : Nat) (f : Part → Part) : (updPart s k f).stackCtl = s.stackCtl := rfl
@[simp] theorem updPart_slice (s : State) (k : Nat) (f : Part → Part) : (updPart s k f).slice = s.slice := rfl
@[simp] theorem updPart_lfsr (s : State) (k : Nat) (f : Part → Part) : (updPart s k f).lfsr = s.lfsr := rfl
@[simp] theorem updPart_booted (s : State) (k : Nat) (f : Part → Part) : (updPart s k f).booted = s.booted := rfl
@[simp] theorem updPart_bootStatus (s : State) (k : Nat) (f : Part → Part) : (updPart s k f).bootStatus = s.bootStatus := rfl
@[simp] theorem updPart_flash (s : State) (k : Nat) (f : Part → Part) : (updPart s k f).flash = s.flash := rfl
@[simp] theorem updPart_clockMHz (s : State) (k : Nat) (f : Part → Part) : (updPart s k f).clockMHz = s.clockMHz := rfl
@[simp] theorem updPart_powerCap (s : State) (k : Nat) (f : Part → Part) : (updPart s k f).powerCap = s.powerCap := rfl
@[simp] theorem updPart_trims (s : State) (k : Nat) (f : Part → Part) : (updPart s k f).trims = s.trims := rfl
@[simp] theorem updPart_temp (s : State) (k : Nat) (f : Part → Part) : (updPart s k f).temp = s.temp := rfl
@[simp] theorem updPart_power (s : State) (k : Nat) (f : Part → Part) : (updPart s k f).power = s.power := rfl
@[simp] theorem updPart_inlet (s : State) (k : Nat) (f : Part → Part) : (updPart s k f).inlet = s.inlet := rfl
@[simp] theorem updPart_tempBins (s : State) (k : Nat) (f : Part → Part) : (updPart s k f).tempBins = s.tempBins := rfl
@[simp] theorem updPart_powerBins (s : State) (k : Nat) (f : Part → Part) : (updPart s k f).powerBins = s.powerBins := rfl
@[simp] theorem updPart_inletBins (s : State) (k : Nat) (f : Part → Part) : (updPart s k f).inletBins = s.inletBins := rfl
@[simp] theorem updPart_tripped (s : State) (k : Nat) (f : Part → Part) : (updPart s k f).tripped = s.tripped := rfl
@[simp] theorem updPart_attStatus (s : State) (k : Nat) (f : Part → Part) : (updPart s k f).attStatus = s.attStatus := rfl
@[simp] theorem updPart_attIndex (s : State) (k : Nat) (f : Part → Part) : (updPart s k f).attIndex = s.attIndex := rfl
@[simp] theorem updPart_attNonce (s : State) (k : Nat) (f : Part → Part) : (updPart s k f).attNonce = s.attNonce := rfl
@[simp] theorem updPart_attHash (s : State) (k : Nat) (f : Part → Part) : (updPart s k f).attHash = s.attHash := rfl
@[simp] theorem updPart_attImages (s : State) (k : Nat) (f : Part → Part) : (updPart s k f).attImages = s.attImages := rfl
@[simp] theorem updPart_attSig (s : State) (k : Nat) (f : Part → Part) : (updPart s k f).attSig = s.attSig := rfl
@[simp] theorem updPart_fresh (s : State) (k : Nat) (f : Part → Part) : (updPart s k f).fresh = s.fresh := rfl
@[simp] theorem updPart_free (s : State) (k : Nat) (f : Part → Part) : (updPart s k f).free = s.free := rfl
@[simp] theorem updPart_agenda (s : State) (k : Nat) (f : Part → Part) : (updPart s k f).agenda = s.agenda := rfl
@[simp] theorem updPart_rotor (s : State) (k : Nat) (f : Part → Part) : (updPart s k f).rotor = s.rotor := rfl
@[simp] theorem updPart_cur (s : State) (k : Nat) (f : Part → Part) : (updPart s k f).cur = s.cur := rfl

/-! ### updCtx -/

@[simp] theorem updCtx_mem (s : State) (k : Nat) (f : Ctx → Ctx) : (updCtx s k f).mem = s.mem := rfl
@[simp] theorem updCtx_veils (s : State) (k : Nat) (f : Ctx → Ctx) : (updCtx s k f).veils = s.veils := rfl
@[simp] theorem updCtx_poison (s : State) (k : Nat) (f : Ctx → Ctx) : (updCtx s k f).poison = s.poison := rfl
@[simp] theorem updCtx_ecc (s : State) (k : Nat) (f : Ctx → Ctx) : (updCtx s k f).ecc = s.ecc := rfl
@[simp] theorem updCtx_eccDc (s : State) (k : Nat) (f : Ctx → Ctx) : (updCtx s k f).eccDc = s.eccDc := rfl
@[simp] theorem updCtx_foundDc (s : State) (k : Nat) (f : Ctx → Ctx) : (updCtx s k f).foundDc = s.foundDc := rfl
@[simp] theorem updCtx_tags (s : State) (k : Nat) (f : Ctx → Ctx) : (updCtx s k f).tags = s.tags := rfl
@[simp] theorem updCtx_l1 (s : State) (k : Nat) (f : Ctx → Ctx) : (updCtx s k f).l1 = s.l1 := rfl
@[simp] theorem updCtx_dc (s : State) (k : Nat) (f : Ctx → Ctx) : (updCtx s k f).dc = s.dc := rfl
@[simp] theorem updCtx_walkc (s : State) (k : Nat) (f : Ctx → Ctx) : (updCtx s k f).walkc = s.walkc := rfl
@[simp] theorem updCtx_pages (s : State) (k : Nat) (f : Ctx → Ctx) : (updCtx s k f).pages = s.pages := rfl
@[simp] theorem updCtx_groups (s : State) (k : Nat) (f : Ctx → Ctx) : (updCtx s k f).groups = s.groups := rfl
@[simp] theorem updCtx_blocks (s : State) (k : Nat) (f : Ctx → Ctx) : (updCtx s k f).blocks = s.blocks := rfl
@[simp] theorem updCtx_kernels (s : State) (k : Nat) (f : Ctx → Ctx) : (updCtx s k f).kernels = s.kernels := rfl
@[simp] theorem updCtx_ctxs (s : State) (k : Nat) (f : Ctx → Ctx) : (updCtx s k f).ctxs = mset s.ctxs k (f (getCtx s k)) := rfl
@[simp] theorem updCtx_parts (s : State) (k : Nat) (f : Ctx → Ctx) : (updCtx s k f).parts = s.parts := rfl
@[simp] theorem updCtx_queues (s : State) (k : Nat) (f : Ctx → Ctx) : (updCtx s k f).queues = s.queues := rfl
@[simp] theorem updCtx_harts (s : State) (k : Nat) (f : Ctx → Ctx) : (updCtx s k f).harts = s.harts := rfl
@[simp] theorem updCtx_cores (s : State) (k : Nat) (f : Ctx → Ctx) : (updCtx s k f).cores = s.cores := rfl
@[simp] theorem updCtx_latches (s : State) (k : Nat) (f : Ctx → Ctx) : (updCtx s k f).latches = s.latches := rfl
@[simp] theorem updCtx_ops (s : State) (k : Nat) (f : Ctx → Ctx) : (updCtx s k f).ops = s.ops := rfl
@[simp] theorem updCtx_cat (s : State) (k : Nat) (f : Ctx → Ctx) : (updCtx s k f).cat = s.cat := rfl
@[simp] theorem updCtx_banks (s : State) (k : Nat) (f : Ctx → Ctx) : (updCtx s k f).banks = s.banks := rfl
@[simp] theorem updCtx_regs (s : State) (k : Nat) (f : Ctx → Ctx) : (updCtx s k f).regs = s.regs := rfl
@[simp] theorem updCtx_limbo (s : State) (k : Nat) (f : Ctx → Ctx) : (updCtx s k f).limbo = s.limbo := rfl
@[simp] theorem updCtx_scrolls (s : State) (k : Nat) (f : Ctx → Ctx) : (updCtx s k f).scrolls = s.scrolls := rfl
@[simp] theorem updCtx_frozen (s : State) (k : Nat) (f : Ctx → Ctx) : (updCtx s k f).frozen = s.frozen := rfl
@[simp] theorem updCtx_heldReqs (s : State) (k : Nat) (f : Ctx → Ctx) : (updCtx s k f).heldReqs = s.heldReqs := rfl
@[simp] theorem updCtx_ports (s : State) (k : Nat) (f : Ctx → Ctx) : (updCtx s k f).ports = s.ports := rfl
@[simp] theorem updCtx_flowsT (s : State) (k : Nat) (f : Ctx → Ctx) : (updCtx s k f).flowsT = s.flowsT := rfl
@[simp] theorem updCtx_flowsR (s : State) (k : Nat) (f : Ctx → Ctx) : (updCtx s k f).flowsR = s.flowsR := rfl
@[simp] theorem updCtx_rr (s : State) (k : Nat) (f : Ctx → Ctx) : (updCtx s k f).rr = s.rr := rfl
@[simp] theorem updCtx_unreachable (s : State) (k : Nat) (f : Ctx → Ctx) : (updCtx s k f).unreachable = s.unreachable := rfl
@[simp] theorem updCtx_pkg (s : State) (k : Nat) (f : Ctx → Ctx) : (updCtx s k f).pkg = s.pkg := rfl
@[simp] theorem updCtx_hdm (s : State) (k : Nat) (f : Ctx → Ctx) : (updCtx s k f).hdm = s.hdm := rfl
@[simp] theorem updCtx_timeSource (s : State) (k : Nat) (f : Ctx → Ctx) : (updCtx s k f).timeSource = s.timeSource := rfl
@[simp] theorem updCtx_timeMaster (s : State) (k : Nat) (f : Ctx → Ctx) : (updCtx s k f).timeMaster = s.timeMaster := rfl
@[simp] theorem updCtx_timeLocked (s : State) (k : Nat) (f : Ctx → Ctx) : (updCtx s k f).timeLocked = s.timeLocked := rfl
@[simp] theorem updCtx_syncGood (s : State) (k : Nat) (f : Ctx → Ctx) : (updCtx s k f).syncGood = s.syncGood := rfl
@[simp] theorem updCtx_timeOffset (s : State) (k : Nat) (f : Ctx → Ctx) : (updCtx s k f).timeOffset = s.timeOffset := rfl
@[simp] theorem updCtx_slew (s : State) (k : Nat) (f : Ctx → Ctx) : (updCtx s k f).slew = s.slew := rfl
@[simp] theorem updCtx_slewFrac (s : State) (k : Nat) (f : Ctx → Ctx) : (updCtx s k f).slewFrac = s.slewFrac := rfl
@[simp] theorem updCtx_timeSet (s : State) (k : Nat) (f : Ctx → Ctx) : (updCtx s k f).timeSet = s.timeSet := rfl
@[simp] theorem updCtx_time (s : State) (k : Nat) (f : Ctx → Ctx) : (updCtx s k f).time = s.time := rfl
@[simp] theorem updCtx_cycle (s : State) (k : Nat) (f : Ctx → Ctx) : (updCtx s k f).cycle = s.cycle := rfl
@[simp] theorem updCtx_stackCtl (s : State) (k : Nat) (f : Ctx → Ctx) : (updCtx s k f).stackCtl = s.stackCtl := rfl
@[simp] theorem updCtx_slice (s : State) (k : Nat) (f : Ctx → Ctx) : (updCtx s k f).slice = s.slice := rfl
@[simp] theorem updCtx_lfsr (s : State) (k : Nat) (f : Ctx → Ctx) : (updCtx s k f).lfsr = s.lfsr := rfl
@[simp] theorem updCtx_booted (s : State) (k : Nat) (f : Ctx → Ctx) : (updCtx s k f).booted = s.booted := rfl
@[simp] theorem updCtx_bootStatus (s : State) (k : Nat) (f : Ctx → Ctx) : (updCtx s k f).bootStatus = s.bootStatus := rfl
@[simp] theorem updCtx_flash (s : State) (k : Nat) (f : Ctx → Ctx) : (updCtx s k f).flash = s.flash := rfl
@[simp] theorem updCtx_clockMHz (s : State) (k : Nat) (f : Ctx → Ctx) : (updCtx s k f).clockMHz = s.clockMHz := rfl
@[simp] theorem updCtx_powerCap (s : State) (k : Nat) (f : Ctx → Ctx) : (updCtx s k f).powerCap = s.powerCap := rfl
@[simp] theorem updCtx_trims (s : State) (k : Nat) (f : Ctx → Ctx) : (updCtx s k f).trims = s.trims := rfl
@[simp] theorem updCtx_temp (s : State) (k : Nat) (f : Ctx → Ctx) : (updCtx s k f).temp = s.temp := rfl
@[simp] theorem updCtx_power (s : State) (k : Nat) (f : Ctx → Ctx) : (updCtx s k f).power = s.power := rfl
@[simp] theorem updCtx_inlet (s : State) (k : Nat) (f : Ctx → Ctx) : (updCtx s k f).inlet = s.inlet := rfl
@[simp] theorem updCtx_tempBins (s : State) (k : Nat) (f : Ctx → Ctx) : (updCtx s k f).tempBins = s.tempBins := rfl
@[simp] theorem updCtx_powerBins (s : State) (k : Nat) (f : Ctx → Ctx) : (updCtx s k f).powerBins = s.powerBins := rfl
@[simp] theorem updCtx_inletBins (s : State) (k : Nat) (f : Ctx → Ctx) : (updCtx s k f).inletBins = s.inletBins := rfl
@[simp] theorem updCtx_tripped (s : State) (k : Nat) (f : Ctx → Ctx) : (updCtx s k f).tripped = s.tripped := rfl
@[simp] theorem updCtx_attStatus (s : State) (k : Nat) (f : Ctx → Ctx) : (updCtx s k f).attStatus = s.attStatus := rfl
@[simp] theorem updCtx_attIndex (s : State) (k : Nat) (f : Ctx → Ctx) : (updCtx s k f).attIndex = s.attIndex := rfl
@[simp] theorem updCtx_attNonce (s : State) (k : Nat) (f : Ctx → Ctx) : (updCtx s k f).attNonce = s.attNonce := rfl
@[simp] theorem updCtx_attHash (s : State) (k : Nat) (f : Ctx → Ctx) : (updCtx s k f).attHash = s.attHash := rfl
@[simp] theorem updCtx_attImages (s : State) (k : Nat) (f : Ctx → Ctx) : (updCtx s k f).attImages = s.attImages := rfl
@[simp] theorem updCtx_attSig (s : State) (k : Nat) (f : Ctx → Ctx) : (updCtx s k f).attSig = s.attSig := rfl
@[simp] theorem updCtx_fresh (s : State) (k : Nat) (f : Ctx → Ctx) : (updCtx s k f).fresh = s.fresh := rfl
@[simp] theorem updCtx_free (s : State) (k : Nat) (f : Ctx → Ctx) : (updCtx s k f).free = s.free := rfl
@[simp] theorem updCtx_agenda (s : State) (k : Nat) (f : Ctx → Ctx) : (updCtx s k f).agenda = s.agenda := rfl
@[simp] theorem updCtx_rotor (s : State) (k : Nat) (f : Ctx → Ctx) : (updCtx s k f).rotor = s.rotor := rfl
@[simp] theorem updCtx_cur (s : State) (k : Nat) (f : Ctx → Ctx) : (updCtx s k f).cur = s.cur := rfl

/-! ### updCore -/

@[simp] theorem updCore_mem (s : State) (k : Nat) (f : Core → Core) : (updCore s k f).mem = s.mem := rfl
@[simp] theorem updCore_veils (s : State) (k : Nat) (f : Core → Core) : (updCore s k f).veils = s.veils := rfl
@[simp] theorem updCore_poison (s : State) (k : Nat) (f : Core → Core) : (updCore s k f).poison = s.poison := rfl
@[simp] theorem updCore_ecc (s : State) (k : Nat) (f : Core → Core) : (updCore s k f).ecc = s.ecc := rfl
@[simp] theorem updCore_eccDc (s : State) (k : Nat) (f : Core → Core) : (updCore s k f).eccDc = s.eccDc := rfl
@[simp] theorem updCore_foundDc (s : State) (k : Nat) (f : Core → Core) : (updCore s k f).foundDc = s.foundDc := rfl
@[simp] theorem updCore_tags (s : State) (k : Nat) (f : Core → Core) : (updCore s k f).tags = s.tags := rfl
@[simp] theorem updCore_l1 (s : State) (k : Nat) (f : Core → Core) : (updCore s k f).l1 = s.l1 := rfl
@[simp] theorem updCore_dc (s : State) (k : Nat) (f : Core → Core) : (updCore s k f).dc = s.dc := rfl
@[simp] theorem updCore_walkc (s : State) (k : Nat) (f : Core → Core) : (updCore s k f).walkc = s.walkc := rfl
@[simp] theorem updCore_pages (s : State) (k : Nat) (f : Core → Core) : (updCore s k f).pages = s.pages := rfl
@[simp] theorem updCore_groups (s : State) (k : Nat) (f : Core → Core) : (updCore s k f).groups = s.groups := rfl
@[simp] theorem updCore_blocks (s : State) (k : Nat) (f : Core → Core) : (updCore s k f).blocks = s.blocks := rfl
@[simp] theorem updCore_kernels (s : State) (k : Nat) (f : Core → Core) : (updCore s k f).kernels = s.kernels := rfl
@[simp] theorem updCore_ctxs (s : State) (k : Nat) (f : Core → Core) : (updCore s k f).ctxs = s.ctxs := rfl
@[simp] theorem updCore_parts (s : State) (k : Nat) (f : Core → Core) : (updCore s k f).parts = s.parts := rfl
@[simp] theorem updCore_queues (s : State) (k : Nat) (f : Core → Core) : (updCore s k f).queues = s.queues := rfl
@[simp] theorem updCore_harts (s : State) (k : Nat) (f : Core → Core) : (updCore s k f).harts = s.harts := rfl
@[simp] theorem updCore_cores (s : State) (k : Nat) (f : Core → Core) : (updCore s k f).cores = mset s.cores k (f (getCore s k)) := rfl
@[simp] theorem updCore_latches (s : State) (k : Nat) (f : Core → Core) : (updCore s k f).latches = s.latches := rfl
@[simp] theorem updCore_ops (s : State) (k : Nat) (f : Core → Core) : (updCore s k f).ops = s.ops := rfl
@[simp] theorem updCore_cat (s : State) (k : Nat) (f : Core → Core) : (updCore s k f).cat = s.cat := rfl
@[simp] theorem updCore_banks (s : State) (k : Nat) (f : Core → Core) : (updCore s k f).banks = s.banks := rfl
@[simp] theorem updCore_regs (s : State) (k : Nat) (f : Core → Core) : (updCore s k f).regs = s.regs := rfl
@[simp] theorem updCore_limbo (s : State) (k : Nat) (f : Core → Core) : (updCore s k f).limbo = s.limbo := rfl
@[simp] theorem updCore_scrolls (s : State) (k : Nat) (f : Core → Core) : (updCore s k f).scrolls = s.scrolls := rfl
@[simp] theorem updCore_frozen (s : State) (k : Nat) (f : Core → Core) : (updCore s k f).frozen = s.frozen := rfl
@[simp] theorem updCore_heldReqs (s : State) (k : Nat) (f : Core → Core) : (updCore s k f).heldReqs = s.heldReqs := rfl
@[simp] theorem updCore_ports (s : State) (k : Nat) (f : Core → Core) : (updCore s k f).ports = s.ports := rfl
@[simp] theorem updCore_flowsT (s : State) (k : Nat) (f : Core → Core) : (updCore s k f).flowsT = s.flowsT := rfl
@[simp] theorem updCore_flowsR (s : State) (k : Nat) (f : Core → Core) : (updCore s k f).flowsR = s.flowsR := rfl
@[simp] theorem updCore_rr (s : State) (k : Nat) (f : Core → Core) : (updCore s k f).rr = s.rr := rfl
@[simp] theorem updCore_unreachable (s : State) (k : Nat) (f : Core → Core) : (updCore s k f).unreachable = s.unreachable := rfl
@[simp] theorem updCore_pkg (s : State) (k : Nat) (f : Core → Core) : (updCore s k f).pkg = s.pkg := rfl
@[simp] theorem updCore_hdm (s : State) (k : Nat) (f : Core → Core) : (updCore s k f).hdm = s.hdm := rfl
@[simp] theorem updCore_timeSource (s : State) (k : Nat) (f : Core → Core) : (updCore s k f).timeSource = s.timeSource := rfl
@[simp] theorem updCore_timeMaster (s : State) (k : Nat) (f : Core → Core) : (updCore s k f).timeMaster = s.timeMaster := rfl
@[simp] theorem updCore_timeLocked (s : State) (k : Nat) (f : Core → Core) : (updCore s k f).timeLocked = s.timeLocked := rfl
@[simp] theorem updCore_syncGood (s : State) (k : Nat) (f : Core → Core) : (updCore s k f).syncGood = s.syncGood := rfl
@[simp] theorem updCore_timeOffset (s : State) (k : Nat) (f : Core → Core) : (updCore s k f).timeOffset = s.timeOffset := rfl
@[simp] theorem updCore_slew (s : State) (k : Nat) (f : Core → Core) : (updCore s k f).slew = s.slew := rfl
@[simp] theorem updCore_slewFrac (s : State) (k : Nat) (f : Core → Core) : (updCore s k f).slewFrac = s.slewFrac := rfl
@[simp] theorem updCore_timeSet (s : State) (k : Nat) (f : Core → Core) : (updCore s k f).timeSet = s.timeSet := rfl
@[simp] theorem updCore_time (s : State) (k : Nat) (f : Core → Core) : (updCore s k f).time = s.time := rfl
@[simp] theorem updCore_cycle (s : State) (k : Nat) (f : Core → Core) : (updCore s k f).cycle = s.cycle := rfl
@[simp] theorem updCore_stackCtl (s : State) (k : Nat) (f : Core → Core) : (updCore s k f).stackCtl = s.stackCtl := rfl
@[simp] theorem updCore_slice (s : State) (k : Nat) (f : Core → Core) : (updCore s k f).slice = s.slice := rfl
@[simp] theorem updCore_lfsr (s : State) (k : Nat) (f : Core → Core) : (updCore s k f).lfsr = s.lfsr := rfl
@[simp] theorem updCore_booted (s : State) (k : Nat) (f : Core → Core) : (updCore s k f).booted = s.booted := rfl
@[simp] theorem updCore_bootStatus (s : State) (k : Nat) (f : Core → Core) : (updCore s k f).bootStatus = s.bootStatus := rfl
@[simp] theorem updCore_flash (s : State) (k : Nat) (f : Core → Core) : (updCore s k f).flash = s.flash := rfl
@[simp] theorem updCore_clockMHz (s : State) (k : Nat) (f : Core → Core) : (updCore s k f).clockMHz = s.clockMHz := rfl
@[simp] theorem updCore_powerCap (s : State) (k : Nat) (f : Core → Core) : (updCore s k f).powerCap = s.powerCap := rfl
@[simp] theorem updCore_trims (s : State) (k : Nat) (f : Core → Core) : (updCore s k f).trims = s.trims := rfl
@[simp] theorem updCore_temp (s : State) (k : Nat) (f : Core → Core) : (updCore s k f).temp = s.temp := rfl
@[simp] theorem updCore_power (s : State) (k : Nat) (f : Core → Core) : (updCore s k f).power = s.power := rfl
@[simp] theorem updCore_inlet (s : State) (k : Nat) (f : Core → Core) : (updCore s k f).inlet = s.inlet := rfl
@[simp] theorem updCore_tempBins (s : State) (k : Nat) (f : Core → Core) : (updCore s k f).tempBins = s.tempBins := rfl
@[simp] theorem updCore_powerBins (s : State) (k : Nat) (f : Core → Core) : (updCore s k f).powerBins = s.powerBins := rfl
@[simp] theorem updCore_inletBins (s : State) (k : Nat) (f : Core → Core) : (updCore s k f).inletBins = s.inletBins := rfl
@[simp] theorem updCore_tripped (s : State) (k : Nat) (f : Core → Core) : (updCore s k f).tripped = s.tripped := rfl
@[simp] theorem updCore_attStatus (s : State) (k : Nat) (f : Core → Core) : (updCore s k f).attStatus = s.attStatus := rfl
@[simp] theorem updCore_attIndex (s : State) (k : Nat) (f : Core → Core) : (updCore s k f).attIndex = s.attIndex := rfl
@[simp] theorem updCore_attNonce (s : State) (k : Nat) (f : Core → Core) : (updCore s k f).attNonce = s.attNonce := rfl
@[simp] theorem updCore_attHash (s : State) (k : Nat) (f : Core → Core) : (updCore s k f).attHash = s.attHash := rfl
@[simp] theorem updCore_attImages (s : State) (k : Nat) (f : Core → Core) : (updCore s k f).attImages = s.attImages := rfl
@[simp] theorem updCore_attSig (s : State) (k : Nat) (f : Core → Core) : (updCore s k f).attSig = s.attSig := rfl
@[simp] theorem updCore_fresh (s : State) (k : Nat) (f : Core → Core) : (updCore s k f).fresh = s.fresh := rfl
@[simp] theorem updCore_free (s : State) (k : Nat) (f : Core → Core) : (updCore s k f).free = s.free := rfl
@[simp] theorem updCore_agenda (s : State) (k : Nat) (f : Core → Core) : (updCore s k f).agenda = s.agenda := rfl
@[simp] theorem updCore_rotor (s : State) (k : Nat) (f : Core → Core) : (updCore s k f).rotor = s.rotor := rfl
@[simp] theorem updCore_cur (s : State) (k : Nat) (f : Core → Core) : (updCore s k f).cur = s.cur := rfl

/-! ### Lookups after an update -/

theorem find_updG_same {s : State} {k : Nat} {g : Group} (f : Group → Group) (h : mfind s.groups k = some g) :
    mfind (updG s k f).groups k = some (f g) := by simp [h]
theorem find_updG_ne {s : State} {k j : Nat} (f : Group → Group) (h : j ≠ k) :
    mfind (updG s k f).groups j = mfind s.groups j := by simp [mfind_mupd_ne _ f h]
theorem find_updB_same {s : State} {k : Nat} {b : Block} (f : Block → Block) (h : mfind s.blocks k = some b) :
    mfind (updB s k f).blocks k = some (f b) := by simp [h]
theorem find_updB_ne {s : State} {k j : Nat} (f : Block → Block) (h : j ≠ k) :
    mfind (updB s k f).blocks j = mfind s.blocks j := by simp [mfind_mupd_ne _ f h]
theorem find_updK_same {s : State} {k : Nat} {x : Kernel} (f : Kernel → Kernel) (h : mfind s.kernels k = some x) :
    mfind (updK s k f).kernels k = some (f x) := by simp [h]
theorem find_updOp_same {s : State} {k : Nat} {o : EOp} (f : EOp → EOp) (h : mfind s.ops k = some o) :
    mfind (updOp s k f).ops k = some (f o) := by simp [h]
@[simp] theorem getQ_updQ (s : State) (k : Nat) (f : Queue → Queue) : getQ (updQ s k f) k = f (getQ s k) := by simp [getQ]
@[simp] theorem getPart_updPart (s : State) (k : Nat) (f : Part → Part) : getPart (updPart s k f) k = f (getPart s k) := by
  simp [getPart]
@[simp] theorem getCtx_updCtx (s : State) (k : Nat) (f : Ctx → Ctx) : getCtx (updCtx s k f) k = f (getCtx s k) := by
  simp [getCtx]
@[simp] theorem getCore_updCore (s : State) (k : Nat) (f : Core → Core) : getCore (updCore s k f) k = f (getCore s k) := by
  simp [getCore]

end Sys2Proof.Machine
end

