-- ==== Sys2Proof/Laws/Mem.lean ====
section
/-! SUPPORT. The laws of memory: a read after a write to the same byte gives the byte written, a write leaves every other
byte alone, and every memory operation keeps the canonical form (assumption log 4). -/

namespace Sys2Proof.Machine

/-! ### Veils -/

/-- An address under no veil reads the list. -/
theorem memByte_of_bare {s : State} {a : Nat} (h : s.veils.find? (fun v => v.lo ≤ a && a < v.lo + v.len) = none) :
    memByte s a = mget 0 s.mem a := by
  unfold memByte; rw [h]

/-- After `unveil` at an address no veil covers it. -/
theorem unveil_bare (vs : List Veil) (a : Nat) :
    (unveil vs a).find? (fun v => v.lo ≤ a && a < v.lo + v.len) = none := by
  rw [List.find?_eq_none]
  intro v hv
  simp only [unveil, List.mem_flatMap] at hv
  obtain ⟨w, _, hw⟩ := hv
  by_cases hc : (decide (w.lo ≤ a) && decide (a < w.lo + w.len)) = true
  · simp only [hc, if_true, List.mem_append] at hw
    rcases hw with hw | hw
    · split at hw
      · simp only [List.mem_singleton] at hw; subst hw
        simp only [Bool.and_eq_true, decide_eq_true_eq] at hc ⊢; omega
      · simp at hw
    · split at hw
      · simp only [List.mem_singleton] at hw; subst hw
        simp only [Bool.and_eq_true, decide_eq_true_eq]; omega
      · simp at hw
  · rw [if_neg hc, List.mem_singleton] at hw
    subst hw; exact hc

/-- A byte written reads back. -/
@[simp] theorem memByte_memPut_same (s : State) (a : Nat) (b : Byte) : memByte (memPut s a b) a = b := by
  rw [memByte_of_bare (by simpa [memPut] using unveil_bare s.veils a)]
  simp [memPut]

/-- The stamp that an address reads through, none when no veil covers it. -/
theorem unveil_other (vs : List Veil) {a c : Nat} (h : c ≠ a) :
    ((unveil vs a).find? (fun v => v.lo ≤ c && c < v.lo + v.len)).map (fun v => (v.stamp, v.org)) =
      (vs.find? (fun v => v.lo ≤ c && c < v.lo + v.len)).map (fun v => (v.stamp, v.org)) := by
  induction vs with
  | nil => rfl
  | cons w t ih =>
    have hu : unveil (w :: t) a = (if (decide (w.lo ≤ a) && decide (a < w.lo + w.len)) = true then
        (if w.lo < a then [{ w with len := a - w.lo }] else []) ++
        (if a + 1 < w.lo + w.len then [{ w with lo := a + 1, len := w.lo + w.len - (a + 1) }] else [])
      else [w]) ++ unveil t a := by simp [unveil]
    rw [hu, List.find?_append, List.find?_cons]
    by_cases hc : (decide (w.lo ≤ c) && decide (c < w.lo + w.len)) = true
    · rw [hc]
      have hc' : w.lo ≤ c ∧ c < w.lo + w.len := by simpa using hc
      split
      · rename_i ha
        have ha' : w.lo ≤ a ∧ a < w.lo + w.len := by simpa using ha
        by_cases hlt : c < a
        · have h1 : w.lo < a := by omega
          have h2 : c < w.lo + (a - w.lo) := by omega
          simp [h1, hc'.1, h2]
        · have h1 : a + 1 < w.lo + w.len := by omega
          have h2 : ¬ c < w.lo + (a - w.lo) := by omega
          have h3 : a + 1 ≤ c := by omega
          have h4 : c < a + 1 + (w.lo + w.len - (a + 1)) := by omega
          by_cases h5 : w.lo < a <;> simp [h1, h5, h2, h3, h4]
      · simp [hc'.1, hc'.2]
    · have hc' : (decide (w.lo ≤ c) && decide (c < w.lo + w.len)) = false := by simpa using hc
      rw [hc', ← ih]
      have hn : ¬ (w.lo ≤ c ∧ c < w.lo + w.len) := by simpa using hc
      split
      · rename_i ha
        have ha' : w.lo ≤ a ∧ a < w.lo + w.len := by simpa using ha
        have h2 : (decide (w.lo ≤ c) && decide (c < w.lo + (a - w.lo))) = false := by
          rw [Bool.and_eq_false_iff]; simp only [decide_eq_false_iff_not]; omega
        have h4 : (decide (a + 1 ≤ c) && decide (c < a + 1 + (w.lo + w.len - (a + 1)))) = false := by
          rw [Bool.and_eq_false_iff]; simp only [decide_eq_false_iff_not]; omega
        by_cases h1 : w.lo < a <;> by_cases h5 : a + 1 < w.lo + w.len <;>
          simp only [h1, h5, if_true, if_false, List.nil_append, List.append_nil, List.find?_append, List.find?_cons,
            List.find?_nil, h2, h4, Option.none_or]
      · simp [hn]

/-- A byte written leaves every other byte alone. -/
theorem memByte_memPut_ne (s : State) (b : Byte) {a c : Nat} (h : c ≠ a) : memByte (memPut s a b) c = memByte s c := by
  have hu := unveil_other s.veils h
  unfold memByte
  simp only [memPut]
  cases h1 : (unveil s.veils a).find? (fun v => decide (v.lo ≤ c) && decide (c < v.lo + v.len)) with
  | none =>
    cases h2 : s.veils.find? (fun v => decide (v.lo ≤ c) && decide (c < v.lo + v.len)) with
    | none => exact mget_mput_ne _ _ _ h
    | some w => simp [h1, h2] at hu
  | some v =>
    cases h2 : s.veils.find? (fun v => decide (v.lo ≤ c) && decide (c < v.lo + v.len)) with
    | none => simp [h1, h2] at hu
    | some w => simp [h1, h2] at hu; simp [hu]

/-- Bytes written leave every byte outside their range alone. -/
theorem memByte_memPuts_out (l : List Byte) (s : State) {a c : Nat} (h : c < a ∨ a + l.length ≤ c) :
    memByte (memPuts s a l) c = memByte s c := by
  induction l generalizing s a with
  | nil => rfl
  | cons b t ih =>
    simp only [List.length_cons] at h
    rw [memPuts, ih _ (by omega), memByte_memPut_ne _ _ (by omega)]

/-- A number written leaves every byte outside its bytes alone. -/
theorem memByte_memWrite_out (s : State) (n x : Nat) {a c : Nat} (h : c < a ∨ a + n ≤ c) :
    memByte (memWrite s a n x) c = memByte s c :=
  memByte_memPuts_out _ _ (by simpa [toBytes] using h)

/-! ### The canonical form -/

/-- One byte written keeps the canonical form. -/
theorem memPut_wf {s : State} (a : Nat) (b : Byte) (h : Memory.wf s.mem = true) : Memory.wf (memPut s a b).mem = true :=
  wfMap_mput a b h

theorem memPuts_wf {s : State} (a : Nat) (l : List Byte) (h : Memory.wf s.mem = true) :
    Memory.wf (memPuts s a l).mem = true := by
  induction l generalizing s a with
  | nil => exact h
  | cons b t ih => exact ih (a + 1) (memPut_wf a b h)

theorem memWrite_wf {s : State} (a n x : Nat) (h : Memory.wf s.mem = true) : Memory.wf (memWrite s a n x).mem = true :=
  memPuts_wf a _ h

/-- A fold of steps that each keep the canonical form keeps it. -/
theorem foldl_wf {β : Type} (l : List β) (f : State → β → State) (s : State)
    (hf : ∀ s x, Memory.wf s.mem = true → Memory.wf (f s x).mem = true) (h : Memory.wf s.mem = true) :
    Memory.wf (l.foldl f s).mem = true := by
  induction l generalizing s with
  | nil => exact h
  | cons x t ih => exact ih (f s x) (hf s x h)

theorem memVeil_wf {s : State} (a n : Nat) (h : Memory.wf s.mem = true) : Memory.wf (memVeil s a n).mem = true := by
  unfold memVeil; split <;> exact h

theorem memZero_wf {s : State} (a n : Nat) (h : Memory.wf s.mem = true) : Memory.wf (memZero s a n).mem = true :=
  wfMap_filter _ h

theorem updStack_wf {s : State} (t : Nat) (f : Stack → Stack) (h : Memory.wf s.mem = true) :
    Memory.wf (updStack s t f).mem = true := h

/-- A mark of poison leaves every byte alone. -/
@[simp] theorem markPoison_mem (s : State) (gr : Nat) : (markPoison s gr).mem = s.mem := by
  unfold markPoison; split
  · rfl
  · dsimp only; split <;> rfl

theorem eccTouch_wf {s : State} (gr : Nat) (h : Memory.wf s.mem = true) : Memory.wf (eccTouch s gr).mem = true := by
  unfold eccTouch
  split
  · exact h
  · split
    · rw [markPoison_mem]; exact h
    · exact h

theorem eccTouches_wf {s : State} (gr n : Nat) (h : Memory.wf s.mem = true) : Memory.wf (eccTouches s gr n).mem = true :=
  foldl_wf _ _ _ (fun _ x hs => eccTouch_wf x hs) h

theorem homeMark_wf {s : State} (sec : Nat) (m : BitVec 128) (h : Memory.wf s.mem = true) :
    Memory.wf (homeMark s sec m).mem = true := by
  unfold homeMark; split <;> exact h

theorem dcTouch_wf {s : State} (die sec i : Nat) (h : Memory.wf s.mem = true) : Memory.wf (dcTouch s die sec i).mem = true := by
  unfold dcTouch
  split
  · exact h
  · split
    · show Memory.wf (markPoison _ _).mem = true
      rw [markPoison_mem]; exact h
    · exact h

theorem dcTouches_wf {s : State} (die sec : Nat) (h : Memory.wf s.mem = true) : Memory.wf (dcTouches s die sec).mem = true := by
  unfold dcTouches
  split
  · exact h
  · exact foldl_wf _ _ _ (fun _ _ hs => dcTouch_wf _ _ _ hs) h

theorem homePut_wf {s : State} (sec : Nat) (m : BitVec 128) (d : BitVec 1024) (pz : BitVec 4) (tag : Nat)
    (h : Memory.wf s.mem = true) : Memory.wf (homePut s sec m d pz tag).mem = true := by
  unfold homePut
  refine foldl_wf _ _ _ (fun s i hs => ?_) (foldl_wf _ _ _ (fun s i hs => ?_) (homeMark_wf _ _ h))
  · split
    · dsimp only; split
      · split
        · rw [markPoison_mem]; exact hs
        · exact hs
      · exact hs
    · exact hs
  · split
    · exact memPut_wf _ _ hs
    · exact hs

theorem homeWrite_wf {s : State} (sec : Nat) (m : BitVec 128) (d : BitVec 1024) (pz : BitVec 4) (tag : Nat)
    (h : Memory.wf s.mem = true) : Memory.wf (homeWrite s sec m d pz tag).mem = true := homePut_wf _ _ _ _ _ h

theorem homeRead_wf {s : State} (sec : Nat) (h : Memory.wf s.mem = true) : Memory.wf (homeRead s sec).1.mem = true := by
  have := dcTouches_wf (homeDie (128 * sec)) sec (eccTouches_wf (4 * sec) 4 h)
  unfold homeRead
  dsimp only
  split <;> exact this

theorem dieRead_wf {s : State} (die sec : Nat) (h : Memory.wf s.mem = true) : Memory.wf (dieRead s die sec).1.mem = true := by
  have hg := homeRead_wf sec (dcTouches_wf die sec h)
  have hh := homeRead_wf sec h
  unfold dieRead
  dsimp only
  split
  · exact hg
  · exact hh

theorem dieWrite_wf {s : State} (die sec : Nat) (m : BitVec 128) (d : BitVec 1024) (pz : BitVec 4) (tag : Nat) (hands : List Nat)
    (h : Memory.wf s.mem = true) : Memory.wf (dieWrite s die sec m d pz tag hands).mem = true := by
  unfold dieWrite
  split
  · exact h
  · exact homeWrite_wf _ _ _ _ _ h

/-- Handing on keeps the canonical form when each of its writes does. -/
theorem handOn_wf {s : State} (k : Sector) (put : State → BitVec 128 → Nat → State)
    (hp : ∀ s m t, Memory.wf s.mem = true → Memory.wf (put s m t).mem = true) (h : Memory.wf s.mem = true) :
    Memory.wf (handOn s k put).mem = true := by
  unfold handOn
  refine foldl_wf _ _ _ (fun s i hs => ?_) h
  dsimp only; split
  · exact hs
  · exact hp _ _ _ hs

theorem dcBack_wf {s : State} (die sec : Nat) (h : Memory.wf s.mem = true) : Memory.wf (dcBack s die sec).mem = true := by
  have h := dcTouches_wf die sec h
  unfold dcBack
  dsimp only
  split
  · exact h
  · split
    · exact handOn_wf _ _ (fun _ _ _ hs => homeWrite_wf _ _ _ _ _ hs) h
    · exact h

theorem l1Back_wf {s : State} (pair sec : Nat) (h : Memory.wf s.mem = true) : Memory.wf (l1Back s pair sec).mem = true := by
  unfold l1Back
  split
  · exact h
  · exact handOn_wf _ _ (fun _ _ _ hs => dieWrite_wf _ _ _ _ _ _ _ hs) h

theorem l1Fill_wf {s : State} (pair sec : Nat) (h : Memory.wf s.mem = true) : Memory.wf (l1Fill s pair sec).1.mem = true := by
  unfold l1Fill
  dsimp only; split
  · exact h
  · exact dieRead_wf _ _ h

theorem dropLine_wf {s : State} (pair sec : Nat) (h : Memory.wf s.mem = true) : Memory.wf (dropLine s pair sec).mem = true :=
  foldl_wf _ _ _ (fun _ _ hs => l1Back_wf _ _ hs) h

theorem l1Read_wf {s : State} (pair pa n hint : Nat) (h : Memory.wf s.mem = true) :
    Memory.wf (l1Read s pair pa n hint).1.mem = true := by
  unfold l1Read
  dsimp only
  have key : ∀ r : State × Sector, Memory.wf r.1.mem = true →
      Memory.wf ((if (hint == 2) = true then dropLine r.1 pair (sectorOf pa) else r.1 : State)).mem = true := by
    intro r hr; split
    · exact dropLine_wf _ _ hr
    · exact hr
  apply key
  split
  · exact h
  · split
    · exact dieRead_wf _ _ h
    · exact l1Fill_wf _ _ h

theorem l1Write_wf {s : State} (pair wbit tag pa : Nat) (l : List Byte) (h : Memory.wf s.mem = true) :
    Memory.wf (l1Write s pair wbit tag pa l).mem = true := h

theorem l1Inval_wf {s : State} (pair sec : Nat) (m : BitVec 128) (h : Memory.wf s.mem = true) :
    Memory.wf (l1Inval s pair sec m).mem = true := h

theorem engWriteSec_wf {s : State} (pair pa : Nat) (l : List Byte) (tag : Nat) (h : Memory.wf s.mem = true) :
    Memory.wf (engWriteSec s pair pa l tag).mem = true := dieWrite_wf _ _ _ _ _ _ _ (l1Inval_wf _ _ _ h)

theorem engWrite_wf {s : State} (pair : Nat) (l : List (Nat × Byte)) (tag : Nat) (h : Memory.wf s.mem = true) :
    Memory.wf (engWrite s pair l tag).mem = true :=
  foldl_wf _ _ _ (fun _ _ hs => engWriteSec_wf _ _ _ _ hs) h

theorem recWrite_wf {s : State} (pa n x : Nat) (h : Memory.wf s.mem = true) : Memory.wf (recWrite s pa n x).mem = true :=
  homePut_wf _ _ _ _ _ h

theorem putImage_wf {s : State} (pa len bits : Nat) (h : Memory.wf s.mem = true) :
    Memory.wf (putImage s pa len bits).mem = true :=
  foldl_wf _ _ _ (fun _ _ hs => recWrite_wf _ _ _ hs) h

/-- The memory right after reset has the form. -/
theorem reset_wf : Memory.wf State.reset.mem = true := rfl

end Sys2Proof.Machine
end

