-- ==== Sys2Proof/Laws/Ops.lean ====
section
/-! SUPPORT. One law per shared operation: registers read after they are written, the group that issues, moving on, and
everything that the mould of the arithmetic instructions can do. -/

namespace Sys2Proof.Machine

/-! ### Lanes -/

theorem mem_lanesOf {m : Lanes} {i : Nat} : i ∈ lanesOf m ↔ i < 32 ∧ m.getLsbD i = true := by
  simp [lanesOf, List.mem_filter, List.mem_range]

theorem lanesOf_nodup (m : Lanes) : (lanesOf m).Nodup := List.nodup_range.filter _

/-! ### Registers -/

theorem vKey_inj {n m i j : Nat} (hi : i < 32) (hj : j < 32) : vKey n i = vKey m j ↔ n = m ∧ i = j := by
  unfold vKey; omega

/-- A vector register's lane after one lane of one register is written. -/
theorem rdV_wrV (g : Group) (n m i j : Nat) (x : W32) (hi : i < 32) (hj : j < 32) :
    rdV (wrV g n i x) m j = if m = n ∧ j = i then x else rdV g m j := by
  unfold rdV wrV
  simp only [mget_mput, vKey_inj hj hi]

/-- A uniform register after one is written. -/
theorem rdS_wrS (g : Group) (n m : Nat) (x : W64) : rdS (wrS g n x) m = if m = n then x else rdS g m := by
  unfold rdS wrS
  simp only [mget_mput]

@[simp] theorem rdS_wrV (g : Group) (n i m : Nat) (x : W32) : rdS (wrV g n i x) m = rdS g m := rfl
@[simp] theorem rdP_wrV (g : Group) (n i m : Nat) (x : W32) : rdP (wrV g n i x) m = rdP g m := rfl
@[simp] theorem rdK_wrV (g : Group) (n i m : Nat) (x : W32) : rdK (wrV g n i x) m = rdK g m := rfl
@[simp] theorem rdV_wrS (g : Group) (n m j : Nat) (x : W64) : rdV (wrS g n x) m j = rdV g m j := rfl
@[simp] theorem rdP_wrS (g : Group) (n m : Nat) (x : W64) : rdP (wrS g n x) m = rdP g m := rfl
@[simp] theorem rdK_wrS (g : Group) (n m : Nat) (x : W64) : rdK (wrS g n x) m = rdK g m := rfl

/-- Writes of lane results leave every other field of the group alone. -/
theorem wrLanes_frame (g : Group) (d : Dst) (wide : Bool) (rs : List (Nat × Nat)) :
    wrLanes g d wide rs = { g with v := (wrLanes g d wide rs).v } := by
  unfold wrLanes
  split
  · rename_i l n
    induction rs generalizing g with
    | nil => rfl
    | cons r t ih =>
      simp only [List.foldl_cons]
      rw [ih]
      cases wide <;> rfl
  · rfl

/-- A vector register's lane after lane results are written; each lane has one result. -/
theorem rdV_wrLanes (g : Group) (l : BitVec 2) (n : BitVec 7) (wide : Bool) (rs : List (Nat × Nat))
    (hn : (rs.map Prod.fst).Nodup) (hl : ∀ r ∈ rs, r.1 < 32) (m j : Nat) (hj : j < 32) :
    rdV (wrLanes g (.v false l n) wide rs) m j =
      match rs.find? (fun r => r.1 == j) with
      | some r => if m = n.toNat then BitVec.ofNat 32 r.2
        else if wide = true ∧ m = n.toNat + 1 then BitVec.ofNat 32 (r.2 / 2 ^ 32) else rdV g m j
      | none => rdV g m j := by
  unfold wrLanes
  simp only
  induction rs generalizing g with
  | nil => rfl
  | cons r t ih =>
    simp only [List.map_cons, List.nodup_cons] at hn
    have hr : r.1 < 32 := hl r List.mem_cons_self
    have ht : ∀ x ∈ t, x.1 < 32 := fun x hx => hl x (List.mem_cons_of_mem _ hx)
    simp only [List.foldl_cons, List.find?_cons]
    rw [ih _ hn.2 ht]
    by_cases hc : r.1 = j
    · have hnone : t.find? (fun r => r.1 == j) = none := by
        rw [List.find?_eq_none]
        intro x hx hxj
        apply hn.1
        rw [hc]
        exact List.mem_map.2 ⟨x, hx, by simpa using hxj⟩
      rw [hnone]
      subst hc
      simp only [beq_self_eq_true]
      cases wide
      · simp only [Bool.false_eq_true, if_false, false_and]
        rw [rdV_wrV _ _ _ _ _ _ hr hr]; simp
      · simp only [if_true, true_and]
        rw [rdV_wrV _ _ _ _ _ _ hr hr, rdV_wrV _ _ _ _ _ _ hr hr]
        by_cases h1 : m = n.toNat
        · simp [h1]
        · simp [h1]
    · have hc' : (r.1 == j) = false := by simpa using hc
      rw [hc']
      have hw : ∀ (k : Nat) (x : W32) (g : Group), rdV (wrV g k r.1 x) m j = rdV g m j := by
        intro k x g
        rw [rdV_wrV _ _ _ _ _ _ hr hj]
        have : ¬ (m = k ∧ j = r.1) := fun h => hc h.2.symm
        simp [this]
      cases wide <;> simp [hw]

/-- The results of the executing lanes, found by lane. -/
theorem find_lanes (m : Lanes) (f : Nat → Nat) (j : Nat) (hj : j < 32) :
    ((lanesOf m).map (fun i => (i, f i))).find? (fun r => r.1 == j) = if m.getLsbD j = true then some (j, f j) else none := by
  by_cases h : m.getLsbD j = true
  · rw [if_pos h]
    have : j ∈ lanesOf m := mem_lanesOf.2 ⟨hj, h⟩
    generalize lanesOf m = l at this
    induction l with
    | nil => simp at this
    | cons a t ih =>
      simp only [List.map_cons, List.find?_cons]
      by_cases ha : a = j
      · simp [ha]
      · have ha' : (a == j) = false := by simpa using ha
        rw [ha']
        exact ih (by simpa [Ne.symm ha] using this)
  · rw [if_neg h, List.find?_eq_none]
    intro x hx
    obtain ⟨i, hi, rfl⟩ := List.mem_map.1 hx
    intro he
    have : i = j := by simpa using he
    subst this
    exact h (mem_lanesOf.1 hi).2

/-! ### The group that issues, and moving on -/

theorem withG_eq {s : State} {gid : Nat} {busy : BitVec 10} {g : Group} (hc : s.cur = .group gid busy)
    (hg : mfind s.groups gid = some g) (f : Nat → BitVec 10 → Group → Out) : withG s f = f gid busy g := by
  simp only [withG, hc, hg]

/-- An instruction that no group issues is a fault, whatever it is. -/
theorem withG_none {s : State} (hc : s.cur = .none) (f : Nat → BitVec 10 → Group → Out) : withG s f = .fault .noGroup := by
  simp only [withG, hc]

/-- What `advance` leaves of the group that issued. -/
theorem find_advance {s : State} {gid : Nat} {g : Group} (p : P) (close : Bool) (hg : mfind s.groups gid = some g) :
    mfind (advance s gid p close).groups gid = some
      (if close then closeAt (goTo (hintG g s.cycle p.h) (nextPc g.pc)) (nextPc g.pc) else goTo (hintG g s.cycle p.h) (nextPc g.pc)) := by
  unfold advance
  rw [find_updG_same _ hg]

/-- `advance` touches nothing but its group. -/
theorem advance_frame (s : State) (gid : Nat) (p : P) (close : Bool) :
    advance s gid p close = { s with groups := (advance s gid p close).groups } := rfl

theorem find_advance_ne (s : State) (p : P) (close : Bool) {gid j : Nat} (h : j ≠ gid) :
    mfind (advance s gid p close).groups j = mfind s.groups j := find_updG_ne _ h

/-! ### Issue on a pipe -/

theorem mfind_map_val {α : Type} (m : AMap α) (f : Nat → α → α) (k : Nat) :
    mfind (m.map (fun x => (x.1, f x.1 x.2))) k = (mfind m k).map (f k) := by
  induction m with
  | nil => rfl
  | cons x t ih =>
    obtain ⟨k', v⟩ := x
    by_cases h : k' = k
    · subst h; simp [mfind]
    · simp [mfind, h, ih]

/-- The reservations touch nothing but the core's. -/
theorem keepSet_frame (s : State) (gid core pipe : Nat) (sfu keep : Bool) (occ : Nat) :
    keepSet s gid core pipe sfu keep occ = { s with cores := (keepSet s gid core pipe sfu keep occ).cores } := by
  unfold keepSet
  dsimp only
  split <;> rfl

/-- They leave a core's translation cache and side log as they were. -/
theorem getCore_keepSet (s : State) (gid core pipe : Nat) (sfu keep : Bool) (occ c : Nat) :
    getCore (keepSet s gid core pipe sfu keep occ) c =
      { getCore s c with keep := (getCore (keepSet s gid core pipe sfu keep occ) c).keep } := by
  unfold keepSet
  dsimp only
  split
  · rfl
  · by_cases h : c = core
    · subst h; simp
    · simp [getCore, mfind_mset_ne _ _ h]

/-- Issue on a pipe leaves the group itself alone, and of every other group all but its latch marks. -/
theorem find_issueOn (s : State) (gid : Nat) (g : Group) (pipe : Nat) (sfu keep : Bool) (occ j : Nat) :
    mfind (issueOn s gid g pipe sfu keep occ).groups j = (mfind s.groups j).map (staleMark gid g.core pipe j) := by
  have h : (keepSet s gid g.core pipe sfu keep occ).groups = s.groups := by rw [keepSet_frame]
  simp only [issueOn, staleOthers, h]
  exact mfind_map_val _ (fun k x => staleMark gid g.core pipe k x) j

theorem staleMark_self (gid core pipe : Nat) (x : Group) : staleMark gid core pipe gid x = x := by
  simp [staleMark]

theorem find_issueOn_same {s : State} {gid : Nat} {g x : Group} (pipe : Nat) (sfu keep : Bool) (occ : Nat)
    (h : mfind s.groups gid = some x) : mfind (issueOn s gid g pipe sfu keep occ).groups gid = some x := by
  rw [find_issueOn, h]; simp [staleMark_self]

/-- A stale mark changes nothing but the latch marks. -/
theorem staleMark_frame (gid core pipe k : Nat) (x : Group) :
    staleMark gid core pipe k x = { x with latchPipe := (staleMark gid core pipe k x).latchPipe } := by
  unfold staleMark; split <;> rfl

/-- Issue on a pipe touches the groups' latch marks and the core's keep reservations, nothing else. -/
theorem issueOn_frame (s : State) (gid : Nat) (g : Group) (pipe : Nat) (sfu keep : Bool) (occ : Nat) :
    issueOn s gid g pipe sfu keep occ =
      { s with groups := (issueOn s gid g pipe sfu keep occ).groups, cores := (issueOn s gid g pipe sfu keep occ).cores } := by
  have h := keepSet_frame s gid g.core pipe sfu keep occ
  unfold issueOn staleOthers
  rw [h]

/-! ### Latches -/

theorem latchKey_inj {c p l i l' i' : Nat} (hi : i < 32) (hi' : i' < 32) :
    latchKey c p l i = latchKey c p l' i' ↔ l = l' ∧ i = i' := by
  unfold latchKey; omega

/-- A latch of the pipe holds the results of the lanes that executed. -/
theorem mget_latchWrite (s : State) (gid : Nat) (g : Group) (pipe l : Nat) (m : Lanes) (f : Nat → Nat) (j : Nat) (hj : j < 32)
    (h : m.getLsbD j = true) :
    mget 0 (latchWrite s gid g pipe l ((lanesOf m).map (fun i => (i, f i)))).latches (latchKey g.core pipe l j) =
      BitVec.ofNat 32 (f j) := by
  unfold latchWrite
  simp only [updG_latches]
  have hm : j ∈ lanesOf m := mem_lanesOf.2 ⟨hj, h⟩
  have hd := lanesOf_nodup m
  have hl : ∀ i ∈ lanesOf m, i < 32 := fun i hi => (mem_lanesOf.1 hi).1
  generalize lanesOf m = ls at hm hd hl
  have keep : ∀ (ls : List Nat) (mp : AMap W32), (∀ i ∈ ls, i < 32) → j ∉ ls →
      mget 0 ((ls.map (fun i => (i, f i))).foldl (fun m r => mput 0 m (latchKey g.core pipe l r.1) (BitVec.ofNat 32 r.2)) mp)
        (latchKey g.core pipe l j) = mget 0 mp (latchKey g.core pipe l j) := by
    intro ls
    induction ls with
    | nil => intros; rfl
    | cons a t ih =>
      intro mp hl hj'
      simp only [List.mem_cons, not_or] at hj'
      simp only [List.map_cons, List.foldl_cons]
      rw [ih _ (fun i hi => hl i (List.mem_cons_of_mem _ hi)) hj'.2]
      apply mget_mput_ne
      intro he
      exact hj'.1 ((latchKey_inj hj (hl a List.mem_cons_self)).1 he).2
  generalize s.latches = mp
  induction ls generalizing mp with
  | nil => simp at hm
  | cons a t ih =>
    simp only [List.nodup_cons] at hd
    simp only [List.map_cons, List.foldl_cons]
    by_cases ha : a = j
    · subst ha
      rw [keep t _ (fun i hi => hl i (List.mem_cons_of_mem _ hi)) hd.1]
      exact mget_mput_same _ _ _ _
    · have : j ∈ t := by simpa [Ne.symm ha] using hm
      exact ih this hd.2 (fun i hi => hl i (List.mem_cons_of_mem _ hi)) _

/-! ### The mould of the arithmetic instructions (R131) -/

theorem wrPreds_nil (g : Group) (lane : Nat) : wrPreds g lane [] = g := rfl

theorem foldl_wrPreds_nil (rs : List (Nat × Res)) (g : Group) (h : ∀ r ∈ rs, r.2.preds = []) :
    rs.foldl (fun g r => wrPreds g r.1 r.2.preds) g = g := by
  induction rs generalizing g with
  | nil => rfl
  | cons r t ih =>
    simp only [List.foldl_cons]
    rw [h r List.mem_cons_self, wrPreds_nil]
    exact ih g (fun x hx => h x (List.mem_cons_of_mem _ hx))

/-- The uniform form: it runs once on the group's registers when its guard holds, and goes on in either case. -/
theorem aluRun_uni {s : State} {gid : Nat} {busy : BitVec 10} {g : Group} (hc : s.cur = .group gid busy)
    (hg : mfind s.groups gid = some g) {p : P} (hu : p.h.uni = true) (sfu hasV : Bool) (xs : List Opnd) (tr : Nat)
    (wide long : Bool) (f : Group → Nat → Src → Res) :
    aluRun p s sfu hasV xs tr wide long f =
      .next (advance (if actsOnce g p.h then
        updG s gid (fun g' => wrPreds (if hasV then wrUni g' p.d tr (f g 0 (fun t x => srcPat s g (gConsts s g) 0 t x 0)).val else g')
          0 (f g 0 (fun t x => srcPat s g (gConsts s g) 0 t x 0)).preds) else s) gid p false) := by
  unfold aluRun
  rw [withG_eq hc hg]
  simp only [hu, if_true]
  split <;> rfl

/-- The vector form when no pipe is free, or the latch's own pipe is not: a stall. -/
theorem aluRun_wait {s : State} {gid : Nat} {busy : BitVec 10} {g : Group} (hc : s.cur = .group gid busy)
    (hg : mfind s.groups gid = some g) {p : P} (hu : p.h.uni = false) {sfu : Bool} {xs : List Opnd} {r : Nat}
    (hp : pickPipe s gid busy g sfu xs = .wait r) (hasV : Bool) (tr : Nat) (wide long : Bool) (f : Group → Nat → Src → Res) :
    aluRun p s sfu hasV xs tr wide long f = stall s gid r := by
  unfold aluRun
  rw [withG_eq hc hg]
  simp [hu, hp]

/-- The vector form when a latch is stale: fault 0x03 (R42). -/
theorem aluRun_stale {s : State} {gid : Nat} {busy : BitVec 10} {g : Group} (hc : s.cur = .group gid busy)
    (hg : mfind s.groups gid = some g) {p : P} (hu : p.h.uni = false) {sfu : Bool} {xs : List Opnd} {l n : Nat}
    (hp : pickPipe s gid busy g sfu xs = .stale l n) (hasV : Bool) (tr : Nat) (wide long : Bool) (f : Group → Nat → Src → Res) :
    aluRun p s sfu hasV xs tr wide long f = raise s gid 0x03 allLanes (l + 2 ^ 4 * n) := by
  unfold aluRun
  rw [withG_eq hc hg]
  simp [hu, hp]

/-- The vector form on a pipe. -/
theorem aluRun_pipe {s : State} {gid : Nat} {busy : BitVec 10} {g : Group} (hc : s.cur = .group gid busy)
    (hg : mfind s.groups gid = some g) {p : P} (hu : p.h.uni = false) {sfu : Bool} {xs : List Opnd} {n : Nat}
    (hp : pickPipe s gid busy g sfu xs = .pipe n) (hasV : Bool) (tr : Nat) (wide long : Bool) (f : Group → Nat → Src → Res) :
    aluRun p s sfu hasV xs tr wide long f =
      (let rs := (lanesOf (guardLanes g p.h)).map (fun i => (i, f g i (fun t x => srcPat s g (gConsts s g) n t x i)))
       let vs := rs.map (fun r => (r.1, r.2.val))
       let s1 := issueOn s gid g n sfu p.h.keep (if long then 8 else 4)
       let s2 := updG s1 gid (fun g => rs.foldl (fun g r => wrPreds g r.1 r.2.preds) (if hasV then wrLanes g p.d wide vs else g))
       .next (advance (if hasV && !wide then latchWrite s2 gid g n p.d.latchBits vs else s2) gid p false)) := by
  unfold aluRun
  rw [withG_eq hc hg]
  simp only [hu, hp]
  rfl

end Sys2Proof.Machine
end

