-- ==== Sys2Proof/Laws/PerInstr.lean ====
section
/-! SUPPORT. What holds of each instruction as syntax, one lemma per constructor: family Fields, that the name and the fields
of an instruction make it again and that its well-formedness is that of its fields, or of its arguments. -/

namespace Sys2Proof.Laws.Fields

/-- The name and fields that `split` gives make the instruction again, and decide whether it is well formed; an instruction
without them is well formed by its arguments. -/
def Statement (i : Instr) : Prop :=
  match i.split with
  | some (o, p) => o.mk p = i ∧ i.wellFormed = o.fieldsOk p
  | none => i.wellFormed = (cmdOk i && stepOk i)

theorem add (p : P) : Statement (.add p) := ⟨rfl, rfl⟩
theorem sub (p : P) : Statement (.sub p) := ⟨rfl, rfl⟩
theorem mul (p : P) : Statement (.mul p) := ⟨rfl, rfl⟩
theorem mulhi (p : P) : Statement (.mulhi p) := ⟨rfl, rfl⟩
theorem mad (p : P) : Statement (.mad p) := ⟨rfl, rfl⟩
theorem madhi (p : P) : Statement (.madhi p) := ⟨rfl, rfl⟩
theorem div (p : P) : Statement (.div p) := ⟨rfl, rfl⟩
theorem rem (p : P) : Statement (.rem p) := ⟨rfl, rfl⟩
theorem min (p : P) : Statement (.min p) := ⟨rfl, rfl⟩
theorem max (p : P) : Statement (.max p) := ⟨rfl, rfl⟩
theorem abs (p : P) : Statement (.abs p) := ⟨rfl, rfl⟩
theorem neg (p : P) : Statement (.neg p) := ⟨rfl, rfl⟩
theorem and (p : P) : Statement (.and p) := ⟨rfl, rfl⟩
theorem or (p : P) : Statement (.or p) := ⟨rfl, rfl⟩
theorem xor (p : P) : Statement (.xor p) := ⟨rfl, rfl⟩
theorem not (p : P) : Statement (.not p) := ⟨rfl, rfl⟩
theorem shl (p : P) : Statement (.shl p) := ⟨rfl, rfl⟩
theorem shr (p : P) : Statement (.shr p) := ⟨rfl, rfl⟩
theorem sha (p : P) : Statement (.sha p) := ⟨rfl, rfl⟩
theorem rot (p : P) : Statement (.rot p) := ⟨rfl, rfl⟩
theorem bfx (p : P) : Statement (.bfx p) := ⟨rfl, rfl⟩
theorem bfi (p : P) : Statement (.bfi p) := ⟨rfl, rfl⟩
theorem popc (p : P) : Statement (.popc p) := ⟨rfl, rfl⟩
theorem clz (p : P) : Statement (.clz p) := ⟨rfl, rfl⟩
theorem ctz (p : P) : Statement (.ctz p) := ⟨rfl, rfl⟩
theorem brev (p : P) : Statement (.brev p) := ⟨rfl, rfl⟩
theorem perm (p : P) : Statement (.perm p) := ⟨rfl, rfl⟩
theorem sel (p : P) : Statement (.sel p) := ⟨rfl, rfl⟩
theorem set (p : P) : Statement (.set p) := ⟨rfl, rfl⟩
theorem setp (p : P) : Statement (.setp p) := ⟨rfl, rfl⟩
theorem mov (p : P) : Statement (.mov p) := ⟨rfl, rfl⟩
theorem movi (p : P) : Statement (.movi p) := ⟨rfl, rfl⟩
theorem addi (p : P) : Statement (.addi p) := ⟨rfl, rfl⟩
theorem andi (p : P) : Statement (.andi p) := ⟨rfl, rfl⟩
theorem ori (p : P) : Statement (.ori p) := ⟨rfl, rfl⟩
theorem xori (p : P) : Statement (.xori p) := ⟨rfl, rfl⟩
theorem shladd (p : P) : Statement (.shladd p) := ⟨rfl, rfl⟩
theorem lea (p : P) : Statement (.lea p) := ⟨rfl, rfl⟩
theorem addc (p : P) : Statement (.addc p) := ⟨rfl, rfl⟩
theorem subb (p : P) : Statement (.subb p) := ⟨rfl, rfl⟩
theorem sad (p : P) : Statement (.sad p) := ⟨rfl, rfl⟩
theorem clamp (p : P) : Statement (.clamp p) := ⟨rfl, rfl⟩
theorem mulw (p : P) : Statement (.mulw p) := ⟨rfl, rfl⟩
theorem ext (p : P) : Statement (.ext p) := ⟨rfl, rfl⟩
theorem tern (p : P) : Statement (.tern p) := ⟨rfl, rfl⟩
theorem shf (p : P) : Statement (.shf p) := ⟨rfl, rfl⟩
theorem fadd (p : P) : Statement (.fadd p) := ⟨rfl, rfl⟩
theorem fsub (p : P) : Statement (.fsub p) := ⟨rfl, rfl⟩
theorem fmul (p : P) : Statement (.fmul p) := ⟨rfl, rfl⟩
theorem ffma (p : P) : Statement (.ffma p) := ⟨rfl, rfl⟩
theorem fmin (p : P) : Statement (.fmin p) := ⟨rfl, rfl⟩
theorem fmax (p : P) : Statement (.fmax p) := ⟨rfl, rfl⟩
theorem fabs (p : P) : Statement (.fabs p) := ⟨rfl, rfl⟩
theorem fneg (p : P) : Statement (.fneg p) := ⟨rfl, rfl⟩
theorem fsetp (p : P) : Statement (.fsetp p) := ⟨rfl, rfl⟩
theorem fset (p : P) : Statement (.fset p) := ⟨rfl, rfl⟩
theorem fclass (p : P) : Statement (.fclass p) := ⟨rfl, rfl⟩
theorem frnd (p : P) : Statement (.frnd p) := ⟨rfl, rfl⟩
theorem rcp (p : P) : Statement (.rcp p) := ⟨rfl, rfl⟩
theorem rsqrt (p : P) : Statement (.rsqrt p) := ⟨rfl, rfl⟩
theorem sqrt (p : P) : Statement (.sqrt p) := ⟨rfl, rfl⟩
theorem ex2 (p : P) : Statement (.ex2 p) := ⟨rfl, rfl⟩
theorem log2 (p : P) : Statement (.log2 p) := ⟨rfl, rfl⟩
theorem sin (p : P) : Statement (.sin p) := ⟨rfl, rfl⟩
theorem cos (p : P) : Statement (.cos p) := ⟨rfl, rfl⟩
theorem tanh (p : P) : Statement (.tanh p) := ⟨rfl, rfl⟩
theorem cvt (p : P) : Statement (.cvt p) := ⟨rfl, rfl⟩
theorem cvtf (p : P) : Statement (.cvtf p) := ⟨rfl, rfl⟩
theorem cvti (p : P) : Statement (.cvti p) := ⟨rfl, rfl⟩
theorem cvts (p : P) : Statement (.cvts p) := ⟨rfl, rfl⟩
theorem pack (p : P) : Statement (.pack p) := ⟨rfl, rfl⟩
theorem faddi (p : P) : Statement (.faddi p) := ⟨rfl, rfl⟩
theorem fmuli (p : P) : Statement (.fmuli p) := ⟨rfl, rfl⟩
theorem dot4 (p : P) : Statement (.dot4 p) := ⟨rfl, rfl⟩
theorem dot8 (p : P) : Statement (.dot8 p) := ⟨rfl, rfl⟩
theorem dot4f (p : P) : Statement (.dot4f p) := ⟨rfl, rfl⟩
theorem dot8f (p : P) : Statement (.dot8f p) := ⟨rfl, rfl⟩
theorem dot2h (p : P) : Statement (.dot2h p) := ⟨rfl, rfl⟩
theorem bra (p : P) : Statement (.bra p) := ⟨rfl, rfl⟩
theorem brx (p : P) : Statement (.brx p) := ⟨rfl, rfl⟩
theorem call (p : P) : Statement (.call p) := ⟨rfl, rfl⟩
theorem ret (p : P) : Statement (.ret p) := ⟨rfl, rfl⟩
theorem jmp (p : P) : Statement (.jmp p) := ⟨rfl, rfl⟩
theorem exit (p : P) : Statement (.exit p) := ⟨rfl, rfl⟩
theorem plop (p : P) : Statement (.plop p) := ⟨rfl, rfl⟩
theorem census (p : P) : Statement (.census p) := ⟨rfl, rfl⟩
theorem lmask (p : P) : Statement (.lmask p) := ⟨rfl, rfl⟩
theorem qxch (p : P) : Statement (.qxch p) := ⟨rfl, rfl⟩
theorem lperm (p : P) : Statement (.lperm p) := ⟨rfl, rfl⟩
theorem gred (p : P) : Statement (.gred p) := ⟨rfl, rfl⟩
theorem gscan (p : P) : Statement (.gscan p) := ⟨rfl, rfl⟩
theorem matchv (p : P) : Statement (.matchv p) := ⟨rfl, rfl⟩
theorem nop (p : P) : Statement (.nop p) := ⟨rfl, rfl⟩
theorem join (p : P) : Statement (.join p) := ⟨rfl, rfl⟩
theorem ld (p : P) : Statement (.ld p) := ⟨rfl, rfl⟩
theorem st (p : P) : Statement (.st p) := ⟨rfl, rfl⟩
theorem ldu (p : P) : Statement (.ldu p) := ⟨rfl, rfl⟩
theorem stu (p : P) : Statement (.stu p) := ⟨rfl, rfl⟩
theorem lds (p : P) : Statement (.lds p) := ⟨rfl, rfl⟩
theorem sts (p : P) : Statement (.sts p) := ⟨rfl, rfl⟩
theorem atom (p : P) : Statement (.atom p) := ⟨rfl, rfl⟩
theorem red (p : P) : Statement (.red p) := ⟨rfl, rfl⟩
theorem atoms (p : P) : Statement (.atoms p) := ⟨rfl, rfl⟩
theorem cas (p : P) : Statement (.cas p) := ⟨rfl, rfl⟩
theorem txbeg (p : P) : Statement (.txbeg p) := ⟨rfl, rfl⟩
theorem txend (p : P) : Statement (.txend p) := ⟨rfl, rfl⟩
theorem txabt (p : P) : Statement (.txabt p) := ⟨rfl, rfl⟩
theorem mwait (p : P) : Statement (.mwait p) := ⟨rfl, rfl⟩
theorem fence (p : P) : Statement (.fence p) := ⟨rfl, rfl⟩
theorem pfetch (p : P) : Statement (.pfetch p) := ⟨rfl, rfl⟩
theorem icinv (p : P) : Statement (.icinv p) := ⟨rfl, rfl⟩
theorem pgq (p : P) : Statement (.pgq p) := ⟨rfl, rfl⟩
theorem wresz (p : P) : Statement (.wresz p) := ⟨rfl, rfl⟩
theorem barSync (p : P) : Statement (.barSync p) := ⟨rfl, rfl⟩
theorem barArv (p : P) : Statement (.barArv p) := ⟨rfl, rfl⟩
theorem bcsetInit (p : P) : Statement (.bcsetInit p) := ⟨rfl, rfl⟩
theorem bcsetExp (p : P) : Statement (.bcsetExp p) := ⟨rfl, rfl⟩
theorem bcadd (p : P) : Statement (.bcadd p) := ⟨rfl, rfl⟩
theorem bcwait (p : P) : Statement (.bcwait p) := ⟨rfl, rfl⟩
theorem batf (p : P) : Statement (.batf p) := ⟨rfl, rfl⟩
theorem batw (p : P) : Statement (.batw p) := ⟨rfl, rfl⟩
theorem xcpy (p : P) : Statement (.xcpy p) := ⟨rfl, rfl⟩
theorem xgat (p : P) : Statement (.xgat p) := ⟨rfl, rfl⟩
theorem xqnt (p : P) : Statement (.xqnt p) := ⟨rfl, rfl⟩
theorem xfil (p : P) : Statement (.xfil p) := ⟨rfl, rfl⟩
theorem xrowCpy (p : P) : Statement (.xrowCpy p) := ⟨rfl, rfl⟩
theorem xrowIni (p : P) : Statement (.xrowIni p) := ⟨rfl, rfl⟩
theorem xsta (p : P) : Statement (.xsta p) := ⟨rfl, rfl⟩
theorem lgld (p : P) : Statement (.lgld p) := ⟨rfl, rfl⟩
theorem lgst (p : P) : Statement (.lgst p) := ⟨rfl, rfl⟩
theorem lgclr (p : P) : Statement (.lgclr p) := ⟨rfl, rfl⟩
theorem fget (p : P) : Statement (.fget p) := ⟨rfl, rfl⟩
theorem fenc (p : P) : Statement (.fenc p) := ⟨rfl, rfl⟩
theorem fdec (p : P) : Statement (.fdec p) := ⟨rfl, rfl⟩
theorem frefInc (p : P) : Statement (.frefInc p) := ⟨rfl, rfl⟩
theorem frefDec (p : P) : Statement (.frefDec p) := ⟨rfl, rfl⟩
theorem falc (p : P) : Statement (.falc p) := ⟨rfl, rfl⟩
theorem ffre (p : P) : Statement (.ffre p) := ⟨rfl, rfl⟩
theorem fqry (p : P) : Statement (.fqry p) := ⟨rfl, rfl⟩
theorem mma (p : P) : Statement (.mma p) := ⟨rfl, rfl⟩
theorem mmag (p : P) : Statement (.mmag p) := ⟨rfl, rfl⟩
theorem mrd (p : P) : Statement (.mrd p) := ⟨rfl, rfl⟩
theorem mrdm (p : P) : Statement (.mrdm p) := ⟨rfl, rfl⟩
theorem mclr (p : P) : Statement (.mclr p) := ⟨rfl, rfl⟩
theorem mld (p : P) : Statement (.mld p) := ⟨rfl, rfl⟩
theorem tcls (p : P) : Statement (.tcls p) := ⟨rfl, rfl⟩
theorem mint (p : P) : Statement (.mint p) := ⟨rfl, rfl⟩
theorem mstk (p : P) : Statement (.mstk p) := ⟨rfl, rfl⟩
theorem sres (p : P) : Statement (.sres p) := ⟨rfl, rfl⟩
theorem scom (p : P) : Statement (.scom p) := ⟨rfl, rfl⟩
theorem strm (p : P) : Statement (.strm p) := ⟨rfl, rfl⟩
theorem sfrk (p : P) : Statement (.sfrk p) := ⟨rfl, rfl⟩
theorem sfil (p : P) : Statement (.sfil p) := ⟨rfl, rfl⟩
theorem sbnd (p : P) : Statement (.sbnd p) := ⟨rfl, rfl⟩
theorem spfx (p : P) : Statement (.spfx p) := ⟨rfl, rfl⟩
theorem spin (p : P) : Statement (.spin p) := ⟨rfl, rfl⟩
theorem stopk (p : P) : Statement (.stopk p) := ⟨rfl, rfl⟩
theorem srdDat (p : P) : Statement (.srdDat p) := ⟨rfl, rfl⟩
theorem srdMap (p : P) : Statement (.srdMap p) := ⟨rfl, rfl⟩
theorem srdLen (p : P) : Statement (.srdLen p) := ⟨rfl, rfl⟩
theorem snew (p : P) : Statement (.snew p) := ⟨rfl, rfl⟩
theorem sdel (p : P) : Statement (.sdel p) := ⟨rfl, rfl⟩
theorem cbnd (p : P) : Statement (.cbnd p) := ⟨rfl, rfl⟩
theorem cmodSet (p : P) : Statement (.cmodSet p) := ⟨rfl, rfl⟩
theorem cmodGet (p : P) : Statement (.cmodGet p) := ⟨rfl, rfl⟩
theorem crun (p : P) : Statement (.crun p) := ⟨rfl, rfl⟩
theorem cstp (p : P) : Statement (.cstp p) := ⟨rfl, rfl⟩
theorem cblim (p : P) : Statement (.cblim p) := ⟨rfl, rfl⟩
theorem trap (p : P) : Statement (.trap p) := ⟨rfl, rfl⟩
theorem yield (p : P) : Statement (.yield p) := ⟨rfl, rfl⟩
theorem rdsr (p : P) : Statement (.rdsr p) := ⟨rfl, rfl⟩
theorem rdsrChunk (p : P) : Statement (.rdsrChunk p) := ⟨rfl, rfl⟩
theorem rdsrFrzprod (p : P) : Statement (.rdsrFrzprod p) := ⟨rfl, rfl⟩
theorem wrsr (p : P) : Statement (.wrsr p) := ⟨rfl, rfl⟩
theorem wrsrFrzcons (p : P) : Statement (.wrsrFrzcons p) := ⟨rfl, rfl⟩
theorem frelRel (p : P) : Statement (.frelRel p) := ⟨rfl, rfl⟩
theorem frelDst (p : P) : Statement (.frelDst p) := ⟨rfl, rfl⟩
theorem frelRes (p : P) : Statement (.frelRes p) := ⟨rfl, rfl⟩
theorem ptok (p : P) : Statement (.ptok p) := ⟨rfl, rfl⟩
theorem ptokRel (p : P) : Statement (.ptokRel p) := ⟨rfl, rfl⟩
theorem ttok (p : P) : Statement (.ttok p) := ⟨rfl, rfl⟩
theorem launch (p : P) : Statement (.launch p) := ⟨rfl, rfl⟩
theorem rdctr (p : P) : Statement (.rdctr p) := ⟨rfl, rfl⟩
theorem rdctrSel (p : P) : Statement (.rdctrSel p) := ⟨rfl, rfl⟩
theorem mark (p : P) : Statement (.mark p) := ⟨rfl, rfl⟩
theorem brk (p : P) : Statement (.brk p) := ⟨rfl, rfl⟩
theorem cmdSkip (n : W32) : Statement (.cmdSkip n) := rfl
theorem cmdLoop (l : BitVec 2) (c : W32) : Statement (.cmdLoop l c) := rfl
theorem cmdEndl (l : BitVec 2) : Statement (.cmdEndl l) := rfl
theorem cmdCond (f : BitVec 3) (n : W32) (addr val : W64) : Statement (.cmdCond f n addr val) := rfl
theorem cmdWait (f : BitVec 3) (timeout : W32) (addr val : W64) : Statement (.cmdWait f timeout addr val) := rfl
theorem cmdSignal (f : BitVec 2) (addr val : W64) : Statement (.cmdSignal f addr val) := rfl
theorem cmdLaunch (serial : Bool) (record : W64) : Statement (.cmdLaunch serial record) := rfl
theorem cmdLaunchi (serial : Bool) (record grid : W64) : Statement (.cmdLaunchi serial record grid) := rfl
theorem cmdCtxCreate (c : BitVec 6) (status : W64) : Statement (.cmdCtxCreate c status) := rfl
theorem cmdCtxPreempt (c : BitVec 6) (status : W64) : Statement (.cmdCtxPreempt c status) := rfl
theorem cmdCtxResume (c : BitVec 6) (status : W64) : Statement (.cmdCtxResume c status) := rfl
theorem cmdCtxDestroy (c : BitVec 6) (status : W64) : Statement (.cmdCtxDestroy c status) := rfl
theorem fetchSectorArrival (gid va : Nat) : Statement (.fetchSectorArrival gid va) := rfl
theorem splitPhaseResult (gid : Nat) : Statement (.splitPhaseResult gid) := rfl
theorem asyncFaultReport (gid : Nat) : Statement (.asyncFaultReport gid) := rfl
theorem redPerformed (gid : Nat) : Statement (.redPerformed gid) := rfl
theorem mwaitTick (gid : Nat) : Statement (.mwaitTick gid) := rfl
theorem txCommit (die : Nat) : Statement (.txCommit die) := rfl
theorem barArrivalApplied (gid : Nat) : Statement (.barArrivalApplied gid) := rfl
theorem bcaddApplied (gid : Nat) : Statement (.bcaddApplied gid) := rfl
theorem preemptDeadlineExpires (ctx : Nat) : Statement (.preemptDeadlineExpires ctx) := rfl
theorem groupStopComplete (gid : Nat) : Statement (.groupStopComplete gid) := rfl
theorem contextSaved (ctx : Nat) : Statement (.contextSaved ctx) := rfl
theorem contextFreed (ctx : Nat) : Statement (.contextFreed ctx) := rfl
theorem spillOnClaim (block : Nat) (what : Tagged) : Statement (.spillOnClaim block what) := rfl
theorem faultRingDrain (ring : Ring) : Statement (.faultRingDrain ring) := rfl
theorem hartSelectQueue (hart : Nat) : Statement (.hartSelectQueue hart) := rfl
theorem queueEnable (queue : Nat) : Statement (.queueEnable queue) := rfl
theorem queueWaitMet (queue : Nat) : Statement (.queueWaitMet queue) := rfl
theorem queueWaitTimeout (queue : Nat) : Statement (.queueWaitTimeout queue) := rfl
theorem kernelTranslatingStart (kernel : Nat) : Statement (.kernelTranslatingStart kernel) := rfl
theorem extentTableBuilt (kernel : Nat) : Statement (.extentTableBuilt kernel) := rfl
theorem blockPlacement (kernel : Nat) : Statement (.blockPlacement kernel) := rfl
theorem blockRetire (block : Nat) : Statement (.blockRetire block) := rfl
theorem kernelFaultingDone (kernel : Nat) : Statement (.kernelFaultingDone kernel) := rfl
theorem sideLogRetryTick (core : Nat) : Statement (.sideLogRetryTick core) := rfl
theorem rmRemove (part : Nat) : Statement (.rmRemove part) := rfl
theorem rmNotify (part : Nat) : Statement (.rmNotify part) := rfl
theorem rmDonate (part : Nat) : Statement (.rmDonate part) := rfl
theorem removeDrainEnd (part : Nat) : Statement (.removeDrainEnd part) := rfl
theorem removeConfirm (part : Nat) : Statement (.removeConfirm part) := rfl
theorem migrationCopyDone (page : Nat) : Statement (.migrationCopyDone page) := rfl
theorem migrationSettleExpire (page : Nat) : Statement (.migrationSettleExpire page) := rfl
theorem folioDonate (part : Nat) : Statement (.folioDonate part) := rfl
theorem growingCopyDone (entry : Nat) : Statement (.growingCopyDone entry) := rfl
theorem entryRetireFree (entry : Nat) : Statement (.entryRetireFree entry) := rfl
theorem clMirrorUpdate (block core handle : Nat) : Statement (.clMirrorUpdate block core handle) := rfl
theorem scrollDeleteFree (part scroll : Nat) : Statement (.scrollDeleteFree part scroll) := rfl
theorem gangInitDone (stack : Nat) : Statement (.gangInitDone stack) := rfl
theorem rateChangeStart (stack : Nat) : Statement (.rateChangeStart stack) := rfl
theorem rateChangeDone (stack : Nat) (ok : Bool) : Statement (.rateChangeDone stack ok) := rfl
theorem bcsetApplied (gid : Nat) : Statement (.bcsetApplied gid) := rfl
theorem blockReloadDone (block : Nat) (ok : Bool) : Statement (.blockReloadDone block ok) := rfl
theorem storeWriteBack (loc : CacheLoc) (sector : Nat) (uncorrectable : Bool) : Statement (.storeWriteBack loc sector uncorrectable) := rfl
theorem mwaitWriteWake (gid : Nat) : Statement (.mwaitWriteWake gid) := rfl
theorem queueProdWrite (queue : Nat) (prod : W32) : Statement (.queueProdWrite queue prod) := rfl
theorem queueDisable (queue : Nat) : Statement (.queueDisable queue) := rfl
theorem cmdNop : Statement .cmdNop := rfl
theorem cmdWaitk : Statement .cmdWaitk := rfl
theorem walkComplete (core ctx va : Nat) : Statement (.walkComplete core ctx va) := rfl
theorem migCountClear : Statement .migCountClear := rfl
theorem migrationWindowExpire (page : Nat) : Statement (.migrationWindowExpire page) := rfl
theorem xferChannelHead (id : Nat) : Statement (.xferChannelHead id) := rfl
theorem xferReadDone (id : Nat) : Statement (.xferReadDone id) := rfl
theorem xferAbandon (id : Nat) : Statement (.xferAbandon id) := rfl
theorem xferRetire (id : Nat) : Statement (.xferRetire id) := rfl
theorem xferParkedTick (id : Nat) : Statement (.xferParkedTick id) := rfl
theorem lowmarkTick (part : Nat) : Statement (.lowmarkTick part) := rfl
theorem burinDone (id : Nat) : Statement (.burinDone id) := rfl
theorem mmaStart (id : Nat) : Statement (.mmaStart id) := rfl
theorem mmaRetire (id : Nat) : Statement (.mmaRetire id) := rfl
theorem mmaFault (id : Nat) : Statement (.mmaFault id) := rfl
theorem tileTurnEffect (id : Nat) : Statement (.tileTurnEffect id) := rfl
theorem fillInstall (id : Nat) : Statement (.fillInstall id) := rfl
theorem chainChannelHead (id : Nat) : Statement (.chainChannelHead id) := rfl
theorem chainStepDone (id : Nat) : Statement (.chainStepDone id) := rfl
theorem chainStepFault (id : Nat) : Statement (.chainStepFault id) := rfl
theorem chainRetire (id : Nat) : Statement (.chainRetire id) := rfl
theorem hostRequest (req : HostReq) : Statement (.hostRequest req) := rfl
theorem registerWrite (fn off : Nat) (val : W64) : Statement (.registerWrite fn off val) := rfl
theorem attestation (nonce : BitVec 256) : Statement (.attestation nonce) := rfl
theorem packageNumberWrite (val : W64) : Statement (.packageNumberWrite val) := rfl
theorem timesetWrite (val : W64) : Statement (.timesetWrite val) := rfl
theorem flitReceived (port : Nat) (flit : BitVec 2048) : Statement (.flitReceived port flit) := rfl
theorem flitReplay (port : Nat) : Statement (.flitReplay port) := rfl
theorem keepaliveSend (port : Nat) : Statement (.keepaliveSend port) := rfl
theorem flowAckTimer (src flow : Nat) : Statement (.flowAckTimer src flow) := rfl
theorem flowRetransmitTimeout (dst flow : Nat) : Statement (.flowRetransmitTimeout dst flow) := rfl
theorem portEnable (port : Nat) : Statement (.portEnable port) := rfl
theorem portFence (port : Nat) : Statement (.portFence port) := rfl
theorem portUnfence (port : Nat) : Statement (.portUnfence port) := rfl
theorem markUnreachable (pkg : Nat) : Statement (.markUnreachable pkg) := rfl
theorem portTrainingResult (port lanes : Nat) : Statement (.portTrainingResult port lanes) := rfl
theorem portLaneLoss (port : Nat) : Statement (.portLaneLoss port) := rfl
theorem portKeepaliveLoss (port : Nat) : Statement (.portKeepaliveLoss port) := rfl
theorem portRetrainTimeout (port : Nat) : Statement (.portRetrainTimeout port) := rfl
theorem timeSyncSend : Statement .timeSyncSend := rfl
theorem timeSyncReceive (port : Nat) (offset : W32) : Statement (.timeSyncReceive port offset) := rfl
theorem timeLockLoss : Statement .timeLockLoss := rfl
theorem gangWrite (stack : Nat) (val : W64) : Statement (.gangWrite stack val) := rfl
theorem rateChangeRequest (stack : Nat) : Statement (.rateChangeRequest stack) := rfl
theorem scrubRead (stack : Nat) : Statement (.scrubRead stack) := rfl
theorem scrubEscalateTick (stack : Nat) : Statement (.scrubEscalateTick stack) := rfl
theorem pcSampleTick (core draw : Nat) : Statement (.pcSampleTick core draw) := rfl
theorem counterSlice : Statement .counterSlice := rfl
theorem counterSelectWrite (part i : Nat) (val : W64) : Statement (.counterSelectWrite part i val) := rfl
theorem histogramRecord : Statement .histogramRecord := rfl
theorem boot : Statement .boot := rfl
theorem powerCapExceeded : Statement .powerCapExceeded := rfl
theorem thermalTrip : Statement .thermalTrip := rfl
theorem fdecRetire (id : Nat) : Statement (.fdecRetire id) := rfl
theorem powerLoss (duringWrite : Bool) : Statement (.powerLoss duringWrite) := rfl

end Sys2Proof.Laws.Fields
end

