-- ==== Sys2Proof/Tests/Slice0.lean ====
section
/-! SUPPORT. Tests. Words written out bit by bit from the spec's encodings and what they decode to; ill-formed terms that each
check of WellFormed refuses; single steps with values worked by hand from the spec; and, for each statement of
Certificates/Slice0/Obligations.lean that has hypotheses, a state that meets them. -/

namespace Sys2Proof.Tests
open Sys2Proof Sys2Proof.Machine Sys2Proof.Claim
set_option Elab.async false

/-! ### Well-formed and ill-formed terms (R38 to R48, R89) -/

/-- No hints, guard true, vector form. -/
def hv : Hdr := { neg := false, guard := 7, burst := 0, yld := false, keep := false, reuse := false, uni := false }
/-- No hints, guard true, uniform form. -/
def hu : Hdr := { hv with uni := true }
/-- A word with no operand. -/
def p0 : P := { h := hv, fn := 0, ty := 0, rs := 0, d := .other .none, a := .none, b := .op .none, ext := 0 }
/-- add.s32 v4, v5, v6. -/
def pAdd : P := { p0 with ty := 2, d := .v false 0 4, a := .v 5, b := .op (.v 6) }

theorem test_wf_add : (Instr.add pAdd).wellFormed = true := by decide
/-- R122: D of a vector add is no uniform register. -/
theorem test_wf_kind : (Instr.add { pAdd with d := .s false 0 4 }).wellFormed = false := by decide
/-- R129: mulhi has no 8-bit type. -/
theorem test_wf_type : (Instr.mulhi { pAdd with ty := 0 }).wellFormed = false := by decide
/-- R47: the reserved bit of the modifier. -/
theorem test_wf_modifier : (Instr.add { pAdd with rs := 1 }).wellFormed = false := by decide
/-- R47: and has no .sat. -/
theorem test_wf_sat : (Instr.and { pAdd with ty := 6, rs := 2 }).wellFormed = false := by decide
/-- R44: an extension that the instruction does not use. -/
theorem test_wf_extension : (Instr.add { pAdd with ext := 1 }).wellFormed = false := by decide
/-- R126: the register pair of a 64-bit operand is even. -/
theorem test_wf_pair : (Instr.add { pAdd with ty := 3 }).wellFormed = false := by decide
/-- R126: a 64-bit source is no latch. -/
theorem test_wf_latch : (Instr.add { pAdd with ty := 3, a := .latch 0, b := .op (.v 6) }).wellFormed = false := by decide
/-- R41: latch bits on an instruction of another pipe. -/
theorem test_wf_latch_bits : (Instr.lds { p0 with ty := 6, d := .v false 1 4, a := .v 6 }).wellFormed = false := by decide
/-- R45: the uniform form has no guard 4. -/
theorem test_wf_guard : (Instr.add { pAdd with h := { hu with guard := 4 }, d := .s false 0 4, a := .s 5, b := .op (.s 6) }).wellFormed = false := by
  decide
/-- R40: there is no predicate 12. -/
theorem test_wf_pred : (Instr.plop { p0 with d := .other (.pred 12), a := .pred 0, b := .op (.pred 1) }).wellFormed = false := by decide
/-- R54: the function of nop. -/
theorem test_wf_function : (Instr.setp { pAdd with fn := 9, d := .other (.pred 1) }).wellFormed = false := by decide
/-- R135: B of movi holds immediate bits. -/
theorem test_wf_raw : (Instr.movi { p0 with d := .v false 0 0, b := .op .none }).wellFormed = false := by decide
/-- R201: a barrier number. -/
theorem test_wf_own : (Instr.barSync { p0 with a := .imm 16, b := .op (.imm 1) }).wellFormed = false := by decide
/-- R210: acquire is no order of a store. -/
theorem test_wf_order : (Instr.st { p0 with ty := 6, rs := 4, a := .v 4, b := .op (.v 6) }).wellFormed = false := by decide
/-- R82: %preq by rdsr; rdsrChunk is %chunk only. -/
theorem test_wf_rdsr : (Instr.rdsr { p0 with d := .s false 0 4, a := .sr 6 }).wellFormed = true ∧
    (Instr.rdsrChunk { p0 with d := .s false 0 4, a := .sr 6 }).wellFormed = false := by decide
/-- R90: the address of a COND is a multiple of 8, that of a LAUNCH of 64. -/
theorem test_wf_command : (Instr.cmdCond 0 1 12 0).wellFormed = false ∧ (Instr.cmdLaunch false 32).wellFormed = false ∧
    (Instr.cmdSignal 3 8 0).wellFormed = false ∧ (Instr.cmdLoop 3 5).wellFormed = true := by decide
/-- R10, R376: there are four dies and 24 ports. -/
theorem test_wf_step : (Instr.txCommit 4).wellFormed = false ∧ (Instr.portFence 24).wellFormed = false ∧
    (Instr.portFence 23).wellFormed = true := by decide

/-! ### Words of the spec (R38 to R47, R89, R90 and the encodings that the chapters print) -/

/-- The decoder reads an instruction from a word, and the encoder gives the word back. -/
def readsAs (w : Nat) (i : Instr) : Bool := decodeTableWord 96 w == some i && encode i == [(96, w)]

theorem test_decode_integer :
    readsAs 0x0024_4020_0207_0003_2000_0000
      (.add { p0 with h := { hv with guard := 2, burst := 2, reuse := true }, ty := 2, d := .v false 1 7, a := .v 3, b := .op (.latch 0) }) = true ∧
    readsAs 0x0170_0022_0004_0005_9007_0000 (.sub { p0 with ty := 2, rs := 2, d := .v false 0 4, a := .v 5, b := .op (.imm 7) }) = true ∧
    readsAs 0x1F70_0000_0000_F000_3F80_0000 (.movi { p0 with d := .v false 0 0, b := .raw 0x3F80 }) = true := by decide +kernel
theorem test_decode_convert : readsAs 0x4470_2864_1011_1010_F000_0000
    (.cvt { p0 with h := hu, fn := 8, ty := 6, rs := 4, d := .s false 0 17, a := .s 16 }) = true := by decide +kernel
theorem test_decode_control :
    readsAs 0x5D70_0000_F000_F000_F000_0000 (.exit p0) = true ∧ readsAs 0x6670_0000_F000_F000_F000_0000 (.nop p0) = true := by decide +kernel
theorem test_decode_exchange : readsAs 0x6270_0260_0006_0005_9001_0000
    (.lperm { p0 with fn := 2, ty := 6, d := .v false 0 6, a := .v 5, b := .op (.imm 1) }) = true := by decide +kernel
theorem test_decode_memory :
    readsAs 0x7670_006A_0009_1002_0003_0008 (.atom { p0 with ty := 6, rs := 10, d := .v false 0 9, a := .s 2, b := .op (.v 3), ext := 8 }) = true ∧
    readsAs 0x7E70_0302_F000_F000_F000_0000 (.fence { p0 with fn := 3, rs := 2 }) = true := by decide +kernel
theorem test_decode_page :
    readsAs 0x8170_0000_1006_1002_F000_0040 (.pgq { p0 with d := .s false 0 6, a := .s 2, ext := 0x40 }) = true ∧
    readsAs 0x8270_0000_1003_9004_F000_0000 (.wresz { p0 with d := .s false 0 3, a := .imm 4 }) = true := by decide +kernel
theorem test_decode_transfer : readsAs 0x9870_0018_1008_1002_1003_0002
    (.xcpy { p0 with ty := 1, rs := 8, d := .s false 0 8, a := .s 2, b := .op (.s 3), ext := 2 }) = true := by decide +kernel
theorem test_decode_folio : readsAs 0xA470_0000_1005_1008_9001_0003
    (.fenc { p0 with d := .s false 0 5, a := .s 8, b := .op (.imm 1), ext := 3 }) = true := by decide +kernel
theorem test_decode_tile :
    readsAs 0xB070_0000_5000_1004_F000_0000 (.mma { p0 with d := .other (.ac 0), a := .s 4 }) = true ∧
    readsAs 0xB170_0000_5000_1004_0006_0000 (.mmag { p0 with d := .other (.ac 0), a := .s 4, b := .op (.v 6) }) = true := by decide +kernel
theorem test_decode_scroll :
    readsAs 0xC070_0000_1004_8001_9004_0000 (.sres { p0 with d := .s false 0 4, a := .sh 1, b := .op (.imm 4) }) = true ∧
    readsAs 0xC570_0000_8002_1003_F000_0000 (.sbnd { p0 with d := .other (.sh 2), a := .s 3 }) = true ∧
    readsAs 0xCB70_0000_1004_8001_F000_0000 (.sdel { p0 with d := .s false 0 4, a := .sh 1 }) = true := by decide +kernel
theorem test_decode_chain :
    readsAs 0xD270_0018_F000_1004_1005_0040 (.crun { p0 with ty := 1, rs := 8, a := .s 4, b := .op (.s 5), ext := 0x40 }) = true ∧
    readsAs 0xD170_0000_6001_1005_F000_0000 (.cmodSet { p0 with d := .other (.bd 1), a := .s 5 }) = true ∧
    readsAs 0xD170_0100_1006_6001_F000_0000 (.cmodGet { p0 with fn := 1, d := .s false 0 6, a := .bd 1 }) = true ∧
    readsAs 0xD470_0000_F000_1007_F000_0000 (.cblim { p0 with a := .s 7 }) = true := by decide +kernel
theorem test_decode_system :
    readsAs 0xE070_0000_F000_9011_F000_0000 (.trap { p0 with a := .imm 17 }) = true ∧
    readsAs 0xE170_0000_F000_9020_F000_0000 (.yield { p0 with a := .imm 32 }) = true ∧
    readsAs 0xE270_0000_1009_4006_F000_0000 (.rdsr { p0 with d := .s false 0 9, a := .sr 6 }) = true ∧
    readsAs 0xE370_0000_4008_1003_F000_0000 (.wrsr { p0 with d := .other (.sr 8), a := .s 3 }) = true ∧
    readsAs 0xE470_0000_3009_9005_F000_0000 (.ptok { p0 with d := .other (.pred 9), a := .imm 5 }) = true ∧
    readsAs 0xE570_0000_3008_F000_F000_0000 (.ttok { p0 with d := .other (.pred 8) }) = true ∧
    readsAs 0xE670_0200_1004_1005_F000_0000 (.frelRes { p0 with fn := 2, d := .s false 0 4, a := .s 5 }) = true ∧
    readsAs 0xE770_0000_1004_1002_F000_0000 (.launch { p0 with d := .s false 0 4, a := .s 2 }) = true ∧
    readsAs 0xE870_0100_1004_9003_1006_0000 (.rdctrSel { p0 with fn := 1, d := .s false 0 4, a := .imm 3, b := .op (.s 6) }) = true ∧
    readsAs 0xE970_0000_F000_9005_F000_0000 (.mark { p0 with a := .imm 5 }) = true ∧
    readsAs 0xEA70_0000_F000_9001_F000_0000 (.brk { p0 with a := .imm 1 }) = true := by decide +kernel
theorem test_decode_commands :
    decodeTableWord 64 0x0204_0000_0000_0009 = some (.cmdLoop 1 9) ∧
    decodeTableWord 192 (0x0510_0000_0000_0020 + 2 ^ 64 * 0x1000 + 2 ^ 128 * 7) = some (.cmdWait 1 0x20 0x1000 7) ∧
    decodeTableWord 128 (0x0802_0000_0000_0000 + 2 ^ 64 * 0x4040) = some (.cmdLaunch true 0x4040) ∧
    decodeTableWord 128 (0x0A20_0005_0000_0000 + 2 ^ 64 * 0x18) = some (.cmdCtxResume 5 0x18) := by decide +kernel
/-- The trap that a word raises. -/
def errOf (x : Except DecErr Instr) : Option DecErr := match x with | .error e => some e | .ok _ => none
/-- R48, R53: an opcode that the map does not list, bit 76, a reserved index bit. -/
theorem test_decode_refused :
    errOf (decodeWord 128 true 0x2E70_0000_F000_F000_F000_0000) = some .illegal ∧
    errOf (decodeWord 128 true 0x6670_1000_F000_F000_F000_0000) = some .reserved ∧
    errOf (decodeWord 128 true 0x6670_0000_F001_F000_F000_0000) = some .reserved ∧
    errOf (decodeWord 8 true 0x0070_0020_0004_0009_0006_0000) = some .illegal := by decide +kernel
/-- R48: a kind in the unused B of abs, an index beside its None; R40: a vector A with bit 77 in xgat; R44: the modifier of mclr; a
reserved bit of a special register's field. -/
theorem test_decode_unused :
    errOf (decodeWord 128 true 0x0A70_0020_0004_0005_0006_0000) = some .illegal ∧
    errOf (decodeWord 128 true 0x0A70_0020_0004_0005_F001_0000) = some .reserved ∧
    errOf (decodeWord 128 true 0x9970_2018_1008_0004_9001_0000) = some .illegal ∧
    errOf (decodeWord 128 true 0xB470_0120_5000_F000_F000_0000) = some .reserved ∧
    errOf (decodeWord 128 true 0xE370_0000_4118_1003_F000_0000) = some .reserved := by decide +kernel
/-- R140: cvtf.e8m0.f32 writes one register, odd or with latch bits. -/
theorem test_decode_e8m0 :
    errOf (decodeWord 128 true 0x4570_0030_0005_0006_F000_0000) = none ∧
    errOf (decodeWord 128 true 0x4570_0030_0205_0006_F000_0000) = none := by decide +kernel

/-! ### Single steps, expected values worked by hand -/

/-- The group after one step from reset with one word placed, its registers set by f. -/
def after (o : Op) (p : P) (f : Group → Group) : Option Group :=
  match step (updG (State.reset.withFetchWord 96 (encodeP o p).toNat) 32 f) with
  | .next t => mfind t.groups 32
  | _ => none
/-- The state after it. -/
def afterS (o : Op) (p : P) (f : Group → Group) : Option State :=
  match step (updG (State.reset.withFetchWord 96 (encodeP o p).toNat) 32 f) with
  | .next t => some t
  | _ => none
/-- Lane 3 of v4 after v4 := op(v5, v6) on two patterns (v5 and v6 hold them in lane 3). -/
def v4Of (o : Op) (p : P) (a b : W32) : Option W32 := (after o p (fun g => wrV (wrV g 5 3 a) 6 3 b)).map (fun g => rdV g 4 3)
/-- op.t v4, v5, v6. -/
def opT (t : BitVec 4) : P := { p0 with ty := t, d := .v false 0 4, a := .v 5, b := .op (.v 6) }
/-- op.t v4, v5. -/
def opT1 (t : BitVec 4) : P := { opT t with b := .op .none }

/-- R32: the sum wraps; R131: .sat stops at the type's range. -/
theorem test_add : v4Of .add (opT 2) 0xFFFFFFFF 1 = some 0 ∧ v4Of .add { opT 2 with rs := 2 } 0x7FFFFFFF 1 = some 0x7FFFFFFF := by decide +kernel
theorem test_sub : v4Of .sub (opT 6) 3 5 = some 0xFFFFFFFE ∧ v4Of .sub { opT 6 with rs := 2 } 3 5 = some 0 := by decide +kernel
theorem test_mul : v4Of .mul (opT 6) 0x10000 0x10001 = some 0x10000 := by decide +kernel
theorem test_mulhi : v4Of .mulhi (opT 6) 0xFFFFFFFF 0xFFFFFFFF = some 0xFFFFFFFE ∧ v4Of .mulhi (opT 2) 0xFFFFFFFF 2 = some 0xFFFFFFFF := by
  decide +kernel
/-- R131: D is the third source. -/
theorem test_mad : (after .mad (opT 6) (fun g => wrV (wrV (wrV g 5 0 3) 6 0 4) 4 0 5)).map (fun g => rdV g 4 0) = some 17 := by decide +kernel
/-- R32: division by 0, and the most negative number by −1. -/
theorem test_div : v4Of .div (opT 6) 7 0 = some 0xFFFFFFFF ∧ v4Of .div (opT 2) 0x80000000 0xFFFFFFFF = some 0x80000000 ∧
    v4Of .div (opT 2) 0xFFFFFFF9 2 = some 0xFFFFFFFD := by decide +kernel
theorem test_rem : v4Of .rem (opT 6) 7 0 = some 7 ∧ v4Of .rem (opT 2) 0xFFFFFFF9 2 = some 0xFFFFFFFF := by decide +kernel
theorem test_min_max : v4Of .min (opT 2) 0xFFFFFFFF 1 = some 0xFFFFFFFF ∧ v4Of .max (opT 6) 0xFFFFFFFF 1 = some 0xFFFFFFFF := by decide +kernel
theorem test_abs_neg : v4Of .abs (opT1 2) 0xFFFFFFFB 0 = some 5 ∧ v4Of .neg (opT1 2) 5 0 = some 0xFFFFFFFB := by decide +kernel
theorem test_logic : v4Of .and (opT 6) 0xF0F0 0xFF00 = some 0xF000 ∧ v4Of .or (opT 6) 0xF0F0 0xFF00 = some 0xFFF0 ∧
    v4Of .xor (opT 6) 0xF0F0 0xFF00 = some 0x0FF0 ∧ v4Of .not (opT1 6) 0xF0F0 0 = some 0xFFFF0F0F := by decide +kernel
/-- R32: shift counts are taken modulo 32. -/
theorem test_shifts : v4Of .shl (opT 6) 1 33 = some 2 ∧ v4Of .shr (opT 6) 0x80000000 31 = some 1 ∧
    v4Of .sha (opT 2) 0xFFFFFFF8 1 = some 0xFFFFFFFC ∧ v4Of .rot (opT 6) 0x80000001 1 = some 3 := by decide +kernel
theorem test_counts : v4Of .popc (opT1 6) 0xF0F0 0 = some 8 ∧ v4Of .clz (opT1 6) 1 0 = some 31 ∧ v4Of .ctz (opT1 6) 8 0 = some 3 ∧
    v4Of .brev (opT1 6) 1 0 = some 0x80000000 := by decide +kernel
/-- R135: a uniform movi takes the sign of its immediate. -/
theorem test_movi : (after .movi { p0 with h := hu, d := .s false 0 7, b := .raw 0xFFFF, ext := 0xFFFE } id).map (fun g => rdS g 7) =
    some 0xFFFFFFFFFFFFFFFE := by decide +kernel
/-- R132: −1 < 1 as signed, not as unsigned numbers. -/
theorem test_setp : (after .setp { opT 2 with d := .other (.pred 2), fn := 2 } (fun g => wrV (wrV g 5 3 0xFFFFFFFF) 6 3 1)).map
      (fun g => rdPred g 2 3) = some true ∧
    (after .setp { opT 6 with d := .other (.pred 2), fn := 2 } (fun g => wrV (wrV g 5 3 0xFFFFFFFF) 6 3 1)).map
      (fun g => rdPred g 2 3) = some false := by decide +kernel
/-- binary32: 1 + 1 = 2, 3 · 0.5 = 1.5, 1.5 · 2 + 1 = 4, the sum of opposite infinities is the canonical NaN (R136). -/
theorem test_float : v4Of .fadd (opT 8) 0x3F800000 0x3F800000 = some 0x40000000 ∧ v4Of .fmul (opT 8) 0x40400000 0x3F000000 = some 0x3FC00000 ∧
    (after .ffma (opT 8) (fun g => wrV (wrV (wrV g 5 3 0x3FC00000) 6 3 0x40000000) 4 3 0x3F800000)).map (fun g => rdV g 4 3) = some 0x40800000 ∧
    v4Of .fadd (opT 8) 0x7F800000 0xFF800000 = some 0x7FC00000 := by decide +kernel
/-- 2.5 toward zero is 2. -/
theorem test_cvt : v4Of .cvt { opT1 8 with fn := 6, rs := 4 } 0x40200000 0 = some 2 := by decide +kernel
/-- 1·1 + 2·2 + 3·3 + 4·4 + 100 = 130. -/
theorem test_dot4 : (after .dot4 (opT 4) (fun g => wrV (wrV (wrV g 5 3 0x04030201) 6 3 0x04030201) 4 3 100)).map (fun g => rdV g 4 3) = some 130 := by
  decide +kernel
/-- R45: lanes outside the guard keep D. -/
theorem test_guard : (after .add { opT 6 with h := { hv with guard := 1 } } (fun g => wrV (wrV (wrV { g with p := [(1, 0x8)] } 5 3 7) 5 2 7) 4 2 9)).map
    (fun g => (rdV g 4 3, rdV g 4 2)) = some (7, 9) := by decide +kernel
/-- R51: ten instructions on is the same slot of the next sector. -/
theorem test_bra : (after .bra { p0 with b := .raw 10, ext := 0 } id).map (fun g => g.pc) = some 128 := by decide +kernel
/-- R147: the return address; a target two instructions on. -/
theorem test_call : (after .call { p0 with d := .s false 0 9, b := .raw 0, ext := 2 } id).map (fun g => (g.pc, rdS g 9)) = some (24, 12) := by
  decide +kernel
/-- R50: 13 is no instruction address, 24 is one. -/
theorem test_jmp : (after .jmp { p0 with a := .s 2 } (fun g => wrS g 2 13)).map (fun g => (g.st, g.pc, g.flt.map (·.code))) = some (.faulted, 0, some 5) ∧
    (after .jmp { p0 with a := .s 2 } (fun g => wrS g 2 24)).map (fun g => g.pc) = some 24 := by decide +kernel
/-- R106: every lane leaves and the slot is free. -/
theorem test_exit : (after .exit p0 id).map (fun g => (g.st, g.resident, g.active)) = some (.exited, false, 0) := by decide +kernel
/-- R152: p1 and p2. -/
theorem test_plop : (after .plop { p0 with d := .other (.pred 3), a := .pred 1, b := .op (.pred 2) }
    (fun g => { g with p := [(1, 0xC), (2, 0xA)] })).map (fun g => (List.range 4).map (rdPred g 3)) = some [false, false, false, true] := by decide +kernel
/-- R154: quads exchange. -/
theorem test_lperm : (after .lperm { p0 with fn := 2, ty := 6, d := .v false 0 6, a := .v 5, b := .op (.imm 1) } (fun g => wrV g 5 2 77)).map
    (fun g => rdV g 6 3) = some 77 := by decide +kernel
/-- R156: the sum over 32 lanes, one of them 5, one 6. -/
theorem test_gred : (after .gred { opT1 6 with d := .s false 0 4 } (fun g => wrV (wrV g 5 0 5) 5 31 6)).map (fun g => rdS g 4) = some 11 := by
  decide +kernel
/-- R171: the page is not present, the group stops where it is. -/
theorem test_ld_not_present : (after .ld { p0 with ty := 6, d := .v false 0 4, a := .v 6 } id).map (fun g => (g.st, g.pc, g.flt.map (·.code))) =
    some (.faulted, 0, some 0x10) := by decide +kernel
/-- R171: a store to a page that is not present goes to the side log and the group goes on. -/
theorem test_st_logged : (afterS .st { p0 with ty := 6, a := .s 6, b := .op (.v 5), h := hv } (fun g => wrV g 5 31 9)).map
    (fun s => ((mfind s.groups 32).map (fun g => (g.st, g.pc)))) = some (some (.ready, 12)) := by decide +kernel
/-- R182: of the lanes that store to one address the highest is last. -/
theorem test_sts : (afterS .sts { p0 with ty := 6, a := .s 6, b := .op (.v 5) } (fun g => wrV (wrV g 5 0 0x01020304) 5 31 0x0A0B0C0D)).map
    (fun s => (mfind s.blocks 1).map (fun b => (List.range 4).map (spByte b))) = some (some [0x0D, 0x0C, 0x0B, 0x0A]) := by decide +kernel
/-- R212: a 32-bit access to offset 2. -/
theorem test_lds_misaligned : (after .lds { p0 with ty := 6, d := .v false 0 4, a := .s 6, ext := 2 } id).map (fun g => g.flt.map (·.code)) =
    some (some 0x11) := by decide +kernel
theorem test_bar_sync : (after .barSync { p0 with a := .imm 3, b := .op (.imm 1) } id).map
    (fun g => (g.st, g.arrivals.map (fun a => (a.id, a.count, a.sync)))) = some (GSt.waiting (.bar 3), [(3, 1, true)]) := by decide +kernel
theorem test_batf : (after .batf { p0 with d := .s false 0 4 } (fun g => { g with batch := 65535 })).map (fun g => (rdS g 4, g.batch)) =
    some (65535, 0) := by decide +kernel
/-- R80: code 0x06, the region entry behind the trap. -/
theorem test_trap : (after .trap { p0 with a := .imm 17 } id).map (fun g => (g.st, g.pc, g.region.entry, g.flt.map (·.code))) =
    some (.faulted, 0, 12, some 6) := by decide +kernel
theorem test_ttok_ptok : (afterS .ptokRel { p0 with fn := 1, d := .other (.pred 9) } id).map (fun s => (mfind s.blocks 1).map (·.token)) =
    some (some none) := by decide +kernel
/-- R354: m = 0 is out of range, the bond register keeps its value. -/
theorem test_cmod_set : (after .cmodSet { p0 with d := .other (.bd 1), a := .s 5 } id).map (fun g => g.flt.map (·.code)) = some (some 1) := by
  decide +kernel
theorem test_txbeg : (after .txbeg p0 id).map (fun g => g.tx.length) = some 32 := by decide +kernel
/-- R48: a reserved bit of the word. -/
theorem test_trap_reserved : (match step (State.reset.withFetchWord 96 0x6670_1000_F000_F000_F000_0000) with
    | .next t => (mfind t.groups 32).map (fun g => (g.st, g.flt.map (·.code))) | _ => none) = some (.faulted, some 2) := by decide +kernel

/-- R49: a trailer bit above the ten marks. -/
theorem test_trap_trailer : (after .nop p0 (fun g => { g with sectors := [(0, .ok (BitVec.ofNat 1024 (2 ^ 970)))] })).map (fun g => (g.st, g.flt.map (·.code))) =
    some (.faulted, some 4) := by decide +kernel
/-- The queue after one step of hart 0 with one command placed. -/
def queueAfter (n w : Nat) : Option Queue :=
  match step (State.reset.withFetchWord n w) with | .next t => mfind t.queues 0 | _ => none
/-- R86: the read index moves over the command's words; R90: ENDL of a loop that is not open fails with LOOP. -/
theorem test_commands : (queueAfter 64 0).map (·.rd) = some 1 ∧ (queueAfter 64 0x0100_0000_0000_0001).map (·.rd) = some 2 ∧
    (queueAfter 64 0x0304_0000_0000_0000).map (fun q => (q.st, q.status)) = some (.failed, 4) ∧
    (queueAfter 64 0x0204_0000_0000_0009).map (fun q => q.loops) = some [(1, 9, 1)] := by decide +kernel
/-- R90: SIGNAL adds to the word in memory. -/
theorem test_signal : (match step (memWrite (State.reset.withFetchWord 192 (0x0610_0000_0000_0000 + 2 ^ 64 * 0x3000 + 2 ^ 128 * 5)) 0x3000 8 37) with
    | .next t => memRead t 0x3000 8 | _ => 0) = 42 := by decide +kernel
/-- R407: from reset the device boots by itself. -/
theorem test_boot : (match step State.reset with | .next t => t.booted | _ => false) = true := by decide +kernel

/-! ### States that meet the hypotheses of the statements -/

/-- A group of one on core 0 at address 0, and its block and kernel. -/
def gT : Group := { block := 1, num := 0, core := 0, slot := 0, pc := 0, region := { entry := 0, e := BitVec.allOnes 32, stack := [] } }
def bT : Block := { kernel := 1, num := 0, pair := 0, ngroups := 1, size := 131072, ways := 1, tiles := some 0 }
def kT : Kernel := { ctx := 0, record := mkRec [(148, 144, 16), (156, 152, 2), (165, 160, 1), (169, 169, 1)], st := .running, blocks := 1, placed := 1 }
/-- A package in which one group is the agent of the step: context 0 of partition 0 with every right, its descriptor at
0x20000, its page table at 0x10000 mapping the first 32 GiB to themselves, the fault ring at 0x30000. -/
def wT : State :=
  let s : State := { groups := [(32, gT)], blocks := [(1, bT)], kernels := [(1, kT)], ctxs := [(0, { st := .running })],
                     parts := [(0, { ctxBase := 0x20000, ceil := 15, frzBase := 0x40000 })], booted := true, fresh := 2, cur := .group 32 0 }
  memWrite (memWrite s 0x10000 8 (mkRec [(0, 0, 1), (1, 1, 1), (5, 2, 15)])) 0x20000 64
    (mkRec [(2, 0, 2), (19, 16, 15), (127, 64, 0x10000), (319, 256, 0x30000), (323, 320, 4), (447, 384, 2 ^ 64 - 1)])
/-- The same with another group. -/
def wG (g : Group) : State := { wT with groups := [(32, g)] }

theorem issuer_wG (g : Group) : Issuer (wG g) 32 0 g := ⟨rfl, by simp [wG, mfind]⟩

/-- The hypotheses of `Computes`: of the uniform form, with an instruction that acts, and of the vector form with a free pipe. -/
def Forms (sfu : Bool) (xs : P → List Opnd) : Prop :=
  (∃ (s : State) (gid : Nat) (busy : BitVec 10) (g : Group) (p : P), Issuer s gid busy g ∧ p.h.uni = true ∧ actsOnce g p.h = true) ∧
  (∃ (s : State) (gid : Nat) (busy : BitVec 10) (g : Group) (p : P) (pipe : _), Issuer s gid busy g ∧ p.h.uni = false ∧ pickPipe s gid busy g sfu (xs p) = .pipe pipe)
theorem forms_ab : Forms false srcAB :=
  ⟨⟨wG gT, 32, 0, gT, { pAdd with h := hu }, issuer_wG gT, rfl, by decide⟩, ⟨wG gT, 32, 0, gT, pAdd, 0, issuer_wG gT, rfl, by decide +kernel⟩⟩
theorem forms_a : Forms false srcA :=
  ⟨⟨wG gT, 32, 0, gT, { pAdd with h := hu }, issuer_wG gT, rfl, by decide⟩, ⟨wG gT, 32, 0, gT, pAdd, 0, issuer_wG gT, rfl, by decide +kernel⟩⟩
theorem forms_none : Forms false srcNone :=
  ⟨⟨wG gT, 32, 0, gT, { pAdd with h := hu }, issuer_wG gT, rfl, by decide⟩, ⟨wG gT, 32, 0, gT, pAdd, 0, issuer_wG gT, rfl, by decide +kernel⟩⟩
theorem forms_sfu_ab : Forms true srcAB :=
  ⟨⟨wG gT, 32, 0, gT, { pAdd with h := hu }, issuer_wG gT, rfl, by decide⟩, ⟨wG gT, 32, 0, gT, pAdd, 6, issuer_wG gT, rfl, by decide +kernel⟩⟩
theorem forms_sfu_a : Forms true srcA :=
  ⟨⟨wG gT, 32, 0, gT, { pAdd with h := hu }, issuer_wG gT, rfl, by decide⟩, ⟨wG gT, 32, 0, gT, pAdd, 6, issuer_wG gT, rfl, by decide +kernel⟩⟩
theorem witness_IntegerArithmetic : Forms false srcAB ∧ Forms false srcA := ⟨forms_ab, forms_a⟩
theorem witness_BitInstructions : Forms false srcAB ∧ Forms false srcA := ⟨forms_ab, forms_a⟩
theorem witness_CountsAndWidths : Forms false srcAB ∧ Forms false srcA := ⟨forms_ab, forms_a⟩
theorem witness_SelectSetMove : Forms false srcAB ∧ Forms false srcA ∧ Forms false srcNone := ⟨forms_ab, forms_a, forms_none⟩
theorem witness_FloatInstructions : Forms false srcAB ∧ Forms false srcA := ⟨forms_ab, forms_a⟩
theorem witness_Conversions : Forms false srcAB ∧ Forms false srcA := ⟨forms_ab, forms_a⟩
theorem witness_SfuFunctions : Forms true srcA := forms_sfu_a
theorem witness_DotProducts : Forms false srcAB := forms_ab
/-- Uniform forms of an instruction with a predicate result: an index of k and, for addc, 7; vector forms: p0 to p6 and 7. -/
theorem witness_CarryAndCompare :
    (∀ e ∈ [(0x77 : BitVec 16), 0xB7], ∃ (s : State) (gid : Nat) (busy : BitVec 10) (g : Group) (p : P), Issuer s gid busy g ∧ p.h.uni = true ∧ p.ext = e ∧ 7 ≤ carryOut p ∧ carryOut p < 12 ∧
      patW p.t = tyW p.t) ∧
    (∃ (s : State) (gid : Nat) (busy : BitVec 10) (g : Group) (p : P) (pipe : _), Issuer s gid busy g ∧ p.h.uni = false ∧ carryOut p < 8 ∧ patW p.t = tyW p.t ∧
      pickPipe s gid busy g false (srcAB p) = .pipe pipe) ∧
    (∀ n ∈ [(8 : BitVec 4), 11], ∃ (s : State) (gid : Nat) (busy : BitVec 10) (g : Group) (p : P), Issuer s gid busy g ∧ p.h.uni = true ∧ p.d = .other (.pred n) ∧ 8 ≤ n.toNat ∧ n.toNat < 12) ∧
    (∀ n ∈ [(0 : BitVec 4), 7], ∃ (s : State) (gid : Nat) (busy : BitVec 10) (g : Group) (p : P) (pipe : _), Issuer s gid busy g ∧ p.h.uni = false ∧ p.d = .other (.pred n) ∧ n.toNat < 8 ∧
      pickPipe s gid busy g false (srcAB p) = .pipe pipe) := by
  refine ⟨fun e he => ⟨wG gT, 32, 0, gT, { pAdd with h := hu, ext := e }, issuer_wG gT, rfl, rfl, ?_⟩,
    ⟨wG gT, 32, 0, gT, pAdd, 0, issuer_wG gT, rfl, by decide, by decide, by decide +kernel⟩,
    fun n hn => ⟨wG gT, 32, 0, gT, { pAdd with h := hu, d := .other (.pred n) }, issuer_wG gT, rfl, rfl, ?_⟩,
    fun n hn => ⟨wG gT, 32, 0, gT, { pAdd with d := .other (.pred n) }, 0, issuer_wG gT, rfl, rfl, ?_, ?_⟩⟩
  · simp at he; rcases he with rfl | rfl <;> decide
  · simp at hn; rcases hn with rfl | rfl <;> decide
  · simp at hn; rcases hn with rfl | rfl <;> decide
  · simp at hn; rcases hn with rfl | rfl <;> decide +kernel
theorem witness_PredicateLogic :
    (∀ u : Bool, ∃ (s : State) (gid : Nat) (busy : BitVec 10) (g : Group) (p : P) (n : _), Issuer s gid busy g ∧ p.d = .other (.pred n) ∧ n.toNat < 12 ∧ (p.h.uni = true ↔ 8 ≤ n.toNat) ∧ p.h.uni = u) ∧
    (∃ (s : State) (gid : Nat) (busy : BitVec 10) (g : Group) (p : P) (n : _), Issuer s gid busy g ∧ p.h.uni = false ∧ p.d = .other (.pred n) ∧ n.toNat < 12 ∧ guardLanes g p.h ≠ 0) :=
  ⟨fun u => match u with
    | true => ⟨wG gT, 32, 0, gT, { pAdd with h := hu, d := .other (.pred 11) }, 11, issuer_wG gT, rfl, by decide⟩
    | false => ⟨wG gT, 32, 0, gT, { pAdd with d := .other (.pred 0) }, 0, issuer_wG gT, rfl, by decide⟩,
   ⟨wG gT, 32, 0, gT, { pAdd with d := .other (.pred 8) }, 8, issuer_wG gT, rfl, rfl, by decide, by decide⟩⟩
theorem witness_LaneExchange : Forms false srcNone ∧ Forms false (fun p => [p.b.opnd]) ∧
    (∀ u : Bool, ∃ (s : State) (gid : Nat) (busy : BitVec 10) (g : Group) (p : P) (pipe : _), Issuer s gid busy g ∧ p.h.uni = false ∧ (dstS p.d).isSome = u ∧ pickPipe s gid busy g false (srcA p) = .pipe pipe) :=
  ⟨forms_none, ⟨⟨wG gT, 32, 0, gT, { pAdd with h := hu }, issuer_wG gT, rfl, by decide⟩, ⟨wG gT, 32, 0, gT, pAdd, 0, issuer_wG gT, rfl, by decide +kernel⟩⟩,
   fun u => match u with
    | true => ⟨wG gT, 32, 0, gT, { pAdd with d := .s false 0 4 }, 0, issuer_wG gT, rfl, rfl, by decide +kernel⟩
    | false => ⟨wG gT, 32, 0, gT, pAdd, 0, issuer_wG gT, rfl, rfl, by decide +kernel⟩⟩
/-- A pipe in use by other work; a latch that nothing of the group has written; one that another group's issue made stale. -/
theorem witness_Pipes :
    (∃ (s : State) (gid : Nat) (busy : BitVec 10) (g : Group) (p : P) (r : _), Issuer s gid busy g ∧ p.h.uni = false ∧ pickPipe s gid busy g false (srcAB p) = .wait r) ∧
    (∃ (s : State) (gid : Nat) (busy : BitVec 10) (g : Group) (p : P) (l : _) (n : _), Issuer s gid busy g ∧ p.h.uni = false ∧ pickPipe s gid busy g false (srcAB p) = .stale l n) ∧
    (∃ (s : State) (gid : Nat) (busy : BitVec 10) (g : Group) (p : P) (n : _), Issuer s gid busy g ∧ p.a = .latch 1 ∧ pickPipe s gid busy g false (srcAB p) = .pipe n) :=
  ⟨⟨{ wG gT with cur := .group 32 0x3F }, 32, 0x3F, gT, pAdd, 6, ⟨rfl, rfl⟩, rfl, by decide +kernel⟩,
   ⟨wG gT, 32, 0, gT, { pAdd with a := .latch 1 }, 1, 0, issuer_wG gT, rfl, by decide +kernel⟩,
   ⟨wG { gT with latchPipe := [(1, (3, false))] }, 32, 0, _, { pAdd with a := .latch 1 }, 3, issuer_wG _, rfl, by decide +kernel⟩⟩
theorem witness_IntegerRules : Forms false srcAB ∧ Forms true srcAB ∧ Forms false srcA ∧
    (∀ t ∈ [0, 1, 2, 3, 4, 5, 6, 7], isInt t = true ∧ 0 < elemN t) := ⟨forms_ab, forms_sfu_ab, forms_a, by decide⟩
theorem witness_InstructionAddresses :
    (∀ base ∈ [0, 2 ^ 64 - 128], ∀ slot ∈ [0, 9], base % 128 = 0 ∧ slot < 10 ∧ base + 128 ≤ 2 ^ 64) ∧
    ((0 / 128 * 10 + 9 : Nat) : Int) + 1 = ((1 * 10 + 0 : Nat) : Int) ∧
    (∃ (s : State) (gid : Nat) (busy : BitVec 10) (g : Group) (p : P), Issuer s gid busy g ∧ actsOnce g p.h = true ∧ isInstrAddr (rdSn g (sNum p.a)) = false) ∧ isInstrAddr 108 = true :=
  ⟨by decide, by decide, ⟨wG (wrS gT 2 120), 32, 0, _, { p0 with a := .s 2 }, issuer_wG _, by decide +kernel⟩, by decide⟩
/-- All, none and some lanes of E. -/
theorem witness_BranchesAndCalls : ∃ (s : State) (gid : Nat) (busy : BitVec 10) (g : Group), Issuer s gid busy g ∧
    (∃ p : P, p.h.uni = false ∧ guardLanes g p.h = g.e) ∧ (∃ p : P, p.h.uni = false ∧ guardLanes g p.h = 0) ∧
    (∃ p : P, p.h.uni = false ∧ guardLanes g p.h ≠ g.e ∧ guardLanes g p.h ≠ 0) ∧ (∃ p : P, actsOnce g p.h = true) :=
  ⟨wG { gT with p := [(1, 5)] }, 32, 0, _, issuer_wG _, ⟨p0, by decide⟩, ⟨{ p0 with h := { hv with neg := true } }, by decide⟩,
   ⟨{ p0 with h := { hv with guard := 1 } }, by decide⟩, ⟨p0, by decide⟩⟩
theorem witness_ReturnsJumpsJoins :
    (∃ (s : State) (gid : Nat) (busy : BitVec 10) (g : Group) (p : P), Issuer s gid busy g ∧ actsOnce g p.h = true ∧ isInstrAddr (rdSn g (sNum p.a)) = true) ∧
    (∃ (s : State) (gid : Nat) (busy : BitVec 10) (g : Group) (p : P), Issuer s gid busy g ∧ p.h.uni = false ∧ actsOnce g p.h = false) ∧
    (∃ (s : State) (gid : Nat) (busy : BitVec 10) (g : Group) (top : _), Issuer s gid busy g ∧ g.stack = [top] ∧ top.j = some g.pc ∧ top.pending = true ∧ top.m ≠ 0) :=
  ⟨⟨wG (wrS gT 2 108), 32, 0, _, { p0 with a := .s 2 }, issuer_wG _, by decide +kernel⟩,
   ⟨wG gT, 32, 0, _, { p0 with h := { hv with neg := true } }, issuer_wG _, by decide⟩,
   ⟨wG { gT with stack := [{ pending := true, a := 24, j := some 0, m := 5 }] }, 32, 0, _, _, issuer_wG _, rfl, rfl, rfl, by decide⟩⟩
/-- No lane leaves; some of E; all of E with others waiting; all. -/
theorem witness_Exits :
    (∃ (s : State) (gid : Nat) (busy : BitVec 10) (g : Group) (p : P), Issuer s gid busy g ∧ p.h.uni = false ∧ guardLanes g p.h = 0) ∧
    (∃ (s : State) (gid : Nat) (busy : BitVec 10) (g : Group) (p : P), Issuer s gid busy g ∧ p.h.uni = false ∧ guardLanes g p.h ≠ 0 ∧ g.e &&& ~~~(guardLanes g p.h) ≠ 0) ∧
    (∃ (s : State) (gid : Nat) (busy : BitVec 10) (g : Group) (p : P), Issuer s gid busy g ∧ p.h.uni = false ∧ guardLanes g p.h = g.e ∧ g.active &&& ~~~g.e ≠ 0 ∧ (refill g.stack).isSome = true) ∧
    (∃ (s : State) (gid : Nat) (busy : BitVec 10) (g : Group) (p : P), Issuer s gid busy g ∧ p.h.uni = true ∧ actsOnce g p.h = true ∧ outstanding s gid g = false) :=
  ⟨⟨wG gT, 32, 0, _, { p0 with h := { hv with neg := true } }, issuer_wG _, by decide⟩,
   ⟨wG { gT with p := [(1, 5)] }, 32, 0, _, { p0 with h := { hv with guard := 1 } }, issuer_wG _, by decide⟩,
   ⟨wG { gT with e := 3, stack := [{ pending := true, a := 24, j := none, m := 12 }] }, 32, 0, _, p0, issuer_wG _, by decide⟩,
   ⟨wG gT, 32, 0, _, { p0 with h := hu }, issuer_wG _, by decide +kernel⟩⟩

/-- The group with s6 at 0x4000, mapped memory. -/
def gM : Group := wrS gT 6 0x4000
/-- Loads, through either form. -/
def pLd : P := { p0 with ty := 6, d := .v false 0 4, a := .s 6, b := .op .none }
/-- A store of v5. -/
def pSt : P := { p0 with ty := 6, a := .s 6, b := .op (.v 5) }
/-- Plain loads, and loads with acquire and scope. -/
theorem witness_Loads : (∀ o ∈ [(0 : BitVec 4), 6], ∃ (s : State) (gid : Nat) (busy : BitVec 10) (g : Group) (p : P), Issuer s gid busy g ∧ p.rs = o ∧ accLanes g p.h ≠ [] ∧
    slotsFull g = false ∧ g.reds = [] ∧ g.tx = [] ∧ (∀ i ∈ accLanes g p.h, pageLogged s g (effAddr g p i) = false) ∧
    (let r := accesses s g p (sizeB p.t) 0 effAddr
     (∀ a ∈ r.2, a.c ≠ .wait ∧ (isHelper g p.h a.lane = false → isOk a.c = true)) ∧ windowShut r.1 (gPart r.1 g) 0 (okPas r.2) = false ∧
     (readLanes r.1 gid g p.h (sizeB p.t) p.f (if p.order = 1 then some p.scope else none) r.2).2.2 = [])) ∧
    (∃ (s : State) (gid : Nat) (g : Group) (p : P), mfind s.groups gid = some g ∧ accLanes g p.h ≠ [] ∧ ∃ a ∈ (accesses s g p (sizeB p.t) 0 effAddr).2,
      Acc.pa a % 128 + sizeB p.t ≤ 128 ∧ CleanAt (accesses s g p (sizeB p.t) 0 effAddr).1 g (Acc.pa a)) ∧
    (∃ (s : State) (gid : Nat) (busy : BitVec 10) (g : Group) (p : P), Issuer s gid busy g ∧ g.tx ≠ [] ∧ slotsFull g = false ∧ g.reds = [] ∧
      (∀ i ∈ accLanes g p.h, pageLogged s g (effAddr g p i) = false) ∧
      (let r := chkAll s g (sizeB p.t) (fun i => if (txLane g p.h i).isSome then [0, 3] else [0]) ((accLanes g p.h).map (fun i => (i, effAddr g p i)))
       let x := readLanes (updG r.1 gid (fun g => doomLanes g [] 9)) gid g p.h (sizeB p.t) p.f none r.2
       (∀ a ∈ r.2, isOk a.c = true) ∧ windowShut r.1 (gPart r.1 g) 0 (okPas r.2) = false ∧ x.2.2 = [] ∧ (mfind x.1.groups gid).isSome = true)) ∧
    (∃ (s : State) (gid : Nat) (g : Group) (lane : Nat) (pa : Nat) (n : Nat) (tx : Tx), mfind s.groups gid = some g ∧ mfind g.tx lane = some tx ∧
      (txAdmit s g lane pa true).2 = true ∧ (execRead (noteRead s gid g pa n) g 1 pa n).2.2 = false) := by
  refine ⟨fun o ho => ⟨wG gM, 32, 0, gM, { pLd with rs := o }, issuer_wG _, rfl, ?_⟩,
    ⟨wG gM, 32, gM, pLd, rfl, by decide +kernel, { lane := 0, va := 0x4000, c := .ok 0x4000 }, by decide +kernel, by decide +kernel, ?_⟩,
    ⟨wG { gM with tx := [(0, {})] }, 32, 0, _, pLd, issuer_wG _, by decide +kernel⟩,
    ⟨wG { gM with tx := [(0, { writes := [(0x4001, 9)] })] }, 32, _, 0, 0x4000, 4, _, rfl, rfl, by decide +kernel⟩⟩
  · simp at ho
    rcases ho with rfl | rfl <;> decide +kernel
  · unfold CleanAt
    decide +kernel
/-- `Placed` as a check. -/
def placedB (s : State) (n : Nat) (l : List Acc) : Bool :=
  l.all (fun a => match a.c with | .ok pa => decide (pa % 128 + n ≤ 128) && reachable s pa | _ => false)
theorem placed_of {s : State} {n : Nat} {l : List Acc} (h : placedB s n l = true) : ∀ a ∈ l, Placed s n a := by
  intro a ha
  have := List.all_eq_true.mp h a ha
  split at this
  · rename_i pa hp
    simp at this
    exact ⟨pa, hp, this.1, this.2⟩
  · simp at this
/-- An address below the context records of the package. -/
theorem plain_win {s : State} {a : Nat} {ws : AMap Nat} (e : s.parts = [(0, { ctxBase := 0x20000, ceil := 15, frzBase := 0x40000, windows := ws })]) (h : a < 0x20000) : PlainAt s a := by
  intro x hx
  have e : x = (0, { ctxBase := 0x20000, ceil := 15, frzBase := 0x40000, windows := ws }) := List.mem_singleton.mp (e ▸ hx)
  have k : ¬ (0x20000 ≤ a) := by omega
  rw [e]
  simp only [recMask, k, decide_false, Bool.and_false, Bool.false_and, Bool.false_eq_true, if_false, bne_self_eq_false]
theorem plain_parts {s : State} {a : Nat} (e : s.parts = [(0, { ctxBase := 0x20000, ceil := 15, frzBase := 0x40000 })]) (h : a < 0x20000) : PlainAt s a := plain_win (ws := []) e h
theorem plain_wG (g : Group) {a : Nat} (h : a < 0x20000) : PlainAt (wG g) a := plain_parts rfl h
/-- A plain store, and one with release and scope. -/
theorem witness_Stores : ∀ o ∈ [(0 : BitVec 4), 10], ∃ (s : State) (gid : Nat) (busy : BitVec 10) (g : Group) (p : P), Issuer s gid busy g ∧ p.rs = o ∧ accLanes g p.h ≠ [] ∧ g.reds = [] ∧ g.tx = [] ∧
    (getCore s g.core).log = [] ∧ (p.order = 0 ∨ p.order = 2) ∧
    (let r := accesses s g p (sizeB p.t) 1 effAddr0
     let act := r.2.filter (fun a => !isHelper g p.h a.lane)
     (∀ a ∈ r.2, Placed r.1 (sizeB p.t) a) ∧ sbufRoom r.1 g.core (act.map (·.va)) = true ∧ windowFull r.1 (gPart r.1 g) 0 (okPas act) = false ∧
     (p.order = 2 → releaseDone (releaseWrites r.1 gid g p.scope) gid g p.scope = true)) := by
  intro o ho
  refine ⟨wG gM, 32, 0, gM, { pSt with rs := o }, issuer_wG _, rfl, ?_⟩
  simp at ho
  rcases ho with rfl | rfl
  · exact ⟨by decide +kernel, rfl, rfl, by decide +kernel, .inl rfl, placed_of (by decide +kernel), by decide +kernel⟩
  · exact ⟨by decide +kernel, rfl, rfl, by decide +kernel, .inr rfl, placed_of (by decide +kernel), by decide +kernel⟩
/-- Lists of accesses that a page forbids, that are all granted, misaligned, not present; and loads that meet the last and the first. -/
theorem witness_AccessFaults :
    (∃ l : List Acc, (∃ a ∈ l, ∃ (k : _), Acc.c a = .forbid k)) ∧ (∃ l : List Acc, l ≠ [] ∧ ∀ a ∈ l, isOk a.c = true) ∧
    (∃ (l : List Acc) (a : Acc) (t : List Acc), (∀ a ∈ l, isOk (Acc.c a) = true ∨ Acc.c a = .mis) ∧ l.filter (fun a => Acc.c a == .mis) = a :: t) ∧
    (∃ (l : List Acc) (a : Acc) (t : List Acc) (lv : Nat) (w : Nat), (∀ a ∈ l, isOk (Acc.c a) = true ∨ isNp (Acc.c a) = true) ∧ l.filter (fun a => isNp (Acc.c a)) = a :: t ∧ a.c = .np lv w) ∧
    (∃ (l : List Acc) (a : Acc) (t : List Acc), (∀ a ∈ l, isOk (Acc.c a) = true ∨ isNp (Acc.c a) = true) ∧ l.filter (fun a => a.mis && isNp a.c) = a :: t) ∧
    (∃ (s : State) (gid : Nat) (busy : BitVec 10) (g : Group) (p : P) (m : _) (va : _) (lv : _) (w : _), Issuer s gid busy g ∧ accLanes g p.h ≠ [] ∧ slotsFull g = false ∧ g.reds = [] ∧ g.tx = [] ∧
      (∀ i ∈ accLanes g p.h, pageLogged s g (effAddr g p i) = false) ∧ (∀ a ∈ (accesses s g p (sizeB p.t) 0 effAddr).2, a.c ≠ .wait) ∧
      judge ((accesses s g p (sizeB p.t) 0 effAddr).2.filter (fun a => !isHelper g p.h a.lane)) false = .fault 0x10 m va lv w) ∧
    (∃ (s : State) (gid : Nat) (busy : BitVec 10) (g : Group) (p : P) (reason : _) (va : _), Issuer s gid busy g ∧ accLanes g p.h ≠ [] ∧ slotsFull g = false ∧ g.reds = [] ∧ g.tx = [] ∧
      (∀ i ∈ accLanes g p.h, pageLogged s g (effAddr g p i) = false) ∧
      judge ((accesses s g p (sizeB p.t) 0 effAddr).2.filter (fun a => !isHelper g p.h a.lane)) false = .freeze reason va) :=
  ⟨⟨[{ lane := 0, va := 4, c := .forbid 1 }], { lane := 0, va := 4, c := .forbid 1 }, by decide, 1, rfl⟩, ⟨[{ lane := 0, va := 4, c := .ok 4 }], by decide⟩,
   ⟨[{ lane := 0, va := 2, c := .mis }], { lane := 0, va := 2, c := .mis }, [], by decide⟩,
   ⟨[{ lane := 0, va := 4, c := .np 3 0 }], { lane := 0, va := 4, c := .np 3 0 }, [], 3, 0, by decide⟩,
   ⟨[{ lane := 0, va := 2, c := .np 3 0, mis := true }], { lane := 0, va := 2, c := .np 3 0, mis := true }, [], by decide⟩,
   ⟨wG (wrS gT 6 0x10_0000_0000), 32, 0, _, pLd, 2 ^ 32 - 1, 0x10_0000_0000, 3, 0, issuer_wG _, by decide +kernel⟩,
   ⟨wG (wrS gT 6 (2 ^ 48)), 32, 0, _, pLd, 2, 2 ^ 48, issuer_wG _, by decide +kernel⟩⟩
/-- An atomic step at the end of a sector, 4 and 8 bytes wide; atom and cas without and with release. -/
theorem witness_Atomics :
    (∀ n ∈ [4, 8], 128 - n + n ≤ 128 ∧ reachable (wG gM) (0x4080 - n) = true ∧ (∀ i, i < n → PlainAt (wG gM) (0x4080 - n + i)) ∧
      (execRead (wG gM) gM (atomScope (wG gM) 2 (0x4080 - n)) (0x4080 - n) n).2.2 = false) ∧
    (∀ o ∈ [(0 : BitVec 4), 10], ∃ (s : State) (gid : Nat) (busy : BitVec 10) (g : Group) (p : P), Issuer s gid busy g ∧ p.rs = o ∧ accLanes g p.h ≠ [] ∧ slotsFull g = false ∧ g.reds = [] ∧
      g.tx = [] ∧ (getCore s g.core).log = [] ∧ p.f < 9 ∧
      (let r := accesses s g p (atomB p.t) 3 effAddr0
       let act := r.2.filter (fun a => !isHelper g p.h a.lane)
       let pre := act.foldl (fun q a =>
         let x := execRead q.1 g (atomScope q.1 p.scope (Acc.pa a)) (Acc.pa a) (atomB p.t)
         (x.1, q.2 || x.2.2)) (r.1, false)
       (∀ a ∈ r.2, Placed r.1 (atomB p.t) a) ∧ windowShut r.1 (gPart r.1 g) 0 (okPas act) = false ∧ pre.2 = false ∧
       (p.order = 2 ∨ p.order = 3 → releaseDone (releaseWrites pre.1 gid g p.scope) gid g p.scope = true))) := by
  refine ⟨fun n hn => ⟨?_, ?_, fun i hi => plain_wG _ ?_, ?_⟩, fun o ho => ⟨wG gM, 32, 0, gM, { p0 with rs := o, ty := 6, d := .v false 0 9, a := .s 6, b := .op (.v 5) }, issuer_wG _, rfl, ?_⟩⟩
  iterate 2 (simp at hn; rcases hn with rfl | rfl <;> decide +kernel)
  · simp at hn; omega
  · simp at hn; rcases hn with rfl | rfl <;> decide +kernel
  simp at ho
  rcases ho with rfl | rfl
  · exact ⟨by decide +kernel, rfl, rfl, rfl, by decide +kernel, by decide, placed_of (by decide +kernel), by decide +kernel, by decide +kernel, by decide +kernel⟩
  · exact ⟨by decide +kernel, rfl, rfl, rfl, by decide +kernel, by decide, placed_of (by decide +kernel), by decide +kernel, by decide +kernel, by decide +kernel⟩
theorem witness_Reductions :
    (∀ o ∈ [(0 : BitVec 4), 10], ∃ (s : State) (gid : Nat) (busy : BitVec 10) (g : Group) (p : P), Issuer s gid busy g ∧ p.rs = o ∧ accLanes g p.h ≠ [] ∧ g.tx = [] ∧
      (getCore s g.core).log = [] ∧
      (let r := chkAll s g (atomB p.t) (fun _ => [1, 3]) ((accLanes g p.h).map (fun i => (i, effAddr0 g p i)))
       let act := r.2.filter (fun a => !isHelper g p.h a.lane)
       (∀ a ∈ r.2, Placed r.1 (atomB p.t) a) ∧ sbufRoom r.1 g.core (act.map (·.va)) = true ∧ windowFull r.1 (gPart r.1 g) 0 (okPas act) = false ∧
       (p.order = 0 ∨ (p.order = 2 ∧ g.reds = [] ∧ releaseDone (releaseWrites r.1 gid g p.scope) gid g p.scope = true)))) ∧
    (∃ (s : State) (gid : Nat) (g : Group) (d : _) (ds : _), mfind s.groups gid = some g ∧ g.reds = d :: ds ∧ g.st ≠ .exiting ∧ reachable s d.pa = true ∧
      (atomStep (updG s gid (fun g => { g with reds := ds })) gid { g with reds := ds } d.scope d.pa 4 (fun old => atomNew d.f d.t old d.b) d.t d.b false).2.2 = false) :=
  ⟨fun o ho => ⟨wG gM, 32, 0, gM, { pSt with rs := o }, issuer_wG _, rfl, by
      simp at ho
      rcases ho with rfl | rfl
      · exact ⟨by decide +kernel, rfl, by decide +kernel, placed_of (by decide +kernel), by decide +kernel⟩
      · exact ⟨by decide +kernel, rfl, by decide +kernel, placed_of (by decide +kernel), by decide +kernel⟩⟩,
   ⟨wG { gM with reds := [{ f := 0, t := 6, va := 0x4000, pa := 0x4000, b := 3, scope := 2 }] }, 32, _, _, _, rfl, rfl, by decide, by decide +kernel,
     by decide +kernel⟩⟩
/-- Scratchpad offsets up to the last word of the block, without and with an order; a load that meets poison. -/
theorem witness_ScratchpadAccess :
    (∀ o ∈ [(0 : BitVec 4), 4, 8], ∃ (s : State) (gid : Nat) (busy : BitVec 10) (g : Group) (p : P) (b : _), Issuer s gid busy g ∧ p.rs = o ∧ gBlock s g = some b ∧ accLanes g p.h ≠ [] ∧
      g.bcs = [] ∧ b.resize = none ∧ slotsFull g = false ∧ g.reds = [] ∧ releaseDone s gid g 0 = true ∧ NoBcWait s g.block ∧
      (let l := chkSpAll g p b (sizeB p.t) (accLanes g p.h)
       (∀ a ∈ l, isOk a.c = true) ∧ spBad g p.h b (sizeB p.t) l = [] ∧
       sbufRoom s g.core ((l.filter (fun a => !isHelper g p.h a.lane)).map (·.va)) = true) ∧
      (let l := chkSpAll g p b (atomB p.t) (accLanes g p.h)
       (∀ a ∈ l, isOk a.c = true) ∧ spBad g p.h b (atomB p.t) l = [])) ∧
    (∃ (s : State) (gid : Nat) (busy : BitVec 10) (g : Group) (p : P) (b : _), Issuer s gid busy g ∧ gBlock s g = some b ∧ accLanes g p.h ≠ [] ∧
      g.bcs = [] ∧ b.resize = none ∧ slotsFull g = false ∧ (∀ a ∈ chkSpAll g p b (sizeB p.t) (accLanes g p.h), isOk a.c = true) ∧
      spBad g p.h b (sizeB p.t) (chkSpAll g p b (sizeB p.t) (accLanes g p.h)) ≠ []) := by
  refine ⟨fun o ho => ⟨wG (wrS gT 6 131068), 32, 0, _, { pSt with rs := o }, bT, issuer_wG _, rfl, rfl, ?_, rfl, rfl, rfl, rfl, ?_, ?_, ?_⟩,
    ⟨{ wG (wrS gT 6 131068) with blocks := [(1, { bT with poison := [(4095, true)] })] }, 32, 0, _, pSt, { bT with poison := [(4095, true)] }, ⟨rfl, rfl⟩, rfl, ?_⟩⟩
  · simp at ho; rcases ho with rfl | rfl | rfl <;> decide +kernel
  · simp at ho; rcases ho with rfl | rfl | rfl <;> decide +kernel
  · intro x hx _ o ph
    have e : x = (32, wrS gT 6 131068) := List.mem_singleton.mp hx
    rw [e]
    exact nofun
  · simp at ho; rcases ho with rfl | rfl | rfl <;> decide +kernel
  · decide +kernel
/-- A transaction that no lane can commit, one that a lane can, and a ticket at its die. -/
theorem witness_Transactions :
    (∃ (s : State) (gid : Nat) (busy : BitVec 10) (g : Group) (p : P), Issuer s gid busy g ∧ g.reds = [] ∧ valN g p.a ≤ 255 ∧ guardLanes g p.h ≠ 0 ∧ ∀ x ∈ txEnding g p, x.2.code ≠ 0) ∧
    (∃ (s : State) (gid : Nat) (busy : BitVec 10) (g : Group) (p : P), Issuer s gid busy g ∧ g.reds = [] ∧ ∃ x ∈ txEnding g p, x.2.code = 0) ∧
    (∃ (s : State) (die : _) (gid : Nat) (c : _) (g : Group), nextCommit s die = some (gid, c) ∧ mfind s.groups gid = some g ∧ g.st ≠ .exiting ∧
      releaseDone (releaseWrites s gid g 1) gid g 1 = true ∧ ∃ x ∈ c.lanes, x.2.code = 0 ∧ ∃ y ∈ x.2.writes, PlainAt s y.1) :=
  ⟨⟨wG gT, 32, 0, gT, { p0 with a := .imm 255 }, issuer_wG _, by decide +kernel⟩,
   ⟨wG { gT with tx := [(3, {})] }, 32, 0, _, { p0 with d := .v false 0 4 }, issuer_wG _, rfl, (3, {}), by decide +kernel, rfl⟩,
   ⟨wG { gT with commits := [{ ticket := 2, reg := some 4, lanes := [(3, { writes := [(0x4000, 7)] })] }] }, 0, 32, _, _, rfl, rfl, by decide, by decide +kernel,
     (3, { writes := [(0x4000, 7)] }), by decide, rfl, (0x4000, 7), by decide, plain_wG _ (by decide)⟩⟩
/-- What a monitor's look at its word finds: the word, no match, or neither. -/
def mwB (r : MwR) : Option (Option Nat) := match r with | .met m => some (some m) | .unmet => some none | _ => none
/-- A word that meets the comparison, one that does not, and a waiting group. -/
theorem witness_MonitorWaits :
    (∀ f ∈ [(0 : BitVec 4), 1], ∃ (s : State) (gid : Nat) (busy : BitVec 10) (g : Group) (p : P), Issuer s gid busy g ∧ p.fn = f ∧ actsOnce g p.h = true ∧ slotsFull g = false ∧ g.reds = [] ∧
      mwB (mwTry (updG s gid (fun _ => { hintG (doomAll g 7) s.cycle p.h with burst := 0 })) g (effAddr0 g p 0) p.f p.t
          (match p.b.opnd with | .imm i => wrap (tyW p.t) i.toInt | x => srcPat s g [] 0 p.t x 0)).2 = some (if f = 0 then some 0 else none)) ∧
    (∃ (s : State) (gid : Nat) (g : Group), mfind s.groups gid = some g ∧ g.st = .waiting (.mw 0x4000 0 6 0 7 1 2) ∧
      mwB (mwTry s g 0x4000 0 6 0).2 = some (some 0)) ∧
    (∃ (s : State) (gid : Nat) (g : Group), mfind s.groups gid = some g ∧ g.st = .waiting (.mw 0x4000 1 6 0 64 0 2) ∧
      mwB (mwTry s g 0x4000 1 6 0).2 = some none) ∧
    (∃ (s : State) (g : Group) (pa : _), chkVa s g 0x4000 4 [0] = (s, .ok pa) ∧ (execRead s g 2 pa 4).2.2 = false) := by
  refine ⟨fun f hf => ⟨wG gM, 32, 0, gM, { p0 with fn := f, ty := 6, d := .s false 0 7, a := .s 6, b := .op (.imm 0) }, issuer_wG _, rfl, ?_⟩,
    ⟨wG { gM with st := .waiting (.mw 0x4000 0 6 0 7 1 2) }, 32, _, rfl, rfl, by decide +kernel⟩,
    ⟨wG { gM with st := .waiting (.mw 0x4000 1 6 0 64 0 2) }, 32, _, rfl, rfl, by decide +kernel⟩,
    ⟨{ wG gM with cores := [(0, { tlb := [{ ctx := 0, va := 0, len := 2 ^ 35, pa := 0, perm := 15, level := 3 }] })] }, gM, 0x4000, rfl, by decide +kernel⟩⟩
  simp at hf
  rcases hf with rfl | rfl <;> decide +kernel
theorem acts : actsOnce gT hv = true := by decide
theorem acts2 : actsOnce (wrS gT 2 0x5000) hv = true := by decide
/-- Fences of every function; a releasing one finds nothing that it must wait for. -/
theorem witness_Fences : ∀ f ∈ [(0 : BitVec 4), 1, 2, 3], ∃ (s : State) (gid : Nat) (busy : BitVec 10) (g : Group) (p : P), Issuer s gid busy g ∧ p.fn = f ∧ g.reds = [] ∧ actsOnce g p.h = true ∧
    p.scope ≠ 0 ∧ (p.f ≠ 1 → releaseDone (releaseWrites s gid g p.scope) gid g p.scope = true) := by
  intro f hf
  refine ⟨wG gT, 32, 0, gT, { p0 with fn := f, rs := 2 }, issuer_wG _, rfl, rfl, ?_⟩
  simp at hf
  rcases hf with rfl | rfl | rfl | rfl <;> decide +kernel
/-- An icinv of its longest immediate; a resize to 15 ways (too many), to 14 (more than the pair has left beside a minimum), to 1; one while
another is in progress; one in progress that may end, and one that a waiting reduction of its block holds up. -/
theorem witness_PageInstructions :
    (∃ (s : State) (gid : Nat) (busy : BitVec 10) (g : Group) (p : P), Issuer s gid busy g ∧ actsOnce g p.h = true ∧ valN g p.b.opnd = 2047) ∧
    (∀ n ∈ [(1 : BitVec 12), 14, 15], ∀ r ∈ [none, some (2, 7)], ∃ (s : State) (gid : Nat) (busy : BitVec 10) (g : Group) (p : P) (b : Block), Issuer s gid busy g ∧
      actsOnce g p.h = true ∧ gBlock s g = some b ∧ b.resize = r ∧ valN g p.a = n.toNat ∧
      (16 < otherWays s (gPair g) g.block + n.toNat + minWays s (gPair g) 0 ↔ n ≠ 1)) ∧
    (∀ q : Bool, ∃ (s : State) (b : Nat) (k : Block), mfind s.blocks b = some k ∧ k.resize = some (2, 7) ∧ spadQuiet s b 7 = q ∧
      ∀ x ∈ taggedWays s k.pair, saveWaits s (blockCtx s x.2) = false) := by
  refine ⟨⟨wG gT, 32, 0, gT, { p0 with b := .op (.imm 2047) }, issuer_wG _, by decide +kernel⟩,
    fun n hn r hr => ⟨{ wG gT with blocks := [(1, { bT with resize := r }), (2, { bT with num := 1 })] }, 32, 0, gT, { p0 with a := .imm n }, { bT with resize := r }, ⟨rfl, rfl⟩, acts, rfl, rfl, ?_⟩,
    fun q => match q with
      | true => ⟨{ wG gT with blocks := [(1, { bT with resize := some (2, 7) })] }, 1, { bT with resize := some (2, 7) }, rfl, rfl, by decide +kernel⟩
      | false => ⟨{ wG { gT with bcs := [{ f := 2, off := 0, n := 1, stamp := 3 }] } with blocks := [(1, { bT with resize := some (2, 7) })] }, 1,
          { bT with resize := some (2, 7) }, rfl, rfl, by decide +kernel⟩⟩
  simp at hn hr
  rcases hn with rfl | rfl | rfl <;> rcases hr with rfl | rfl <;> decide +kernel
/-- Barrier 15 with the block's one group; an arrival that completes a phase and one that does not; one behind an earlier add. -/
theorem witness_Barriers :
    (∃ (s : State) (gid : Nat) (busy : BitVec 10) (g : Group) (p : P), Issuer s gid busy g ∧ actsOnce g p.h = true ∧ barOk s g (valN g p.a) (valN g p.b.opnd) = true ∧ valN g p.a = 15 ∧ g.reds = [] ∧
      g.bcs = []) ∧
    (∃ (s : State) (gid : Nat) (g : Group) (a : Arr) (rest : _), mfind s.groups gid = some g ∧ g.arrivals = a :: rest ∧ ∃ o ∈ g.bcs, o.stamp < a.stamp) ∧
    (∀ c ∈ [1, 2], ∃ (s : State) (gid : Nat) (g : Group) (b : Block) (id : _) (w : _) (n : _) (rest : _), mfind s.groups gid = some g ∧
      g.arrivals = { id := id, count := c, sync := w, stamp := n } :: rest ∧ mfind s.blocks g.block = some b ∧ g.st ≠ .exiting ∧
      loggedBefore s gid g.core n = false ∧ (∀ o ∈ g.bcs, n ≤ o.stamp) ∧
      (barMet (liveGroups (updG s gid (fun g => { g with arrivals := rest })) g.block) { want := c, n := 1 } = true ↔ c = 1)) := by
  refine ⟨⟨wG gT, 32, 0, gT, { p0 with a := .imm 15, b := .op (.imm 1) }, issuer_wG _, by decide +kernel⟩,
    ⟨wG { gT with arrivals := [{ id := 3, count := 1, sync := true, stamp := 5 }], bcs := [{ f := 2, off := 0, n := 1, stamp := 4 }] }, 32, _, _, _, rfl, rfl,
      { f := 2, off := 0, n := 1, stamp := 4 }, by decide, by decide⟩,
    fun c hc => ⟨wG { gT with arrivals := [{ id := 3, count := c, sync := true, stamp := 5 }], bcs := [{ f := 2, off := 0, n := 1, stamp := 6 }] }, 32, _, bT, 3, true, 5, [],
      rfl, rfl, rfl, nofun, ?_⟩⟩
  simp at hc
  rcases hc with rfl | rfl <;> decide +kernel
/-- A record in the last 16 bytes of the block; a change that completes phases (arrived at expected) and one that does not; one behind a
logged store of its group. -/
theorem witness_ByteCounts :
    (∃ (s : State) (gid : Nat) (busy : BitVec 10) (g : Group) (p : P) (b : Block) (off : Nat), Issuer s gid busy g ∧ actsOnce g p.h = true ∧ g.reds = [] ∧ gBlock s g = some b ∧
      b.resize = none ∧ valN g p.b.opnd < 2 ^ 32 ∧ chkSp b (spOffset g p 0).1 16 (spOffset g p 0).2 = .ok off ∧ off + 16 = b.size) ∧
    (∀ f ∈ [0, 1, 2], ∃ (s : State) (gid : Nat) (g : Group) (b : Block) (o : _) (n : _) (q : _) (rest : _), mfind s.groups gid = some g ∧
      g.bcs = { f := f, off := o, n := n, stamp := q } :: rest ∧ n < 2 ^ 32 ∧ mfind s.blocks g.block = some b ∧ g.st ≠ .exiting ∧ loggedBefore s gid g.core q = false) ∧
    (∃ (s : State) (gid : Nat) (g : Group) (b : Block) (o : _) (n : _) (q : _) (rest : _), mfind s.groups gid = some g ∧
      g.bcs = { f := 2, off := o, n := n, stamp := q } :: rest ∧ n < 2 ^ 32 ∧ mfind s.blocks g.block = some b ∧ g.st ≠ .exiting ∧ loggedBefore s gid g.core q = true) :=
  ⟨⟨wG (wrS gT 6 131056), 32, 0, _, { p0 with a := .s 6, b := .op (.imm 2047) }, bT, 131056, issuer_wG _, by decide +kernel⟩,
   fun f _ => ⟨wG { gT with bcs := [{ f := f, off := 0, n := 2 ^ 32 - 1, stamp := 5 }] }, 32, _, bT, 0, 2 ^ 32 - 1, 5, [], rfl, rfl, by decide, rfl, nofun, rfl⟩,
   ⟨{ wG { gT with bcs := [{ f := 2, off := 0, n := 1, stamp := 5 }] } with cores := [(0, { log := [{ id := 4, gid := 32, ctx := 0, va := 0, bytes := [(0, 1)], reds := [] }] })] },
     32, _, bT, 0, 1, 5, [], rfl, rfl, by decide, rfl, nofun, by decide +kernel⟩⟩
theorem witness_WaitsAndBatches :
    (∀ n ∈ [(0 : BitVec 12), 1], ∃ (s : State) (gid : Nat) (busy : BitVec 10) (g : Group) (p : P) (b : Block) (off : Nat), Issuer s gid busy g ∧ actsOnce g p.h = true ∧ gBlock s g = some b ∧ g.bcs = [] ∧
      b.resize = none ∧ valN g p.b.opnd < 2 ^ 16 ∧ chkSp b (spOffset g p 0).1 16 (spOffset g p 0).2 = .ok off ∧ ((bcRead b off).phase = valN g p.b.opnd ↔ n = 0)) ∧
    (∃ (s : State) (gid : Nat) (busy : BitVec 10) (g : Group) (p : P), Issuer s gid busy g ∧ actsOnce g p.h = true ∧ openBatches s gid g < 32767 ∧ valN g p.a = 0 ∧ p.f = 0) := by
  refine ⟨fun n hn => ⟨wG gT, 32, 0, gT, { p0 with a := .s 6, b := .op (.imm n) }, bT, 0, issuer_wG _, acts, rfl, rfl, rfl, ?_⟩,
    ⟨wG gT, 32, 0, gT, { p0 with a := .imm 0 }, issuer_wG _, by decide +kernel⟩⟩
  simp at hn
  rcases hn with rfl | rfl <;> decide +kernel
/-- The world with its kernel guided and three units left. -/
def wGuided : State := { wG gT with kernels := [(1, { kT with record := kT.record + mkRec [(168, 168, 1), (223, 192, 3), (255, 224, 1), (287, 256, 1), (319, 288, 1)] })] }
theorem witness_SpecialRegisters :
    Forms false (fun p => [plainSrc p.a]) ∧
    (∀ n ∈ [(0 : BitVec 8), 0x05, 0x17], ∃ (s : State) (gid : Nat) (busy : BitVec 10) (g : Group) (p : P) (pipe : _), Issuer s gid busy g ∧ p.a = .sr n ∧ actsOnce g p.h = true ∧ srOk n.toNat = true ∧
      (srPriv n.toNat = true → holdsRight s (gCtx s g) 1 = true) ∧ p.h.uni = false ∧
      pickPipe (srTouch s gid g n.toNat) gid busy g false [] = .pipe pipe) ∧
    (∀ guided : Bool, ∃ (s : State) (gid : Nat) (busy : BitVec 10) (g : Group) (p : P) (kern : Kernel), Issuer s gid busy g ∧ srNo g p.a = 9 ∧ actsOnce g p.h = true ∧ isVDst p.d = false ∧ gKernel s g = some kern ∧
      krGuided kern.record = guided) ∧
    (∃ (s : State) (gid : Nat) (busy : BitVec 10) (g : Group) (p : P), Issuer s gid busy g ∧ actsOnce g p.h = true ∧ holdsRight s (gCtx s g) 1 = true ∧ (getPart s (gPart s g)).frzPend = []) := by
  refine ⟨⟨⟨wG gT, 32, 0, gT, { pAdd with h := hu }, issuer_wG gT, rfl, by decide⟩, ⟨wG gT, 32, 0, gT, pAdd, 0, issuer_wG gT, rfl, by decide +kernel⟩⟩,
    fun n hn => ⟨wG gT, 32, 0, gT, { p0 with d := .v false 0 4, ty := 6, a := .sr n }, 0, issuer_wG gT, rfl, ?_⟩,
    fun u => match u with
      | false => ⟨wG gT, 32, 0, gT, { p0 with d := .s false 0 4, a := .sr 9 }, kT, issuer_wG gT, by decide +kernel⟩
      | true => ⟨wGuided, 32, 0, gT, { p0 with d := .s false 0 4, a := .sr 9 }, _, ⟨rfl, rfl⟩, by decide, by decide, rfl, rfl, by decide +kernel⟩,
    ⟨wG gT, 32, 0, gT, p0, issuer_wG gT, by decide +kernel⟩⟩
  simp at hn
  rcases hn with rfl | rfl | rfl <;> decide +kernel
/-- Pre-emption not asked and asked; a live and a left group named; the token held, free and another's; sampling off, on with room, on
with a full ring; counters 0 and 63. -/
theorem witness_TrapsTokensCounters :
    (∃ (s : State) (gid : Nat) (busy : BitVec 10) (g : Group) (p : P), Issuer s gid busy g ∧ actsOnce g p.h = true ∧ (getCtx s (gCtx s g)).preq = false ∧ valN g p.a = 63 ∧ holdsRight s (gCtx s g) 2 = true) ∧
    (∃ (s : State) (gid : Nat) (busy : BitVec 10) (g : Group) (p : P), Issuer s gid busy g ∧ actsOnce g p.h = true ∧ (getCtx s (gCtx s g)).preq = true) ∧
    (∀ t ∈ [none, some 0, some 5], ∃ (s : State) (gid : Nat) (busy : BitVec 10) (g : Group) (p : P) (b : Block), Issuer s gid busy g ∧ actsOnce g p.h = true ∧ gBlock s g = some b ∧ b.token = t ∧ valN g p.a < b.ngroups ∧
      ∃ (h : Group), mfind s.groups (32 * g.block + valN g p.a) = some h ∧ h.st ≠ .exited ∧ h.st ≠ .exiting) ∧
    (∃ (s : State) (gid : Nat) (busy : BitVec 10) (g : Group) (p : P), Issuer s gid busy g ∧ actsOnce g p.h = true ∧ (getPart s (gPart s g)).smpEn = false) ∧
    (∀ c ∈ [0, 256], ∃ (s : State) (gid : Nat) (busy : BitVec 10) (g : Group) (p : P), Issuer s gid busy g ∧ actsOnce g p.h = true ∧ (getPart s (gPart s g)).smpEn = true ∧
      (((getPart s (gPart s g)).smpProd + 2 ^ 32 - (getPart s (gPart s g)).smpCons) % 2 ^ 32 = 2 ^ smpLogEff (getPart s (gPart s g)).smpLog ↔ c = 256)) := by
  refine ⟨⟨wG gT, 32, 0, gT, { p0 with a := .imm 63 }, issuer_wG gT, by decide +kernel⟩,
    ⟨{ wG gT with ctxs := [(0, { st := .draining, preq := true })] }, 32, 0, gT, p0, ⟨rfl, rfl⟩, by decide +kernel⟩,
    fun t ht => ⟨{ wG gT with blocks := [(1, { bT with token := t })] }, 32, 0, gT, { p0 with a := .imm 0 }, { bT with token := t }, ⟨rfl, rfl⟩, acts, rfl,
      rfl, Nat.zero_lt_one, gT, rfl, nofun, nofun⟩,
    ⟨wG gT, 32, 0, gT, p0, issuer_wG gT, by decide +kernel⟩,
    fun c hc => ⟨{ wG gT with parts := [(0, { ctxBase := 0x20000, smpEn := true, smpProd := c })] }, 32, 0, gT, p0, ⟨rfl, rfl⟩, ?_⟩⟩
  simp at hc
  rcases hc with rfl | rfl <;> decide +kernel

/-- A launch record at 0x5000 with a grid of z blocks of one group. -/
def wRec (z : Nat) : State := memWrite (wG (wrS gT 2 0x5000)) 0x5000 40
  (mkRec [(148, 144, 16), (156, 152, 2), (165, 160, 1), (223, 192, 1), (255, 224, 1), (287, 256, z), (319, 288, 1)])
/-- A record that passes its checks with a block and without, one that does not (the zero record), and a group that launches it. -/
theorem witness_Launches :
    (∀ z ∈ [0, 1], ∃ (pa : _) (rec : _), firmRead (wRec z) 0 0x5000 512 = (.ok pa, rec) ∧ recordBad rec false = 0 ∧ krDone rec = 0 ∧ krGuided rec = false ∧ krTileN rec = z ∧
      ((ctxKernels (wRec z) 0).filter (fun k => k.2.queue == none && k.2.st == .pending)).length < 64) ∧
    (∃ (pa : _) (rec : _), firmRead wT 0 0x5000 512 = (.ok pa, rec) ∧ recordBad rec false = 2) ∧
    (∃ (s : State) (gid : Nat) (busy : BitVec 10) (g : Group) (p : P), Issuer s gid busy g ∧ actsOnce g p.h = true ∧ holdsRight s (gCtx s g) 3 = true ∧ releaseDone (releaseWrites s gid g 2) gid g 2 = true ∧
      (∀ n, p.b.opnd ≠ .s n) ∧ (offer (releaseWrites s gid g 2) (gCtx s g) (rdSn g (sNum p.a)) none none).2 = .ok ∧
      (mfind (offer (releaseWrites s gid g 2) (gCtx s g) (rdSn g (sNum p.a)) none none).1.groups gid).isSome = true) ∧
    (∃ (s : State) (gid : Nat) (busy : BitVec 10) (g : Group) (p : P) (n : _) (x : _) (pa : _), Issuer s gid busy g ∧ p.b.opnd = .s n ∧ rdSn g (sNum p.a) % 64 = 0 ∧ rdSn g n.toNat % 16 = 0 ∧
      gridRead (releaseWrites s gid g 2) (gCtx s g) (rdSn g n.toNat) = (.ok pa, x)) := by
  refine ⟨fun z hz => ⟨(0x5000 + 448), (firmRead (wRec z) 0 0x5000 512).2, ?_⟩, ⟨0x5000 + 448, 0, by decide +kernel⟩,
    ⟨wRec 1, 32, 0, wrS gT 2 0x5000, { p0 with a := .s 2 }, ⟨by decide +kernel, by decide +kernel⟩, acts2, by decide +kernel, by decide +kernel,
      (fun n h => nomatch h), by decide +kernel, by decide +kernel⟩,
    ⟨wRec 1, 32, 0, wrS gT 2 0x5000, { p0 with a := .s 2, b := .op (.s 2) }, 2, (0, 0, 0), 0x5000, ⟨by decide +kernel, by decide +kernel⟩, rfl, by decide +kernel⟩⟩
  simp at hz
  rcases hz with rfl | rfl <;> decide +kernel
/-- Nothing under a number; a frozen group, hart and requester; a faulted group of each kind of fault. -/
def gF (c : Nat) : Group := { gT with num := 1, slot := 1, st := .faulted, flt := some { code := c, seq := 0, op := 0 } }
def wRel (frz : AMap (Agent × Option Nat)) (h : Group) (st : CSt) : State :=
  { wG gT with groups := [(32, gT), (33, h)], frozen := frz, ctxs := [(0, { st := st, faulted := 1, frozen := 1 })] }
theorem witness_Releases :
    (∀ frz ∈ [[], [(0, (Agent.group 33, some 0))], [(0, (Agent.op 7, some 0))], [(0, (Agent.hart 1, none))], [(0, (Agent.requester 5, none))]],
      ∀ st ∈ [CSt.running, CSt.saved], ∃ (s : State) (gid : Nat) (busy : BitVec 10) (g : Group) (p : P), Issuer s gid busy g ∧ actsOnce g p.h = true ∧ holdsRight s (gCtx s g) 1 = true ∧ hasLeft g = false ∧
        gPart s g < 8 ∧ valN g p.a / 2 ^ 40 = gPart s g ∧ valN g p.a / 2 ^ 38 % 4 = 0 ∧ frozenAgent s (gPart s g) (valN g p.a % 2 ^ 32) = mfind frz 0 ∧
        (getCtx s 0).st = st) ∧
    (∀ c ∈ [0x06, 0x10, 0x21, 0x02], ∃ (s : State) (j : _) (h : Group) (f : FltI), faultedGroup s 0 0 = some (j, h) ∧ h.flt = some f ∧ f.code = c ∧ (getCtx s 0).st ≠ .saved ∧ mfind s.groups j = some h ∧
      j ≠ 32 ∧ f.op = 0 ∧ (resumable f.code = true ↔ c ≠ 0x02)) := by
  refine ⟨fun frz hf st hs => ⟨wRel frz (gF 6) st, 32, 0, gT, { p0 with d := .s false 0 4, a := .s 5 }, ⟨rfl, rfl⟩, ?_⟩,
    fun c hc => ⟨wRel [] (gF c) .running, 33, gF c, { code := c, seq := 0, op := 0 }, ?_⟩⟩
  · simp at hf hs
    rcases hf with rfl | rfl | rfl | rfl | rfl <;> rcases hs with rfl | rfl <;> decide +kernel
  · simp at hc
    rcases hc with rfl | rfl | rfl | rfl <;> decide +kernel
theorem witness_GuardOff : ∃ (s : State) (gid : Nat) (busy : BitVec 10) (g : Group) (p : P), Issuer s gid busy g ∧ actsOnce g p.h = false ∧ elects g p.h = false ∧ guardLanes g p.h = 0 :=
  ⟨wG gT, 32, 0, gT, { p0 with h := { hv with neg := true } }, issuer_wG gT, by decide +kernel⟩
/-- What records read at issue give, and whether nothing stands in their way. -/
def rdRecs (s : State) (gid : Nat) (g : Group) (at_ : List Nat) (n : Nat) : State × List Nat × List Nat :=
  let s := flushReds s gid g
  let r := framesOf s g.core (gCtx s g) (gExts s g) 0 (at_.flatMap (fun va => (List.range n).map (va + ·)))
  at_.foldl (fun (q : State × List Nat × List Nat) va =>
    let y := (List.range (ceilDiv n 32)).foldl (fun (q : State × List Byte × List Nat) i =>
      let a := va + 32 * i
      let d := l1Read (countMiss q.1 g (inFrames r.2.1 a) (min 32 (n - 32 * i))) (gPair g) (inFrames r.2.1 a) (min 32 (n - 32 * i)) 0
      (d.1, q.2.1 ++ d.2.1, if d.2.2 then q.2.2 ++ [a] else q.2.2)) (q.1, [], q.2.2)
    (y.1, q.2.1 ++ [ofBytes y.2.1], y.2.2)) (r.1, [], [])
def rdFree (s : State) (gid : Nat) (g : Group) (at_ : List Nat) (n al : Nat) : Bool :=
  let vas := at_.flatMap (fun va => (List.range n).map (va + ·))
  let r := framesOf (flushReds s gid g) g.core (gCtx (flushReds s gid g) g) (gExts (flushReds s gid g) g) 0 vas
  r.2.2.isNone && (at_.find? (· % al != 0)).isNone && !vas.any (fun a => pageLogged r.1 g a) && !windowShut r.1 (gPart r.1 g) 0 (vas.map (inFrames r.2.1)) && (rdRecs s gid g at_ n).2.2.isEmpty
theorem readsAll {s : State} {gid : Nat} {g : Group} {at_ : List Nat} {n al : Nat} (rs : List Nat)
    (h : rdFree s gid g at_ n al = true ∧ (rdRecs s gid g at_ n).2.1 = rs) : ReadsRecs s gid g at_ n al (rdRecs s gid g at_ n).1 rs := by
  obtain ⟨h, rfl⟩ := h
  intro go
  simp only [rdFree, Bool.and_eq_true, Bool.not_eq_true', Option.isNone_iff_eq_none, List.isEmpty_iff] at h
  obtain ⟨⟨⟨⟨h1, h2⟩, h3⟩, h5⟩, h4⟩ := h
  unfold groupReads
  simp only [h1, h2, h3, h5, Bool.or_self]
  simp only [rdRecs] at h4 ⊢
  simp [h4]
theorem reads {s : State} {gid : Nat} {g : Group} {va n al : Nat} (r : Nat) (h : rdFree s gid g [va] n al = true ∧ (rdRecs s gid g [va] n).2.1 = [r]) :
    ReadsRec s gid g va n al (rdRecs s gid g [va] n).1 r := fun go => readsAll [r] h (fun s l => go s (l.getD 0 0))
/-- The group with the addresses of two records and window registers from s8 on: no origins, a size. -/
def gX (z : Nat) : Group := wrS (wrS (wrS gT 2 0x5000) 3 0x5060) 16 (BitVec.ofNat 64 z)
/-- A record over bytes: 16 of them from 0x6000, and from 0 of the block's scratchpad. -/
def lrMem : Nat := mkRec [(63, 0, 0x6000), (71, 64, 0x21), (75, 72, 1), (195, 172, 16), (443, 412, 1)]
def lrSpad : Nat := mkRec [(71, 64, 0x21), (75, 72, 1), (159, 159, 1), (195, 172, 16), (443, 412, 1)]
/-- A state with n bytes of memory below all that it lists. -/
def below (s : State) (a n x : Nat) : State :=
  { s with mem := (List.range n).filterMap (fun i => let b := x / 2 ^ (8 * i) % 256; if b = 0 then none else some (a + i, BitVec.ofNat 8 b)) ++ s.mem }
def wX (g : Group) (ra rb : Nat) : State := below (wG g) 0x5000 192 (ra + 2 ^ 768 * rb)
def pX : P := { p0 with d := .s false 0 8, a := .s 2, b := .op (.s 3) }
/-- A copy of 4 bytes from memory to scratchpad: windows and records in order, every page mapped; a fill of as many. -/
theorem witness_TransferIssue :
    (∃ (s : State) (gid : Nat) (busy : BitVec 10) (g : Group) (p : P) (b : Block) (m : State) (ra rb : Nat) (s1 : State), Issuer s gid busy g ∧
      XOpen s g p b ∧ ReadsRecs s gid g [recVa g p.a, recVa g p.b.opnd] 96 32 m [ra, rb] ∧
      (let w := dNum p.d
       let os := winVal g w 0
       let od := winVal g w 1
       let zv := winVal g w 2
       let n := lrRank ra
       let z := winSize zv n
       let xa := if lrCat ra then [] else spots ra os z
       let xb := if lrCat rb then [] else spots rb od z
       (lrOk ra = true ∧ lrOk rb = true ∧ n ≠ 0 ∧ lrRank rb = n ∧ pairOk ra rb = true ∧ winOk os n = true ∧ winOk od n = true ∧ winOk zv n = true ∧
        catBad m g ra = false ∧ catBad m g rb = false ∧ winWhole ra os z = true ∧ winWhole rb od z = true ∧
        (if lrKeep rb then (match lrTensor (gRecord m g) ra with | some t => keepFoot m (gPart m g) t (winFolios ra os z) | none => 0)
         else if lrEnc rb then encFoot m (opOf m gid g p true (EK.copy 0 [ra, rb] [os, od, zv] (cntOff p))) b ra rb os od zv
         else (spotBytes rb xb).length) ≤ 65536) ∧
       XClear m g p b ((spotMis ra xa).orElse (fun _ => spotMis rb xb)) [ra, rb] (sideVas ⟨ra, xa, false⟩) (sideVas ⟨rb, xb, true⟩)
        ((spotOut b.size ra xa).orElse (fun _ => spotOut b.size rb xb)) ((catUnbound m g ra).orElse (fun _ => catUnbound m g rb)) s1)) ∧
    (∃ (s : State) (gid : Nat) (busy : BitVec 10) (g : Group) (p : P) (b : Block) (m : State) (r : Nat) (s1 : State), Issuer s gid busy g ∧ XOpen s g p b ∧
      ReadsRec s gid g (recVa g p.a) 96 32 m r ∧
      (let w := dNum p.d
       let xd := spots r (winVal g w 1) (winSize (winVal g w 2) (lrRank r))
       (lrOk r = true ∧ lrRank r ≠ 0 ∧ lrCat r = false ∧ winVal g w 0 = 0 ∧ winOk (winVal g w 1) (lrRank r) = true ∧ winOk (winVal g w 2) (lrRank r) = true) ∧
       XClear m g p b (spotMis r xd) [r] [] (sideVas ⟨r, xd, true⟩) (spotOut b.size r xd) none s1)) :=
  ⟨⟨wX (gX 4) lrMem lrSpad, 32, 0, gX 4, pX, bT, _, lrMem, lrSpad, _, ⟨by decide +kernel, by decide +kernel⟩, ⟨⟨by decide +kernel, rfl, rfl, rfl⟩, by decide +kernel⟩,
      readsAll [lrMem, lrSpad] (by decide +kernel), by decide +kernel, by decide +kernel, by decide +kernel, by decide +kernel, (fun c h => nomatch h),
      by decide +kernel, by decide +kernel, by decide +kernel, rfl⟩,
   ⟨wX (gX 4) lrMem lrSpad, 32, 0, gX 4, pX, bT, _, lrMem, _, ⟨by decide +kernel, by decide +kernel⟩, ⟨⟨by decide +kernel, rfl, rfl, rfl⟩, by decide +kernel⟩,
      reads lrMem (by decide +kernel), by decide +kernel, by decide +kernel, by decide +kernel, by decide +kernel, (fun c h => nomatch h),
      by decide +kernel, by decide +kernel, by decide +kernel, rfl⟩⟩
/-- A quantisation of one F32 element into one of the first orientation with its scale, the second left out. -/
def qRecs : List Nat :=
  [mkRec [(63, 0, 0x6000), (71, 64, 0x20), (75, 72, 2), (83, 80, 1), (195, 172, 1), (219, 196, 1), (443, 412, 1)],
   mkRec [(63, 0, 0x7000), (71, 64, 0x0C), (75, 72, 2), (83, 80, 1), (195, 172, 1), (219, 196, 1), (443, 412, 1)],
   mkRec [(63, 0, 0x7080), (71, 64, 0x21), (75, 72, 2), (83, 80, 1), (195, 172, 1), (219, 196, 1), (443, 412, 1)], 0, 0]
def wQ : State := below (wG (gX (2 ^ 24 + 1))) 0x5000 288 (sumNat (qRecs.zipIdx.map (fun x => x.1 * 2 ^ (768 * x.2))))
/-- A quantisation; images for 32 lanes that fill 64 KiB; rows of 0 and 1024 bytes; a stamp. -/
theorem witness_TransferIssue_more :
    (∃ (s : State) (gid : Nat) (busy : BitVec 10) (g : Group) (p : P) (b : Block) (m : State) (src t0 c0 t1 c1 : Nat) (s1 : State), Issuer s gid busy g ∧ XOpen s g p b ∧
      ReadsRecs s gid g ((List.range 5).map (fun i => recVa g p.a + 96 * i)) 96 32 m [src, t0, c0, t1, c1] ∧
      (let w := dNum p.d
       let os := winVal g w 0
       let od := winVal g w 1
       let zv := winVal g w 2
       let sides := qSides [src, t0, c0, t1, c1] os od (winSize zv 2)
       let wr := sides.filter (·.wr)
       ((∀ r ∈ [src, t0, c0, t1, c1], lrOk r = true) ∧ lrRank src = 2 ∧ lrFmt src = 0x20 ∧
        lrPerm src 0 = 0 ∧ lrCat src = false ∧ qOk t0 c0 = true ∧ qOk t1 c1 = true ∧ winOk os 2 = true ∧ winOk od 2 = true ∧
        winOk zv 2 = true ∧ winDim od 0 % 32 = 0 ∧ winDim od 1 % 32 = 0 ∧ sidesFoot wr ≤ 65536) ∧
       XClear m g p b (sides.findSome? (fun x => spotMis x.r x.ss)) [src, t0, c0, t1, c1] ((sides.filter (fun x => !x.wr)).flatMap sideVas)
        (wr.flatMap sideVas) (sides.findSome? (fun x => spotOut b.size x.r x.ss)) none s1)) ∧
    (∃ (s : State) (gid : Nat) (busy : BitVec 10) (g : Group) (p : P) (b : Block) (n : BitVec 7) (t : Nat), Issuer s gid busy g ∧ XOpen s g p b ∧ p.a = .v n ∧ tensorOf s g p.b.opnd = some t ∧
      (let ls := lanesOf (guardLanes g p.h &&& ~~~g.hmask)
       let slot := 512 * 2 ^ p.f
       let base := rdSn g (dNum p.d) % 2 ^ 32
       ls.length * slot = 65536 ∧ base % 256 = 0 ∧ base + slot * ls.getLastD 0 + slot ≤ b.size) ∧ ∀ c, cntOff p = some c → c + 16 ≤ b.size) ∧
    (∀ n ∈ [0, 1024], ∃ (s : State) (gid : Nat) (busy : BitVec 10) (g : Group) (p : P) (b : Block) (s1 s2 : State), Issuer s gid busy g ∧ XOpen s g p b ∧
      (let d := rdSn g (dNum p.d)
       let a := rdSn g (sNum p.a)
       rdSn g (sNum p.b.opnd) = n ∧ d % 1024 = 0 ∧ a % 1024 = 0 ∧ a < 2 ^ 32 ∧ XClear s g p b none [] (rangeVas a n) (rangeVas d n) none none s1 ∧
       XClear s g p b none [] [] (rangeVas d n) none none s2)) ∧
    (∃ (s : State) (gid : Nat) (busy : BitVec 10) (g : Group) (p : P) (b : Block) (s1 : State), Issuer s gid busy g ∧ XOpen s g p b ∧ regAddr g p % 8 = 0 ∧
      XClear s g { p with ty := 0, ext := 0 } b none [] [] [regAddr g p] none none s1) := by
  refine ⟨⟨wQ, 32, 0, gX (2 ^ 24 + 1), pX, bT, _, qRecs.getD 0 0, qRecs.getD 1 0, qRecs.getD 2 0, 0, 0, _, ⟨by decide +kernel, by decide +kernel⟩,
      ⟨⟨by decide +kernel, rfl, rfl, rfl⟩, by decide +kernel⟩, readsAll qRecs (by decide +kernel), by decide +kernel, by decide +kernel, by decide +kernel, by decide +kernel,
      (fun c h => nomatch h), by decide +kernel, by decide +kernel, by decide +kernel, rfl⟩,
    ⟨wG (gX 0), 32, 0, gX 0, { pX with fn := 2, a := .v 5 }, bT, 5, 0x5060, ⟨by decide +kernel, by decide +kernel⟩, ⟨⟨by decide +kernel, rfl, rfl, rfl⟩, by decide +kernel⟩,
      rfl, by decide +kernel, by decide +kernel, (fun c h => nomatch h)⟩,
    fun n hn => ?_,
    ⟨wG (gX 0), 32, 0, gX 0, pX, bT, _, ⟨by decide +kernel, by decide +kernel⟩, ⟨⟨by decide +kernel, rfl, rfl, rfl⟩, by decide +kernel⟩, by decide +kernel,
      rfl, rfl, rfl, (fun c h => nomatch h), (fun c h => nomatch h), by decide +kernel, by decide +kernel, rfl⟩⟩
  simp at hn
  rcases hn with rfl | rfl
  · exact ⟨wG (wrS (wrS (wrS gT 2 0x6000) 3 0) 8 0x6400), 32, 0, _, pX, bT, _, _, issuer_wG _, ⟨⟨by decide +kernel, rfl, rfl, rfl⟩, by decide +kernel⟩, by decide +kernel, by decide +kernel, by decide +kernel, by decide +kernel,
      ⟨rfl, rfl, rfl, (fun c h => nomatch h), (fun c h => nomatch h), by decide +kernel, by decide +kernel, rfl⟩, rfl, rfl, rfl, (fun c h => nomatch h), (fun c h => nomatch h), by decide +kernel, by decide +kernel, rfl⟩
  · exact ⟨wG (wrS (wrS (wrS gT 2 0x6000) 3 1024) 8 0x6400), 32, 0, _, pX, bT, _, _, issuer_wG _, ⟨⟨by decide +kernel, rfl, rfl, rfl⟩, by decide +kernel⟩, by decide +kernel, by decide +kernel, by decide +kernel, by decide +kernel,
      ⟨rfl, rfl, rfl, (fun c h => nomatch h), (fun c h => nomatch h), by decide +kernel, by decide +kernel, rfl⟩, rfl, rfl, rfl, (fun c h => nomatch h), (fun c h => nomatch h), by decide +kernel, by decide +kernel, rfl⟩
/-- A package with one Live tensor of two folio rows, in E4M3, its directory at 0x3000, its entries from 0x3800 on, one entry as
given, one 2 MiB of folio storage free; legend slot 0 loaded. -/
def lgOne : Nat := mkRec [(2056, 2048, 1), (2175, 2160, 1)]
def wF (g : Group) (e : Nat) : State :=
  below { wG g with parts := [(0, { ctxBase := 0x20000, ceil := 15, frzBase := 0x40000, dirBase := 0x3000, pool := [(12, 0x200000)] })],
                    ctxs := [(0, { st := .running, lg := [(0, lgOne)] })], cat := [(entryKey 0 0 0 0, { record := e, part := 0 })] }
    0x3000 32 (mkRec [(47, 0, 0x3800), (79, 64, 2), (95, 80, 1), (103, 96, 2), (105, 105, 1)])
/-- s2 holds a coordinate, s3 a tensor. -/
def gE (c t : Nat) : Group := wrS (wrS gT 2 (BitVec.ofNat 64 c)) 3 (BitVec.ofNat 64 t)
def pE : P := { p0 with d := .s false 0 8, a := .s 2, b := .op (.s 3) }
/-- An image that is a legend, and one that is not; a slot cleared; entries of every state and count with their answers, the
last row and the one beyond; a store of 512 bytes. -/
theorem witness_LegendsAndEntries :
    (∀ v : Bool, ∃ (s : State) (gid : Nat) (busy : BitVec 10) (g : Group) (p : P) (s1 : State) (img : Nat), Issuer s gid busy g ∧ elects g p.h = true ∧ g.reds = [] ∧
      ReadsRec s gid g (regAddr g p) 512 64 s1 img ∧ (mfind s1.groups gid).isSome = true ∧ lgValid img = v) ∧
    (∃ (s : State) (gid : Nat) (busy : BitVec 10) (g : Group) (p : P), Issuer s gid busy g ∧ elects g p.h = true ∧ regAddr g p % 64 = 0 ∧ g.reds = [] ∧ (getCore s g.core).log = [] ∧
      (let r := chkAll s g 1 (fun _ => [1]) ((List.range 16).map (fun i => (i, regAddr g p + 32 * i)))
       sbufRoom r.1 g.core (r.2.map (·.va)) = true ∧ windowFull r.1 (gPart r.1 g) 0 (r.2.map Acc.pa) = false ∧ ∀ a ∈ r.2, Placed r.1 32 a)) ∧
    (∃ (s : State) (gid : Nat) (busy : BitVec 10) (g : Group) (p : P), Issuer s gid busy g ∧ elects g p.h = true ∧ p.d = .other (.lg 7)) ∧
    (∀ x ∈ [(0, 0), (2, 1), (2, 65535), (3, 65534), (5, 0)], ∃ (s : State) (gid : Nat) (busy : BitVec 10) (g : Group) (p : P) (e : Nat) (d : Nat) (pa : Nat), Issuer s gid busy g ∧
      elects g p.h = true ∧ tensorOf s g p.b.opnd = some 0 ∧ rdSn g (sNum p.a) = 0 ∧ entryAt s 0 0 0 0 = .ok e ∧ (enState e, enRef e) = x ∧ dirRec s 0 0 = some d ∧ entryPa s 0 d 0 0 = .ok pa) ∧
    (∀ c ∈ [2 * 2 ^ 32, 2 ^ 48], ∃ (s : State) (gid : Nat) (busy : BitVec 10) (g : Group) (p : P), Issuer s gid busy g ∧ elects g p.h = true ∧ tensorOf s g p.b.opnd = some 0 ∧
      c = rdSn g (sNum p.a) ∧ entryAt s 0 0 (coRow c) (coCol c) = .miss 5 0) := by
  refine ⟨fun v => ?_, ⟨wG gM, 32, 0, gM, { p0 with a := .s 6 }, issuer_wG _, by decide +kernel, by decide +kernel, rfl, by decide +kernel, by decide +kernel, by decide +kernel, placed_of (by decide +kernel)⟩,
    ⟨wG gT, 32, 0, gT, { p0 with d := .other (.lg 7) }, issuer_wG _, by decide +kernel, rfl⟩, fun x hx => ?_, fun c hc => ?_⟩
  · cases v
    · exact ⟨below (wG (gE 0x4000 0)) 0x4000 512 1, 32, 0, gE 0x4000 0, pE, _, 1, ⟨rfl, by decide +kernel⟩, by decide +kernel, rfl, reads 1 (by decide +kernel), by decide +kernel, by decide +kernel⟩
    · exact ⟨below (wG (gE 0x4000 0)) 0x4000 512 lgOne, 32, 0, gE 0x4000 0, pE, _, lgOne, ⟨rfl, by decide +kernel⟩, by decide +kernel, rfl, reads lgOne (by decide +kernel), by decide +kernel, by decide +kernel⟩
  · simp at hx
    rcases hx with rfl | rfl | rfl | rfl | rfl
    · exact ⟨wF (gE 0 0) 0, 32, 0, gE 0 0, pE, 0, dirRaw (wF gT 0) 0 0, 0x3800, ⟨rfl, by decide +kernel⟩, by decide +kernel⟩
    · exact ⟨wF (gE 0 0) (mkRec [(47, 45, 2), (87, 72, 1)]), 32, 0, gE 0 0, pE, mkRec [(47, 45, 2), (87, 72, 1)], dirRaw (wF gT 0) 0 0, 0x3800, ⟨rfl, by decide +kernel⟩, by decide +kernel⟩
    · exact ⟨wF (gE 0 0) (mkRec [(47, 45, 2), (87, 72, 65535)]), 32, 0, gE 0 0, pE, mkRec [(47, 45, 2), (87, 72, 65535)], dirRaw (wF gT 0) 0 0, 0x3800, ⟨rfl, by decide +kernel⟩, by decide +kernel⟩
    · exact ⟨wF (gE 0 0) (mkRec [(47, 45, 3), (87, 72, 65534)]), 32, 0, gE 0 0, pE, mkRec [(47, 45, 3), (87, 72, 65534)], dirRaw (wF gT 0) 0 0, 0x3800, ⟨rfl, by decide +kernel⟩, by decide +kernel⟩
    · exact ⟨wF (gE 0 0) (mkRec [(47, 45, 5)]), 32, 0, gE 0 0, pE, mkRec [(47, 45, 5)], dirRaw (wF gT 0) 0 0, 0x3800, ⟨rfl, by decide +kernel⟩, by decide +kernel⟩
  · simp at hc
    rcases hc with rfl | rfl
    · exact ⟨wF (gE (2 * 2 ^ 32) 0) 0, 32, 0, gE (2 * 2 ^ 32) 0, pE, ⟨rfl, by decide +kernel⟩, by decide +kernel⟩
    · exact ⟨wF (gE (2 ^ 48) 0) 0, 32, 0, gE (2 ^ 48) 0, pE, ⟨rfl, by decide +kernel⟩, by decide +kernel⟩
/-- A request for a tensor of one folio. -/
def rqOne : Nat := mkRec [(47, 0, 0x7000), (79, 64, 1), (95, 80, 1)]
/-- A request out of range, one for which no identifier is free, and one that is granted. -/
theorem witness_LegendsAndEntries_alloc :
    (∀ v : Bool, ∃ (s : State) (gid : Nat) (busy : BitVec 10) (g : Group) (p : P) (s1 : State) (r : Nat), Issuer s gid busy g ∧ elects g p.h = true ∧
      g.reds = [] ∧ ReadsRec s gid g (regAddr g p) 32 32 s1 r ∧ (mfind s1.groups gid).isSome = true ∧ falcOk r = v ∧
      (v = true → ∃ i l, (List.range (2 ^ dirLogEff (getPart s1 (gPart s1 g)))).find? (fun i => (dirRec s1 (gPart s1 g) i).isNone) = some i ∧
        ownerRange s1 (gCtx s1 g) (dtVa r) (32 * dtRows r * dtCols r) = (l, none))) ∧
    (∃ (s : State), (List.range (2 ^ dirLogEff (getPart s 0))).find? (fun i => (dirRec s 0 i).isNone) = none) := by
  refine ⟨fun v => ?_, ⟨below (wF gT 0) 0x2000 512 0 |> fun s => below { s with parts := [(0, { dirBase := 0x1000 })] } 0x1000 512
    (sumNat ((List.range 16).map (fun i => 2 ^ (256 * i + 105)))), by decide +kernel⟩⟩
  cases v
  · exact ⟨wF (gE 0x2000 0) 0, 32, 0, gE 0x2000 0, pE, _, 0, ⟨rfl, by decide +kernel⟩, by decide +kernel, rfl, reads 0 (by decide +kernel), by decide +kernel, by decide +kernel, nofun⟩
  · exact ⟨below (wF (gE 0x2000 0) 0) 0x2000 32 rqOne, 32, 0, gE 0x2000 0, pE, _, rqOne, ⟨rfl, by decide +kernel⟩, by decide +kernel, rfl,
      reads rqOne (by decide +kernel), by decide +kernel, by decide +kernel, fun _ => ⟨1, [(0x7000, 32)], by decide +kernel⟩⟩
theorem elec : elects gT hv = true := by decide +kernel
/-- An operation of the group that has been abandoned. -/
def opA (k : EK) (st : ESt) : EOp := { gid := 32, block := 1, kernel := 1, ctx := 0, pair := 0, core := 0, batch := 0, addr := 0, kind := k, st := st }
theorem class_lt (n : Nat) : (classFor n).getD 5 < 6 := by
  unfold classFor
  cases h : (List.range 6).find? (fun c => n ≤ 512 * 2 ^ c) with
  | none => decide
  | some c => simpa using List.mem_range.mp (List.mem_of_find?_eq_some h)
theorem pool_some (n : Nat) : ∃ a, poolTake [(12, 0x200000)] ((classFor n).getD 5) = some a :=
  Option.isSome_iff_exists.mp ((by decide : ∀ c, c < 6 → (poolTake [(12, 0x200000)] c).isSome = true) _ (class_lt n))
/-- A tile at the last place of the block behind an abandoned operation, and with nothing before it; a tensor that is and one
that is not Live; the first and the last class. -/
theorem witness_FolioWork :
    (∀ v : Bool, ∃ (s : State) (gid : Nat) (busy : BitVec 10) (g : Group) (p : P) (b : Block) (t : Nat) (r : Nat), Issuer s gid busy g ∧ elects g p.h = true ∧ Calm s g b ∧
      tensorOf s g p.b.opnd = some t ∧ dirRec s (gPart s g) t = some r ∧
      (let c := rdSn g (sNum p.a)
       coOff c % 128 = 0 ∧ coOff c + tileBytes (dtFmt r) = b.size ∧
       (∃ x ∈ s.ops, x.1 < s.fresh ∧ holdsBack x.2 (opOf s gid g p false (if v then .enc c t (p.ext.toNat % 8) (p.f == 1) ((dstS p.d).getD 64) else .dec c t)) = true))) ∧
    (∃ (s : State) (gid : Nat) (busy : BitVec 10) (g : Group) (p : P) (b : Block) (t : Nat) (r : Nat) (img : Nat) (e : Nat) (a : _), Issuer s gid busy g ∧ elects g p.h = true ∧
      Calm s g b ∧
      (let c := rdSn g (sNum p.a)
       let x := spTile b (dtFmt r) (coOff c)
       let f := makeTile (dtFmt r) t (coRow c) (coCol c) (p.ext.toNat % 8) (p.f == 1).toNat (some img) x.1 x.2
       poolTake (getPart s (gPart s g)).pool ((classFor f.len).getD 5) = some a) ∧ s.ops = [] ∧ loggedBefore s gid g.core s.fresh = false ∧
      tensorOf s g p.b.opnd = some t ∧ dirRec s (gPart s g) t = some r ∧ dtAppend r = false ∧ dtRetiring r = false ∧
      (let c := rdSn g (sNum p.a)
       coOff c % 128 = 0 ∧ coOff c + tileBytes (dtFmt r) ≤ b.size ∧ entryAt s (gPart s g) t (coRow c) (coCol c) = .ok e ∧
       enState e ≠ 1 ∧ enState e ≠ 4 ∧ enState e ≠ 5 ∧ legendOf s (gCtx s g) (p.ext.toNat % 8) = some img ∧
       spPoison b (coOff c) (tileBytes (dtFmt r)) = false)) ∧
    (∀ t ∈ [0, 1], ∃ (s : State) (gid : Nat) (busy : BitVec 10) (g : Group) (p : P) (b : Block), Issuer s gid busy g ∧ elects g p.h = true ∧ Calm s g b ∧
      tensorOf s g p.b.opnd = some t ∧ ((dirRec s (gPart s g) t).isSome = true ↔ t = 0)) ∧
    (∀ n ∈ [(0 : BitVec 12), 5], ∃ (s : State) (gid : Nat) (busy : BitVec 10) (g : Group) (p : P) (b : Block), Issuer s gid busy g ∧ elects g p.h = true ∧ Calm s g b ∧ valN g p.a = n.toNat) := by
  refine ⟨fun v => ⟨{ wF (gE 126976 0) 0 with fresh := 3, ops := [(1, opA (.enc 0 0 0 false 0) .abandoned), (2, opA (.dec 0 0) .abandoned)] }, 32, 0, gE 126976 0, pE, bT, 0, dirRaw (wF gT 0) 0 0, ⟨rfl, by decide +kernel⟩, by decide +kernel,
      ⟨by decide +kernel, rfl, rfl, rfl⟩, by decide +kernel, by decide +kernel, by decide +kernel, by decide +kernel, ?_⟩, ?_, fun t ht => ?_, fun n hn => ?_⟩
  · cases v
    · exact ⟨(2, opA (.dec 0 0) .abandoned), by decide +kernel⟩
    · exact ⟨(1, opA (.enc 0 0 0 false 0) .abandoned), by decide +kernel⟩
  · obtain ⟨a, ha⟩ := pool_some (makeTile 2 0 0 0 0 0 (some lgOne) (spTile bT 2 0).1 (spTile bT 2 0).2).len
    have h1 : rdSn (gE 0 0) (sNum pE.a) = 0 := by decide +kernel
    exact ⟨wF (gE 0 0) (mkRec [(47, 45, 2)]), 32, 0, gE 0 0, pE, bT, 0, dirRaw (wF gT 0) 0 0, lgOne, mkRec [(47, 45, 2)], a, ⟨rfl, by decide +kernel⟩, by decide +kernel,
      ⟨by decide +kernel, rfl, rfl, rfl⟩, by
        rw [h1, show dtFmt (dirRaw (wF gT 0) 0 0) = 2 by decide +kernel]; exact ha, rfl, rfl, by decide +kernel⟩
  · simp at ht
    rcases ht with rfl | rfl
    · exact ⟨wF (gE 0 0) 0, 32, 0, gE 0 0, pE, bT, ⟨rfl, by decide +kernel⟩, by decide +kernel, ⟨by decide +kernel, rfl, rfl, rfl⟩, by decide +kernel⟩
    · exact ⟨wF (gE 0 1) 0, 32, 0, gE 0 1, pE, bT, ⟨rfl, by decide +kernel⟩, by decide +kernel, ⟨by decide +kernel, rfl, rfl, rfl⟩, by decide +kernel⟩
  · exact ⟨wF gT 0, 32, 0, gT, { pE with a := .imm n }, bT, ⟨rfl, by decide +kernel⟩, elec, ⟨by decide +kernel, rfl, rfl, rfl⟩, by
      simp at hn; rcases hn with rfl | rfl <;> decide +kernel⟩
/-- The image of a tile of zeros under the legend of one symbol: each stream is 64 bits of code 0; and its Stored entry. -/
def zeroImage : Nat := mkRec ([(7, 0, 2), (12, 12, 1), (31, 16, 1)] ++ (List.range 64).map (fun i => (137 + 10 * i, 128 + 10 * i, 64)))
def zeroEntry : Nat := mkRec [(41, 0, 0x40), (47, 45, 2), (62, 48, 608), (71, 64, 2), (87, 72, 1), (103, 88, 1), (119, 104, 26552)]
/-- A folio found and read whose tile decodes. -/
def decodes (s v : State) (g : Group) (t c : Nat) : Bool :=
  match (readFolio v s.fresh (gPair g) (gPart s g) t (coRow c) (coCol c) 2 0xA5).2 with
  | .ok f => (match readTile (some (entOf f.key f.record)) f.bits (legendFor s (gCtx s g) f.bits) with | .ok _ => true | .error _ => false)
  | _ => false
theorem decodes_of {s v : State} {g : Group} {t c : Nat} (h : decodes s v g t c = true) :
    ∃ f y, (readFolio v s.fresh (gPair g) (gPart s g) t (coRow c) (coCol c) 2 0xA5).2 = .ok f ∧
      readTile (some (entOf f.key f.record)) f.bits (legendFor s (gCtx s g) f.bits) = .ok y := by
  unfold decodes at h
  split at h
  · rename_i f hf
    split at h
    · rename_i y hy; exact ⟨f, y, hf, hy⟩
    · exact nomatch h
  · exact nomatch h
/-- A package with that folio, and its state once an fdec is in its queue. -/
def wD : State := below (wF (gE 0 0) zeroEntry) 0x2000 608 zeroImage
def vD : State := put (withOp wD (opOf wD 32 (gE 0 0) pE false (.dec 0 0))) 32 { gE 0 0 with tx := illegalTx (gE 0 0) pE }
set_option maxRecDepth 1000000 in
theorem decodes_vD : decodes wD vD (gE 0 0) 0 0 = true := by decide +kernel
/-- A tile that is Stored, and that its legend decodes. -/
theorem witness_FolioWork_decode : ∃ (s : State) (gid : Nat) (busy : BitVec 10) (g : Group) (p : P) (b : Block) (t c : Nat) (v : State) (f : StFolio) (y : TileD), Issuer s gid busy g ∧
    elects g p.h = true ∧ Calm s g b ∧ tensorOf s g p.b.opnd = some t ∧ c = rdSn g (sNum p.a) ∧ coOff c % 128 = 0 ∧ coOff c + 4096 ≤ b.size ∧ s.ops = [] ∧
    loggedBefore s gid g.core s.fresh = false ∧ isAppend s (gPart s g) t = false ∧
    v = put (withOp s (opOf s gid g p false (.dec c t))) gid { g with tx := illegalTx g p } ∧
    (readFolio v s.fresh (gPair g) (gPart s g) t (coRow c) (coCol c) 2 0xA5).2 = .ok f ∧
    readTile (some (entOf f.key f.record)) f.bits (legendFor s (gCtx s g) f.bits) = .ok y :=
  let ⟨f, y, h⟩ := decodes_of decodes_vD
  ⟨wD, 32, 0, gE 0 0, pE, bT, 0, 0, vD, f, y, ⟨rfl, by decide +kernel⟩, by decide +kernel,
    ⟨by decide +kernel, rfl, rfl, rfl⟩, by decide +kernel, by decide +kernel, by decide +kernel, by decide +kernel, rfl, rfl, by decide +kernel, rfl, h⟩
/-- A product of one element by one: E4M3, its operands at 0 and 16 of scratchpad. -/
def mmRec (ctl : Nat) : Nat := mkRec [(7, 0, 2), (16, 8, 1), (25, 17, 1), (71, 64, 2), (80, 72, 1), (89, 81, 1), (127, 96, 16), (143, 132, 1), (175, 164, 1), (255, 192, ctl)]
/-- Registers from s4 on with a record, s8 with a word. -/
def gA (rec x : Nat) : Group := wrS ((List.range 4).foldl (fun g i => wrS g (4 + i) (BitVec.ofNat 64 (rec / 2 ^ (64 * i)))) gT) 8 (BitVec.ofNat 64 x)
def scrT : Scroll := { tensor := 0, st := 1, owner := 0, epoch := 1, res := 0, com := 0, mapVa := 0x6000, slotVa := 0x5000, cap := 64, slotBytes := 32, format := 2 }
def bH : Block := { bT with sh := [(3, 0)] }
def wA (g : Group) : State := { wG g with scrolls := [(0, scrT)], blocks := [(1, bH)] }
def pA : P := { p0 with d := .other (.ac 0), a := .s 4 }
/-- A product without and with a score, a gathered one, a load of B, a mint of the last 256 bytes. -/
theorem witness_ArrayInstructions :
    (∃ (s : State) (gid : Nat) (busy : BitVec 10) (g : Group) (p : P) (b : Block), Issuer s gid busy g ∧ Calm s g b ∧ elects g p.h = true ∧
      (s.ops.filter (fun x => x.2.kind.cls == 3 && x.2.pair == gPair g)).length < 16 ∧ p.b.opnd = .none ∧
      (let r := recOf g (sNum p.a)
       (descOf r 0).cols = (descOf r 1).rows ∧ descBad r 0 0xB0 false = none ∧ descBad r 1 0xB0 false = none ∧
       ctlBad r 0xB0 false false (mget {} b.ac (dstAc p.d)).int = none ∧ opndOut b (descOf r 0) 0 (ctScale r 0) [] = none ∧
       opndOut b (descOf r 1) 1 (ctScale r 1) [] = none ∧ descUnbound (gRecord s g) (descOf r 0) = none ∧ descUnbound (gRecord s g) (descOf r 1) = none ∧
       descBad r 1 0xB5 false = none)) ∧
    (∃ (s : State) (gid : Nat) (busy : BitVec 10) (g : Group) (p : P) (b : Block) (n : BitVec 7) (idx : List Nat), Issuer s gid busy g ∧ Calm s g b ∧ elects g p.h = true ∧
      s.ops = [] ∧ p.b.opnd = .v n ∧
      idx = (List.range 128).map (fun i =>
          let x := (rdV g (n.toNat + i / 64) (i % 32)).toNat
          if i % 64 < 32 then x % 65536 else x / 65536) ∧
      (let r := recOf g (sNum p.a)
       (descOf r 0).cols = (descOf r 1).rows ∧ descBad r 0 0xB1 true = none ∧ descBad r 1 0xB1 false = none ∧
       ctlBad r 0xB1 true false (mget {} b.ac (dstAc p.d)).int = none ∧ opndOut b (descOf r 0) 0 (ctScale r 0) idx = none ∧
       opndOut b (descOf r 1) 1 (ctScale r 1) [] = none ∧ descUnbound (gRecord s g) (descOf r 0) = none ∧ descUnbound (gRecord s g) (descOf r 1) = none)) ∧
    (∃ (s : State) (gid : Nat) (busy : BitVec 10) (g : Group) (p : P) (b : Block) (n : BitVec 6) (x : Nat) (id : Nat) (c : Scroll), Issuer s gid busy g ∧ Calm s g b ∧
      elects g p.h = true ∧ s.ops = [] ∧ p.b.opnd = .s n ∧ x = rdSn g n.toNat ∧ x < 2 ^ 35 ∧ Bound s g (x / 2 ^ 32) false id c ∧
      (let r := recOf g (sNum p.a)
       (descOf r 0).cols = (descOf r 1).rows ∧ descBad r 0 0xB0 false = none ∧ descBad r 1 0xB0 false = none ∧
       ctlBad r 0xB0 false true (mget {} b.ac (dstAc p.d)).int = none ∧ opndOut b (descOf r 0) 0 (ctScale r 0) [] = none ∧
       opndOut b (descOf r 1) 1 (ctScale r 1) [] = none)) ∧
    (∃ (s : State) (gid : Nat) (busy : BitVec 10) (g : Group) (p : P) (b : Block) (off : Nat), Issuer s gid busy g ∧ Calm s g b ∧ elects g p.h = true ∧ s.ops = [] ∧
      rdSn g (sNum p.b.opnd) < 2 ^ 32 ∧ rdSn g (sNum p.a) < 2 ^ 32 ∧ (off : Int) = (rdSn g (sNum p.a) : Int) + p.off ∧ off % 32 = 0 ∧ off + 256 = b.size ∧ spPoison b off 256 = false) := by
  refine ⟨⟨wA (gA (mmRec 0) 0), 32, 0, gA (mmRec 0) 0, pA, bH, ⟨rfl, by decide +kernel⟩, ⟨by decide +kernel, rfl, rfl, rfl⟩, by decide +kernel⟩,
    ⟨wA (gA (mmRec 0) 0), 32, 0, gA (mmRec 0) 0, { pA with b := .op (.v 6) }, bH, 6, _, ⟨rfl, by decide +kernel⟩, ⟨by decide +kernel, rfl, rfl, rfl⟩, by decide +kernel, rfl, rfl, rfl, by decide +kernel⟩,
    ⟨wA (gA (mmRec (2 ^ 49)) (3 * 2 ^ 32 + 5)), 32, 0, gA (mmRec (2 ^ 49)) (3 * 2 ^ 32 + 5), { pA with b := .op (.s 8) }, bH, 8, 3 * 2 ^ 32 + 5, 0, scrT, ⟨rfl, by decide +kernel⟩, ⟨by decide +kernel, rfl, rfl, rfl⟩,
      by decide +kernel, rfl, rfl, by decide +kernel, by decide +kernel, ⟨by decide +kernel, by decide +kernel, nofun⟩, by decide +kernel⟩,
    ⟨wA (gA 130816 0), 32, 0, gA 130816 0, { pA with b := .op (.s 8) }, bH, 130816, ⟨rfl, by decide +kernel⟩, ⟨by decide +kernel, rfl, rfl, rfl⟩, by decide +kernel⟩⟩
/-- A free tile: rows and columns up to the last, with half and whole elements; 1 and 256 keys. -/
theorem witness_ArrayInstructions_reads :
    (∀ t ∈ [(6 : BitVec 4), 0xA], ∃ (s : State) (gid : Nat) (busy : BitVec 10) (g : Group) (p : P) (b : Block), Issuer s gid busy g ∧ Calm s g b ∧ tileBusy s g (acNo p.a) = false ∧
      elects g p.h = true ∧ p.t = t ∧
      (let x := rdSn g (sNum p.b.opnd)
       x < 2 ^ 17 ∧ x % 256 + p.f + 1 = 128 ∧ x / 256 + (if p.t = 0xA then 64 else 32) = 256)) ∧
    (∀ w ∈ [1, 256], ∃ (s : State) (gid : Nat) (busy : BitVec 10) (g : Group) (p : P) (b : Block), Issuer s gid busy g ∧ Calm s g b ∧ tileBusy s g (acNo p.a) = false ∧
      elects g p.h = true ∧ rdSn g (sNum p.b.opnd) < 2 ^ 41 ∧ rdSn g (sNum p.b.opnd) / 2 ^ 32 = w) := by
  refine ⟨fun t ht => ?_, fun w hw => ?_⟩
  · simp at ht
    rcases ht with rfl | rfl
    · exact ⟨wA (gA 0 (127 + 224 * 256)), 32, 0, gA 0 (127 + 224 * 256), { pA with a := .ac 0, b := .op (.s 8), ty := 6 }, bH, ⟨rfl, by decide +kernel⟩, ⟨by decide +kernel, rfl, rfl, rfl⟩, by decide +kernel⟩
    · exact ⟨wA (gA 0 (127 + 192 * 256)), 32, 0, gA 0 (127 + 192 * 256), { pA with a := .ac 0, b := .op (.s 8), ty := 0xA }, bH, ⟨rfl, by decide +kernel⟩, ⟨by decide +kernel, rfl, rfl, rfl⟩, by decide +kernel⟩
  · simp at hw
    rcases hw with rfl | rfl
    · exact ⟨wA (gA 0 (2 ^ 32)), 32, 0, gA 0 (2 ^ 32), { pA with a := .ac 0, b := .op (.s 8) }, bH, ⟨rfl, by decide +kernel⟩, ⟨by decide +kernel, rfl, rfl, rfl⟩, by decide +kernel⟩
    · exact ⟨wA (gA 0 (2 ^ 40)), 32, 0, gA 0 (2 ^ 40), { pA with a := .ac 0, b := .op (.s 8) }, bH, ⟨rfl, by decide +kernel⟩, ⟨by decide +kernel, rfl, rfl, rfl⟩, by decide +kernel⟩
/-- A scroll of 64 slots at 0x5000 with its map at 0x6000, bound to handle 3, its slots in given states. -/
def scrC (com res : Nat) : Scroll := { scrT with com := com, res := res }
def wSc (g : Group) (c : Scroll) (sts : List Nat) : State :=
  below { wG g with scrolls := [(0, c)], blocks := [(1, bH)], parts := [(0, { ctxBase := 0x20000, ceil := 15, frzBase := 0x40000, scrBase := 0x2000, idxBase := 0x9000, dirBase := 0x3000 })] }
    0x5000 512 (sumNat (sts.zipIdx.map (fun x => x.1 * 2 ^ (64 * x.2 + 32))))
def pS : P := { p0 with d := .s false 0 12, a := .sh 3, b := .op (.s 8) }
/-- sres that fills the scroll and that asks for one more; strm at the reserved length and below it, at a Ready slot, below the
committed length, over a Filled slot with its folio Open and with no storage free. -/
theorem witness_ScrollLengths :
    (∀ n ∈ [4, 5], ∃ (s : State) (gid : Nat) (busy : BitVec 10) (g : Group) (p : P) (id : Nat) (c : Scroll), Issuer s gid busy g ∧ elects g p.h = true ∧ Bound s g (shNo p.a) true id c ∧ homeBusy s (gPart s g) id 0 = false ∧
      valN g p.b.opnd = n ∧ c.res + 4 = c.cap ∧ (n = 4 → ∃ fs, scrFrames s (gPart s g) c c.res (c.res + n) = (fs, none))) ∧
    (∀ x ∈ [(0, 3, 1), (2, 3, 1), (2, 3, 3), (4, 4, 1), (2, 2, 1)], ∃ (s : State) (gid : Nat) (busy : BitVec 10) (g : Group) (p : P) (id : Nat) (c : Scroll), Issuer s gid busy g ∧ elects g p.h = true ∧
      Bound s g (shNo p.a) true id c ∧ homeBusy s (gPart s g) id 0 = false ∧ valN g p.b.opnd = x.1 ∧ c.com = x.2.1 ∧ c.res = 4 ∧
      (x.1 < c.res → ∃ fs, scrFrames s (gPart s g) c x.1 c.res = (fs, none) ∧
        slState (memRead (flushSlots s fs c x.1 c.res) (slotPa fs c 3) 8) = x.2.2)) ∧
    (∃ (s : State) (gid : Nat) (busy : BitVec 10) (g : Group) (p : P) (id : Nat) (c : Scroll) (fs : _), Issuer s gid busy g ∧ elects g p.h = true ∧ Bound s g (shNo p.a) true id c ∧ homeBusy s (gPart s g) id 0 = false ∧
      valN g p.b.opnd = 2 ∧ c.com = 2 ∧ c.res = 4 ∧ scrFrames s (gPart s g) c 2 c.res = (fs, none) ∧
      (let u := flushSlots s fs c 2 c.res
       let k := rdMap u fs (gPart s g) c 0
       slState (memRead u (slotPa fs c 2) 8) = 2 ∧ slState (memRead u (slotPa fs c 3) 8) = 1 ∧ keysBar u [k] = none ∧ (getCat s k).decs = 0 ∧
       enState (getCat s k).record ≠ 1 ∧ enState (getCat s k).record ≠ 4 ∧ (allocAll u (gPart s g) [enClass (getCat s k).record] []).2 = none)) ∧
    (∃ (s : State) (gid : Nat) (busy : BitVec 10) (g : Group) (p : P) (id : Nat) (c : Scroll) (fs : _), Issuer s gid busy g ∧ elects g p.h = true ∧ Bound s g (shNo p.a) true id c ∧ homeBusy s (gPart s g) id 0 = false ∧
      valN g p.b.opnd = 2 ∧ c.com = 2 ∧ c.res = 4 ∧ scrFrames s (gPart s g) c 2 c.res = (fs, none) ∧
      (let u := flushSlots s fs c 2 c.res
       let k := rdMap u fs (gPart s g) c 0
       slState (memRead u (slotPa fs c 2) 8) = 2 ∧ slState (memRead u (slotPa fs c 3) 8) = 1 ∧ keysBar u [k] = none ∧ (getCat s k).decs = 0 ∧
       enState (getCat s k).record ≠ 1 ∧ enState (getCat s k).record ≠ 4 ∧ (allocAll u (gPart s g) [enClass (getCat s k).record] []).2 ≠ none)) := by
  refine ⟨fun n hn => ?_, fun x hx => ?_,
    ⟨wSc (gA 0 2) (scrC 2 4) [3, 3, 2, 1], 32, 0, gA 0 2, pS, 0, scrC 2 4, [(0, 0), (0, 0)], ⟨rfl, by decide +kernel⟩, by decide +kernel, ⟨by decide +kernel, by decide +kernel, fun _ => by decide +kernel⟩, by decide +kernel, by decide +kernel⟩,
    ⟨updPart (wSc (gA 0 2) (scrC 2 4) [3, 3, 2, 1]) 0 (fun q => { q with pool := [(12, 0x200000)] }), 32, 0, gA 0 2, pS, 0, scrC 2 4, [(0, 0), (0, 0)], ⟨rfl, by decide +kernel⟩, by decide +kernel,
      ⟨by decide +kernel, by decide +kernel, fun _ => by decide +kernel⟩, by decide +kernel, by decide +kernel⟩⟩
  · simp at hn
    rcases hn with rfl | rfl
    · exact ⟨wSc (gA 0 4) (scrC 0 60) [], 32, 0, gA 0 4, pS, 0, scrC 0 60, ⟨rfl, by decide +kernel⟩, by decide +kernel, ⟨by decide +kernel, by decide +kernel, fun _ => by decide +kernel⟩, by decide +kernel,
        by decide +kernel, by decide, fun _ => ⟨[(0, 0), (0, 0)], by decide +kernel⟩⟩
    · exact ⟨wSc (gA 0 5) (scrC 0 60) [], 32, 0, gA 0 5, pS, 0, scrC 0 60, ⟨rfl, by decide +kernel⟩, by decide +kernel, ⟨by decide +kernel, by decide +kernel, fun _ => by decide +kernel⟩, by decide +kernel,
        by decide +kernel, by decide, nofun⟩
  · simp at hx
    rcases hx with rfl | rfl | rfl | rfl | rfl
    · exact ⟨wSc (gA 0 0) (scrC 3 4) [3, 3, 3, 1], 32, 0, gA 0 0, pS, 0, scrC 3 4, ⟨rfl, by decide +kernel⟩, by decide +kernel, ⟨by decide +kernel, by decide +kernel, fun _ => by decide +kernel⟩, by decide +kernel,
        by decide +kernel, by decide, by decide, fun _ => ⟨[(0, 0), (0, 0)], by decide +kernel⟩⟩
    · exact ⟨wSc (gA 0 2) (scrC 3 4) [3, 3, 3, 1], 32, 0, gA 0 2, pS, 0, scrC 3 4, ⟨rfl, by decide +kernel⟩, by decide +kernel, ⟨by decide +kernel, by decide +kernel, fun _ => by decide +kernel⟩, by decide +kernel,
        by decide +kernel, by decide, by decide, fun _ => ⟨[(0, 0), (0, 0)], by decide +kernel⟩⟩
    · exact ⟨wSc (gA 0 2) (scrC 3 4) [3, 3, 3, 3], 32, 0, gA 0 2, pS, 0, scrC 3 4, ⟨rfl, by decide +kernel⟩, by decide +kernel, ⟨by decide +kernel, by decide +kernel, fun _ => by decide +kernel⟩, by decide +kernel,
        by decide +kernel, by decide, by decide, fun _ => ⟨[(0, 0), (0, 0)], by decide +kernel⟩⟩
    · exact ⟨wSc (gA 0 4) (scrC 4 4) [3, 3, 3, 3], 32, 0, gA 0 4, pS, 0, scrC 4 4, ⟨rfl, by decide +kernel⟩, by decide +kernel, ⟨by decide +kernel, by decide +kernel, fun _ => by decide +kernel⟩, by decide +kernel,
        by decide +kernel, by decide, by decide, nofun⟩
    · exact ⟨wSc (gA 0 2) (scrC 2 4) [3, 3, 1, 1], 32, 0, gA 0 2, pS, 0, scrC 2 4, ⟨rfl, by decide +kernel⟩, by decide +kernel, ⟨by decide +kernel, by decide +kernel, fun _ => by decide +kernel⟩, by decide +kernel,
        by decide +kernel, by decide, by decide, fun _ => ⟨[(0, 0), (0, 0)], by decide +kernel⟩⟩
/-- scom of no slot, of one beyond the reserved length, of one committed, of one Reserved, and of two Filled ones. -/
theorem witness_ScrollLengths_commit : ∀ x ∈ [(0, 0, 1), (2 ^ 32 + 4, 0, 1), (2 ^ 32 + 1, 1, 3), (2 ^ 32 + 2, 2, 1), (2 ^ 33 + 2, 3, 2)],
    ∃ (s : State) (gid : Nat) (busy : BitVec 10) (g : Group) (p : P) (id : Nat) (c : Scroll) (fs : _), Issuer s gid busy g ∧ elects g p.h = true ∧ Bound s g (shNo p.a) true id c ∧ homeBusy s (gPart s g) id 0 = false ∧
      rdSn g (sNum p.b.opnd) = x.1 ∧ x.1 / 2 ^ 32 < 2 ^ 16 ∧ c.res = 4 ∧ c.com = 2 ∧
      (let s1 := releaseWrites s gid g 2
       releaseDone s1 gid g 2 = true ∧ (mfind s1.groups gid).isSome = true ∧ scrFrames s1 (gPart s1 g) c 0 c.res = (fs, none) ∧
       (x.2.1 ≠ 0 → slState (memRead (flushSlots s1 fs c 0 c.res) (slotPa fs c (x.1 % 2 ^ 32)) 8) = x.2.2)) := by
  intro x hx
  simp at hx
  rcases hx with rfl | rfl | rfl | rfl | rfl
  · exact ⟨wSc (gA 0 0) (scrC 2 4) [3, 3, 2, 2], 32, 0, gA 0 0, pS, 0, scrC 2 4, [(0, 0), (0, 0)], ⟨rfl, by decide +kernel⟩, by decide +kernel, ⟨by decide +kernel, by decide +kernel, fun _ => by decide +kernel⟩, by decide +kernel, by decide +kernel⟩
  · exact ⟨wSc (gA 0 (2 ^ 32 + 4)) (scrC 2 4) [3, 3, 2, 2], 32, 0, gA 0 (2 ^ 32 + 4), pS, 0, scrC 2 4, [(0, 0), (0, 0)], ⟨rfl, by decide +kernel⟩, by decide +kernel, ⟨by decide +kernel, by decide +kernel, fun _ => by decide +kernel⟩, by decide +kernel, by decide +kernel⟩
  · exact ⟨wSc (gA 0 (2 ^ 32 + 1)) (scrC 2 4) [3, 3, 2, 2], 32, 0, gA 0 (2 ^ 32 + 1), pS, 0, scrC 2 4, [(0, 0), (0, 0)], ⟨rfl, by decide +kernel⟩, by decide +kernel, ⟨by decide +kernel, by decide +kernel, fun _ => by decide +kernel⟩, by decide +kernel, by decide +kernel⟩
  · exact ⟨wSc (gA 0 (2 ^ 32 + 2)) (scrC 2 4) [3, 3, 1, 2], 32, 0, gA 0 (2 ^ 32 + 2), pS, 0, scrC 2 4, [(0, 0), (0, 0)], ⟨rfl, by decide +kernel⟩, by decide +kernel, ⟨by decide +kernel, by decide +kernel, fun _ => by decide +kernel⟩, by decide +kernel, by decide +kernel⟩
  · exact ⟨wSc (gA 0 (2 ^ 33 + 2)) (scrC 2 4) [3, 3, 2, 2], 32, 0, gA 0 (2 ^ 33 + 2), pS, 0, scrC 2 4, [(0, 0), (0, 0)], ⟨rfl, by decide +kernel⟩, by decide +kernel, ⟨by decide +kernel, by decide +kernel, fun _ => by decide +kernel⟩, by decide +kernel, by decide +kernel⟩
/-- The slots of that scroll share no byte, with one another or with its record. -/
theorem witness_ScrollLengths_apart : ∃ (s : State) (g : Group) (id : Nat) (c : Scroll) (fs : _), Slots s g c 0 c.cap fs ∧ Apart fs c 0 c.cap (recPa s g id) 64 ∧
    s.ecc = [] ∧ s.eccDc = [] := by
  have at_ : ∀ k, k < 64 → slotPa [(0, 0), (0, 0)] (scrC 0 0) k = 0x5000 + 8 * k := by decide +kernel
  have rec_ : recPa (wSc gT (scrC 0 0) []) gT 0 = 0x2000 := by decide +kernel
  have cap_ : (scrC 0 0).cap = 64 := rfl
  refine ⟨wSc gT (scrC 0 0) [], gT, 0, scrC 0 0, [(0, 0), (0, 0)], by unfold Slots; decide +kernel, fun k _ hk => ?_, rfl, rfl⟩
  · rw [rec_, at_ k (by omega)]
    refine ⟨by omega, by omega, fun j _ hj hn => ?_⟩
    rw [at_ j (by omega)]
    omega
/-- A scroll whose pages can be reached, and one with no slot. -/
theorem witness_ScrollLengths_delete : ∀ n ∈ [0, 4], ∃ (s : State) (gid : Nat) (busy : BitVec 10) (g : Group) (p : P) (id : Nat) (c : Scroll) (fs : _),
    Issuer s gid busy g ∧ elects g p.h = true ∧ Bound s g (shNo p.a) true id c ∧ homeBusy s (gPart s g) id 0 = false ∧ c.res = n ∧ Slots s g c 0 c.res fs ∧
      keysBar (flushSlots s fs c 0 c.res) ((List.range ((c.res + 63) / 64)).map (rdMap (flushSlots s fs c 0 c.res) fs (gPart s g) c)) = none := by
  intro n hn
  simp at hn
  rcases hn with rfl | rfl
  · exact ⟨wSc (gA 0 0) (scrC 0 0) [], 32, 0, gA 0 0, pS, 0, scrC 0 0, [], ⟨rfl, by decide +kernel⟩, by decide +kernel, ⟨by decide +kernel, by decide +kernel, fun _ => by decide +kernel⟩,
      by decide +kernel, rfl, by unfold Slots; decide +kernel, by decide +kernel⟩
  · exact ⟨wSc (gA 0 0) (scrC 2 4) [3, 3, 2, 2], 32, 0, gA 0 0, pS, 0, scrC 2 4, [(0, 0), (0, 0)], ⟨rfl, by decide +kernel⟩, by decide +kernel, ⟨by decide +kernel, by decide +kernel, fun _ => by decide +kernel⟩,
      by decide +kernel, rfl, by unfold Slots; decide +kernel, by decide +kernel⟩
theorem issuerSc (com res n : Nat) (sts : List Nat) : Issuer (wSc (gA 0 n) (scrC com res) sts) 32 0 (gA 0 n) := ⟨rfl, rfl⟩
theorem calmSc (com res n : Nat) (sts : List Nat) : Calm (wSc (gA 0 n) (scrC com res) sts) (gA 0 n) bH := ⟨rfl, rfl, rfl, rfl⟩
theorem elecA (n : Nat) : elects (gA 0 n) hv = true := by
  show elects gT hv = true
  decide +kernel
/-- A request for a scroll over an append tensor of one folio. -/
def rqScr : Nat := mkRec [(111, 64, 0x6000), (175, 128, 0x5000)]
def wNew (r : Nat) (sc : AMap Scroll) : State :=
  below (below { wG (gE 0x2000 0) with scrolls := sc, parts := [(0, { ctxBase := 0x20000, ceil := 15, frzBase := 0x40000, scrBase := 0x1000, dirBase := 0x3000 })] }
    0x3000 32 (mkRec [(47, 0, 0x3800), (79, 64, 1), (95, 80, 1), (103, 96, 2), (104, 104, 1), (105, 105, 1), (119, 112, 32)])) 0x2000 32 r
/-- A fill for the group and one for every lane; a fork of more than is committed, to no scroll and to an empty one; a handle bound
and unbound; a new scroll granted, with none free, and refused. -/
theorem witness_ScrollWork :
    (∀ v : Bool, ∃ (s : State) (gid : Nat) (busy : BitVec 10) (g : Group) (p : P) (b : Block) (id : Nat) (c : Scroll), Issuer s gid busy g ∧ elects g p.h = true ∧ Calm s g b ∧ Bound s g (shNo p.a) true id c ∧ g.fillIn = none ∧
      ((channelOf s 1 (gPair g) (gCtx s g)).filter (fun x => x.2.kind.isFill)).length < 16 ∧ (fillList g p).length = (if v then 32 else 1) ∧
      (∀ x ∈ fillList g p, 32 * fld x.2 63 48 + c.slotBytes ≤ b.size ∧ spPoison b (32 * fld x.2 63 48) c.slotBytes = false)) ∧
    (∀ x ∈ [65 * 2 ^ 32, 64 * 2 ^ 32 + 1], ∃ (s : State) (gid : Nat) (busy : BitVec 10) (g : Group) (p : P) (b : Block) (id : Nat) (c : Scroll), Issuer s gid busy g ∧ elects g p.h = true ∧ Calm s g b ∧
      Bound s g (shNo p.a) false id c ∧ homeBusy s (gPart s g) id 0 = false ∧ rdSn g (sNum p.b.opnd) = x ∧ c.com = 64 ∧ liveScroll s (gPart s g) (x % 2 ^ 32) = if x % 2 = 0 then some c else none) ∧
    (∀ h : BitVec 3, ∃ (s : State) (gid : Nat) (busy : BitVec 10) (g : Group) (p : P) (b : Block), Issuer s gid busy g ∧ elects g p.h = true ∧ Calm s g b ∧ p.d = .other (.sh h)) ∧
    (∀ v : Bool, ∃ (s : State) (gid : Nat) (busy : BitVec 10) (g : Group) (p : P) (b : Block) (s1 : State) (r : Nat), Issuer s gid busy g ∧ elects g p.h = true ∧ Calm s g b ∧
      ReadsRec s gid g (regAddr g p) 32 32 s1 r ∧ (mfind s1.groups gid).isSome = true ∧
      snewOk s1 (gPart s1 g) (gCtx s1 g) r = v ∧
      (v = true → ∃ i d fs, (List.range (2 ^ scrLogEff (getPart s1 (gPart s1 g)))).find? (fun i =>
          match mfind s1.scrolls (scrKey (gPart s1 g) i) with | some c => c.st == 0 | none => true) = some i ∧ dirRec s1 (gPart s1 g) (r % 2 ^ 32) = some d ∧
        scrFrames s1 (gPart s1 g) (Scroll.mk (r % 2 ^ 32) 1 (gCtx s1 g % 64) 0 0 0 (fld r 111 64) (fld r 175 128) (64 * dtCols d) (dtSlot d) (dtFmt d)) 0 (64 * dtCols d) = (fs, none))) := by
  refine ⟨fun v => ?_, fun x hx => ?_, fun h => ⟨wSc (gA 0 0) (scrC 0 0) [], 32, 0, gA 0 0, { pS with d := .other (.sh h) }, bH, issuerSc .., elecA 0, calmSc .., rfl⟩, fun v => ?_⟩
  · cases v
    · exact ⟨wSc (gA 0 (4095 * 2 ^ 48)) (scrC 0 64) [], 32, 0, gA 0 (4095 * 2 ^ 48), pS, bH, 0, scrC 0 64, issuerSc .., elecA _, calmSc .., ⟨by decide +kernel, by decide +kernel, fun _ => by decide +kernel⟩, rfl, by decide +kernel⟩
    · exact ⟨wSc (gA 0 0) (scrC 0 64) [], 32, 0, gA 0 0, { pS with b := .op (.v 8) }, bH, 0, scrC 0 64, issuerSc .., elecA _, calmSc .., ⟨by decide +kernel, by decide +kernel, fun _ => by decide +kernel⟩, rfl, by decide +kernel⟩
  · simp at hx
    rcases hx with rfl | rfl
    · exact ⟨wSc (gA 0 (65 * 2 ^ 32)) (scrC 64 64) [], 32, 0, gA 0 (65 * 2 ^ 32), pS, bH, 0, scrC 64 64, issuerSc .., elecA _, calmSc .., ⟨by decide +kernel, by decide +kernel, fun _ => by decide +kernel⟩, by decide +kernel⟩
    · exact ⟨wSc (gA 0 (64 * 2 ^ 32 + 1)) (scrC 64 64) [], 32, 0, gA 0 (64 * 2 ^ 32 + 1), pS, bH, 0, scrC 64 64, issuerSc .., elecA _, calmSc .., ⟨by decide +kernel, by decide +kernel, fun _ => by decide +kernel⟩, by decide +kernel⟩
  · cases v
    · exact ⟨wNew (2 ^ 32) [], 32, 0, gE 0x2000 0, pE, bT, _, 2 ^ 32, ⟨rfl, rfl⟩, by decide +kernel, ⟨rfl, rfl, rfl, rfl⟩, reads (2 ^ 32) (by decide +kernel), by decide +kernel, by decide +kernel, nofun⟩
    · exact ⟨wNew rqScr [], 32, 0, gE 0x2000 0, pE, bT, _, rqScr, ⟨rfl, rfl⟩, by decide +kernel, ⟨rfl, rfl, rfl, rfl⟩, reads rqScr (by decide +kernel), by decide +kernel, by decide +kernel,
        fun _ => ⟨0, dirRaw (wNew rqScr []) 0 0, [(0, 0), (0, 0)], by decide +kernel⟩⟩
/-- A fork of 64 slots into an empty scroll, its folio's count below and at the last. -/
theorem witness_ScrollWork_fork : ∀ v : Bool, ∃ (s : State) (g : Group) (c d : Scroll) (fs fd : _), Bound s g 3 false 0 c ∧ homeBusy s (gPart s g) 0 0 = false ∧ homeBusy s (gPart s g) 1 0 = false ∧ c.com = 64 ∧ liveScroll s (gPart s g) 1 = some d ∧ d.owner = gCtx s g % 64 ∧
    d.res = 0 ∧ d.slotBytes = c.slotBytes ∧ d.format = c.format ∧ 64 = d.cap ∧ scrFrames s (gPart s g) c 0 64 = (fs, none) ∧
    (let u1 := flushSlots s fs c 0 64
     let u := flushSlots u1 fd d 0 64
     let keys := [rdMap u fs (gPart s g) c 0]
     scrFrames u1 (gPart u1 g) d 0 64 = (fd, none) ∧ keysBar u keys = none ∧
     (∀ k ∈ keys, enState (getCat s k).record ≠ 1 ∧ enState (getCat s k).record ≠ 4) ∧ ((shareAll (releasePair u (gPair g) 2) keys).isSome = v)) := by
  intro v
  cases v
  · exact ⟨{ wSc (gA 0 0) (scrC 64 64) [] with scrolls := [(0, scrC 64 64), (1, { scrT with tensor := 1, mapVa := 0x7000, slotVa := 0x8000 })], cat := [(0, { record := mkRec [(47, 45, 2), (87, 72, 65535)], part := 0 })] }, gA 0 0, scrC 64 64,
    { scrT with tensor := 1, mapVa := 0x7000, slotVa := 0x8000 }, [(0, 0), (0, 0)], [(0, 0), (0, 0)], ⟨by decide +kernel, by decide +kernel, nofun⟩, by decide +kernel⟩
  · exact ⟨{ wSc (gA 0 0) (scrC 64 64) [] with scrolls := [(0, scrC 64 64), (1, { scrT with tensor := 1, mapVa := 0x7000, slotVa := 0x8000 })], cat := [(0, { record := mkRec [(47, 45, 2), (87, 72, 65534)], part := 0 })] }, gA 0 0, scrC 64 64,
    { scrT with tensor := 1, mapVa := 0x7000, slotVa := 0x8000 }, [(0, 0), (0, 0)], [(0, 0), (0, 0)], ⟨by decide +kernel, by decide +kernel, nofun⟩, by decide +kernel⟩
/-- A fork of one slot: the rest of its folio is copied, with storage and without. -/
theorem witness_ScrollWork_tail : ∀ v : Bool, ∃ (s : State) (g : Group) (c d : Scroll) (fs fd : _) (s1 : State), Bound s g 3 false 0 c ∧ homeBusy s (gPart s g) 0 0 = false ∧ homeBusy s (gPart s g) 1 0 = false ∧
    1 ≤ c.com ∧ liveScroll s (gPart s g) 1 = some d ∧ d.owner = gCtx s g % 64 ∧ d.res = 0 ∧ d.slotBytes = c.slotBytes ∧ d.format = c.format ∧ 1 ≤ d.cap ∧ scrFrames s (gPart s g) c 0 1 = (fs, none) ∧
    (let u1 := flushSlots s fs c 0 1
     let u := flushSlots u1 fd d 0 1
     let dk := entryKey (gPart s g) d.tensor 0 0
     scrFrames u1 (gPart u1 g) d 0 1 = (fd, none) ∧ keysBar u [rdMap u fs (gPart s g) c 0, dk] = none ∧ enState (getCat s dk).record ≠ 1 ∧ enState (getCat s dk).record ≠ 4 ∧
     shareAll (releasePair u (gPair g) 2) [] = some s1 ∧
     (poolTake (getPart s1 (gPart s g)).pool (enClass (getCat s1 (rdMap u fs (gPart s g) c 0)).record)).isSome = v) :=
  fun v => ⟨updPart { wSc (gA 0 0) (scrC 64 64) [] with scrolls := [(0, scrC 64 64), (1, { scrT with tensor := 1, mapVa := 0x7000, slotVa := 0x8000 })] } 0
      (fun q => { q with pool := if v then [(12, 0x200000)] else [] }), gA 0 0, scrC 64 64,
    { scrT with tensor := 1, mapVa := 0x7000, slotVa := 0x8000 }, [(0, 0), (0, 0)], [(0, 0), (0, 0)], _, by cases v <;> exact ⟨by decide +kernel, by decide +kernel, nofun⟩,
    by cases v <;> decide +kernel, by cases v <;> decide +kernel, by decide, by cases v <;> rfl, by cases v <;> decide +kernel, rfl, rfl, rfl, by decide, by cases v <;> decide +kernel,
    by cases v <;> decide +kernel, by cases v <;> decide +kernel, by cases v <;> decide +kernel, by cases v <;> decide +kernel, rfl, by cases v <;> decide +kernel⟩
/-- Fills that could not all enter the channel: as many as it has room for go on, and with 16 in it none. -/
theorem witness_ScrollWork_room : ∀ n ∈ [0, 16], ∃ (s : State) (gid : Nat) (busy : BitVec 10) (g : Group) (p : P) (b : Block), Issuer s gid busy g ∧ elects g p.h = true ∧ Calm s g b ∧
    g.fillIn = some (0, 32, 10) ∧ ((channelOf s 1 (gPair g) (gCtx s g)).filter (fun x => x.2.kind.isFill)).length = n ∧ ((fillList g p).drop 10).length = 22 ∧
    ∀ x ∈ (fillList g p).drop 10, spPoison b (32 * fld x.2 63 48) 32 = false := by
  intro n hn
  refine ⟨{ wSc { gA 0 0 with fillIn := some (0, 32, 10) } (scrC 0 64) [] with ops := (List.range n).map (fun i => (10 + i, opA (.fill 0 0 0 [] 0 false 3) .queued)) }, 32, 0,
    { gA 0 0 with fillIn := some (0, 32, 10) }, { pS with b := .op (.v 8) }, bH, ⟨rfl, rfl⟩, elecA 0, ⟨rfl, rfl, rfl, rfl⟩, rfl, ?_⟩
  simp at hn
  rcases hn with rfl | rfl <;> decide +kernel
/-- A group whose instruction is on its way to a scroll that is gone, its operand small enough for each of them. -/
theorem witness_ScrollWork_sent : ∃ (s : State) (gid : Nat) (busy : BitVec 10) (g : Group) (p : P) (b : Block), Issuer s gid busy g ∧ elects g p.h = true ∧ Calm s g b ∧
    g.st = .sent 1 ∧ liveScroll s (gPart s g) 1 = none ∧ valN g p.b.opnd < 2 ^ 24 ∧ 32 * p.ext.toNat + 4 * (rdSn g (sNum p.b.opnd) / 2 ^ 48) ≤ b.size ∧
    releaseDone (releaseWrites s gid g 2) gid g 2 = true ∧ (mfind (releaseWrites s gid g 2).groups gid).isSome = true :=
  ⟨{ wSc { gA 0 3 with st := .sent 1 } (scrC 0 0) [] with cur := .group 32 0 }, 32, 0, { gA 0 3 with st := .sent 1 }, pS, bH, ⟨rfl, rfl⟩, by decide +kernel, ⟨rfl, rfl, rfl, rfl⟩, rfl,
    by decide +kernel⟩
theorem elecB (r n : Nat) : elects (gA r n) hv = true := by
  show elects gT hv = true
  decide +kernel
/-- A way of the index for hash 0 and folio 0, with a prefix word. -/
def wIx (com q : Nat) (e : Nat) (x y : Nat) : State :=
  { memWrite (wG (wrS (gA 0 x) 9 (BitVec.ofNat 64 y))) 0x9000 32 (mkRec [(112, 112, 1), (255, 192, q)]) with
    scrolls := [(0, scrC com 64)], blocks := [(1, bH)], cat := [(0, { record := mkRec [(47, 45, e)], part := 0 })],
    parts := [(0, { ctxBase := 0x20000, ceil := 15, frzBase := 0x40000, scrBase := 0x2000, idxBase := 0x9000, dirBase := 0x3000 })] }
/-- Lookups that find no way, another prefix, and a standing folio; additions refused for each reason and made; a folio's word read
at the last folio; a mirror loaded; a read of no slot at the end; the best 1 of 1, and requests out of range. -/
theorem witness_ScrollReads :
    (∀ x ∈ [(1, 7), (0, 8), (0, 7)], ∃ (s : State) (gid : Nat) (busy : BitVec 10) (g : Group) (p : P) (b : Block) (c : Scroll), Issuer s gid busy g ∧ elects g p.h = true ∧ Calm s g b ∧
      (rdSn g (sNum p.a), rdSn g (sNum p.a + 1)) = x ∧ (findWay s (gPart s g) x.1 = none ↔ x.1 = 1) ∧
      (∀ w ∈ findWay s (gPart s g) x.1, (fld w.2 255 192 = x.2 ↔ x.2 = 7) ∧ homeBusy s (gPart s g) (fld w.2 95 64) 0 = false ∧ liveScroll s (gPart s g) (fld w.2 95 64) = some c ∧ fld w.2 111 96 = 0 ∧ c.com = 64 ∧
        scrFrames s (gPart s g) c 0 1 = ([(0, 0), (0, 0)], none) ∧ 
        (let key := rdMap (flushSlots s [(0, 0), (0, 0)] c 0 1) [(0, 0), (0, 0)] (gPart s g) c 0
         keysBar s [key] = none ∧ identity s key = fld w.2 191 128 ∧ enState (getCat s key).record = 2))) ∧
    (∀ x ∈ [(63, 0, 0), (64, 0, 5), (64, 0, 0), (64, 1, 0)], ∃ (s : State) (gid : Nat) (busy : BitVec 10) (g : Group) (p : P) (b : Block) (c : Scroll), Issuer s gid busy g ∧ elects g p.h = true ∧ Calm s g b ∧
      Bound s g (shNo p.a) true 0 c ∧ homeBusy s (gPart s g) 0 0 = false ∧ p.ext = 0 ∧ (c.com, rdSn g (sNum p.b.opnd), rdSn g (sNum p.b.opnd + 1)) = x ∧ scrFrames s (gPart s g) c 0 64 = ([(0, 0), (0, 0)], none) ∧
      (let u := flushSlots s [(0, 0), (0, 0)] c 0 64
       keysBar u [rdMap u [(0, 0), (0, 0)] (gPart s g) c 0] = none) ∧
      (findWay s (gPart s g) x.2.1 = none ↔ x.2.1 = 1)) ∧
    (∃ (s : State) (gid : Nat) (busy : BitVec 10) (g : Group) (p : P) (b : Block) (c : Scroll), Issuer s gid busy g ∧ elects g p.h = true ∧ Calm s g b ∧ Bound s g (shNo p.a) false 0 c ∧ homeBusy s (gPart s g) 0 0 = false ∧
      valN g p.b.opnd = 0 ∧ 0 < c.com ∧ scrFrames s (gPart s g) c 0 1 = ([(0, 0), (0, 0)], none) ∧
      (let u := flushSlots s [(0, 0), (0, 0)] c 0 1
       keysBar u [rdMap u [(0, 0), (0, 0)] (gPart s g) c 0] = none) ∧ mfind b.cl (8 * (g.core % 2) + shNo p.a) = some 5) ∧
    (∃ (s : State) (gid : Nat) (busy : BitVec 10) (g : Group) (p : P) (b : Block) (c : Scroll) (f : Nat) (fs : _) (u : State) (vs : List Nat), Issuer s gid busy g ∧ elects g p.h = true ∧ Calm s g b ∧
      Bound s g (shNo p.a) false 0 c ∧ homeBusy s (gPart s g) 0 0 = false ∧ rdSn g (sNum p.b.opnd) = f ∧ f = c.com ∧ scrFrames s (gPart s g) c f (f + 0) = (fs, none) ∧
      readAllSlots (flushSlots s fs c f (f + 0)) (gPair g) (gPart s g) (gCtx s g) c fs [] f (f + 0) = (u, .ok vs) ∧ (∀ x ∈ u.groups, x.2.st = .ready)) ∧
    (∀ x ∈ [0, 2 ^ 32 + 2 ^ 48 + 64, 2 ^ 32 + 2 ^ 48 + 63], ∃ (s : State) (gid : Nat) (busy : BitVec 10) (g : Group) (p : P) (b : Block) (c : Scroll), Issuer s gid busy g ∧ elects g p.h = true ∧ Calm s g b ∧
      Bound s g (shNo p.a) false 0 c ∧ homeBusy s (gPart s g) 0 0 = false ∧ rdSn g (sNum p.b.opnd) = x ∧ c.res = 64 ∧ 32 * p.ext.toNat + 4 = b.size - 28 ∧ (∀ x ∈ s.groups, x.2.st = .ready) ∧
      (x % 2 ^ 32 = 63 → scrFrames s (gPart s g) c 63 64 = ([(0, 0), (0, 0)], none))) := by
  refine ⟨fun x hx => ?_, fun x hx => ?_,
    ⟨{ wIx 1 0 2 0 0 with blocks := [(1, { bH with cl := [(3, 5)] })] }, 32, 0, wrS (gA 0 0) 9 0, pS, { bH with cl := [(3, 5)] }, scrC 1 64, ⟨rfl, rfl⟩, by decide +kernel,
      ⟨by decide +kernel, rfl, rfl, rfl⟩, ⟨by decide +kernel, by decide +kernel, nofun⟩, by decide +kernel⟩,
    ⟨wIx 9 0 2 9 0, 32, 0, wrS (gA 0 9) 9 0, pS, bH, scrC 9 64, 9, [], _, [], ⟨rfl, rfl⟩, by decide +kernel,
      ⟨by decide +kernel, rfl, rfl, rfl⟩, ⟨by decide +kernel, by decide +kernel, nofun⟩, by decide +kernel, by decide +kernel, by decide +kernel, by decide +kernel, rfl, by decide +kernel⟩, fun x hx => ?_⟩
  · simp at hx
    rcases hx with rfl | rfl | rfl
    · exact ⟨wIx 64 7 2 1 7, 32, 0, wrS (gA 0 1) 9 7, { pS with a := .s 8 }, bH, scrC 64 64, ⟨rfl, rfl⟩, by decide +kernel, ⟨by decide +kernel, rfl, rfl, rfl⟩, by decide +kernel⟩
    · exact ⟨wIx 64 7 2 0 8, 32, 0, wrS (gA 0 0) 9 8, { pS with a := .s 8 }, bH, scrC 64 64, ⟨rfl, rfl⟩, by decide +kernel, ⟨by decide +kernel, rfl, rfl, rfl⟩, by decide +kernel⟩
    · exact ⟨wIx 64 7 2 0 7, 32, 0, wrS (gA 0 0) 9 7, { pS with a := .s 8 }, bH, scrC 64 64, ⟨rfl, rfl⟩, by decide +kernel, ⟨by decide +kernel, rfl, rfl, rfl⟩, by decide +kernel⟩
  · simp at hx
    rcases hx with rfl | rfl | rfl | rfl
    · exact ⟨wIx 63 7 2 0 0, 32, 0, wrS (gA 0 0) 9 0, pS, bH, scrC 63 64, ⟨rfl, rfl⟩, by decide +kernel, ⟨by decide +kernel, rfl, rfl, rfl⟩, ⟨by decide +kernel, by decide +kernel, fun _ => by decide +kernel⟩, by decide +kernel⟩
    · exact ⟨wIx 64 7 2 0 5, 32, 0, wrS (gA 0 0) 9 5, pS, bH, scrC 64 64, ⟨rfl, rfl⟩, by decide +kernel, ⟨by decide +kernel, rfl, rfl, rfl⟩, ⟨by decide +kernel, by decide +kernel, fun _ => by decide +kernel⟩, by decide +kernel⟩
    · exact ⟨wIx 64 7 2 0 0, 32, 0, wrS (gA 0 0) 9 0, pS, bH, scrC 64 64, ⟨rfl, rfl⟩, by decide +kernel, ⟨by decide +kernel, rfl, rfl, rfl⟩, ⟨by decide +kernel, by decide +kernel, fun _ => by decide +kernel⟩, by decide +kernel⟩
    · exact ⟨wIx 64 7 2 1 0, 32, 0, wrS (gA 0 1) 9 0, pS, bH, scrC 64 64, ⟨rfl, rfl⟩, by decide +kernel, ⟨by decide +kernel, rfl, rfl, rfl⟩, ⟨by decide +kernel, by decide +kernel, fun _ => by decide +kernel⟩, by decide +kernel⟩
  · simp at hx
    rcases hx with rfl | rfl | rfl
    · exact ⟨wIx 64 7 2 0 0, 32, 0, wrS (gA 0 0) 9 0, { pS with ext := 4095 }, bH, scrC 64 64, ⟨rfl, rfl⟩, by decide +kernel, ⟨by decide +kernel, rfl, rfl, rfl⟩, ⟨by decide +kernel, by decide +kernel, nofun⟩, by decide +kernel⟩
    · exact ⟨wIx 64 7 2 (2 ^ 32 + 2 ^ 48 + 64) 0, 32, 0, wrS (gA 0 (2 ^ 32 + 2 ^ 48 + 64)) 9 0, { pS with ext := 4095 }, bH, scrC 64 64, ⟨rfl, rfl⟩, by decide +kernel, ⟨by decide +kernel, rfl, rfl, rfl⟩, ⟨by decide +kernel, by decide +kernel, nofun⟩, by decide +kernel⟩
    · exact ⟨wIx 64 7 2 (2 ^ 32 + 2 ^ 48 + 63) 0, 32, 0, wrS (gA 0 (2 ^ 32 + 2 ^ 48 + 63)) 9 0, { pS with ext := 4095 }, bH, scrC 64 64, ⟨rfl, rfl⟩, by decide +kernel, ⟨by decide +kernel, rfl, rfl, rfl⟩, ⟨by decide +kernel, by decide +kernel, nofun⟩, by decide +kernel⟩
/-- A way whose scroll is gone. -/
theorem witness_ScrollReads_stale : ∃ (s : State) (gid : Nat) (busy : BitVec 10) (g : Group) (p : P) (b : Block) (k w : Nat), Issuer s gid busy g ∧ elects g p.h = true ∧ Calm s g b ∧
    findWay s (gPart s g) (rdSn g (sNum p.a)) = some (k, w) ∧ fld w 255 192 = rdSn g (sNum p.a + 1) ∧ homeBusy s (gPart s g) (fld w 95 64) 0 = false ∧ liveScroll s (gPart s g) (fld w 95 64) = none :=
  ⟨{ wIx 64 7 2 0 7 with scrolls := [] }, 32, 0, wrS (gA 0 0) 9 7, { pS with a := .s 8 }, bH, 0, mkRec [(112, 112, 1), (255, 192, 7)], ⟨rfl, rfl⟩, by decide +kernel,
    ⟨by decide +kernel, rfl, rfl, rfl⟩, by decide +kernel⟩
/-- An append folio with one segment, in slot 5, stored uncoded at 0x2000; and its Open entry. -/
def apBits : Nat := appendSeg (newAppend 0 0 32 2 0 0) 5 (makeSeg 2 32 7 none true).1
def apEntry : Nat := mkRec [(41, 0, 0x40), (47, 45, 3), (62, 48, appendLen apBits), (71, 64, 2), (87, 72, 1), (119, 104, crc16 apBits 32)]
def wAp : State := below { wNew 0 [] with cat := [(entryKey 0 0 0 0, { record := apEntry, part := 0 })] } 0x2000 200 apBits
theorem witness_ScrollReads_slots : ∃ (s : State) (part ctx sb key e : Nat), lookup s part (keyTensor key) (keyRow key) (keyCol key) = .ok e ∧
    enSector e + enLen e ≤ 2 ^ 49 ∧ s.eccDc = [] ∧
    (∀ i, i < enLen e → ¬ DirtyAt s (enSector e + i) ∧ mfind s.ecc (granOf (enSector e + i)) = none ∧ grPoison s (granOf (enSector e + i)) = false) ∧
    (let bits := memRead s (enSector e) (enLen e)
     (readSegs (entOf (entryKey part (keyTensor key) (keyRow key) (keyCol key)) e) sb bits (legendFor s ctx bits) [5]).isOk = true) := by
  have h : ∀ i, i < enLen apEntry → mfind wAp.ecc (granOf (enSector apEntry + i)) = none ∧ grPoison wAp (granOf (enSector apEntry + i)) = false := by decide +kernel
  refine ⟨wAp, 0, 0, 32, entryKey 0 0 0 0, apEntry, by decide +kernel, by decide +kernel, rfl, fun i hi => ⟨?_, h i hi⟩, by decide +kernel⟩
  rintro (⟨x, hx, _⟩ | ⟨x, hx, _⟩) <;> exact nomatch hx
/-- A handle bound; a bond register within its limits; a limit; runs of 15 steps and of one, at the end of the block. -/
theorem witness_ChainInstructions :
    (∀ h : BitVec 12, ∃ (s : State) (gid : Nat) (busy : BitVec 10) (g : Group) (p : P) (b : Block), Issuer s gid busy g ∧ elects g p.h = true ∧ Calm s g b ∧ p.a = .imm h) ∧
    (∀ k : BitVec 4, ∃ (s : State) (gid : Nat) (busy : BitVec 10) (g : Group) (p : P) (b : Block), Issuer s gid busy g ∧ elects g p.h = true ∧ Calm s g b ∧ p.d = .other (.bd k) ∧
      bdOk k.toNat (rdSn g (sNum p.a)) = true) ∧
    (∀ k : BitVec 4, ∃ (s : State) (gid : Nat) (busy : BitVec 10) (g : Group) (p : P) (b : Block), Issuer s gid busy g ∧ elects g p.h = true ∧ Calm s g b ∧ p.a = .bd k) ∧
    (∃ (s : State) (gid : Nat) (busy : BitVec 10) (g : Group) (p : P) (b : Block), Issuer s gid busy g ∧ elects g p.h = true ∧ Calm s g b ∧ limOk (rdSn g (sNum p.a)) = true) ∧
    (∀ single : Bool, ∃ (s : State) (gid : Nat) (busy : BitVec 10) (g : Group) (p : P) (b : Block) (off : Nat) (id : Nat), Issuer s gid busy g ∧ elects g p.h = true ∧ Calm s g b ∧
      (channelOf s 4 (gPair g) (gCtx s g)).length < 16 ∧
      (let w := rdSn g (sNum p.b.opnd)
       (off : Int) = (rdSn g (sNum p.a) : Int) + p.off ∧ rdSn g (sNum p.a) < 2 ^ 32 ∧ off % 32 = 0 ∧ w < 2 ^ 24 ∧ w % 2 ^ 16 ≠ 0 ∧ (single = true ↔ fld w 19 16 = 0) ∧ w / 2 ^ 20 ≤ 1 ∧
       off + 32 * (if single then 1 else fld w 19 16) = b.size ∧ limBase b.blim + 2 * limSize b.blim ≤ b.size ∧ mfind b.ch p.chain = some id)) := by
  refine ⟨fun h => ⟨wG gT, 32, 0, gT, { p0 with a := .imm h }, bT, issuer_wG _, elec, ⟨rfl, rfl, rfl, rfl⟩, rfl⟩, fun k => ?_, fun k => ⟨wG gT, 32, 0, gT, { p0 with a := .bd k }, bT, issuer_wG _, elec, ⟨rfl, rfl, rfl, rfl⟩, rfl⟩,
    ⟨wG gT, 32, 0, gT, { p0 with a := .s 2 }, bT, issuer_wG _, by decide +kernel, ⟨rfl, rfl, rfl, rfl⟩, by decide +kernel⟩, fun v => ?_⟩
  · by_cases hk : k = 0
    · subst hk
      exact ⟨wG (gA 1024 0), 32, 0, gA 1024 0, { p0 with a := .s 4, d := .other (.bd 0) }, bT, issuer_wG _, by decide +kernel, ⟨by decide +kernel, rfl, rfl, rfl⟩, rfl, by decide +kernel⟩
    · refine ⟨wG (gA (1024 + 256 * 2 ^ 16 + 256 * 2 ^ 32) 0), 32, 0, gA (1024 + 256 * 2 ^ 16 + 256 * 2 ^ 32) 0, { p0 with a := .s 4, d := .other (.bd k) }, bT, issuer_wG _, elecB _ _, ⟨by decide +kernel, rfl, rfl, rfl⟩, rfl, ?_⟩
      revert k
      decide +kernel
  · cases v
    · exact ⟨{ wG (gA (131072 - 480) (1 + 15 * 2 ^ 16 + 2 ^ 20)) with blocks := [(1, { bT with ch := [(0, 7)] })] }, 32, 0, gA (131072 - 480) (1 + 15 * 2 ^ 16 + 2 ^ 20),
        { p0 with a := .s 4, b := .op (.s 8) }, { bT with ch := [(0, 7)] }, 131072 - 480, 7, ⟨rfl, rfl⟩, by decide +kernel, ⟨by decide +kernel, rfl, rfl, rfl⟩, by decide +kernel⟩
    · exact ⟨{ wG (gA (131072 - 32) 65535) with blocks := [(1, { bT with ch := [(0, 7)] })] }, 32, 0, gA (131072 - 32) 65535,
        { p0 with a := .s 4, b := .op (.s 8) }, { bT with ch := [(0, 7)] }, 131072 - 32, 7, ⟨rfl, rfl⟩, by decide +kernel, ⟨by decide +kernel, rfl, rfl, rfl⟩, by decide +kernel⟩
/-- Hart 0 running queue 0 of context 0, which is the partition manager. -/
def wH (s : State) (q : Queue) : State := { s with queues := [(0, q)], harts := [(0, { queue := some 0 })], cur := .hart 0 }
def qR : Queue := { st := .running, prod := 8 }
theorem runs_wH (s : State) (q : Queue) : Runs (wH s q) 0 0 := ⟨rfl, rfl⟩
/-- Loop 1 open and not; counts 0, 1, 2; comparisons on both sides; launches held; records and grids accepted, refused, misaligned. -/
theorem witness_QueueCommands :
    (∃ (s : State) (h : Nat) (qk : Nat), Runs s h qk ∧ (∃ x ∈ (getQ s qk).loops, x.1 = (1 : BitVec 2).toNat) ∧
      (∀ c ∈ [1, 2], (getQ s qk).loops.find? (fun x => x.1 == (c : Nat)) = some (c, c, 0)) ∧ (∀ x ∈ (getQ s qk).loops, x.1 ≠ (3 : BitVec 2).toNat) ∧ (getQ s qk).launches ≠ []) ∧
    (∃ (s : State) (h : Nat) (qk : Nat) (pa : Nat), Runs s h qk ∧ hartTranslate s (qCtx s qk) (0x8000 : W64).toNat 0 = .ok pa ∧ hartTranslate s (qCtx s qk) (0x8000 : W64).toNat 3 = .ok pa ∧ windowFull s (qk / 64) 2 [pa] = false ∧ reachable s pa = true ∧
      (∀ f : BitVec 3, (cmpQ f.toNat (memRead s pa 8) (0 : W64).toNat = true ∨ cmpQ f.toNat (memRead s pa 8) (1 : W64).toNat = true ∨ cmpQ f.toNat (memRead s pa 8) (BitVec.allOnes 64).toNat = true ∨ f = 6) ∧
        (cmpQ f.toNat (memRead s pa 8) (0 : W64).toNat = false ∨ cmpQ f.toNat (memRead s pa 8) (1 : W64).toNat = false ∨ f = 7)) ∧ (getQ s qk).launches = []) ∧
    (∃ (s : State) (h : Nat) (qk : Nat) (m n : State) (pa : Nat), Runs s h qk ∧ (getQ s qk).launches = [] ∧ offer s (qCtx s qk) (0x5000 : W64).toNat none (some qk) = (m, .ok) ∧
      offer s (qCtx s qk) (0x5020 : W64).toNat none (some qk) = (s, .fail 3) ∧ gridRead s (qCtx s qk) (0x6000 : W64).toNat = (.ok pa, (0, 0, 0)) ∧
      offer s (qCtx s qk) (0x5000 : W64).toNat (some (0, 0, 0)) (some qk) = (n, .ok)) := by
  refine ⟨⟨wH (wG gT) { qR with loops := [(1, 1, 0), (2, 2, 0)], launches := [1] }, 0, 0, runs_wH _ _, by decide +kernel, by decide +kernel, by decide +kernel, by decide +kernel⟩,
    ⟨wH (wG gT) qR, 0, 0, 0x8000, runs_wH _ _, by decide +kernel⟩,
    ⟨wH (wRec 1) qR, 0, 0, (offer (wH (wRec 1) qR) 0 0x5000 none (some 0)).1, (offer (wH (wRec 1) qR) 0 0x5000 (some (0, 0, 0)) (some 0)).1, 0x6000, runs_wH _ _, by decide +kernel⟩⟩
/-- A queue of a context with and without the right; contexts of every state; save areas of no room and of enough. -/
theorem witness_ContextCommands :
    (∀ x ∈ [CSt.free, .idle, .running, .draining, .saved, .destroying], ∃ (s : State) (h : Nat) (qk : Nat) (pa : Nat), Runs s h qk ∧ (getQ s qk).st = .running ∧
      holdsRight s (qCtx s qk) 1 = true ∧ hartTranslate s (qCtx s qk) (0x8000 : W64).toNat 1 = .ok pa ∧ pa % 128 ≤ 120 ∧ windowFull s (qk / 64) 2 [pa] = false ∧ reachable s pa = true ∧
      (getCtx s (64 * (qk / 64) + (1 : BitVec 6).toNat)).st = x ∧ 1024 * fld (ctxDesc s 1) 223 192 < saveNeed s 1 ∧ sortedKeys s.blocks = true ∧ sortedKeys s.kernels = true) ∧
    (∃ (s : State) (h : Nat) (qk : Nat), Runs s h qk ∧ (getQ s qk).st = .running ∧ (getCtx s 0).st = .running ∧ saveNeed s 0 ≤ 1024 * fld (ctxDesc s 0) 223 192) ∧
    (∃ (s : State) (h : Nat) (qk : Nat), Runs s h qk ∧ (getQ s qk).st = .running ∧ holdsRight s (qCtx s qk) 1 = false) := by
  refine ⟨fun x hx => ⟨{ wH (wG gT) qR with ctxs := [(0, { st := .running }), (1, { st := x })] }, 0, 0, 0x8000, ⟨rfl, rfl⟩, ?_⟩,
    ⟨memWrite (wH { wT with groups := [], blocks := [], kernels := [] } qR) (0x20000 + 24) 4 8, 0, 0, ⟨rfl, by decide +kernel⟩, by decide +kernel⟩,
    ⟨{ wH (wG gT) { qR with ctx := 5 } with ctxs := [] }, 0, 0, ⟨rfl, by decide +kernel⟩, by decide +kernel⟩⟩
  simp at hx
  rcases hx with rfl | rfl | rfl | rfl | rfl | rfl <;> decide +kernel
/-- A queue in every state that a step acts on, met and not met, with its time run out and not; a hart with a Ready queue and
without. -/
theorem witness_QueueSteps :
    (∀ x ∈ [QSt.disabled, .idle, .ready, .running], ∃ (s : State) (qk : Nat), (getQ s qk).st = x ∧ x ≠ .failed) ∧
    (∀ t ∈ [8, 9], ∃ (s : State) (qk : Nat), (getQ s qk).st = .waiting ∧ refreshQ s qk = s ∧ (qMet s qk = none ↔ t = 9) ∧ (getQ s qk).wait = .target t) ∧
    (∀ t ∈ [4, 5], ∃ (s : State) (qk : Nat), (getQ s qk).st = .waiting ∧ (getQ s qk).wait = .sem 0 0x8000 1 5 ∧ s.time = t) ∧
    (∀ x ∈ [none, some 0], ∃ (s : State) (hart : Nat), (getHart s hart).frz = none ∧ (getHart s hart).queue = none ∧ (∀ n, n < 64 → refreshQ s (64 * (hart / 2) + n) = s) ∧
      pickQueue (readyQueues s hart) (getHart s hart).last = x) ∧
    (∀ w ∈ [QWait.none, .target 8, .words, .sem 0 0x8000 1 5, .kernels true], ∃ (s : State) (qk : Nat) (pa : Nat), (getQ s qk).wait = w ∧
      hartTranslate s (qCtx s qk) (wordVa (queueDesc s qk) (getQ s qk).rd) 0 = .ok pa ∧ hartTranslate s (qCtx s qk) 0x8000 0 = .ok 0x8000) ∧
    (∃ (l : List (Nat × Nat)) (last n : Nat), pickQueue l last = some n ∧ l.length = 3) := by
  refine ⟨fun x hx => ⟨{ wG gT with queues := [(0, { st := x })] }, 0, ?_⟩, fun t ht => ⟨memWrite { wG gT with queues := [(0, { st := .waiting, prod := 8, wait := .target t })] } 0x2100C 1 8, 0, ?_⟩,
    fun t _ => ⟨{ wG gT with time := t, queues := [(0, { st := .waiting, wait := .sem 0 0x8000 1 5 })] }, 0, rfl, rfl, rfl⟩, fun x hx => ?_,
    fun w hw => ⟨{ wG gT with queues := [(0, { st := .waiting, wait := w })] }, 0, 0, rfl, ?_⟩, ⟨[(0, 1), (5, 2), (9, 2)], 5, 9, by decide +kernel⟩⟩
  · simp at hx
    rcases hx with rfl | rfl | rfl | rfl <;> decide +kernel
  · simp at ht
    rcases ht with rfl | rfl <;> decide +kernel
  · simp at hx
    rcases hx with rfl | rfl
    · exact ⟨wG gT, 0, by decide +kernel, by decide +kernel, by decide +kernel, by decide +kernel⟩
    · exact ⟨{ wG gT with queues := [(0, { st := .ready, rd := 0 })] }, 0, by decide +kernel, by decide +kernel, by decide +kernel, by decide +kernel⟩
  · simp at hw
    rcases hw with rfl | rfl | rfl | rfl | rfl <;> decide +kernel
/-- A package with one operation, under number 2. -/
def wOp (e : Nat) (o : EOp) : State := { wF gT e with ops := [(2, o)], fresh := 3 }
def xTag (x : XRes) : Nat := match x with | .ok .. => 0 | .wait => 1 | .np => 2 | .freeze .. => 3 | .fault .. => 4
/-- A copy of 4 bytes from an address to scratchpad. -/
def cpy (a : Nat) : EK := .copy 0 [lrMem - 0x6000 + a, lrSpad] [0, 0, 4] none
theorem plain_wOp (e : Nat) (o : EOp) {a : Nat} (h : a < 0x20000) (k : 0x3200 ≤ a) : PlainAt (wOp e o) a := by
  intro x hx
  rw [List.mem_singleton.mp hx]
  have e : dirLogEff { ctxBase := 0x20000, ceil := 15, frzBase := 0x40000, dirBase := 0x3000, pool := [(12, 0x200000)] } = 4 := rfl
  have h1 : ¬ 0x20000 ≤ a := by omega
  have h2 : ¬ a < 0x3000 + 32 * 2 ^ 4 := by omega
  simp only [recMask, e, h1, h2, decide_false, Bool.and_false, Bool.false_and, Bool.false_eq_true, if_false]
/-- How a command's installs ended. -/
def instTag (x : InstR) : Nat := match x with | .done => 0 | .wait => 1 | .starved => 2 | .freeze .. => 3
/-- Commands at the head of a channel and behind another; reads that give bytes, and meet a missing page and a violation; a parked
one; stores of staged bytes, of a pattern, of rows; a folio that finds its place, and that finds none. -/
theorem witness_TransferSteps :
    (∀ v : Bool, ∃ (s : State) (id : Nat) (o : EOp), mfind s.ops id = some o ∧ o.kind.cls = 0 ∧ o.st = .queued ∧ opBlocked s id o = v ∧ o.kind.reads = true) ∧
    (∃ (s : State) (id : Nat) (o : EOp) (u : State) (bs : List StByte) (n : Nat), mfind s.ops id = some o ∧ o.kind.cls = 0 ∧ o.st = .queued ∧ opBlocked s id o = false ∧ o.kind.reads = false ∧ o.order = 0 ∧
      xRead s id o = (u, .ok bs [] n)) ∧
    (∀ x ∈ [(0x6000, 0), (0x1000000000, 2), (2 ^ 48, 3)], ∃ (s : State) (id : Nat) (o : EOp), mfind s.ops id = some o ∧ o.kind.cls = 0 ∧ o.kind = cpy x.1 ∧ o.st = .reading ∧ xTag (xRead s id o).2 = x.2) ∧
    (∃ (s : State) (id : Nat) (o : EOp), mfind s.ops id = some o ∧ o.kind.cls = 0 ∧ o.st = .reading ∧ xTag (xRead s id o).2 = 4) ∧
    (∀ st ∈ [ESt.parked, .retrying], ∃ (s : State) (id : Nat) (o : EOp), mfind s.ops id = some o ∧ o.kind.cls = 0 ∧ o.st = st ∧ xTag (xRead s id o).2 = if st = .parked then 0 else 1) ∧
    (∃ (s : State) (id : Nat) (o : EOp) (b : Block), mfind s.ops id = some o ∧ o.kind.cls = 0 ∧ o.st = .publishing ∧ o.order < 2 ∧ xferBusy s o = false ∧ (fitOp s o).2 = ([], []) ∧ o.folios = [] ∧ (∀ d a n, o.kind ≠ .rowCpy d a n) ∧
      (∀ d a n, o.kind ≠ .rowIni d a n) ∧ mfind s.blocks o.block = some b ∧ (o.staged.map (fun x => (x.spad, x.addr))).Nodup ∧ o.staged.length = 2 ∧
      (∀ x ∈ o.staged, x.spad = false → reachable s x.addr = true ∧ PlainAt s x.addr)) ∧
    (∃ (s : State) (id : Nat) (o : EOp), mfind s.ops id = some o ∧ o.kind = .rowIni 0x6000 5 1024 ∧ o.st = .publishing ∧ o.order < 2 ∧ xferBusy s o = false ∧ (fitOp s o).2 = ([], []) ∧ o.folios = [] ∧ o.units.length = 1 ∧
      (∀ u ∈ o.units, u.2 = none ∧ u.1 % 1024 = 0 ∧ reachable s u.1 = true ∧ ∀ i, i < 1024 → PlainAt s (u.1 + i))) ∧
    (∃ (s : State) (id : Nat) (o : EOp), mfind s.ops id = some o ∧ o.kind = .rowCpy 0x6000 0x7000 1024 ∧ o.st = .publishing ∧ o.order < 2 ∧ xferBusy s o = false ∧ (fitOp s o).2 = ([], []) ∧ o.folios = [] ∧ o.units.length = 1 ∧
      (o.units.map (·.1)).Nodup ∧ (∀ u ∈ o.units, u.1 % 1024 = 0 ∧ reachable s u.1 = true ∧ (∀ i, i < 1024 → PlainAt s (u.1 + i)) ∧ ∃ b, u.2 = some b ∧ b % 1024 = 0 ∧ b < 2 ^ 49 ∧
          (∀ i, i < 1024 → ¬ DirtyAt s (b + i)) ∧ ∀ w ∈ o.units, w.1 ≠ b)) ∧
    (∀ n ∈ [0, 1, 2, 3], ∃ (s : State) (id : Nat) (o : EOp), mfind s.ops id = some o ∧ o.kind.cls = 0 ∧ (o.st = .publishing ∨ o.st = .starved) ∧ o.order < 2 ∧ xferBusy s o = false ∧ (fitOp s o).2 = ([], []) ∧
      (∀ d a n, o.kind ≠ .rowCpy d a n) ∧ (∀ d a n, o.kind ≠ .rowIni d a n) ∧ instTag (installAll (publish s (fitOp s o).1) id o.folios).2.2 = n) ∧
    (∃ (s : State) (id : Nat) (o : EOp), o.st = .publishing ∧ o.order < 2 ∧ mfind s.ops id = some o ∧ o.kind.cls = 0 ∧ xferBusy s o = true) ∧
    (∀ k ∈ [cpy 0x6000, .copy 3 [lrSpad] [0, 0, 4] none, .stamp 0x8000 5, .copy 2 qRecs [0, 0, 2 ^ 24 + 1] none], ∃ (s : State) (id : Nat) (o : EOp) (b : Block), o.kind = k ∧ mfind s.blocks o.block = some b ∧
      xTag (xRead s id o).2 = 0) ∧ lrCat lrMem = false ∧ lrCat lrSpad = false ∧
    (∀ ori, ori < 2 → lrRank (qRecs.getD (1 + 2 * ori) 0) ≠ 0 → fmtBlk (lrFmt (qRecs.getD (1 + 2 * ori) 0)) ≠ 0) ∧
    (∃ (s : State) (f : StFolio) (r : Nat) (pa p0 : Nat) (q : State), dirRec s (keyPart f.key) (keyTensor f.key) = some r ∧ dtRetiring r = false ∧ (getCat s f.key).decs = 0 ∧
      entryPa s (keyPart f.key) r (keyRow f.key) (keyCol f.key) = .ok p0 ∧ enState (getCat s f.key).record = 0 ∧ allocBlock s (keyPart f.key) ((classFor f.len).getD 5) = (q, some pa)) := by
  refine ⟨fun v => ?_, ⟨wOp 0 (opA (.stamp 0x8000 5) .queued), 2, _, (xRead (wOp 0 (opA (.stamp 0x8000 5) .queued)) 2 (opA (.stamp 0x8000 5) .queued)).1,
      (List.range 8).map (fun i => ⟨false, 0x8000 + i, if i = 0 then 5 else 0⟩), 8, rfl, rfl, rfl, by decide +kernel, rfl, rfl, by decide +kernel⟩, fun x hx => ?_,
    ⟨wOp 0 (opA (.gather 0 0 5 [(0, 0)] none) .reading), 2, _, rfl, rfl, rfl, by decide +kernel⟩, fun st hs => ?_,
    ⟨wOp 0 { opA (cpy 0x6000) .publishing with staged := [⟨true, 131071, 1⟩, ⟨false, 0x8000, 2⟩] }, 2, _, bT, rfl, rfl, rfl, by decide, by decide +kernel, by decide +kernel, rfl, nofun, nofun, rfl, by decide, rfl, ?_⟩,
    ⟨wOp 0 { opA (.rowIni 0x6000 5 1024) .publishing with units := [(0x6000, none)] }, 2, _, rfl, rfl, rfl, by decide, by decide +kernel, by decide +kernel, rfl, rfl, ?_⟩,
    ⟨wOp 0 { opA (.rowCpy 0x6000 0x7000 1024) .publishing with units := [(0x6000, some 0x7000)] }, 2, _, rfl, rfl, rfl, by decide, by decide +kernel, by decide +kernel, rfl, rfl, by decide, ?_⟩, fun n hn => ?_,
    ⟨{ wOp 0 { opA (cpy 0x6000) .publishing with staged := [⟨false, 0x8000, 2⟩] } with stackCtl := [(0, { gangMask := 1 })] }, 2, _, rfl, by decide, rfl, rfl, by decide +kernel⟩,
    fun k hk => ?_, by decide +kernel, by decide +kernel, by decide +kernel,
    ⟨wF gT 0, { key := 0, bits := 0, len := 512, tag := 0, crc := 0 }, dirRaw (wF gT 0) 0 0, 0x200000, 0x3800, (allocBlock (wF gT 0) 0 0).1, by decide +kernel⟩⟩
  · cases v
    · exact ⟨wOp 0 (opA (cpy 0x6000) .queued), 2, _, rfl, rfl, rfl, by decide +kernel, rfl⟩
    · exact ⟨{ wOp 0 (opA (cpy 0x6000) .queued) with ops := [(1, opA (cpy 0x6000) .publishing), (2, opA (cpy 0x6000) .queued)] }, 2, _, rfl, rfl, rfl, by decide +kernel, rfl⟩
  · simp at hx
    rcases hx with rfl | rfl | rfl
    · exact ⟨wOp 0 (opA (cpy 0x6000) .reading), 2, _, rfl, rfl, rfl, rfl, by decide +kernel⟩
    · exact ⟨wOp 0 (opA (cpy 0x1000000000) .reading), 2, _, rfl, rfl, rfl, rfl, by decide +kernel⟩
    · exact ⟨wOp 0 (opA (cpy (2 ^ 48)) .reading), 2, _, rfl, rfl, rfl, rfl, by decide +kernel⟩
  · simp at hs
    rcases hs with rfl | rfl
    · exact ⟨wOp 0 (opA (cpy 0x6000) .parked), 2, _, rfl, rfl, rfl, by decide +kernel⟩
    · exact ⟨updPart (wOp 0 (opA (cpy 0x6000) .retrying)) 0 (fun q => { q with rmq := [{ va := 0, sizeLog := 16, ctx := 0, func := 0, gen := 1, phase := 1 }] }), 2, _, rfl, rfl, rfl, by decide +kernel⟩
  · intro x hx hs
    simp only [List.mem_cons, List.not_mem_nil, or_false] at hx
    rcases hx with rfl | rfl
    · exact nomatch hs
    · exact ⟨by decide +kernel, plain_wOp _ _ (by decide) (by decide)⟩
  · simp only [List.mem_singleton]
    rintro u rfl
    exact ⟨rfl, by decide, by decide +kernel, fun i hi => plain_wOp _ _ (Nat.lt_of_lt_of_le (Nat.add_lt_add_left hi 0x6000) (by decide)) (Nat.le_trans (by decide) (Nat.le_add_right 0x6000 i))⟩
  · simp only [List.mem_singleton]
    rintro u rfl
    exact ⟨by decide, by decide +kernel, fun i hi => plain_wOp _ _ (Nat.lt_of_lt_of_le (Nat.add_lt_add_left hi 0x6000) (by decide)) (Nat.le_trans (by decide) (Nat.le_add_right 0x6000 i)), 0x7000, rfl, by decide, by decide, fun i _ h => by rcases h with ⟨x, hx, -⟩ | ⟨x, hx, -⟩ <;> exact absurd hx List.not_mem_nil, by rintro w rfl; decide⟩
  · simp at hn
    rcases hn with rfl | rfl | rfl | rfl
    · exact ⟨wOp 0 (opA (cpy 0x6000) .publishing), 2, _, rfl, rfl, .inl rfl, by decide, by decide +kernel, by decide +kernel, nofun, nofun, by decide +kernel⟩
    · exact ⟨wOp (mkRec [(47, 45, 4)]) { opA (cpy 0x6000) .publishing with folios := [{ key := 0, bits := 0, len := 512, tag := 0, crc := 0 }] }, 2, _,
        rfl, rfl, .inl rfl, by decide, by decide +kernel, by decide +kernel, nofun, nofun, by decide +kernel⟩
    · exact ⟨updPart (wOp 0 { opA (cpy 0x6000) .starved with folios := [{ key := 0, bits := 0, len := 512, tag := 0, crc := 0 }] }) 0 (fun q => { q with pool := [] }), 2, _,
        rfl, rfl, .inr rfl, by decide, by decide +kernel, by decide +kernel, nofun, nofun, by decide +kernel⟩
    · exact ⟨memWrite (wOp 0 { opA (cpy 0x6000) .publishing with folios := [{ key := 0, bits := 0, len := 512, tag := 0, crc := 0 }] }) 0x10000 8 (mkRec [(0, 0, 1), (1, 1, 1), (5, 2, 1)]),
        2, _, rfl, rfl, .inl rfl, by decide, by decide +kernel, by decide +kernel, nofun, nofun, by decide +kernel⟩
  · simp only [List.mem_cons, List.not_mem_nil, or_false] at hk
    rcases hk with rfl | rfl | rfl | rfl
    · exact ⟨wOp 0 (opA (cpy 0x6000) .reading), 2, opA (cpy 0x6000) .reading, bT, rfl, rfl, by decide +kernel⟩
    · exact ⟨wOp 0 (opA (.copy 3 [lrSpad] [0, 0, 4] none) .reading), 2, opA (.copy 3 [lrSpad] [0, 0, 4] none) .reading, bT, rfl, rfl, by decide +kernel⟩
    · exact ⟨wOp 0 (opA (.stamp 0x8000 5) .reading), 2, opA (.stamp 0x8000 5) .reading, bT, rfl, rfl, by decide +kernel⟩
    · exact ⟨wOp 0 (opA (.copy 2 qRecs [0, 0, 2 ^ 24 + 1] none) .reading), 2, opA (.copy 2 qRecs [0, 0, 2 ^ 24 + 1] none) .reading, bT, rfl, rfl, by decide +kernel⟩
theorem alloc_some (s : State) (part n : Nat) (h : (getPart s part).pool = [(12, 0x200000)]) : ∃ q pa, allocBlock s part ((classFor n).getD 5) = (q, some pa) := by
  obtain ⟨a, ha⟩ := pool_some n
  exact ⟨_, a.2, by unfold allocBlock; rw [h, ha]⟩
/-- The same with a scroll of 4 reserved slots over tensor 0, in given states under tag 1. -/
def wFi (o : EOp) (st : Nat) : State :=
  memWrite { wOp 0 o with scrolls := [(0, scrC 0 4)] } 0x5018 8 (mkRec [(33, 32, st), (55, 40, 1)])
/-- The first GiB may only be read; or a Remove of it runs. -/
def roPage (s : State) : State := memWrite s 0x10000 8 (mkRec [(0, 0, 1), (1, 1, 1), (5, 2, 1)])
def rmPage (s : State) : State := updPart s 0 (fun q => { q with rmq := [{ va := 0, sizeLog := 16, ctx := 0, func := 0, gen := 1, phase := 1 }] })
/-- What a look at an entry found, and a folio. -/
def entTag (x : LookR) : Nat := match x with | .ok _ => 0 | .miss .. => 1 | .forbid .. => 2 | .wait => 3 | .np .. => 4
def folTag (x : FolR) : Nat := match x with | .ok _ => 0 | .wait => 1 | .fault .. => 2 | .freeze .. => 3
/-- Is a fill kept waiting by its entry, done, or stopped by a page? -/
def filTag (k : Option (Nat × TrR)) (b : Bool) : Nat := match k with | none => b.toNat | some (_, .forbid _) => 2 | _ => 3
/-- What a found folio's tile gives: a tile, an error, or no folio. -/
def tileTag (v : State) (id : Nat) : Nat :=
  match readFolio v id 0 0 0 (coRow 0) (coCol 0) 2 0xA5 with
  | (u, .ok f) => (match readTile (some (entOf f.key f.record)) f.bits (legendFor u 0 f.bits) with | .ok _ => 0 | .error _ => 1)
  | _ => 2
/-- A decode in the queue of a package with a Stored tile. -/
def wDq : State := { wD with ops := [(2, opA (.dec 0 0) .queued)], fresh := 3 }
set_option maxRecDepth 1000000 in
theorem decodes_wDq : tileTag wDq 2 = 0 := by decide +kernel
/-- A tile ready to be published in its entry of tensor t. -/
def wEnc (t : Nat) : State :=
  { wOp 0 (opA (.enc 0 t 0 false 8) .publishing) with
    cat := [(entryKey 0 t 0 0, { record := mkRec [(47, 45, 1)], part := 0, new := some (0x200000, 0, 200, 1, 0, 0) })] }
/-- Operations of the Burin and the Loupe at every stage; a fill of a Reserved slot and of one that is not; entries that may and may not
change; a scroll that ends; a mirror; a donation; a starved operation. -/
theorem witness_FolioSteps :
    (∀ v : Bool, ∃ (s : State) (id : Nat) (o : EOp) (c t slot : Nat) (col : Bool) (d : Nat), mfind s.ops id = some o ∧ o.kind = .enc c t slot col d ∧ o.st = .queued ∧ opBlocked s id o = v) ∧
    (∃ (s : State) (id : Nat) (o : EOp) (r e img : Nat) (b : Block), mfind s.ops id = some o ∧ o.kind = .enc 0 0 0 false 8 ∧ o.st = .queued ∧
      (∀ n, ∃ q pa, allocBlock s (o.ctx / 64) ((classFor n).getD 5) = (q, some pa)) ∧ opBlocked s id o = false ∧ dirRec s (o.ctx / 64) 0 = some r ∧ dtAppend r = false ∧ dtRetiring r = false ∧ entryAt s (o.ctx / 64) 0 (coRow 0) (coCol 0) = .ok e ∧ enState e = 0 ∧ legendOf s o.ctx 0 = some img ∧
      mfind s.blocks o.block = some b ∧ spPoison b (coOff 0) (tileBytes (dtFmt r)) = false) ∧
    (∀ x ∈ [0, 1, 2, 3, 4], ∃ (s : State) (id : Nat) (o : EOp) (g : Group) (t : Nat) (n : _), mfind s.ops id = some o ∧ o.kind = .enc 0 t 0 false 8 ∧ o.st = .publishing ∧
      entTag (entryAt s (o.ctx / 64) t (coRow 0) (coCol 0)) = x ∧
      (let key := entryKey (o.ctx / 64) t (coRow 0) (coCol 0)
       (getCat s key).new = some n ∧ (getCat s key).decs = 0 ∧ enState (getCat s key).record = 1) ∧ mfind s.groups o.gid = some g ∧ Stays g) ∧
    (∀ v : Bool, ∃ (s : State) (id : Nat) (o : EOp) (c t : Nat), mfind s.ops id = some o ∧ o.kind = .dec c t ∧ o.st = .queued ∧ opBlocked s id o = v ∧
      (v = false → isAppend s (o.ctx / 64) t = true)) ∧
    (∀ x ∈ [0, 1, 2, 3], ∃ (s : State) (id : Nat) (o : EOp), mfind s.ops id = some o ∧ o.kind = .dec 0 0 ∧ o.st = .queued ∧ opBlocked s id o = false ∧ isAppend s (o.ctx / 64) 0 = false ∧
      folTag (readFolio s id o.pair (o.ctx / 64) 0 (coRow 0) (coCol 0) 2 0xA5).2 = x ∧ (x = 0 → o.ctx = 0 ∧ tileTag s id = 1)) ∧
    (∃ (s : State) (id : Nat) (o : EOp), mfind s.ops id = some o ∧ o.kind = .dec 0 0 ∧ o.st = .queued ∧ opBlocked s id o = false ∧ isAppend s (o.ctx / 64) 0 = false ∧
      o.ctx = 0 ∧ tileTag s id = 0) ∧
    (∃ (s : State) (id : Nat) (o : EOp) (b : Block), mfind s.ops id = some o ∧ o.kind = .dec 0 0 ∧ o.st = .publishing ∧ mfind s.blocks o.block = some b) ∧
    (∀ st ∈ [0, 1], ∃ (s : State) (id : Nat) (o : EOp) (c : Scroll), mfind s.ops id = some o ∧ o.kind = .fill 0 3 1 (List.replicate 32 0) 0 true 3 ∧ opBlocked s id o = false ∧ o.stopped = false ∧ homeBusy s (o.ctx / 64) 0 id = false ∧
      liveScroll s (o.ctx / 64) 0 = some c ∧ 3 < c.res ∧ scrFrames s (o.ctx / 64) c 3 4 = ([(0, 0), (0, 0)], none) ∧
      (let m := flushSlots s [(0, 0), (0, 0)] c 3 4
       slState (rdSlot m [(0, 0), (0, 0)] c 3) = st ∧ slTag (rdSlot m [(0, 0), (0, 0)] c 3) = 1)) ∧
    (∀ x ∈ [0, 1, 2], ∃ (s : State) (id : Nat) (o : EOp) (c : Scroll), mfind s.ops id = some o ∧ o.kind = .fill 0 3 1 (List.replicate 32 0) 0 true 3 ∧
      homeBusy s (o.ctx / 64) 0 id = false ∧ opBlocked s id o = false ∧ o.stopped = false ∧
      liveScroll s (o.ctx / 64) 0 = some c ∧ 3 < c.res ∧ scrFrames s (o.ctx / 64) c 3 4 = ([(0, 0), (0, 0)], none) ∧
      (let m := flushSlots s [(0, 0), (0, 0)] c 3 4
       let key := rdMap m [(0, 0), (0, 0)] (o.ctx / 64) c 0
       slState (rdSlot m [(0, 0), (0, 0)] c 3) = 1 ∧ slTag (rdSlot m [(0, 0), (0, 0)] c 3) = 1 ∧
       filTag (keysBar m [key]) (fillEntry (installRelease m id) id o key c.slotBytes 0 3 true (List.replicate 32 0)).2 = x) ∧
      slotPa [(0, 0), (0, 0)] c 3 % 128 ≤ 120) ∧
    (∀ st ∈ [4, 5], ∃ (s : State) (key : Nat) (n : _) (r pa : Nat), enState (getCat s key).record = st ∧ s.regs = [] ∧ (getCat s key).decs = 0 ∧ (getCat s key).new = some n ∧
      dirRec s (keyPart key) (keyTensor key) = some r ∧ entryPa s (keyPart key) r (keyRow key) (keyCol key) = .ok pa) ∧
    (∃ (s : State) (key : Nat) (r id k : Nat) (o : EOp), enState (getCat s key).record = 4 ∧ dirRec s (keyPart key) (keyTensor key) = some r ∧
      entryPa s (keyPart key) r (keyRow key) (keyCol key) = .forbid k ∧ growerOf s key = some id ∧ mfind s.ops id = some o) ∧
    (∃ (s : State) (id : Nat) (o : EOp), mfind s.ops id = some o ∧ o.kind = .fill 0 3 1 (List.replicate 32 0) 0 true 3 ∧ homeBusy s (o.ctx / 64) 0 id = true) ∧
    (∃ (s : State) (key : Nat) (r : Nat), enState (getCat s key).record = 5 ∧ dirRec s (keyPart key) (keyTensor key) = some r ∧ entryPa s (keyPart key) r (keyRow key) (keyCol key) = .wait) ∧
    (∃ (s : State) (key : Nat), enState (getCat s key).record = 5 ∧ ∃ r ∈ s.regs, r.1 = key) ∧
    (∃ (s : State) (c : Scroll), mfind s.scrolls (scrKey 0 0) = some c ∧ c.st = 2 ∧ scrFrames s 0 c 0 c.res = ([(0, 0), (0, 0)], none) ∧
      (let m := flushSlots s [(0, 0), (0, 0)] c 0 c.res
       let keys := (List.range (ceilDiv c.res 64)).map (rdMap m [(0, 0), (0, 0)] 0 c)
       keysBar m keys = none ∧ ∀ k ∈ keys, enState (getCat m k).record ≠ 1 ∧ enState (getCat m k).record ≠ 4)) ∧
    (∃ (s : State) (b : Block) (c : Scroll), mfind s.blocks 1 = some b ∧
      (mfind b.sh 3).bind (liveScroll s ((mfind s.kernels b.kernel).map (·.ctx / 64) |>.getD 0)) = some c) ∧
    (∃ (s : State), (getPart s 0).donateGo = true) ∧ (∃ (s : State), ∃ x ∈ s.ops, x.2.ctx / 64 = 0 ∧ x.2.st = .starved) := by
  refine ⟨fun v => ?_, ?_, fun x hx => ?_, fun v => ?_, fun x hx => ?_, ⟨wDq, 2, opA (.dec 0 0) .queued, by decide +kernel, rfl, rfl, by decide +kernel, by decide +kernel, rfl, decodes_wDq⟩,
    ⟨wOp 0 (opA (.dec 0 0) .publishing), 2, _, bT, rfl, rfl, rfl, rfl⟩, fun st hs => ?_, fun x hx => ?_, fun st hs => ?_,
    ⟨{ roPage (wFi (opA (.fill 0 3 1 (List.replicate 32 0) 0 true 3) .publishing) 1) with cat := [(0, { record := mkRec [(47, 45, 4)], part := 0 })] }, 0, dirRaw (wF gT 0) 0 0, 2, 1,
      opA (.fill 0 3 1 (List.replicate 32 0) 0 true 3) .publishing, by decide +kernel⟩,
    ⟨{ wFi (opA (.fill 0 3 1 (List.replicate 32 0) 0 true 3) .queued) 1 with cat := [(0, { record := mkRec [(47, 45, 4)], part := 0 })] }, 2, _, rfl, rfl, by decide +kernel⟩,
    ⟨rmPage (wF gT (mkRec [(47, 45, 5)])), 0, dirRaw (wF gT 0) 0 0, by decide +kernel⟩,
    ⟨{ wF gT (mkRec [(47, 45, 5)]) with regs := [(0, 0, 9)] }, 0, by decide +kernel, (0, 0, 9), by decide +kernel, rfl⟩,
    ⟨wSc (gA 0 0) { scrC 0 4 with st := 2 } [], { scrC 0 4 with st := 2 }, by decide +kernel⟩, ⟨wSc (gA 0 0) (scrC 0 4) [], bH, scrC 0 4, by decide +kernel⟩,
    ⟨updPart (wG gT) 0 (fun q => { q with donateGo := true }), by decide +kernel⟩, ⟨wOp 0 (opA (.dec 0 0) .starved), _, List.mem_singleton_self _, by decide +kernel, rfl⟩⟩
  · cases v
    · exact ⟨wOp 0 (opA (.enc 0 0 0 false 8) .queued), 2, _, 0, 0, 0, false, 8, rfl, rfl, rfl, by decide +kernel⟩
    · exact ⟨{ wOp 0 (opA (.enc 0 0 0 false 8) .queued) with ops := [(1, opA (.enc 0 0 0 false 8) .frozen), (2, opA (.enc 0 0 0 false 8) .queued)] }, 2, _, 0, 0, 0, false, 8, rfl, rfl, rfl, by decide +kernel⟩
  · exact ⟨wOp 0 (opA (.enc 0 0 0 false 8) .queued), 2, _, dirRaw (wF gT 0) 0 0, 0, lgOne, bT, rfl, rfl, rfl, fun n => alloc_some _ _ n (by decide +kernel), by decide +kernel⟩
  · have ht : ∀ t, t < 2 → entryKey 0 t (coRow 0) (coCol 0) = entryKey 0 t 0 0 := by decide +kernel
    simp at hx
    rcases hx with rfl | rfl | rfl | rfl | rfl
    · exact ⟨wEnc 0, 2, _, gT, 0, (0x200000, 0, 200, 1, 0, 0), rfl, rfl, rfl, by decide +kernel, by decide +kernel, rfl, nofun, nofun⟩
    · exact ⟨wEnc 1, 2, _, gT, 1, (0x200000, 0, 200, 1, 0, 0), rfl, rfl, rfl, by decide +kernel, by decide +kernel, rfl, nofun, nofun⟩
    · exact ⟨roPage (wEnc 0), 2, _, gT, 0, (0x200000, 0, 200, 1, 0, 0), rfl, rfl, rfl, by decide +kernel, by decide +kernel, rfl, nofun, nofun⟩
    · exact ⟨rmPage (wEnc 0), 2, _, gT, 0, (0x200000, 0, 200, 1, 0, 0), rfl, rfl, rfl, by decide +kernel, by decide +kernel, rfl, nofun, nofun⟩
    · exact ⟨memWrite (wEnc 0) 0x10000 8 0, 2, _, gT, 0, (0x200000, 0, 200, 1, 0, 0), rfl, rfl, rfl, by decide +kernel, by decide +kernel, rfl, nofun, nofun⟩
  · cases v
    · exact ⟨memWrite (wOp 0 (opA (.dec 0 0) .queued)) 0x300D 1 3, 2, _, 0, 0, rfl, rfl, rfl, by decide +kernel⟩
    · exact ⟨{ wOp 0 (opA (.dec 0 0) .queued) with ops := [(1, opA (.dec 0 0) .frozen), (2, opA (.dec 0 0) .queued)] }, 2, _, 0, 0, rfl, rfl, rfl, by decide +kernel, nofun⟩
  · simp at hx
    rcases hx with rfl | rfl | rfl | rfl
    · exact ⟨wOp zeroEntry (opA (.dec 0 0) .queued), 2, _, rfl, rfl, rfl, by decide +kernel⟩
    · exact ⟨rmPage (wOp zeroEntry (opA (.dec 0 0) .queued)), 2, _, rfl, rfl, rfl, by decide +kernel⟩
    · exact ⟨wOp 0 (opA (.dec 0 0) .queued), 2, _, rfl, rfl, rfl, by decide +kernel⟩
    · exact ⟨roPage (wOp zeroEntry (opA (.dec 0 0) .queued)), 2, _, rfl, rfl, rfl, by decide +kernel⟩
  · simp at hs
    rcases hs with rfl | rfl
    · exact ⟨wFi (opA (.fill 0 3 1 (List.replicate 32 0) 0 true 3) .queued) 0, 2, _, scrC 0 4, rfl, rfl, by decide +kernel⟩
    · exact ⟨wFi (opA (.fill 0 3 1 (List.replicate 32 0) 0 true 3) .queued) 1, 2, _, scrC 0 4, rfl, rfl, by decide +kernel⟩
  · simp at hx
    rcases hx with rfl | rfl | rfl
    · exact ⟨{ wFi (opA (.fill 0 3 1 (List.replicate 32 0) 0 true 3) .queued) 1 with cat := [(0, { record := mkRec [(47, 45, 1)], part := 0 })] }, 2, _, scrC 0 4, rfl, rfl, by decide +kernel⟩
    · exact ⟨wFi (opA (.fill 0 3 1 (List.replicate 32 0) 0 true 3) .queued) 1, 2, _, scrC 0 4, rfl, rfl, by decide +kernel⟩
    · exact ⟨memWrite (memWrite (wFi (opA (.fill 0 3 1 (List.replicate 32 0) 0 true 3) .queued) 1) 0x10008 8 (mkRec [(0, 0, 1), (1, 1, 1), (5, 2, 1)])) 0x3000 6 0x800003800, 2, _, scrC 0 4, rfl, rfl, by decide +kernel⟩
  · simp at hs
    rcases hs with rfl | rfl
    · exact ⟨{ wF gT 0 with cat := [(0, { record := mkRec [(47, 45, 4)], part := 0, new := some (0x200000, 0, 200, 1, 0, 64) })] }, 0, _, dirRaw (wF gT 0) 0 0, 0x3800, by decide +kernel, rfl, rfl, rfl, by decide +kernel⟩
    · exact ⟨{ wF gT 0 with cat := [(0, { record := mkRec [(47, 45, 5)], part := 0, new := some (0x200000, 0, 200, 1, 0, 64) })] }, 0, _, dirRaw (wF gT 0) 0 0, 0x3800, by decide +kernel, rfl, rfl, rfl, by decide +kernel⟩
/-- A run over step records at 0x2000 of scratchpad, chain record at 0x8000. -/
def runK (w : Nat) (lim : Nat) : EK := .chain true 0x2000 w 0 0 0x100 ((List.range 16).map (bdOf bT)) (BitVec.ofNat 64 lim)
def runX (w : Nat) (lim : Nat) : Run := { single := true, base := 0x2000, word := w, half := 0, handle := 0, chain := 0x100, bds := (List.range 16).map (bdOf bT), lim := BitVec.ofNat 64 lim }
def wCh (o : EOp) (crec : Nat) : State := memWrite { wOp 0 o with blocks := [(1, { bT with scratch := [(0x2000, 1)] })] } 0x8000 8 crec
/-- How a read of an engine ended; a fault by its code. -/
def endTag {α : Type} (x : Except XRes α) : Nat :=
  match x with | .ok _ => 0 | .error .wait => 1 | .error (.freeze ..) => 3 | .error (.fault c ..) => 4 + c | .error _ => 2
/-- How a matrix operation begins: it waits, its bank is hit, it fills one, it faults, it freezes. -/
def mmTag (s : State) (id : Nat) (o : EOp) : Nat :=
  match mmBegin s id o with
  | none => 0
  | some (m, .ok (_, _, some h, _)) => if (mfind m.banks h).isSome then 1 else 6
  | some (_, .ok (_, _, none, _)) => 2
  | some (_, .error (.fault ..)) => 3
  | some (_, .error (.freeze ..)) => 4
  | some (_, .error _) => 5
def isOk {ε α : Type} (x : Except ε α) : Bool := match x with | .ok _ => true | .error _ => false
/-- What bars an operation's score adds: nothing, a forbidden page, another obstacle. -/
def barTag (k : Option (Nat × TrR)) : Nat := match k with | none => 0 | some (_, .forbid _) => 1 | some _ => 2
/-- A product of one element, one with a folio as A, one with a score. -/
def kMm : EK := .mm false 0 (mmRec 0) [] none
def kFol : EK := .mm false 0 (mkRec [(7, 0, 2), (16, 8, 64), (25, 17, 64), (27, 26, 1), (71, 64, 2), (80, 72, 64), (89, 81, 1)]) [] none
def kSc : EK := .mm false 0 (mmRec (2 ^ 49)) [] (some 0)
/-- Two operations of the same B, the first of which keeps its bank, and that bank. -/
def wBank (filled : Bool) : State :=
  { wOp 0 (opA kMm .queued) with
    ops := [(1, { opA kMm .reading with reuse := true }), (2, opA kMm .queued)], blocks := [(1, { bT with foots := [(0, [16])] })]
    banks := [(0, { block := 1, ctx := 0, tag := bankTag kMm, latched := filled, ops := [1], filled := filled, lines := [0] })] }
/-- Array operations that wait, start on a bank that holds their B and on one that they fill, that meet a fault and a violation, and that
end, with a score whose slots are open and are not; tile writes. -/
theorem witness_ArrayAndChainSteps_array :
    (∀ v : Bool, ∃ (s : State) (id : Nat) (o : EOp), mfind s.ops id = some o ∧ isMat o.kind = true ∧ o.st = .queued ∧ tileTurn s id o = v) ∧
    (∀ n ∈ [0, 1, 2, 3, 4], ∃ (s : State) (id : Nat) (o : EOp), mfind s.ops id = some o ∧ isMat o.kind = true ∧ tileTurn s id o = true ∧ mmTag s id o = n) ∧
    (∀ n ∈ [0, 1, 2], ∃ (s : State) (id : Nat) (o : EOp) (b : Block) (x : Nat × Nat × Nat), mfind s.ops id = some o ∧ isMat o.kind = true ∧ o.st = .reading ∧ isOk (mmOperands s id o) = true ∧
      mfind s.blocks o.block = some b ∧ scoreOf o.kind = some x ∧ barTag (scoreBar s (o.ctx / 64) x.1 x.2.1 x.2.2) = n) ∧
    (∃ (s : State) (id : Nat) (o : EOp) (b : Block), mfind s.ops id = some o ∧ o.kind = kMm ∧ o.st = .reading ∧ isOk (mmOperands s id o) = true ∧ mfind s.blocks o.block = some b ∧ scoreOf o.kind = none) ∧
    (∃ (s : State) (id : Nat) (o : EOp) (b : Block) (sh : Tile), mfind s.ops id = some o ∧ isMat o.kind = true ∧ o.st = .reading ∧ isOk (mmOperands s id o) = false ∧
      mfind s.blocks o.block = some b ∧ o.kind.tile = some 0 ∧ o.shadow = some sh) ∧
    (∃ (r : Nat) (a b : Opd) (i j : Nat), i < a.d.rows ∧ j < b.d.cols ∧ b.d.cols ≤ 256 ∧ intMode r = true) ∧ (∃ (r : Nat) (a b : Opd) (i j : Nat), i < a.d.rows ∧ j < b.d.cols ∧ b.d.cols = 256 ∧ intMode r = false) ∧
    (∀ k ∈ [EK.mclr 0 true, EK.mint 3 7 9], ∃ (s : State) (id : Nat) (o : EOp) (b : Block), mfind s.ops id = some o ∧ tileTurn s id o = true ∧ mfind s.blocks o.block = some b ∧ o.kind = k) := by
  refine ⟨fun v => ?_, fun n hn => ?_, fun n hn => ?_, ⟨wOp 0 (opA kMm .reading), 2, _, bT, rfl, rfl, rfl, by decide +kernel, rfl, by decide +kernel⟩,
    ⟨{ wOp 0 { opA kMm .reading with shadow := some {} } with blocks := [(1, { bT with poison := [(0, true)] })] }, 2, _, _, {}, rfl, rfl, rfl, by decide +kernel, rfl, rfl, rfl⟩,
    ⟨mkRec [(7, 0, 7), (71, 64, 7)], { d := descOf (mmRec 0) 0, part := 0, tiles := [] }, { d := descOf (mmRec 0) 1, part := 1, tiles := [] }, 0, 0, by decide +kernel⟩,
    ⟨0, { d := { descOf (mmRec 0) 0 with rows := 128 }, part := 0, tiles := [] }, { d := { descOf (mmRec 0) 1 with cols := 256 }, part := 1, tiles := [] }, 127, 255, by decide +kernel⟩,
    fun k hk => ⟨wOp 0 (opA k .queued), 2, _, bT, rfl, ?_, rfl, rfl⟩⟩
  · cases v
    · exact ⟨{ wOp 0 (opA kMm .queued) with ops := [(1, opA (.mclr 0 false) .queued), (2, opA kMm .queued)] }, 2, _, rfl, rfl, rfl, by decide +kernel⟩
    · exact ⟨wOp 0 (opA kMm .queued), 2, _, rfl, rfl, rfl, by decide +kernel⟩
  · simp at hn
    rcases hn with rfl | rfl | rfl | rfl | rfl
    · exact ⟨{ wBank false with ops := [(1, { opA (.mld (mmRec 0)) .reading with block := 1 }), (2, opA kMm .queued)] }, 2, _, rfl, rfl, by decide +kernel⟩
    · exact ⟨{ wBank true with ops := [(2, opA kMm .queued)] }, 2, _, rfl, rfl, by decide +kernel⟩
    · exact ⟨wOp 0 (opA kMm .queued), 2, _, rfl, rfl, by decide +kernel⟩
    · exact ⟨wOp 0 (opA kFol .queued), 2, _, rfl, rfl, by decide +kernel⟩
    · exact ⟨roPage (wOp 0 (opA kFol .queued)), 2, _, rfl, rfl, by decide +kernel⟩
  · simp at hn
    rcases hn with rfl | rfl | rfl
    · exact ⟨{ wOp 0 (opA kSc .reading) with scrolls := [(0, scrC 0 4)] }, 2, _, bT, (0, 0, 1), rfl, rfl, rfl, by decide +kernel⟩
    · exact ⟨roPage { wOp 0 (opA kSc .reading) with scrolls := [(0, scrC 0 4)] }, 2, _, bT, (0, 0, 1), rfl, rfl, rfl, by decide +kernel⟩
    · exact ⟨rmPage { wOp 0 (opA kSc .reading) with scrolls := [(0, scrC 0 4)] }, 2, _, bT, (0, 0, 1), rfl, rfl, rfl, by decide +kernel⟩
  · simp at hk
    rcases hk with rfl | rfl <;> decide +kernel
/-- No page of the first 32 GiB may be read. -/
def noPage (s : State) : State := memWrite s 0x10000 8 (mkRec [(0, 0, 1), (1, 1, 1)])
/-- A run at its only step of one element, its factor a Stored tile. -/
def oStep : EOp := { opA (runK 1 (256 * 2 ^ 32)) .stepping with prog := [2 ^ 32, 1] }
def wStep (e : Nat) (o : EOp) : State := { wD with ops := [(2, o)], fresh := 3, cat := [(entryKey 0 0 0 0, { record := e, part := 0 })] }
set_option maxRecDepth 1000000 in
theorem step_wStep : endTag (chainStep (wStep zeroEntry oStep) 2 oStep (runX 1 (256 * 2 ^ 32))).2 = 0 := by decide +kernel
/-- Runs whose record cannot be read, that poison, size and program refuse, and that pass; steps that end, and that meet each
obstacle; a run that retires. -/
theorem witness_ArrayAndChainSteps_chain :
    (∀ n ∈ [0, 1, 3, 69], ∃ (s : State) (id : Nat) (o : EOp) (x : Run), mfind s.ops id = some o ∧ runOf o = some x ∧ o.st = .queued ∧ opBlocked s id o = false ∧ o.order = 0 ∧
      endTag (chainRec s o x.chain).2 = n) ∧
    (∃ (s : State) (id : Nat) (o : EOp) (x : Run), mfind s.ops id = some o ∧ runOf o = some x ∧ o.st = .queued ∧ opBlocked s id o = false ∧ o.order = 0 ∧ endTag (chainRec s o x.chain).2 = 0 ∧
      spPoison (opBlock s o) x.base (32 * x.steps) = true) ∧
    (∀ n ∈ [0, 1, 2], ∃ (s : State) (id : Nat) (o : EOp) (x : Run) (c : Nat), mfind s.ops id = some o ∧ runOf o = some x ∧ o.st = .queued ∧ opBlocked s id o = false ∧ o.order = 0 ∧
      (match (chainRec s o x.chain).2 with | .ok d => d == c | .error _ => false) = true ∧ spPoison (opBlock s o) x.base (32 * x.steps) = false ∧
      (let prog := x.program (opBlock s o)
       ((runOver x prog c).isSome = true ↔ n = 0) ∧ (n ≠ 0 → ((runBad (chainRec s o x.chain).1 (o.ctx / 64) x (opBlock s o).size prog c).isSome = true ↔ n = 1)))) ∧
    (∀ n ∈ [0, 1, 3, 38, 69], ∃ (s : State) (id : Nat) (o : EOp) (x : Run) (b : Block), mfind s.ops id = some o ∧ runOf o = some x ∧ o.st = .stepping ∧ mfind s.blocks o.block = some b ∧
      endTag (chainStep s id o x).2 = n) ∧
    (∃ (s : State) (id : Nat) (o : EOp) (x' : Run), mfind s.ops id = some o ∧ runOf o = some x' ∧ o.st = .done ∧ ¬ ((o.order = 2 ∨ o.order = 3) ∧ o.scope = 3 ∧ unackedFlows s (o.ctx / 64) = true)) := by
  refine ⟨fun n hn => ?_, ⟨{ wCh (opA (runK 1 0) .queued) 0 with blocks := [(1, { bT with poison := [(0x100, true)] })] }, 2, _, runX 1 0, rfl, rfl, rfl, by decide +kernel, rfl, by decide +kernel⟩,
    fun n hn => ?_, fun n hn => ?_, ⟨wCh (opA (runK 1 0) .done) 0, 2, _, _, rfl, rfl, rfl, by decide +kernel⟩⟩
  · simp at hn
    rcases hn with rfl | rfl | rfl | rfl
    · exact ⟨wCh (opA (runK 1 0) .queued) 0, 2, _, runX 1 0, rfl, rfl, rfl, by decide +kernel, rfl, by decide +kernel⟩
    · exact ⟨rmPage (wCh (opA (runK 1 0) .queued) 0), 2, _, runX 1 0, rfl, rfl, rfl, by decide +kernel, rfl, by decide +kernel⟩
    · exact ⟨noPage (wCh (opA (runK 1 0) .queued) 0), 2, _, runX 1 0, rfl, rfl, rfl, by decide +kernel, rfl, by decide +kernel⟩
    · exact ⟨{ wCh (opA (runK 1 0) .queued) 0 with poison := [(0x400, true)] }, 2, _, runX 1 0, rfl, rfl, rfl, by decide +kernel, rfl, by decide +kernel⟩
  · simp at hn
    rcases hn with rfl | rfl | rfl
    · exact ⟨wCh (opA (runK 1 0) .queued) 0, 2, _, runX 1 0, 0, rfl, rfl, rfl, by decide +kernel, rfl, by decide +kernel⟩
    · exact ⟨wCh (opA (runK 1 (256 * 2 ^ 32)) .queued) 0, 2, _, runX 1 (256 * 2 ^ 32), 0, rfl, rfl, rfl, by decide +kernel, rfl, by decide +kernel⟩
    · exact ⟨wCh (opA (runK 1 (256 * 2 ^ 32)) .queued) (2 ^ 32), 2, _, runX 1 (256 * 2 ^ 32), 2 ^ 32, rfl, rfl, rfl, by decide +kernel, rfl, by decide +kernel⟩
  · simp at hn
    rcases hn with rfl | rfl | rfl | rfl | rfl
    · exact ⟨wStep zeroEntry oStep, 2, oStep, runX 1 (256 * 2 ^ 32), _, by decide +kernel, rfl, rfl, rfl, step_wStep⟩
    · exact ⟨rmPage (wStep zeroEntry oStep), 2, oStep, runX 1 (256 * 2 ^ 32), _, by decide +kernel, rfl, rfl, rfl, by decide +kernel⟩
    · exact ⟨roPage (wStep zeroEntry oStep), 2, oStep, runX 1 (256 * 2 ^ 32), _, by decide +kernel, rfl, rfl, rfl, by decide +kernel⟩
    · exact ⟨wStep 0 oStep, 2, oStep, runX 1 (256 * 2 ^ 32), _, by decide +kernel, rfl, rfl, rfl, by decide +kernel⟩
    · exact ⟨{ wStep zeroEntry oStep with blocks := [(1, { bT with poison := [(0, true)] })] }, 2, oStep, runX 1 (256 * 2 ^ 32), _, by decide +kernel, rfl, rfl, rfl, by decide +kernel⟩
/-- Kernel 1 in a state, with nothing placed; its record in words of a launch that a record of one block gives. -/
def kP (st : KSt) : Kernel := { kT with st := st, placed := 0, record := kT.record + mkRec [(223, 192, 1), (255, 224, 1), (287, 256, 1), (319, 288, 1)] }
/-- The same of two blocks, with a flag word, and a completion word at 0x1000. -/
def kFix (st : KSt) (fix : Nat) : Kernel := { kP st with record := krGrid (kP st).record 2 1 1 + mkRec [(415, 352, fix), (511, 448, 0x1000)] }
/-- The same as kP with a completion word at 0x1000, and with a constant word there. -/
def kDn (st : KSt) : Kernel := { kP st with record := (kP st).record + mkRec [(511, 448, 0x1000)] }
def kCn (st : KSt) : Kernel := { kP st with record := (kP st).record + mkRec [(127, 64, 0x1000), (140, 128, 1)] }
def wK (k : Kernel) (gs : AMap Group) (bs : AMap Block) : State := { wT with kernels := [(1, k)], groups := gs, blocks := bs }
/-- How the flag words of a kernel were found. -/
def paTag (x : PaR) : Nat := match x with | .ok _ => 0 | .bad => 1 | .wait => 2
/-- A kernel that may and may not start; its flags written, barred and under a Remove, with constants that can and cannot be read; a block
that finds a place, none, and a place it must wait for; blocks that retire before the last, last, and not yet; a FAULTED kernel at its
end; completions that wait and do not. -/
theorem witness_KernelSteps :
    (∀ st ∈ [KSt.pending, .translating], ∃ (s : State) (kid : Nat) (k : Kernel), mfind s.kernels kid = some k ∧ k.st = st ∧ ctxOpen s k.ctx = true ∧ launchAhead s kid k = false ∧ krGuided k.record = false) ∧
    (∀ x ∈ [(0, true), (2, true), (0, false), (1, false), (1, true)], ∃ (s : State) (kid : Nat) (k : Kernel), mfind s.kernels kid = some k ∧ k.st = .translating ∧ ctxOpen s k.ctx = true ∧ krGuided k.record = false ∧
      paTag (fixFlags s k.ctx (krFixBase k.record) (blockCount s k.record)) = x.1 ∧
      (x.1 ≠ 1 → (constWords s k.ctx k.record).isSome = x.2 ∧ (extentsOf s k.ctx k.record).isSome = true) ∧ (x.1 = 1 → canComplete (releaseKernel s kid) k = x.2)) ∧
    (∃ (s : State) (kid : Nat) (k : Kernel) (pa : Nat), mfind s.kernels kid = some k ∧ k.st = .translating ∧ ctxOpen s k.ctx = true ∧ krGuided k.record = false ∧
      (match fixFlags s k.ctx (krFixBase k.record) (blockCount s k.record) with | .ok l => l == [pa] | _ => false) = true ∧ pa % 64 = 0 ∧ reachable s pa = true ∧ ∀ i, i < 64 → PlainAt s (pa + i)) ∧
    (∃ (s : State) (kid : Nat), nextPlace s kid = none) ∧
    (∀ v : Bool, ∃ (s : State) (kid : Nat) (x : Kernel × Nat × List Nat), nextPlace s kid = some x ∧ (placeLack s x.1.record x.2.1 x.2.2).none = v) ∧
    (∀ x ∈ [(1, true), (2, true), (1, false)], ∃ (s : State) (blk : Nat) (b : Block) (k : Kernel), mfind s.blocks blk = some b ∧ mfind s.kernels b.kernel = some k ∧ b.done = false ∧ b.saved = false ∧ k.st = .running ∧
      (∀ g ∈ s.groups, g.2.block = blk → g.2.st = .exited) ∧ s.ops = [] ∧ k.blocks = x.1 ∧ k.retired = 0 ∧ canComplete (releaseKernel s b.kernel) k = x.2) ∧
    (∃ (s : State) (blk : Nat) (b : Block) (k : Kernel), mfind s.blocks blk = some b ∧ mfind s.kernels b.kernel = some k ∧ ∃ g ∈ s.groups, g.2.block = blk ∧ g.2.st = .ready) ∧
    (∀ v : Bool, ∃ (s : State) (kid : Nat) (k : Kernel), mfind s.kernels kid = some k ∧ k.st = .faulting ∧
      (let m := discardOps s kid
       (∀ x ∈ m.groups, gKid m x.2 = kid → x.2.st = .exited ∨
        ((x.2.st = .faulted ∨ x.2.st = .frozen ∨ x.2.st = .stopping ∨ x.2.st = .saved) ∧ outstanding m x.1 x.2 = false)) ∧ m.ops = [] ∧ canComplete (releaseKernel m kid) k = v)) := by
  refine ⟨fun st hs => ⟨wK (kP st) [] [], 1, kP st, rfl, rfl, ?_⟩, fun x hx => ?_,
    ⟨wK (kFix .translating 0x4000) [] [], 1, kFix .translating 0x4000, 0x4000, rfl, rfl, by decide +kernel, by decide +kernel, by decide +kernel, rfl, by decide +kernel, fun i hi => plain_parts rfl (Nat.lt_of_lt_of_le (Nat.add_lt_add_left hi 0x4000) (by decide))⟩,
    ⟨wG gT, 1, by decide +kernel⟩, fun v => ?_, fun x hx => ?_, ⟨wG gT, 1, bT, kT, rfl, rfl, _, List.mem_singleton_self _, rfl, rfl⟩, fun v => ?_⟩
  · simp at hs
    rcases hs with rfl | rfl <;> decide +kernel
  · simp at hx
    rcases hx with rfl | rfl | rfl | rfl | rfl
    · exact ⟨wK (kP .translating) [] [], 1, kP .translating, rfl, rfl, by decide +kernel⟩
    · exact ⟨rmPage (wK (kFix .translating 0x4000) [] []), 1, kFix .translating 0x4000, rfl, rfl, by decide +kernel⟩
    · exact ⟨rmPage (wK (kCn .translating) [] []), 1, kCn .translating, rfl, rfl, by decide +kernel⟩
    · exact ⟨rmPage (wK (kFix .translating (2 ^ 48)) [] []), 1, kFix .translating (2 ^ 48), rfl, rfl, by decide +kernel⟩
    · exact ⟨wK (kFix .translating (2 ^ 48)) [] [], 1, kFix .translating (2 ^ 48), rfl, rfl, by decide +kernel⟩
  · cases v
    · exact ⟨wK { kP .dispatching with record := (kP .dispatching).record + mkRec [(191, 176, 1)] } [] [(1, { bT with saved := true, ways := 15, tagWays := 15 })], 1,
        ({ kP .dispatching with record := (kP .dispatching).record + mkRec [(191, 176, 1)] }, 0, [0]), by decide +kernel⟩
    · exact ⟨wK (kP .dispatching) [] [], 1, (kP .dispatching, 0, [0]), by decide +kernel⟩
  · simp at hx
    rcases hx with rfl | rfl | rfl
    · exact ⟨wK { kP .running with blocks := 1, placed := 1 } [(32, { gT with st := .exited })] [(1, bT)], 1, bT, _, rfl, rfl, rfl, rfl, rfl, by decide +kernel⟩
    · exact ⟨wK { kP .running with blocks := 2, placed := 2 } [(32, { gT with st := .exited })] [(1, bT)], 1, bT, _, rfl, rfl, rfl, rfl, rfl, by decide +kernel⟩
    · exact ⟨rmPage (wK { kDn .running with blocks := 1, placed := 1 } [(32, { gT with st := .exited })] [(1, bT)]), 1, bT, _, rfl, rfl, rfl, rfl, rfl, by decide +kernel⟩
  · cases v
    · exact ⟨rmPage (wK (kDn .faulting) [(32, { gT with st := .faulted })] [(1, bT)]), 1, _, rfl, rfl, by decide +kernel⟩
    · exact ⟨wK (kP .faulting) [(32, { gT with st := .faulted })] [(1, bT)], 1, _, rfl, rfl, by decide +kernel⟩
def wC (st : CSt) (f : Ctx → Ctx) (gs : AMap Group) (b : Block) : State := { wT with groups := gs, blocks := [(1, b)], ctxs := [(0, f { st := st })] }
theorem plainWC (st : CSt) (f : Ctx → Ctx) (gs : AMap Group) (b : Block) (ks : AMap Kernel) (a : Nat) (h : a + 8 ≤ 0x20000) :
    ∀ i, i < 8 → PlainAt { wC st f gs b with kernels := ks } (a + i) :=
  fun _ hi => plain_parts rfl (Nat.lt_of_lt_of_le (Nat.add_lt_add_left hi a) h)
/-- A saved block of one group that comes back, beside others. -/
def wRl (bs : AMap Block) : State :=
  { wC .running id [(32, { gT with st := .saved, resident := false })] bT with
    blocks := (1, { bT with saved := true, reloading := true, tagChunks0 := 16, tagWays := 1, tagTiles := true, tiles := none }) :: bs }
/-- A deadline run out; a group that has stopped; a context all of whose groups have; a saved block whose resources another
context's claim needs; a block that comes back; a context that is freed; records that wait for rings with and without room; results
ready and not; a report that waits. -/
theorem witness_ContextSteps :
    (∀ d ∈ [0, 1], ∃ (s : State) (ctx : Nat), (getCtx s ctx).st = .draining ∧ (getCtx s ctx).deadline = d ∧ sortedKeys s.groups = true) ∧
    (∃ (s : State) (gid : Nat) (g : Group), mfind s.groups gid = some g ∧ g.st = .stopping ∧ (gKernel s g).map (·.st) ≠ some .faulting ∧ saveWaits s (gCtx s g) = false ∧ stopDone s gid g = true) ∧
    (∃ (s : State) (ctx : Nat), (getCtx s ctx).st = .draining ∧ saveWaits s ctx = false ∧ allStopped s ctx = true ∧ sortedKeys s.groups = true ∧ sortedKeys s.blocks = true) ∧
    (∀ x ∈ [(true, 0, false), (false, 0, false), (true, 1, false), (true, 1, true)], ∃ (s : State) (pair : Nat) (cores : List Nat) (l : Lack) (b : Block), mfind s.blocks 1 = some b ∧ b.saved = true ∧ b.reloading = true ∧
      b.done = false ∧ b.pair = 0 ∧ b.tagTiles = true ∧ reloadPlace s 1 b = some (pair, cores, l) ∧ (l.none, pair, saveWaits s (blockCtx s b)) = x ∧ ctxRuns s (blockCtx s b) = true ∧ sortedKeys s.groups = true ∧ (stayers s 1).length = 1) ∧
    (∃ (s : State) (ctx : Nat), (getCtx s ctx).st = .destroying ∧ (∀ x ∈ s.groups, gCtx s x.2 = ctx → x.2.st = .exited) ∧ (∀ x ∈ s.kernels, x.2.ctx = ctx → x.2.st = .done) ∧ s.ops = [] ∧
      ∃ x ∈ (getCtx s ctx).answer, x.1 = 3 ∧ reachable s x.2 = true ∧ x.2 % 128 = 120 ∧ Outside (ctxDescA s ctx) 64 x.2 ∧ Outside (ctxDescA s ctx) 64 (x.2 + 7) ∧ ∀ i, i < 8 → PlainAt s (x.2 + i)) ∧
    (∀ v : Bool, ∃ (s : State) (ctx r : Nat) (rest : List Nat), (getCtx s ctx).fltPend = r :: rest ∧ fltFull s ctx = v) ∧
    (∀ v : Bool, ∃ (s : State) (p r : Nat) (rest : List Nat), (getPart s p).frzPend = r :: rest ∧ frzFull s p = v) ∧
    (∀ v : Bool, ∃ (s : State) (gid : Nat) (g : Group) (q : Pend) (m : List Pend), mfind s.groups gid = some g ∧ mfind (resizeStep s g.block).groups gid = some g ∧ g.st ≠ .exiting ∧ g.pend = [] ++ q :: m ∧ q.ready = v) ∧
    (∀ st ∈ [GSt.ready, .frozen], ∃ (s : State) (gid : Nat) (g : Group) (a : _) (rest : _), mfind s.groups gid = some g ∧ g.asyncF = a :: rest ∧ (gKernel s g).map (·.st) ≠ some .faulting ∧ g.st = st) := by
  refine ⟨fun d hd => ⟨wC .draining (fun c => { c with deadline := d }) [(32, gT)] bT, 0, rfl, rfl, rfl⟩, ⟨wG { gT with st := .stopping }, 32, _, rfl, by decide +kernel⟩,
    ⟨wC .draining id [(32, { gT with st := .saved })] bT, 0, rfl, by decide +kernel⟩, fun x hx => ?_,
    ⟨{ wC .destroying (fun c => { c with answer := [(3, 0x8078)] }) [(32, { gT with st := .exited })] bT with kernels := [(1, { kT with st := .done })] }, 0, rfl, by decide +kernel, by decide +kernel, rfl,
      (3, 0x8078), List.mem_singleton_self _, rfl, by decide +kernel, rfl, by unfold Outside; decide +kernel, by unfold Outside; decide +kernel, plainWC _ _ _ _ _ 0x8078 (by decide)⟩,
    fun v => ⟨wC .running (fun c => { c with fltPend := [7], fltProd := if v then 16 else 15 }) [(32, gT)] bT, 0, 7, [], rfl, ?_⟩,
    fun v => ⟨updPart (wG gT) 0 (fun q => { q with frzPend := [7], frzProd := if v then 16 else 15 }), 0, 7, [], rfl, ?_⟩,
    fun v => ⟨wG { gT with pend := [{ ws := [], ready := v }] }, 32, _, _, [], rfl, by cases v <;> decide +kernel, nofun, rfl, rfl⟩, fun st hs => ⟨wG { gT with st := st, asyncF := [(0x22, 2, 1, 0)] }, 32, _, _, [], rfl, rfl, ?_, rfl⟩⟩
  · simp at hx
    rcases hx with rfl | rfl | rfl | rfl
    · exact ⟨wRl [], 0, [0], ⟨0, 0, 0, false⟩, _, rfl, by decide +kernel⟩
    · exact ⟨wRl [(2, { bT with saved := true, tagChunks0 := 256, tagChunks1 := 256 })], 0, [0], ⟨16, 0, 0, false⟩, _, rfl, by decide +kernel⟩
    · exact ⟨wRl [(2, { bT with ways := 14 })], 1, [0], ⟨0, 0, 0, false⟩, _, rfl, by decide +kernel⟩
    · exact ⟨{ wRl [(2, { bT with ways := 14 })] with stackCtl := [(stackOf 0, { rateStatus := 1 })] }, 1, [0], ⟨0, 0, 0, false⟩, _, rfl, by decide +kernel⟩
  · cases v <;> decide +kernel
  · cases v <;> decide +kernel
  · simp at hs
    rcases hs with rfl | rfl <;> decide +kernel
def spB (c w : Nat) (t : Bool) : Block := { bT with saved := true, ways := 15, tagChunks0 := c, tagChunks1 := c, tagWays := w, tagTiles := t, tiles := if t then some 0 else none }
def spK : Kernel := { kP .dispatching with ctx := 1, record := (kP .dispatching).record + mkRec [(191, 176, 1)] }
def spW (b : Block) (bs : AMap Block) : State :=
  { wT with groups := [], blocks := (1, b) :: bs, kernels := [(1, kT), (2, spK)], ctxs := [(0, { st := .saved }), (1, { st := .running })] }
/-- A saved block, still on its pair, and a block of another context that fits only where its chunks, its ways, its tile set are released. -/
theorem witness_ContextSteps_spill : ∀ w ∈ [Tagged.chunks, .ways, .tiles], ∃ (s : State) (blk : Nat) (b : Block) (x : Nat) (l : Lack), mfind s.blocks blk = some b ∧ b.saved = true ∧ b.reloading = false ∧ b.done = false ∧
    saveWaits s (blockCtx s b) = false ∧ (claimsOn s b.pair).find? (fun x => x.1 != blockCtx s b && (match w with
        | .chunks => (x.2.chunks0 != 0 && b.tagChunks0 != 0) || (x.2.chunks1 != 0 && b.tagChunks1 != 0)
        | .ways => x.2.ways != 0 && b.tagWays != 0
        | .tiles => x.2.set && b.tagTiles)) = some (x, l) := by
  intro w hw
  simp at hw
  rcases hw with rfl | rfl | rfl
  · exact ⟨{ wRl [(2, { spB 256 0 false with kernel := 2 })] with kernels := [(1, kT), (2, spK)] }, 2, { spB 256 0 false with kernel := 2 }, 0, ⟨16, 0, 0, false⟩, by decide +kernel⟩
  · exact ⟨spW (spB 0 15 false) [], 1, spB 0 15 false, 1, ⟨0, 0, 2, false⟩, by decide +kernel⟩
  · exact ⟨spW (spB 0 0 true) [(3, { bT with kernel := 1, ways := 0, tiles := some 1 })], 1, spB 0 0 true, 1, ⟨0, 0, 0, true⟩, by decide +kernel⟩
/-- A context saved with four save areas' kibibytes, legend 7 held; with an answer to a pre-emption; a Resume that a new pre-emption overtakes; blocks whose
tiles fit. -/
theorem witness_ContextSteps_image :
    (∃ (s : State) (c : Ctx), getCtx s 0 = c ∧ c.st = .draining ∧ saveWaits s 0 = false ∧ allStopped s 0 = true ∧ (∀ a ∈ c.answer, a.1 ≠ 1) ∧ (∀ x ∈ s.l1, x.2.dirty = 0) ∧ (∀ x ∈ s.dc, x.2.dirty = 0) ∧ TilesFit s ∧
      sortedKeys c.lg = true ∧ (∀ x ∈ c.lg, x.1 < 8) ∧ (∃ x ∈ c.lg, x.1 = 7) ∧ spilledTiles s 0 = [] ∧ 4096 ≤ 1024 * fld (ctxDesc s 0) 223 192) ∧
    (∃ (s : State), (getCtx s 0).st = .draining ∧ saveWaits s 0 = false ∧ allStopped s 0 = true ∧ (getCtx s 0).answer = [(1, 0x8078)] ∧ reachable s 0x8078 = true ∧ (0x8078 : Nat) % 128 ≤ 120 ∧ ∀ i, i < 8 → PlainAt s (0x8078 + i)) ∧
    (∃ (s : State) (b : Block), mfind s.blocks 1 = some b ∧ b.saved = true ∧ b.reloading = true ∧ b.done = false ∧ ctxRuns s (blockCtx s b) = false) ∧ (∀ w ∈ [1, 2, 3], TilesFit (spW (spB w w true) [])) := by
  refine ⟨⟨memWrite (wC .draining (fun c => { c with lg := [(7, 5)] }) [(32, { gT with st := .saved })] bT) 0x20018 4 4, _, rfl, rfl, ?_⟩, ⟨wC .draining (fun c => { c with answer := [(1, 0x8078)] }) [(32, { gT with st := .saved })] bT, ?_, ?_, ?_, rfl, ?_, by decide, fun i hi => plain_parts rfl (Nat.lt_of_lt_of_le (Nat.add_lt_add_left hi 0x8078) (by decide))⟩,
    ⟨{ wRl [] with ctxs := [(0, { st := .saved })] }, _, rfl, by decide +kernel⟩, fun w hw => ?_⟩
  · unfold TilesFit
    decide +kernel
  iterate 4 decide +kernel
  · unfold TilesFit
    revert w
    decide +kernel
def secD : Sector := { dirty := 1#128 <<< 127 }
def pg16 : Page := { size := 16 }
def wRm (rs : List RmReq) : State := updPart (wG gT) 0 (fun q => { q with rmq := rs })
def rm0 (ph : Nat) : RmReq := { func := 0, va := 0, sizeLog := 16, ctx := 0, gen := 1, phase := ph }
def pgMv (leaf : Nat) : Page := { pg16 with moving := some (0, 0x90000, leaf, 0x8000) }
/-- A store of one byte that waits in the side log of core 0. -/
def logE (va : Nat) : LogE := { gid := 32, ctx := 0, va := va, bytes := [(0, 7)], reds := [] }
def wSec (l d : AMap Sector) : State := { wG gT with l1 := l, dc := d }
theorem plain_wSec (l d : AMap Sector) {a : Nat} (h : a < 0x20000) : PlainAt (wSec l d) a := plain_parts rfl h
def trTag (x : TrR) : Nat := match x with | .ok _ => 0 | .wait => 1 | .np .. => 2 | .forbid _ => 3
/-- What a walk for an address finds: nothing, a page, a page that moves. -/
def walkTag (s : State) (va : Nat) : Nat :=
  match (walk s 0 0 va).1 with | .np _ _ => 0 | .leaf e l _ => if movingAt s (leafTr 0 va e l).pa then 2 else 1
/-- A Remove at each stage, with accesses left and without; a Notify; a donation that is kept and dropped; a move that a Remove precedes,
that a command holds up, whose leaf stands and changed; times that run out with and without a Remove. -/
theorem witness_PageSteps :
    (∃ (s : State), rmHead (getPart s 0) 0 = some (rm0 0) ∧ rmRunning (getPart s 0) 1 = none ∧ rmRunning (getPart s 0) 2 = none) ∧ (∃ (s : State), rmRunning (getPart s 0) 1 = some (rm0 1)) ∧
    (∀ v : Bool, ∃ (s : State), rmRunning (getPart s 0) 2 = some (rm0 2) ∧ rmBusy s 0 (rm0 2) = v ∧ ∀ g ∈ s.groups, g.2.reds = []) ∧
    (∃ (s : State) (r : RmReq), rmHead (getPart s 0) 1 = some r ∧ s.cores = [] ∧ s.ops = []) ∧
    (∀ va ∈ [0, 2 ^ 49, 2 ^ 48], ∃ (s : State) (r : RmReq), rmHead (getPart s 0) 2 = some r ∧ r.va = va ∧ (paOk r.va = true ↔ va ≠ 2 ^ 49) ∧ (isHost r.va = false ↔ va = 0) ∧ (getPart s 0).migPool = []) ∧
    (∀ x ∈ [(true, false, false), (false, true, false), (false, false, true), (false, false, false)], ∃ (s : State) (page : Nat) (pg : Page) (die frame leaf addr : Nat), mfind s.pages page = some pg ∧
      pg.moving = some (die, frame, leaf, addr) ∧ removeDue s pg.ctx pg.va = x.1 ∧ moveBusy s page (2 ^ pg.size) = x.2.1 ∧
      (∀ g ∈ s.groups, g.2.reds = []) ∧ s.l1 = [] ∧ s.dc = [] ∧ sortedKeys s.mem = true ∧ (x.2.1 = false → (memRead s addr 8 = leaf ↔ x.2.2 = true)) ∧ page + 2 ^ pg.size ≤ frame ∧ addr % 8 = 0 ∧
      addr + 8 ≤ page ∧ page % 8 = 0 ∧ frame % 8 = 0 ∧ pg.size = 16) ∧
    (∀ x ∈ [(true, false, true), (true, false, false), (false, true, true), (false, true, false), (false, false, false)], ∃ (s : State) (page : Nat) (pg : Page), mfind s.pages page = some pg ∧
      (pg.window, pg.settled, removeDue s pg.ctx pg.va) = x ∧ pg.windowLeft = 0 ∧ pg.settleLeft = 0) := by
  refine ⟨⟨wRm [rm0 0], by decide +kernel⟩, ⟨wRm [rm0 1], by decide +kernel⟩, fun v => ?_, ⟨wRm [{ func := 1, va := 0, sizeLog := 16, ctx := 0, gen := 1 }], _, rfl, rfl, rfl⟩,
    fun va hv => ⟨wRm [{ func := 2, va := va, sizeLog := 16, ctx := 0, gen := 1 }], _, rfl, rfl, ?_⟩, fun x hx => ?_, fun x hx => ?_⟩
  · cases v
    · exact ⟨wRm [rm0 2], by decide +kernel⟩
    · exact ⟨updPart (wOp 0 { opA (cpy 0x6000) .publishing with staged := [⟨false, 0x6000, 1⟩] }) 0 (fun q => { q with rmq := [rm0 2] }), by decide +kernel⟩
  · simp at hv
    rcases hv with rfl | rfl | rfl <;> decide +kernel
  · simp at hx
    rcases hx with rfl | rfl | rfl | rfl
    · exact ⟨{ wRm [rm0 0] with pages := [(0x50000, pgMv 7)] }, 0x50000, _, 0, 0x90000, 7, 0x8000, rfl, rfl, by decide +kernel⟩
    · exact ⟨{ wOp 0 { opA (cpy 0x6000) .publishing with staged := [⟨false, 0x50000, 1⟩] } with pages := [(0x50000, pgMv 0)] }, 0x50000, _, 0, 0x90000, 0, 0x8000, rfl, rfl, by decide +kernel⟩
    · exact ⟨{ wG gT with pages := [(0x50000, pgMv 0)] }, 0x50000, _, 0, 0x90000, 0, 0x8000, rfl, rfl, by decide +kernel⟩
    · exact ⟨{ wG gT with pages := [(0x50000, pgMv 7)] }, 0x50000, _, 0, 0x90000, 7, 0x8000, rfl, rfl, by decide +kernel⟩
  · simp at hx
    rcases hx with rfl | rfl | rfl | rfl | rfl
    · exact ⟨{ wRm [rm0 0] with pages := [(0x10000, { pg16 with window := true })] }, 0x10000, { pg16 with window := true }, rfl, by decide +kernel⟩
    · exact ⟨{ wG gT with pages := [(0x10000, { pg16 with window := true })] }, 0x10000, { pg16 with window := true }, rfl, by decide +kernel⟩
    · exact ⟨{ wRm [rm0 0] with pages := [(0x10000, { pg16 with settled := true })] }, 0x10000, { pg16 with settled := true }, rfl, by decide +kernel⟩
    · exact ⟨{ wG gT with pages := [(0x10000, { pg16 with settled := true })] }, 0x10000, { pg16 with settled := true }, rfl, by decide +kernel⟩
    · exact ⟨{ wG gT with pages := [(0x10000, pg16)] }, 0x10000, pg16, rfl, by decide +kernel⟩
/-- Walks that find nothing, a page, and one that moves; a logged store whose page is there and is not; a dirty sector of a pair, a
guest sector of a die, a partly dirty one at its home; a sector that can be fetched and one that must wait. -/
theorem witness_PageSteps_sectors :
    (∀ n ∈ [0, 1, 2], ∃ (s : State) (va : Nat), va < 2 ^ 48 ∧ removeOver s 0 va = false ∧ walkDrains s (coreDie 0) 0 va = false ∧ (getCore s 0).log = [] ∧ walkTag s va = n) ∧
    (∀ n ∈ [0, 2], ∃ (s : State) (e : LogE) (g : Group), (getCore s 0).log = [e] ∧ mfind s.groups e.gid = some g ∧ e.bytes ≠ [] ∧ e.reds = [] ∧ e.atoms = [] ∧ trTag (translate s 0 e.ctx [] e.va 1).2 = n ∧
      (n = 0 → ∃ pa a l, (translate s 0 e.ctx [] e.va 1).2 = .ok pa ∧ runs (e.bytes.map (fun b => (pa + b.1, b.2))) = [(a, l)] ∧ storePlace (translate s 0 e.ctx [] e.va 1).1 g a false = 0)) ∧
    (∃ (s : State) (k : Sector), mfind s.l1 (l1Key 0 5) = some k ∧ k.dirty.getLsbD 127 = true ∧ (5 : Nat) < 2 ^ 42 ∧ PlainAt s (128 * 5 + 127)) ∧
    (∃ (s : State) (k : Sector), mfind s.dc (dcKey 1 5) = some k ∧ isGuest s 1 5 = true ∧ k.dirty.getLsbD 127 = true ∧ PlainAt s (128 * 5 + 127)) ∧
    (∃ (s : State) (k : Sector), mfind s.dc (dcKey 0 5) = some k ∧ isGuest s 0 5 = false ∧ granAny k.dirty 3 = true ∧ granFull k.valid 3 = false ∧ ∀ x ∈ s.ecc, x.2 = false) ∧
    (∀ v : Bool, ∃ (s : State) (g : Group), mfind s.groups 32 = some g ∧ g.resident = true ∧ heldOk g 0 = true ∧ (∀ f ∈ g.sectors, f.1 ≠ 0) ∧ (fetchSector s g 0).2.isSome = v) := by
  refine ⟨fun n hn => ?_, fun n hn => ?_, ⟨wSec [(l1Key 0 5, secD)] [], secD, by decide +kernel, by decide +kernel, by decide, plain_wSec _ _ (by decide)⟩,
    ⟨wSec [] [(dcKey 1 5, secD)], secD, by decide +kernel, by decide +kernel, by decide +kernel, plain_wSec _ _ (by decide)⟩,
    ⟨wSec [] [(dcKey 0 5, secD)], secD, by decide +kernel⟩, fun v => ?_⟩
  · simp at hn
    rcases hn with rfl | rfl | rfl
    · exact ⟨wG gT, 2 ^ 36, by decide +kernel⟩
    · exact ⟨wG gT, 0, by decide +kernel⟩
    · exact ⟨{ wG gT with pages := [(0, pgMv 7)] }, 0, by decide +kernel⟩
  · simp at hn
    rcases hn with rfl | rfl
    · exact ⟨{ wG gT with cores := [(0, { log := [logE 0x8000] })] }, logE 0x8000, gT, rfl, rfl, nofun, rfl, rfl, by decide +kernel, fun _ => ⟨0x8000, 0x8000, [7], by decide +kernel⟩⟩
    · exact ⟨{ wG gT with cores := [(0, { log := [logE (2 ^ 36)] })] }, logE (2 ^ 36), gT, rfl, rfl, nofun, rfl, rfl, by decide +kernel, nofun⟩
  · cases v
    · exact ⟨rmPage (wG gT), gT, rfl, rfl, by decide +kernel, fun f h => absurd h List.not_mem_nil, by decide +kernel⟩
    · exact ⟨wG gT, gT, rfl, rfl, by decide +kernel, fun f h => absurd h List.not_mem_nil, by decide +kernel⟩

/-- A logged store to another package with n flits on its flow. -/
def wFar (n : Nat) : State :=
  { memWrite (wG gT) 0x10000 8 (mkRec [(0, 0, 1), (1, 1, 1), (5, 2, 15), (63, 16, 7 * 2 ^ 24)]) with
    cores := [(0, { log := [logE 0x8000] })], flowsT := [(448, { unacked := List.replicate n { kind := 0 } })], ports := [(0, { st := 2 })] }
/-- A walk that meets a draining entry; a logged store whose flow has room and has none; a move that can end now, and one that waits for its stack; a donation
of a frame of another package, and one for which its pool has no room. -/
theorem witness_PageSteps_waits :
    (∃ (s : State), walkDrains s (coreDie 0) 0 0 = true) ∧
    (∀ n ∈ [255, 256], ∃ (s : State) (e : LogE) (g : Group) (u : State) (pa : Nat), (getCore s 0).log = [e] ∧ mfind s.groups e.gid = some g ∧ translate s 0 e.ctx [] e.va 1 = (u, .ok pa) ∧ isFar s pa = true ∧
      windowFull u (gPart s g) 0 (List.replicate e.bytes.length pa) = decide (n = 256)) ∧
    (∀ v : Bool, ∃ (s : State) (pg : Page), mfind s.pages 0x50000 = some pg ∧ pg.moving = some (0, 0x90000, 0, 0x8000) ∧ removeDue s pg.ctx pg.va = false ∧ moveBusy s 0x50000 (2 ^ pg.size) = false ∧ reachable s 0x90000 = true ∧
      stackBusy s 0x50000 = v ∧ stackBusy s 0x90000 = v ∧ s.l1 = [] ∧ s.dc = [] ∧ memRead s 0x8000 8 = 0) ∧
    (∀ n ∈ [255, 256], ∃ (s : State) (r : RmReq), rmHead (getPart s 0) 2 = some r ∧ r.va = 7 * 2 ^ 40 ∧ paOk r.va = true ∧ isHost r.va = false ∧ isLocal s r.va = false ∧
      ((getPart s 0).migPool.filter (fun e => e.1 == 8 + 4 * paPkg r.va + homeDie r.va && e.2.1 == r.sizeLog)).length = n) := by
  refine ⟨⟨{ wG gT with walkc := [{ die := 0, ctx := 0, level := 3, prefix_ := 0, next := 0, draining := true }] }, by decide +kernel⟩, fun n hn => ?_, fun v => ?_, fun n hn => ?_⟩
  · refine ⟨wFar n, logE 0x8000, gT, (translate (wFar n) 0 0 [] 0x8000 1).1, 7 * 2 ^ 40 + 0x8000, ?_⟩
    simp at hn
    rcases hn with rfl | rfl <;> decide +kernel
  · refine ⟨{ wG gT with pages := [(0x50000, pgMv 0)], stackCtl := if v then [(0, { rateStatus := 1 })] else [] }, pgMv 0, rfl, rfl, ?_⟩
    cases v <;> decide +kernel
  · refine ⟨updPart (wRm [{ func := 2, va := 7 * 2 ^ 40, sizeLog := 16, ctx := 0, gen := 1 }]) 0 (fun q => { q with migPool := List.replicate n (8 + 28, 16, 0) }), { func := 2, va := 7 * 2 ^ 40, sizeLog := 16, ctx := 0, gen := 1 }, ?_⟩
    simp at hn
    rcases hn with rfl | rfl <;> decide +kernel
def wPt (st att : Nat) (rep : List Nat) : State := { wG gT with ports := [(23, { st := st, attempts := att, replays := rep })], time := 1000000 }
/-- A flit of a kind with no payload, from package 7, sequence number n, its header's check word right. -/
def flit (kind n : Nat) : Nat := let x := mkRec [(7, 0, 0), (15, 8, 7), (47, 24, n), (51, 48, kind)]; x + 2 ^ 112 * crc16 x 14
/-- A write flit of sixteen bytes at offset 0x4000, and one that waits for its acknowledgement. -/
def flitW : Nat := let x := mkRec [(7, 0, 0), (15, 8, 7), (55, 52, 1), (103, 64, 0x4000), (135, 128, 5)]; x + 2 ^ 112 * crc16 x 14
/-- A flit of a kind, of class 5, at offset 0. -/
def flitA (kind : Nat) : Nat := let x := mkRec [(15, 8, 7), (21, 16, 5), (51, 48, kind)]; x + 2 ^ 112 * crc16 x 14
def fW : FlitS := { seq := 0, kind := 0, off := 0, data := [5], port := 3, tag := 1 }
/-- A port in every state, one attempt and two behind it, with 15 and 16 replays; flits of every kind, good and bad, in and out of
sequence; timers with something to do and without; packages that may and may not be marked. -/
theorem witness_LinkSteps :
    (∀ st ∈ [0, 1, 2, 3, 4, 5], ∀ att ∈ [0, 2], ∃ (s : State), portSt s 23 = st ∧ ((mfind s.ports 23).getD {}).attempts = att) ∧
    (∀ n ∈ [14, 15], ∃ (s : State), portSt s 23 = 2 ∧ (s.time :: ((mfind s.ports 23).getD {}).replays.filter (fun t => s.time < t + 1000000)).length = n + 1) ∧
    (∀ k ∈ [0, 4, 5], ∃ (s : State) (f : BitVec 2048), portLive s 23 = true ∧ flitBad f.toNat = false ∧ fld f.toNat 7 0 = s.pkg ∧ flKind f.toNat = k ∧
      (let r := (mfind s.flowsR (flowKey (fld f.toNat 15 8) (fld f.toNat 21 16))).getD {}
       r.held = [] ∧ r.seen = [] ∧ flSeq f.toNat = r.next) ∧ (mfind s.flowsT (flowKey (fld f.toNat 15 8) (fld f.toNat 21 16))).isSome = true) ∧
    (∃ (s : State) (f : BitVec 2048), portLive s 23 = true ∧ flitBad f.toNat = false ∧ fld f.toNat 7 0 = s.pkg ∧ flKind f.toNat = 1 ∧
      256 = seqDist (flSeq f.toNat) ((mfind s.flowsR (flowKey (fld f.toNat 15 8) (fld f.toNat 21 16))).getD {}).next) ∧
    (∃ (s : State) (f : BitVec 2048), portLive s 23 = true ∧ flitBad f.toNat = true) ∧
    (∀ n ∈ [0, 1], ∃ (s : State) (r : FlowR), mfind s.flowsR (flowKey 7 0) = some r ∧ r.since = n) ∧
    (∃ (s : State) (r : FlowT) (f : FlitS) (rest : List FlitS) (q : Nat), mfind s.flowsT (flowKey 7 0) = some r ∧ nextPort s = some q ∧ r.unacked = f :: rest) ∧
    (∃ (s : State), (143 : Nat) ≠ s.pkg) ∧
    (∃ (s : State) (r : FlowT) (f : FlitS), s.flowsT = [(448, r)] ∧ r.unacked = [f] ∧ f.kind = 0 ∧ f.tag ≠ 0 ∧ (448 : Nat) / 64 ≠ s.pkg) ∧
    (∃ (s : State) (f : BitVec 2048), (portLive s 23 = true ∧ flitBad f.toNat = false ∧ fld f.toNat 7 0 = s.pkg ∧ flKind f.toNat = 0 ∧
      (mfind s.flowsR (flowKey (fld f.toNat 15 8) (fld f.toNat 21 16))).getD {} = {} ∧ flSeq f.toNat = 0) ∧
      ∃ x ∈ flitBytes f.toNat, x.2 = 5 ∧ x.1 < 768 * 2 ^ 30 ∧ PlainAt s (s.pkg * 2 ^ 40 + x.1)) := by
  refine ⟨fun st hs att ha => ⟨wPt st att [], rfl, rfl⟩, fun n hn => ⟨wPt 2 0 (List.replicate n 999999), ?_⟩, fun k hk => ?_, ⟨wPt 2 0 [], BitVec.ofNat 2048 (flit 1 256), by decide +kernel⟩,
    ⟨wPt 3 0 [], 0, by decide +kernel⟩, fun n hn => ⟨{ wG gT with flowsR := [(448, { since := n })] }, { since := n }, rfl, rfl⟩,
    ⟨{ wPt 2 0 [] with flowsT := [(448, { next := 1, unacked := [{ seq := 0, kind := 0, off := 0, data := [], port := 3 }] })] }, _, _, _, 23, rfl, by decide +kernel, rfl⟩, ⟨wG gT, by decide⟩,
    ⟨{ wG gT with flowsT := [(448, { next := 1, unacked := [fW] })] }, _, fW, rfl, rfl, rfl, by decide, by decide⟩,
    ⟨wPt 2 0 [], BitVec.ofNat 2048 flitW, by decide +kernel, (0x4000, 5), by decide +kernel, by decide +kernel,
      by decide +kernel, plain_parts rfl (by decide)⟩⟩
  · simp at hn
    rcases hn with rfl | rfl <;> decide +kernel
  · simp at hk
    rcases hk with rfl | rfl | rfl
    · exact ⟨{ wPt 2 0 [] with flowsT := [(448, {})] }, BitVec.ofNat 2048 (flit 0 0), by decide +kernel⟩
    · exact ⟨{ wPt 2 0 [] with flowsT := [(448, {})] }, BitVec.ofNat 2048 (flit 4 0), by decide +kernel⟩
    · exact ⟨{ wPt 2 0 [] with flowsT := [(448, {})] }, BitVec.ofNat 2048 (flit 5 0), by decide +kernel⟩
def wHr : State := updPart (wG gT) 0 (fun q => { q with windows := [(0, mkRec [(111, 64, 0x1000), (143, 128, 9), (144, 144, 1), (145, 145, 1)])] })
/-- Requests admitted for reading and writing up to the window's end, refused, held and malformed; the time's offset at 24 and 25 ns,
locked and not; the number of a package with every port down. -/
theorem witness_LinkSteps_host :
    (∀ d ∈ [none, some [(7 : Byte)]], ∃ (s : State) (r : HostReq), s.booted = true ∧ r.part = 7 ∧ r.data = d ∧ r.len = 1 ∧ (∀ l, r.data = some l → l.length = r.len) ∧
      reqFrozen s r.requester.toNat = false ∧ hostCheck s r = some 7) ∧
    (∃ (s : State) (r : HostReq), s.booted = true ∧ r.part < 8 ∧ r.data = none ∧ reqFrozen s r.requester.toNat = true) ∧
    (∀ d ∈ [none, some [(7 : Byte)]], ∃ (s : State) (r : HostReq), s.booted = true ∧ r.part < 8 ∧ r.data = d ∧ (∀ l, r.data = some l → l.length = r.len) ∧
      reqFrozen s r.requester.toNat = false ∧ hostCheck s r = none) ∧
    (∀ x ∈ [(24 : W32), 25, -24, -25], ∀ v : Bool, ∃ (s : State), portLive s 23 = true ∧ s.timeSource = 1 ∧ s.timeLocked = v ∧ (x.toInt.natAbs < 25 ↔ x = 24 ∨ x = -24)) ∧
    (∃ (s : State), (143 : Nat) % 256 ≤ 143 ∧ ∀ q, q < 24 → portSt s q = 0 ∨ portSt s q = 5) ∧
    (∃ (s : State) (p x : Nat), p = 7 ∧ p < 8 ∧ s.booted = true ∧ fld x 62 62 = 1 ∧ fld x 61 60 < 3 ∧ fld x 53 48 = 47 ∧
      ((getPart s p).rmq.filter (fun r => r.phase == 0)).length = 15) := by
  refine ⟨fun d hd => ?_, ⟨{ wG gT with frozen := [(0, (.requester 9, none))] }, { part := 0, requester := 9, off := 0, len := 1, data := none }, rfl, by decide, rfl, by decide +kernel⟩, fun d hd => ?_,
    fun x hx v => ⟨{ wPt 2 0 [] with timeSource := 1, timeLocked := v }, rfl, rfl, rfl, ?_⟩, ⟨wG gT, by decide, by decide +kernel⟩, ⟨updPart (wG gT) 7 (fun q => { q with rmq := List.replicate 15 { func := 1, va := 0, sizeLog := 16, ctx := 0, gen := 0 } }), 7, 2 ^ 62 + 47 * 2 ^ 48, by decide +kernel⟩⟩
  · simp at hd
    rcases hd with rfl | rfl
    · exact ⟨wG gT, { part := 7, requester := 9, off := 0, len := 1, data := none }, rfl, rfl, rfl, rfl, nofun, by decide +kernel⟩
    · exact ⟨wG gT, { part := 7, requester := 9, off := 0, len := 1, data := some [7] }, rfl, rfl, rfl, rfl, by rintro l ⟨⟩; rfl, by decide +kernel⟩
  · simp at hd
    rcases hd with rfl | rfl
    · exact ⟨wHr, { part := 0, requester := 9, off := 0xFFF, len := 1, data := none }, by decide +kernel, by decide, rfl, nofun, by decide +kernel⟩
    · exact ⟨wHr, { part := 0, requester := 9, off := 0xFFF, len := 1, data := some [7] }, by decide +kernel, by decide, rfl, by rintro l ⟨⟩; rfl, by decide +kernel⟩
  · simp at hx
    rcases hx with rfl | rfl | rfl | rfl <;> decide
/-- A stack at every stage of a change of rate and of ganging, with its scrubbing on and off and behind; a core with one group and
without; sampling off, on, and with a full ring; a counter selected and cleared. -/
theorem witness_WatchSteps :
    (∀ st ∈ [0, 1, 2, 3, 4], ∃ (s : State), (getStack s 11).rateStatus = st ∧ saveOn s 11 = false ∧ (getStack s 11).gangNew = some (5 : W64)) ∧
    (∃ (s : State), (getStack s 11).gangNew = none ∧ (getStack s 11).scrubHours = 24 ∧ (getStack s 11).scrubThresh = 8) ∧
    (∀ n ∈ [0, 1], ∃ (s : State), (getStack s 11).scrubHours = n ∧ (n = 1 → (getStack s 11).scrubPos + 2 ^ 25 ≤ scrubDue s (getStack s 11))) ∧
    (∀ n ∈ [0, 1], ∃ (s : State), (getStack s 11).escal = true ∧ (getStack s 11).scrubHours = 1 ∧
      scrubDue s (getStack s 11) < (getStack s 11).scrubPos + 2 ^ 25 ∧ ((getStack s 11).scrubPos < scrubDue s (getStack s 11) ↔ n = 1)) ∧
    (∃ (s : State) (g : Group), (residents s 0)[5 % 2 ^ 32 % (residents s 0).length]? = some (32, g)) ∧ (∃ (s : State), residents s 383 = []) ∧
    (∀ c ∈ [0, 1], ∃ (s : State), (getPart s 0).smpEn = true ∧ (((getPart s 0).smpProd + 2 ^ 32 - (getPart s 0).smpCons) % 2 ^ 32 = 2 ^ smpLogEff (getPart s 0).smpLog ↔ c = 1)) ∧
    (∃ (s : State), (getPart s 0).smpEn = false) ∧ (∃ (s : State) (c : Conf), s.flash.conf = some c ∧ bootFail s.flash = 0) ∧ (∃ (s : State), s.flash.conf = none) ∧ (∀ x ∈ [0, 0x0C, 255], (selOk x = true ↔ x ≠ 255)) := by
  refine ⟨fun st hs => ⟨{ wG gT with stackCtl := [(11, { rateStatus := st, gangNew := some 5 })] }, rfl, ?_, rfl⟩, ⟨wG gT, by decide +kernel⟩,
    fun n hn => ⟨{ wG gT with stackCtl := [(11, { scrubHours := n })], time := 10 ^ 15 }, rfl, ?_⟩,
    fun n hn => ⟨{ wG gT with stackCtl := [(11, { scrubHours := 1, escal := true })], time := n * 10 ^ 9 }, rfl, rfl, ?_⟩, ⟨wG gT, gT, by decide +kernel⟩, ⟨wG gT, by decide +kernel⟩,
    fun c hc => ⟨updPart (wG gT) 0 (fun q => { q with smpEn := true, smpProd := 255 + c }), ?_⟩, ⟨wG gT, by decide +kernel⟩, ⟨wG gT, {}, by decide +kernel⟩, ⟨{ wG gT with flash := { conf := none } }, rfl⟩, by decide⟩
  · revert st
    decide +kernel
  · simp at hn
    rcases hn with rfl | rfl <;> decide +kernel
  · simp only [List.mem_cons, List.not_mem_nil, or_false] at hn
    obtain rfl | rfl := hn
    all_goals decide +kernel
  · simp at hc
    rcases hc with rfl | rfl <;> decide +kernel

/-- A flow of n unacknowledged flits. -/
def tAck (n : Nat) : FlowT := { unacked := List.replicate n fW }
def wAck (n : Nat) : State := { wPt 2 0 [] with flowsT := [(448, tAck n)] }
/-- A flit of every kind that is delivered at once, or behind a rate change; one for which the flow of its answer has room and has none; a port that has asked for a
replay; classes 6 and 7 and a keepalive; an atomic at the start of memory; unacknowledged writes and atomics with and without a tag; an acknowledgement
with no live port; a master of time; packages renumbered. -/
theorem witness_LinkSteps_flits :
    (∀ k ∈ [0, 1, 2, 3, 4, 6, 8], ∀ v : Bool, ∃ (s : State) (f : BitVec 2048), portLive s 23 = true ∧ ((mfind s.ports 23).getD {}).asked = false ∧ flitBad f.toNat = false ∧ fld f.toNat 7 0 = s.pkg ∧
      fld f.toNat 21 16 % 8 = 5 ∧ flKind f.toNat = k ∧ mfind s.flowsR (flowKey (fld f.toNat 15 8) (fld f.toNat 21 16)) = none ∧ flSeq f.toNat = 0 ∧ (k ∈ [0, 1, 3] → flitBusy s f.toNat = v) ∧ (k ∉ [0, 1, 3] → flitBusy s f.toNat = false)) ∧
    (∀ n ∈ [255, 256], ∃ (s : State) (f : BitVec 2048) (r : FlowT), portLive s 23 = true ∧ flitBad f.toNat = false ∧ fld f.toNat 7 0 = s.pkg ∧ flKind f.toNat = 3 ∧ flSeq f.toNat = 0 ∧
      mfind s.flowsT (flowKey (fld f.toNat 15 8) (fld f.toNat 21 16)) = some r ∧ r.unacked.length = n ∧ fld f.toNat 103 64 = 0 ∧ s.pkg = 0 ∧ s.poison = [] ∧ s.ecc = [] ∧ s.eccDc = [] ∧ s = wAck n) ∧ (∀ n i, i < 8 → PlainAt (wAck n) i) ∧
    (∃ (s : State), portLive s 23 = true ∧ ((mfind s.ports 23).getD {}).asked = true) ∧ (∀ t, atomB t ≤ 8) ∧
    (∀ k ∈ [0, 3], ∀ t ∈ [0, 1], ∃ (s : State) (r : FlowT) (f : FlitS), s.flowsT = [(448, r)] ∧ r.unacked = [f] ∧ f.kind = k ∧ f.tag = t ∧ f.put ≠ [] ∧ (448 : Nat) / 64 = 7 ∧ s.pkg ≠ 7) ∧
    (∃ (s : State) (r : FlowT) (f : FlitS), mfind s.flowsT (flowKey 7 0) = some r ∧ nextPort s = none ∧ r.unacked = [f]) ∧
    (∀ v : Bool, ∃ (s : State), s.timeMaster = v ∧ portLive s 23 = true ∧ portLive s 0 = false) ∧
    (∃ (s : State), (143 : Nat) ≠ s.pkg ∧ s.pkg ≤ 143 ∧ sortedKeys s.mem = true ∧ s.mem ≠ [] ∧ (∀ x ∈ s.veils, x.len = 0 ∨ x.lo / 2 ^ 40 = (x.lo + x.len - 1) / 2 ^ 40) ∧ ∀ q, q < 24 → portSt s q = 0 ∨ portSt s q = 5) := by
  refine ⟨fun k hk v => ⟨{ wPt 2 0 [] with stackCtl := if v then [(0, { rateStatus := 1 })] else [] }, BitVec.ofNat 2048 (flitA k), ?_⟩,
    fun n hn => ?_, fun n i hi => plain_parts rfl (Nat.lt_trans hi (by decide)), ⟨{ wG gT with ports := [(23, { st := 2, asked := true })] }, by decide +kernel⟩, fun t => by unfold atomB; split <;> decide,
    fun k _ t _ => ⟨{ wG gT with flowsT := [(448, { unacked := [{ fW with kind := k, tag := t, put := [5], old := [6] }] })] }, _, _, rfl, rfl, rfl, rfl, nofun, rfl, (by decide : (0 : Nat) ≠ 7)⟩,
    ⟨{ wG gT with flowsT := [(448, { unacked := [fW] })] }, _, fW, rfl, by decide +kernel, rfl⟩, fun v => ⟨{ wPt 2 0 [] with timeMaster := v }, rfl, rfl, rfl⟩, ⟨wG gT, by decide +kernel⟩⟩
  · simp at hk
    cases v <;> rcases hk with rfl | rfl | rfl | rfl | rfl | rfl | rfl <;> decide +kernel
  · simp at hn
    rcases hn with rfl | rfl
    · exact ⟨wAck 255, BitVec.ofNat 2048 (flit 3 0), tAck 255, by decide +kernel⟩
    · exact ⟨wAck 256, BitVec.ofNat 2048 (flit 3 0), tAck 256, by decide +kernel⟩
/-- Requests behind a held one, to a stack that changes, and atomics; the time from the host; a package whose boot has failed, and one that has not booted. -/
theorem witness_LinkSteps_more :
    (∃ (s : State) (r : HostReq), s.booted = true ∧ r.part < 8 ∧ reqFrozen s r.requester.toNat = false ∧ s.heldReqs.any (fun h => h.requester == r.requester) = true) ∧
    (∀ v : Bool, ∃ (s : State) (r : HostReq) (l : List Byte), s.booted = true ∧ r.part < 8 ∧ r.data = some l ∧ l.length = r.len ∧ r.atom = some 3 ∧ reqFrozen s r.requester.toNat = false ∧ s.heldReqs = [] ∧
      hostCheck s r = none ∧ hostBusy s r = v ∧ s.poison = [] ∧ s.ecc = [] ∧ hostPa s r.part r.off = 0xFF8 ∧ r.len = 8 ∧ ∀ i, i < 8 → PlainAt s (0xFF8 + i)) ∧
    (∀ x ∈ [(24 : W32), 25], ∃ (s : State), s.timeSource = 2 ∧ portLive s 23 = false ∧ (x.toInt.natAbs < 25 ↔ x = 24)) ∧
    (∀ n ∈ [0, 2], ∃ (s : State), s.booted = false ∧ s.bootStatus = n) := by
  refine ⟨⟨{ wHr with heldReqs := [{ requester := 9, part := 0, off := 0, len := 1, data := none }] }, { requester := 9, part := 0, off := 0, len := 1, data := none }, by decide +kernel⟩,
    fun v => ⟨{ wHr with stackCtl := if v then [(0, { rateStatus := 1 })] else [] }, { part := 0, requester := 9, off := 0xFF8, len := 8, data := some (List.replicate 8 7), atom := some 3 }, List.replicate 8 7, rfl, by decide, rfl, rfl, rfl, rfl, rfl, ?_, ?_, rfl, rfl, ?_, rfl,
      fun i hi => plain_win (s := { wHr with stackCtl := if v then [(0, { rateStatus := 1 })] else [] }) rfl (Nat.lt_of_lt_of_le (Nat.add_lt_add_left hi 0xFF8) (by decide))⟩, fun x hx => ⟨{ wG gT with timeSource := 2 }, rfl, rfl, ?_⟩, fun n _ => ⟨{ wG gT with booted := false, bootStatus := n }, rfl, rfl⟩⟩
  · cases v <;> decide +kernel
  · cases v <;> decide +kernel
  · cases v <;> decide +kernel
  · simp at hx
    rcases hx with rfl | rfl <;> decide
/-- A scrub read that waits for a change and one that does not; regions being zeroed; power above the cap and heat above 105 °C, and neither; a root that is
not the ROM's. -/
theorem witness_WatchSteps_more :
    (∀ v : Bool, ∃ (s : State), scrubBusy s 0 = v ∧ (getStack s 0).scrubHours = 24 ∧ (getStack s 0).scrubThresh = 8) ∧
    (∃ (s : State) (c : Stack), getStack s 11 = c ∧ c.gangNew = some 0 ∧ c.gangMask.getLsbD 63 = true ∧ s.heldReqs = [] ∧ s.flowsR = []) ∧ (∃ (s : State), s.powerCap < s.power) ∧ (∃ (s : State), 105 ≤ s.temp ∧ s.power ≤ s.powerCap) ∧
    (∃ (s : State), s.power ≤ s.powerCap ∧ s.temp < 105) ∧ (∃ (s : State) (c : Conf), s.flash.conf = some c ∧ c.root ≠ s.flash.rom) := by
  refine ⟨fun v => ⟨{ wG gT with stackCtl := [(0, { scrubHours := 24, rateStatus := if v then 1 else 0 })] }, ?_⟩, ⟨{ wG gT with stackCtl := [(11, { gangNew := some 0, gangMask := 1#64 <<< 63 })] }, _, rfl, by decide +kernel⟩,
    ⟨{ wG gT with power := 2 ^ 32 }, by decide +kernel⟩, ⟨{ wG gT with temp := 105 }, by decide +kernel⟩, ⟨wG gT, by decide +kernel⟩, ⟨{ wG gT with flash := { conf := some { root := 1 } } }, { root := 1 }, by decide +kernel⟩⟩
  cases v <;> decide +kernel
/-- The turn of the group at core 0, slot 0, with a held sector. -/
def wI (x : BitVec 1024) (p : List Pend) : State := { wG { gT with sectors := [(0, .ok x)], pend := p } with agenda := [.issue 0 0 0] }
/-- A group that found no page at its program counter, in a package changed since; and how its fetch goes now. -/
def gNo : Group := { gT with sectors := [(0, .notPresent 0)] }
def wNo (f : State → State) : State := { f (wG gNo) with agenda := [.issue 0 0 0] }
theorem no_held : gNo.sectors.find? (fun x => x.1 == secBase gNo.pc) = some (0, .notPresent 0) := by decide
theorem no_ok : ∀ bits, FetchR.notPresent 0 ≠ .ok bits := by simp
def fetchTag (x : Option FetchR) : Nat := match x with | some (.ok _) => 0 | some (.notPresent _) => 1 | some (.forbidden _) => 2 | some (.poisoned ..) => 3 | none => 4
def wAdd : BitVec 1024 := BitVec.setWidth 1024 (encodeP .add pAdd)
/-- A group whose txend is still to be committed, one that waits for a result of its burst, one with a report; a clean sector; a write to function 0 after a
boot that failed. -/
theorem witness_StepRunsDecoded_waits :
    (∃ (s : State) (g : Group) (i : Instr), s.agenda = [.issue 0 0 0] ∧ groupAt s 0 0 = some (32, g) ∧ waitsFor g i = false ∧ commitFirst g i = true) ∧
    (∀ v : Bool, ∃ (g : Group), waitsFor g (.add pAdd) = true ∧ waitsInBurst g (.add pAdd) = v) ∧
    (∃ (s : State) (g : Group), s.agenda = [.issue 0 0 0] ∧ groupAt s 0 0 = some (32, g) ∧ canIssue s g = true ∧ g.asyncF ≠ []) ∧
    (∃ (s : State) (g : Group) (m : State), translate s g.core (gCtx s g) [] 0x4000 2 = (m, .ok 0x4000) ∧ windowShut m (gPart s g) 0 [0x4000] = false ∧ CleanAt m g 0x4000) ∧
    (∃ (s : State) (v : W64), s.agenda = [.event (.registerWrite 0 0x8000 v)] ∧ s.booted = false ∧ s.bootStatus ≠ 0 ∧ windowEvent (.registerWrite 0 0x8000 v) = true ∧ isEvent (.registerWrite 0 0x8000 v) = true) := by
  refine ⟨⟨{ wG { gT with commits := [{ ticket := 1, reg := none, lanes := [] }] } with agenda := [.issue 0 0 0] }, _, .ld { p0 with ty := 6, d := .v false 0 9, a := .v 6 }, rfl, rfl, by decide +kernel, by decide +kernel⟩,
    fun v => ⟨{ gT with pend := [{ ws := [.v 5 0 7], ready := false, burst := v }] }, by cases v <;> decide +kernel, by cases v <;> decide +kernel⟩,
    ⟨{ wG { gT with asyncF := [(0x22, 2, 1, 0)] } with agenda := [.issue 0 0 0] }, _, rfl, rfl, by decide +kernel, nofun⟩,
    ⟨wG gT, gT, (translate (wG gT) 0 0 [] 0x4000 2).1, by decide +kernel, by decide +kernel, ?_⟩, ⟨{ wG gT with booted := false, bootStatus := 2, agenda := [.event (.registerWrite 0 0x8000 0)] }, 0, rfl, rfl, nofun, rfl, rfl⟩⟩
  unfold CleanAt
  decide +kernel
theorem witness_StepRunsDecoded :
    (∀ x ∈ [BitVec.allOnes 1024, 0xFF#1024, wAdd], ∃ (s : State) (g : Group) (k : Kernel) (f : Nat × FetchR), s.agenda = .issue 0 0 0 :: [] ∧ groupAt s 0 0 = some (32, g) ∧ gKernel s g = some k ∧
      mfind s.groups 32 = some g ∧ canIssue s g = true ∧ g.asyncF = [] ∧ g.sectors.find? (fun x => x.1 == secBase g.pc) = some f ∧ f.2 = .ok x) ∧
    (∀ n ∈ [0, 1, 2, 3, 4], ∃ (s : State) (g : Group) (k : Kernel) (f : Nat × FetchR), (s.agenda = .issue 0 0 0 :: [] ∧ groupAt s 0 0 = some (32, g) ∧ gKernel s g = some k ∧
      mfind s.groups 32 = some g ∧ canIssue s g = true ∧ g.asyncF = []) ∧ g.sectors.find? (fun x => x.1 == secBase g.pc) = some f ∧ (∀ bits, f.2 ≠ .ok bits) ∧
      fetchTag (fetchSector (put { s with agenda := [] } 32 { g with sectors := g.sectors.filter (fun x => x.1 != secBase g.pc) }) g (secBase g.pc)).2 = n) ∧
    2 ^ 10 ≤ ((BitVec.allOnes 1024).extractLsb' 960 64).toNat ∧ (wAdd.extractLsb' 960 64).toNat < 2 ^ 10 ∧
    (decodeWord 128 true (wAdd.extractLsb' 0 96)).toOption = some (.add pAdd) ∧ (decodeWord 128 true ((0xFF#1024).extractLsb' 0 96)).toOption = none ∧
    (∃ (s : State) (g : Group), s.agenda = .issue 0 0 0 :: [] ∧ groupAt s 0 0 = some (32, g) ∧ mfind s.groups 32 = some g ∧ canIssue s g = true ∧ g.asyncF = [] ∧
      g.sectors.find? (fun x => x.1 == secBase g.pc) = none) ∧
    (∃ (s : State) (g : Group) (m : State), translate s g.core (gCtx s g) [] 0x4000 2 = (m, .ok 0x4000) ∧ mfind m.l1 (l1Key (gPair g) (sectorOf 0x4000)) = none ∧
      mfind m.dc (dcKey (pairDie (gPair g)) (sectorOf 0x4000)) = none ∧ reachable m 0x4000 = true ∧ ∀ i, i < 4 → mfind m.ecc (granOf 0x4000 + i) = none ∧ mfind m.poison (granOf 0x4000 + i) = none) ∧
    (∃ (s : State), s.agenda = .hart 0 :: [] ∧ s.booted = true ∧ (match hartFetch { s with agenda := [] } 0 with | .run i => i == .cmdNop | _ => false) = true) ∧
    (∃ (s : State), s.agenda = .event .boot :: [] ∧ isEvent .boot = true ∧ bootEvent .boot = true) ∧ (∃ (s : State), s.agenda = .event .timeLockLoss :: [] ∧ s.booted = true ∧ isEvent .timeLockLoss = true) ∧
    (∃ (s : State), s.agenda = .event .timeLockLoss :: [] ∧ s.booted = false ∧ bootEvent .timeLockLoss = false) ∧ isEvent (.add pAdd) = false ∧
    (∃ (s : State), s.agenda = .issue 5 7 0 :: [] ∧ groupAt s 5 7 = none) := by
  refine ⟨fun x _ => ⟨wI x [], { gT with sectors := [(0, .ok x)] }, kT, (0, .ok x), rfl, rfl, rfl, rfl, rfl, rfl, by simp [secBase, gT], rfl⟩, fun n hn => ?_, by decide +kernel, by decide +kernel, by decide +kernel, by decide +kernel,
    ⟨{ wG gT with agenda := [.issue 0 0 0] }, gT, rfl, rfl, rfl, rfl, rfl, rfl⟩, ⟨wG gT, gT, (translate (wG gT) 0 0 [] 0x4000 2).1, by decide +kernel⟩,
    ⟨{ wH (wG gT) qR with agenda := [.hart 0] }, rfl, rfl, by decide +kernel⟩,
    ⟨{ wG gT with agenda := [.event .boot] }, rfl, rfl, rfl⟩,
    ⟨{ wG gT with agenda := [.event .timeLockLoss] }, rfl, rfl, rfl⟩, ⟨{ wG gT with booted := false, agenda := [.event .timeLockLoss] }, rfl, rfl, rfl⟩, rfl, ⟨{ wG gT with agenda := [.issue 5 7 0] }, rfl, by decide +kernel⟩⟩
  simp at hn
  rcases hn with rfl | rfl | rfl | rfl | rfl
  · exact ⟨wNo id, gNo, kT, (0, .notPresent 0), by decide +kernel, no_held, no_ok, by decide +kernel⟩
  · exact ⟨wNo (fun s => memWrite s 0x10000 8 0), gNo, kT, (0, .notPresent 0), by decide +kernel, no_held, no_ok, by decide +kernel⟩
  · exact ⟨wNo noPage, gNo, kT, (0, .notPresent 0), by decide +kernel, no_held, no_ok, by decide +kernel⟩
  · exact ⟨wNo (fun s => { s with poison := [(0, true)] }), gNo, kT, (0, .notPresent 0), by decide +kernel, no_held, no_ok, by decide +kernel⟩
  · exact ⟨wNo rmPage, gNo, kT, (0, .notPresent 0), by decide +kernel, no_held, no_ok, by decide +kernel⟩
/-- Well-formed instructions and commands, and words that decode. -/
theorem witness_DecodeEncode :
    (∃ i o p, i.wellFormed = true ∧ i.split = some (o, p) ∧ decodeWord 128 true (encodeP o p) = .ok i) ∧
    (∃ i l, i.wellFormed = true ∧ encodeCmd i = some l ∧ decodeCmd (l.getD 0 0).toNat (l.getD 1 0).toNat (l.getD 2 0).toNat = .ok i) :=
  ⟨⟨.add pAdd, .add, pAdd, by decide, rfl, by rfl⟩, ⟨.cmdWait 1 7 0x1000 5, _, by decide, rfl, by rfl⟩⟩
theorem witness_StepKeepsMemory : ∃ s t : State, Safety.memInv s ∧ step s = .next t :=
  ⟨State.reset, match step State.reset with | .next t => t | _ => State.reset, by decide +kernel, by rfl⟩
/-- A group alone and at a barrier; a ring with room and full; faults that can and cannot be resumed; the kernel Running. -/
theorem witness_FaultsAndFreezes :
    resumable 0x06 = true ∧ resumable 0x10 = true ∧ resumable 0x01 = false ∧
    (∀ n ∈ [15, 16], ∃ (s : State) (g : Group), mfind s.groups 32 = some g ∧ (getCtx s (gCtx s g)).fltPend = [] ∧
      (ringFull (getCtx s (gCtx s g)).fltProd (fld (ctxDesc s (gCtx s g)) 367 352) (ringLog (fld (ctxDesc s (gCtx s g)) 323 320)) = true ↔ n = 16) ∧
      (getPart s 0).frzPend = [] ∧ (ringFull (getPart s 0).frzProd (getPart s 0).frzCons (ringLog (getPart s 0).frzLog) = true ↔ n = 16)) ∧
    (∃ (s : State) (g : Group) (b : Block), mfind s.groups 32 = some g ∧ g.st = .waiting (.bar 15) ∧ mfind s.blocks g.block = some b ∧ g.arrivals.any (fun a => a.id == 15 && a.sync) = true) ∧
    (∃ (s : State) (g : Group) (k : Kernel), mfind s.groups 32 = some g ∧ sortedKeys s.groups = true ∧ mfind s.kernels (gKid s g) = some k ∧ k.st = .running ∧
      ∃ j h, j ≠ 32 ∧ mfind s.groups j = some h ∧ gKid s h = gKid s g ∧ h.st = .ready) := by
  refine ⟨rfl, rfl, rfl, fun n hn => ⟨updPart (wC .running (fun c => { c with fltProd := n }) [(32, gT)] bT) 0 (fun q => { q with frzProd := n }), gT, ?_⟩,
    ⟨wG { gT with st := .waiting (.bar 15), arrivals := [{ id := 15, count := 1, sync := true }] }, _, bT, rfl, rfl, rfl, rfl⟩,
    ⟨{ wG gT with groups := [(32, gT), (33, { gT with num := 1, slot := 1 })] }, gT, kT, rfl, rfl, rfl, rfl, 33, { gT with num := 1, slot := 1 }, by decide, rfl, rfl, rfl⟩⟩
  simp at hn
  rcases hn with rfl | rfl <;> decide +kernel

/-- The event of an sdel on handle 3 that sets out, and one that finds its scroll no longer Live. -/
def gSent : Group := { gA 0 0 with st := .sent 0 }
def wSend : State :=
  { wSc { gA 0 0 with sectors := [(0, .ok (BitVec.setWidth 1024 (encodeP .sdel { pS with b := .op .none })))] } (scrC 0 0) [] with agenda := [.send 0 0] }
theorem witness_ScrollWork_gone : ∃ (s : State) (gid : Nat) (busy : BitVec 10) (g : Group) (p : P) (b : Block),
    Issuer s gid busy g ∧ elects g p.h = true ∧ Calm s g b ∧ g.st = .sent 0 ∧ liveScroll s (gPart s g) 0 = none :=
  ⟨wSc gSent { scrC 0 0 with st := 2 } [], 32, 0, gSent, pS, bH, ⟨rfl, by decide +kernel⟩, by decide +kernel, ⟨by decide +kernel, rfl, rfl, rfl⟩, rfl, by decide +kernel⟩
theorem witness_StepRunsDecoded_send : ∃ (s : State) (g : Group) (bits : BitVec 1024) (i : Instr) (o : Op) (p : P) (c : Scroll), s.agenda = .send 0 0 :: [] ∧
    groupAt s 0 0 = some (32, g) ∧ mfind s.groups 32 = some g ∧ canIssue s g = true ∧ isSent g = false ∧ g.asyncF = [] ∧
    g.sectors.find? (fun x => x.1 == secBase g.pc) = some (secBase g.pc, .ok bits) ∧ (bits.extractLsb' 960 64).toNat < 2 ^ 10 ∧
    (groupDecode s g (bits.extractLsb' (8 * (g.pc % 128)) 96)).toOption = some i ∧ i.split = some (o, p) ∧ sends o = some true ∧ waitsFor g i = false ∧ commitFirst g i = false ∧
    elects g p.h = true ∧ Bound s g (shNo p.a) true 0 c :=
  ⟨wSend, _, _, .sdel { pS with b := .op .none }, .sdel, _, scrC 0 0, rfl, rfl, rfl, by decide +kernel, by decide +kernel, rfl, rfl, by decide +kernel, by decide +kernel, rfl, by decide +kernel, by decide +kernel,
    by decide +kernel, by decide +kernel, ⟨by decide +kernel, by decide +kernel, fun _ => by decide +kernel⟩⟩
theorem test_sent : (match step wSend with | .next t => (mfind t.groups 32).map (·.st) | _ => none) = some (.sent 0) := by decide +kernel
theorem test_gone : (match exec (.sdel pS) (wSc gSent { scrC 0 0 with st := 2 } []) with
    | .next t => (mfind t.groups 32).map (fun g => g.pend.map (fun q => q.ws)) | _ => none) = some [[.s 12 0xFF]] := by decide +kernel

end Sys2Proof.Tests
end

section
/-! What reset leaves. No map of the reset state lists a key, so every object of it reads as its default record, which holds
the reset values of its register block. -/

namespace Sys2Proof.Machine

/-! ### The objects of the reset state -/

@[simp] theorem mfind_nil {α : Type} (k : Nat) : mfind ([] : AMap α) k = none := rfl
@[simp] theorem mget_nil {α : Type} (d : α) (k : Nat) : mget d ([] : AMap α) k = d := rfl
@[simp] theorem getPart_reset (p : Nat) : getPart State.reset p = {} := rfl
@[simp] theorem getCtx_reset (k : Nat) : getCtx State.reset k = {} := rfl
@[simp] theorem getQ_reset (k : Nat) : getQ State.reset k = {} := rfl
@[simp] theorem getCore_reset (c : Nat) : getCore State.reset c = {} := rfl
@[simp] theorem stackCtl_reset : State.reset.stackCtl = [] := rfl

/-- R383: no port is Up or Degraded before its link trains. -/
@[simp] theorem portLive_reset (q : Nat) : portLive State.reset q = false := rfl

/-- At reset nothing is veiled and memory lists no byte (assumption log 4). -/
@[simp] theorem memByte_reset (a : Nat) : memByte State.reset a = 0 :=
  memByte_of_bare (s := State.reset) rfl

/-! ### The statement -/

/-- Settles O59: memory and the fields that the state holds itself, then each kind of object by its default record. -/
theorem resetState : Obligations.ResetState := by
  unfold Obligations.ResetState
  refine ⟨reset_wf, memByte_reset, rfl, rfl, rfl, rfl, rfl, rfl, rfl, rfl, rfl, rfl, rfl, rfl,
    fun k => ?ctx, fun q => ?queue, portLive_reset, fun n => ?core, fun p => ?part, fun t => ?stack⟩
  case ctx => simp
  case queue => simp
  case core => simp
  case part => simp
  case stack => simp

end Sys2Proof.Machine
end

section
/-! The mould of the arithmetic instructions, once for every instruction of the ALU and SFU pipes: what a step of it leaves of
the state (`RegStep`), of the registers and of the latch, and with it what an instruction computes (`ComputesIn`). -/

namespace Sys2Proof.Machine
open Sys2Proof.Claim

/-! ### Register writes and their frames -/

/-- A predicate write touches the predicates alone. -/
theorem wrPred_frame (g : Group) (n lane : Nat) (x : Bool) :
    wrPred g n lane x = { g with p := (wrPred g n lane x).p, k := (wrPred g n lane x).k } := by
  unfold wrPred wrP wrK
  split
  · split <;> rfl
  · rfl

theorem wrPreds_frame (g : Group) (lane : Nat) (l : List (Nat × Bool)) :
    wrPreds g lane l = { g with p := (wrPreds g lane l).p, k := (wrPreds g lane l).k } := by
  induction l generalizing g with
  | nil => rfl
  | cons x t ih =>
    show wrPreds (wrPred g x.1 lane x.2) lane t =
      { g with p := (wrPreds (wrPred g x.1 lane x.2) lane t).p, k := (wrPreds (wrPred g x.1 lane x.2) lane t).k }
    rw [ih, wrPred_frame g]

/-- The predicate writes of every lane touch the predicates alone. -/
theorem foldl_wrPreds_frame (rs : List (Nat × Res)) (g : Group) :
    rs.foldl (fun g r => wrPreds g r.1 r.2.preds) g =
      { g with p := (rs.foldl (fun g r => wrPreds g r.1 r.2.preds) g).p,
               k := (rs.foldl (fun g r => wrPreds g r.1 r.2.preds) g).k } := by
  induction rs generalizing g with
  | nil => rfl
  | cons r t ih =>
    simp only [List.foldl_cons]
    rw [ih, wrPreds_frame g]

/-- A uniform result touches the uniform registers alone. -/
theorem wrUni_frame (g : Group) (d : Dst) (t x : Nat) : wrUni g d t x = { g with sr := (wrUni g d t x).sr } := by
  unfold wrUni
  split <;> rfl

/-- A uniform register after a uniform result. -/
theorem rdS_wrUni (g : Group) (d : Dst) (t x m : Nat) :
    rdS (wrUni g d t x) m = if dstS d = some m then BitVec.ofNat 64 (uniBits t x) else rdS g m := by
  unfold wrUni
  cases hd : dstS d with
  | none => simp
  | some n => simp only [wrSn, rdS_wrS, Option.some.injEq, eq_comm]

/-! ### A step that touches registers only -/

/-- What the mould has done to a state before the group goes on: of the group itself the registers and latch marks, of the other
groups the latch marks, of the cores the keep reservations, and the latches. -/
structure RegsOnly (s s1 : State) (gid : Nat) (g g1 : Group) : Prop where
  found : mfind s1.groups gid = some g1
  own : g1 = { g with v := g1.v, sr := g1.sr, p := g1.p, k := g1.k, latchPipe := g1.latchPipe }
  others : OthersSame s s1 gid
  core : ∀ c, getCore s1 c = { getCore s c with keep := (getCore s1 c).keep }
  rest : s1 = { s with groups := s1.groups, cores := s1.cores, latches := s1.latches }

theorem RegsOnly.refl {s : State} {gid : Nat} {g : Group} (hg : mfind s.groups gid = some g) : RegsOnly s s gid g g :=
  ⟨hg, rfl, fun _ _ => rfl, fun _ => rfl, rfl⟩

/-- Register writes of the group keep it so. -/
theorem RegsOnly.updG {s s1 : State} {gid : Nat} {g g1 : Group} (h : RegsOnly s s1 gid g g1) (f : Group → Group)
    (hf : f g1 = { g1 with v := (f g1).v, sr := (f g1).sr, p := (f g1).p, k := (f g1).k }) :
    RegsOnly s (Machine.updG s1 gid f) gid g (f g1) where
  found := find_updG_same f h.found
  own := by rw [hf, h.own]
  others j hj := by rw [find_updG_ne f hj]; exact h.others j hj
  core := h.core
  rest := by rw [h.rest]; rfl

/-- The issue on a pipe is of this kind (R42, R43). -/
theorem regsOnly_issueOn {s : State} {gid : Nat} {g : Group} (hg : mfind s.groups gid = some g) (pipe : Nat) (sfu keep : Bool)
    (occ : Nat) : RegsOnly s (issueOn s gid g pipe sfu keep occ) gid g g where
  found := find_issueOn_same pipe sfu keep occ hg
  own := rfl
  others j _ := by
    rw [find_issueOn, Option.map_map]
    congr 1
    funext x
    rw [Function.comp_apply, staleMark_frame]
    rfl
  core c := getCore_keepSet s gid g.core pipe sfu keep occ c
  rest := by rw [issueOn_frame]

/-- A latch write keeps it so, and marks the latch as the group's own on that pipe. -/
theorem RegsOnly.latchWrite {s s1 : State} {gid : Nat} {g g1 : Group} (h : RegsOnly s s1 gid g g1) (pipe l : Nat)
    (vs : List (Nat × Nat)) :
    RegsOnly s (Machine.latchWrite s1 gid g pipe l vs) gid g { g1 with latchPipe := mset g1.latchPipe l (pipe, false) } where
  found := find_updG_same (s := { s1 with latches := _ }) _ h.found
  own := by rw [h.own]
  others j hj := (congrArg _ (find_updG_ne (s := { s1 with latches := _ }) _ hj)).trans (h.others j hj)
  core := h.core
  rest := by rw [h.rest]; rfl

/-- The group as it goes on after an instruction that does not close its region. -/
def wentOn (s : State) (p : P) (g : Group) : Group := goTo (hintG g s.cycle p.h) (nextPc g.pc)

theorem RegsOnly.cycle {s s1 : State} {gid : Nat} {g g1 : Group} (h : RegsOnly s s1 gid g g1) : s1.cycle = s.cycle := by
  rw [h.rest]

/-- When the group goes on, the whole is a step that touches registers only. -/
theorem RegsOnly.regStep {s s1 : State} {gid : Nat} {g g1 : Group} (h : RegsOnly s s1 gid g g1) (p : P) :
    RegStep s (advance s1 gid p false) gid g (wentOn s p g1) where
  found := by rw [wentOn, ← h.cycle]; exact find_advance p false h.found
  pc := by rw [h.own]; rfl
  ready := rfl
  own := by rw [h.own]; rfl
  others j hj := by rw [find_advance_ne s1 p false hj]; exact h.others j hj
  core := h.core
  rest := by rw [advance_frame, h.rest]
  mem pair a := by rw [advance_frame, h.rest]; exact ⟨rfl, rfl⟩

/-! ### The two forms of the mould -/

/-- What the uniform form writes into its group: the result in D, and the predicates. -/
def uniWrite (p : P) (hasV : Bool) (tr : Nat) (r : Res) (g : Group) : Group :=
  wrPreds (if hasV then wrUni g p.d tr r.val else g) 0 r.preds

/-- The results of the executing lanes. -/
def laneRes (g : Group) (p : P) (r : Nat → Res) : List (Nat × Res) := (lanesOf (guardLanes g p.h)).map (fun i => (i, r i))

/-- What the vector form writes into its group: the lanes' results in D, and their predicates. -/
def vecWrite (p : P) (hasV wide : Bool) (rs : List (Nat × Res)) (g : Group) : Group :=
  rs.foldl (fun g x => wrPreds g x.1 x.2.preds) (if hasV then wrLanes g p.d wide (rs.map (fun x => (x.1, x.2.val))) else g)

/-- The latch marks after a result that goes to a latch too (R42). -/
def latchMarked (p : P) (pipe : Nat) (g : Group) : Group := { g with latchPipe := mset g.latchPipe p.d.latchBits (pipe, false) }

theorem uniWrite_frame (p : P) (hasV : Bool) (tr : Nat) (r : Res) (g : Group) :
    uniWrite p hasV tr r g =
      { g with sr := (uniWrite p hasV tr r g).sr, p := (uniWrite p hasV tr r g).p, k := (uniWrite p hasV tr r g).k } := by
  unfold uniWrite
  cases hasV
  · rw [wrPreds_frame]; rfl
  · rw [wrPreds_frame, if_pos rfl, wrUni_frame]

theorem vecWrite_frame (p : P) (hasV wide : Bool) (rs : List (Nat × Res)) (g : Group) :
    vecWrite p hasV wide rs g =
      { g with v := (vecWrite p hasV wide rs g).v, p := (vecWrite p hasV wide rs g).p, k := (vecWrite p hasV wide rs g).k } := by
  unfold vecWrite
  cases hasV
  · rw [foldl_wrPreds_frame]; rfl
  · rw [foldl_wrPreds_frame, if_pos rfl, wrLanes_frame]

theorem vecWrite_latchPipe (p : P) (hasV wide : Bool) (rs : List (Nat × Res)) (g : Group) :
    (vecWrite p hasV wide rs g).latchPipe = g.latchPipe := by rw [vecWrite_frame]

variable {s : State} {gid : Nat} {busy : BitVec 10} {g : Group} {p : P}

/-- The uniform form is a step of the group on its registers that writes no latch. -/
theorem aluRun_uni_regStep (hi : Issuer s gid busy g) (hu : p.h.uni = true) (sfu hasV : Bool) (xs : List Opnd) (tr : Nat)
    (wide long : Bool) (f : Group → Nat → Src → Res) :
    let r := f g 0 (fun ty x => srcPat s g (gConsts s g) 0 ty x 0)
    ∃ t, aluRun p s sfu hasV xs tr wide long f = .next t ∧ t.latches = s.latches ∧
      RegStep s t gid g (wentOn s p (if actsOnce g p.h then uniWrite p hasV tr r g else g)) := by
  intro r
  obtain ⟨hc, hg⟩ := hi
  have hs := RegsOnly.refl hg
  rw [aluRun_uni hc hg hu]
  split
  · exact ⟨_, rfl, rfl, (hs.updG (uniWrite p hasV tr r) (by rw [uniWrite_frame])).regStep p⟩
  · exact ⟨_, rfl, rfl, hs.regStep p⟩

/-- What the vector form has done before the group goes on, but for the latch: the issue on the pipe and the registers. -/
def vecState (s : State) (gid : Nat) (g : Group) (p : P) (sfu hasV wide long : Bool) (n : Nat) (r : Nat → Res) : State :=
  updG (issueOn s gid g n sfu p.h.keep (if long then 8 else 4)) gid (vecWrite p hasV wide (laneRes g p r))

theorem vecState_latches (s : State) (gid : Nat) (g : Group) (p : P) (sfu hasV wide long : Bool) (n : Nat) (r : Nat → Res) :
    (vecState s gid g p sfu hasV wide long n r).latches = s.latches := by
  rw [vecState, updG_latches, issueOn_frame]

theorem regsOnly_vecState (hg : mfind s.groups gid = some g) (sfu hasV wide long : Bool) (n : Nat) (r : Nat → Res) :
    RegsOnly s (vecState s gid g p sfu hasV wide long n r) gid g (vecWrite p hasV wide (laneRes g p r) g) :=
  (regsOnly_issueOn hg _ _ _ _).updG _ (by rw [vecWrite_frame])

/-- The lanes' results as the latch takes them. -/
theorem laneRes_vals (g : Group) (p : P) (r : Nat → Res) :
    (laneRes g p r).map (fun x => (x.1, x.2.val)) = (lanesOf (guardLanes g p.h)).map (fun i => (i, (r i).val)) := by
  simp only [laneRes, List.map_map, Function.comp_def]

/-- The vector form of a value of 64 bits, or of none, is a step of the group on its registers that writes no latch. -/
theorem aluRun_pipe_noLatch (hi : Issuer s gid busy g) (hu : p.h.uni = false) {sfu : Bool} {xs : List Opnd} {n : Nat}
    (hp : pickPipe s gid busy g sfu xs = .pipe n) {hasV wide : Bool} (hl : (hasV && !wide) = false) (tr : Nat) (long : Bool)
    (f : Group → Nat → Src → Res) :
    let r := fun i => f g i (fun ty x => srcPat s g (gConsts s g) n ty x i)
    ∃ t, aluRun p s sfu hasV xs tr wide long f = .next t ∧ t.latches = s.latches ∧
      RegStep s t gid g (wentOn s p (vecWrite p hasV wide (laneRes g p r) g)) := by
  intro r
  refine ⟨advance (vecState s gid g p sfu hasV wide long n r) gid p false, ?run, vecState_latches s gid g p sfu hasV wide long n r,
    (regsOnly_vecState hi.2 sfu hasV wide long n r).regStep p⟩
  case run =>
    rw [aluRun_pipe hi.1 hi.2 hu hp, hl]
    rfl

/-- The vector form of a narrower value is a step of the group on its registers that leaves the results in the latch of D too. -/
theorem aluRun_pipe_latch (hi : Issuer s gid busy g) (hu : p.h.uni = false) {sfu : Bool} {xs : List Opnd} {n : Nat}
    (hp : pickPipe s gid busy g sfu xs = .pipe n) (tr : Nat) (long : Bool) (f : Group → Nat → Src → Res) :
    let r := fun i => f g i (fun ty x => srcPat s g (gConsts s g) n ty x i)
    ∃ t, aluRun p s sfu true xs tr false long f = .next t ∧
      (∀ lane, lane < 32 → (guardLanes g p.h).getLsbD lane = true →
        mget 0 t.latches (latchKey g.core n p.d.latchBits lane) = BitVec.ofNat 32 (r lane).val) ∧
      RegStep s t gid g (wentOn s p (latchMarked p n (vecWrite p true false (laneRes g p r) g))) := by
  intro r
  let s2 := vecState s gid g p sfu true false long n r
  let vs := (laneRes g p r).map (fun x => (x.1, x.2.val))
  refine ⟨advance (latchWrite s2 gid g n p.d.latchBits vs) gid p false, ?run, fun lane hl he => ?latch,
    ((regsOnly_vecState hi.2 sfu true false long n r).latchWrite n p.d.latchBits vs).regStep p⟩
  case run =>
    rw [aluRun_pipe hi.1 hi.2 hu hp]
    rfl
  case latch =>
    show mget 0 (latchWrite s2 gid g n p.d.latchBits vs).latches _ = _
    simp only [vs, laneRes_vals]
    exact mget_latchWrite s2 gid g n p.d.latchBits _ (fun i => (r i).val) lane hl he

/-! ### Registers after a result -/

/-- D that is no vector register, or has no write-back, takes no lane results (R41). -/
theorem wrLanes_noVec (g : Group) {d : Dst} (hd : ∀ l n, d = .v false l n → False) (wide : Bool) (rs : List (Nat × Nat)) :
    wrLanes g d wide rs = g := by
  unfold wrLanes
  split
  · exact (hd _ _ rfl).elim
  · rfl

/-- R125: what the uniform form of a value leaves in the uniform registers. -/
theorem uniRegs_uniWrite (g : Group) (p : P) (tr : Nat) (r : Res) :
    UniRegs g (if actsOnce g p.h then uniWrite p true tr r g else g) p tr r.val := by
  by_cases ha : actsOnce g p.h = true
  · have hw : uniWrite p true tr r g = wrPreds (wrUni g p.d tr r.val) 0 r.preds := rfl
    refine ⟨fun m => ?_, by rw [if_pos ha, uniWrite_frame]⟩
    rw [if_pos ha, hw, wrPreds_frame]
    simp only [ha, true_and]
    exact rdS_wrUni g p.d tr r.val m
  · exact ⟨fun m => by simp [ha], by simp [ha]⟩

/-- R41: what the vector form of a value leaves in the vector registers. -/
theorem vecRegs_vecWrite (g : Group) (p : P) (wide : Bool) (r : Nat → Res) :
    VecRegs g (vecWrite p true wide (laneRes g p r) g) p wide (fun i => (r i).val) := by
  refine ⟨fun m lane hl => ?_, by rw [vecWrite_frame]⟩
  have hw : vecWrite p true wide (laneRes g p r) g = (laneRes g p r).foldl (fun g x => wrPreds g x.1 x.2.preds)
      (wrLanes g p.d wide ((lanesOf (guardLanes g p.h)).map (fun i => (i, (r i).val)))) := by
    rw [← laneRes_vals]; rfl
  rw [hw, foldl_wrPreds_frame]
  show rdV (wrLanes g p.d wide _) m lane = _
  split
  · next l n hd =>
    rw [hd, rdV_wrLanes g l n wide _ ?nodup ?lanes m lane hl, find_lanes _ _ _ hl]
    case nodup => simpa [Function.comp_def] using lanesOf_nodup (guardLanes g p.h)
    case lanes => simp only [List.forall_mem_map]; exact fun i hi => (mem_lanesOf.1 hi).1
    by_cases he : (guardLanes g p.h).getLsbD lane = true
    · rw [if_pos he, if_pos he]
    · rw [if_neg he, if_neg he]
  · next hd =>
    rw [wrLanes_noVec g hd]

/-- A uniform result without predicates leaves the predicates. -/
theorem predsSame_uniWrite (g : Group) (p : P) (tr x : Nat) :
    PredsSame g (if actsOnce g p.h then uniWrite p true tr ⟨x, []⟩ g else g) := by
  split
  · show PredsSame g (wrUni g p.d tr x)
    rw [wrUni_frame]
    exact ⟨rfl, rfl⟩
  · exact ⟨rfl, rfl⟩

/-- Lane results without predicates leave the predicates. -/
theorem predsSame_vecWrite (g : Group) (p : P) (wide : Bool) (x : Nat → Nat) :
    PredsSame g (vecWrite p true wide (laneRes g p (fun i => ⟨x i, []⟩)) g) := by
  rw [vecWrite, foldl_wrPreds_nil _ _ (by simp [laneRes]), if_pos rfl, wrLanes_frame]
  exact ⟨rfl, rfl⟩

/-! Going on and the latch marks leave the registers. -/

theorem predsSame_wentOn {g1 : Group} (h : PredsSame g g1) : PredsSame g (wentOn s p g1) := h
theorem predsSame_latchMarked {g1 : Group} (h : PredsSame g g1) (n : Nat) : PredsSame g (latchMarked p n g1) := h
theorem uniRegs_wentOn {g1 : Group} {t x : Nat} (h : UniRegs g g1 p t x) : UniRegs g (wentOn s p g1) p t x := h
theorem vecRegs_wentOn {g1 : Group} {wide : Bool} {x : Nat → Nat} (h : VecRegs g g1 p wide x) :
    VecRegs g (wentOn s p g1) p wide x := h
theorem vecRegs_latchMarked {g1 : Group} {wide : Bool} {x : Nat → Nat} (h : VecRegs g g1 p wide x) (n : Nat) :
    VecRegs g (latchMarked p n g1) p wide x := h

/-! ### What an instruction of the mould computes -/

/-- An instruction whose meaning is the mould computes what the mould is given. -/
theorem computesIn_of_aluRun {mk : P → Instr} {sfu : Bool} {xs : P → List Opnd} {tr : P → Nat}
    {val : P → State → Group → Nat → Read → Nat} (long : P → Bool)
    (h : ∀ p s, exec (mk p) s = aluRun p s sfu true (xs p) (tr p) (is64 (tr p)) (long p) (fun g i src => { val := val p s g i src })) :
    ComputesIn mk sfu xs tr val := by
  refine ⟨fun s gid busy g p hi hu => ?uni, fun s gid busy g p n hi hu hp => ?vec⟩
  case uni =>
    obtain ⟨t, ht, hl, hs⟩ := aluRun_uni_regStep hi hu sfu true (xs p) (tr p) (is64 (tr p)) (long p)
      (fun g i src => { val := val p s g i src })
    exact ⟨t, _, (h p s).trans ht, hs, hl, predsSame_wentOn (predsSame_uniWrite g p (tr p) _),
      uniRegs_wentOn (uniRegs_uniWrite g p (tr p) _)⟩
  case vec =>
    let x := fun i => val p s g i (fun ty x => srcPat s g (gConsts s g) n ty x i)
    have hpr := predsSame_vecWrite g p (is64 (tr p)) x
    have hv := vecRegs_vecWrite g p (is64 (tr p)) (fun i => ⟨x i, []⟩)
    rw [h p s]
    cases hw : is64 (tr p) with
    | true =>
      rw [hw] at hv hpr
      obtain ⟨t, ht, hl, hs⟩ := aluRun_pipe_noLatch hi hu hp (hasV := true) (wide := true) rfl (tr p) (long p)
        (fun g i src => { val := val p s g i src })
      exact ⟨t, _, ht, hs, predsSame_wentOn hpr, vecRegs_wentOn hv, hl, vecWrite_latchPipe p true true _ g⟩
    | false =>
      rw [hw] at hv hpr
      obtain ⟨t, ht, hl, hs⟩ := aluRun_pipe_latch hi hu hp (tr p) (long p) (fun g i src => { val := val p s g i src })
      exact ⟨t, _, ht, hs, predsSame_wentOn (predsSame_latchMarked hpr n), vecRegs_wentOn (vecRegs_latchMarked hv n), hl,
        mfind_mset_same _ _ _⟩

/-- The same for the mould with sources A and B of given types and D as the third source. -/
theorem computes_of_aluOp {mk : P → Instr} {sfu : Bool} {ta tb td tr : P → Nat} {f : P → Nat → Nat → Nat → Nat}
    (h : ∀ p s, exec (mk p) s = aluOp p s sfu (ta p) (tb p) (td p) (tr p) (f p)) :
    Computes mk sfu srcAB tr (fun p _ _ src => f p (src (ta p) p.a) (src (tb p) p.b.opnd) (src (td p) (dstSrc p.d))) :=
  computesIn_of_aluRun (fun p => is64 (ta p) || is64 (tr p)) h

/-- An instruction on whole patterns computes them (R131). -/
theorem computes_of_bitOp {mk : P → Instr} {f : P → Nat → Nat → Nat → Nat → Nat}
    (h : ∀ p s, exec (mk p) s = bitOp p s (f p)) : Computes mk false srcAB own (pats f) :=
  computes_of_aluOp (ta := own) (tb := own) (td := own) (tr := own)
    (f := fun p a b d => f p (tyW p.t) a b d % 2 ^ tyW p.t) h

/-- An integer instruction given by an exact result computes it in every element (R131). -/
theorem computes_of_intOp {mk : P → Instr} {f : P → Int → Int → Int → Int}
    (h : ∀ p s, exec (mk p) s = intOp p s (f p)) : Computes mk false srcAB own (ints f) :=
  computes_of_aluOp (ta := own) (tb := own) (td := own) (tr := own) (f := fun p => intMould p.t p.sat (f p)) h

/-- An instruction of one source computes its result from that source. -/
theorem computes_of_unOp {mk : P → Instr} {tr : P → Nat} {f : P → Nat → Nat}
    (h : ∀ p s, exec (mk p) s = unOp p s (tr p) (f p)) : Computes mk false srcA tr (one f) :=
  computesIn_of_aluRun (fun p => is64 p.t || is64 (tr p)) h

/-- The immediate of 32 bits as the type reads it (R123, R130). -/
def immVal (p : P) : Int := rdInt (tySigned p.t) (tyW p.t) (wrap (tyW p.t) p.imm32.toInt)

/-- An integer instruction with a 32-bit immediate computes its exact result with it. -/
theorem computes_of_immOp {mk : P → Instr} {f : P → Int → Int → Int} (h : ∀ p s, exec (mk p) s = immOp p s (f p)) :
    Computes mk false srcA own (one (fun p a => intMould p.t p.sat (fun a _ _ => f p a (immVal p)) a 0 0)) :=
  computesIn_of_aluRun (fun p => is64 p.t) h

end Sys2Proof.Machine
end

section
/-! Packed dot products (R34, R144). -/

namespace Sys2Proof.Machine
open Sys2Proof.Claim

/-- Settles O8: each is the mould with its sum; dot8f converts an immediate before the sum, where the statement reads the source. -/
theorem dotProducts : Obligations.DotProducts :=
  ⟨computes_of_aluOp fun _ _ => rfl, computes_of_aluOp fun _ _ => rfl, computes_of_aluOp fun _ _ => rfl,
    computesIn_of_aluRun (fun _ => false) fun _ _ => rfl, computes_of_aluOp fun _ _ => rfl⟩

end Sys2Proof.Machine
end

section
/-! Integer results (R32): the element of a pattern, reduction and clamping read back, the corners of division; and that no
integer instruction stops its group. -/

namespace Sys2Proof.Machine
open Sys2Proof.Claim

/-! ### The elements of a pattern -/

theorem mapElems_succ (w n : Nat) (f : Nat → Nat) : mapElems w (n + 1) f = mapElems w n f + f n % 2 ^ w * 2 ^ (w * n) := by
  simp only [mapElems, List.range_succ, List.foldl_append, List.foldl_cons, List.foldl_nil]

/-- n elements of width w fill w·n bits. -/
theorem mapElems_lt (w n : Nat) (f : Nat → Nat) : mapElems w n f < 2 ^ (w * n) := by
  induction n with
  | zero => simp [mapElems]
  | succ n ih =>
    have hf : f n % 2 ^ w + 1 ≤ 2 ^ w := Nat.mod_lt _ (Nat.two_pow_pos w)
    calc mapElems w (n + 1) f
        = mapElems w n f + f n % 2 ^ w * 2 ^ (w * n) := mapElems_succ w n f
      _ < (f n % 2 ^ w + 1) * 2 ^ (w * n) := by rw [Nat.add_mul, Nat.one_mul]; omega
      _ ≤ 2 ^ w * 2 ^ (w * n) := Nat.mul_le_mul_right _ hf
      _ = 2 ^ (w * (n + 1)) := by rw [← Nat.pow_add, Nat.mul_succ, Nat.add_comm]

/-- An element of a pattern built from its elements. -/
theorem elem_mapElems {w n e : Nat} (f : Nat → Nat) (he : e < n) : elem w e (mapElems w n f) = f e % 2 ^ w := by
  induction n with
  | zero => omega
  | succ n ih =>
    rw [elem, Nat.shiftRight_eq_div_pow, mapElems_succ]
    rcases Nat.lt_or_eq_of_le (Nat.le_of_lt_succ he) with hlt | rfl
    · have hsplit : 2 ^ (w * n) = 2 ^ (w * e) * (2 ^ w * 2 ^ (w * (n - e - 1))) := by
        rw [← Nat.pow_add, ← Nat.pow_add]
        congr 1
        obtain ⟨d, rfl⟩ := Nat.exists_eq_add_of_lt hlt
        rw [show e + d + 1 - e - 1 = d by omega, Nat.mul_add, Nat.mul_add, Nat.mul_one, Nat.add_assoc, Nat.add_comm w]
      have hih := ih hlt
      rw [elem, Nat.shiftRight_eq_div_pow] at hih
      rw [hsplit, Nat.mul_left_comm, Nat.add_mul_div_left _ _ (Nat.two_pow_pos _), Nat.mul_left_comm,
        Nat.add_mul_mod_self_left, hih]
    · rw [Nat.add_mul_div_right _ _ (Nat.two_pow_pos _), Nat.div_eq_of_lt (mapElems_lt w e f), Nat.zero_add, Nat.mod_mod]

/-! ### Reduction and clamping -/

/-- Reduction is the remainder modulo 2^w. -/
theorem wrap_cast (w : Nat) (x : Int) : (wrap w x : Int) = x % ((2 ^ w : Nat) : Int) :=
  Int.toNat_of_nonneg (Int.emod_nonneg _ (Int.natCast_ne_zero.mpr (Nat.ne_of_gt (Nat.two_pow_pos w))))

theorem wrap_lt (w : Nat) (x : Int) : wrap w x < 2 ^ w := by
  have h := Int.emod_lt_of_pos x (Int.natCast_pos.mpr (Nat.two_pow_pos w))
  rw [← wrap_cast] at h
  exact Int.ofNat_lt.mp h

theorem wrap_mod (w : Nat) (x : Int) : wrap w x % 2 ^ w = wrap w x := Nat.mod_eq_of_lt (wrap_lt w x)

/-- Two's complement: the w-bit pattern of a value reads back as the value brought to the range around 0. -/
theorem toSigned_wrap (w : Nat) (x : Int) : toSigned w (wrap w x) = x.bmod (2 ^ w) := by
  have h := wrap_cast w x
  rw [toSigned, wrap_mod, Int.bmod_def, ← h]
  split <;> split <;> omega

/-- A value within the type's range survives reduction to its width. -/
theorem rdInt_wrap {sg : Bool} {w : Nat} (hw : 0 < w) {x : Int} (hlo : intMin sg w ≤ x) (hhi : x ≤ intMax sg w) :
    rdInt sg w (wrap w x) = x := by
  have h2 := Nat.two_pow_pred_mul_two hw
  cases sg with
  | true =>
    simp only [intMin, intMax, if_true] at hlo hhi
    rw [rdInt, if_pos rfl, toSigned_wrap]
    exact Int.bmod_eq_of_le (by omega) (by omega)
  | false =>
    simp only [intMin, intMax, Bool.false_eq_true, if_false] at hlo hhi
    rw [rdInt, if_neg Bool.false_ne_true, wrap_mod, wrap_cast]
    exact Int.emod_eq_of_lt hlo (by omega)

theorem intMin_le_intMax (sg : Bool) (w : Nat) : intMin sg w ≤ intMax sg w := by
  have h := Nat.two_pow_pos w
  have h1 := Nat.two_pow_pos (w - 1)
  cases sg <;> simp only [intMin, intMax, Bool.false_eq_true, if_true, if_false] <;> omega

/-- R32: clamping, by where the exact value lies. -/
theorem satI_eq (sg : Bool) (w : Nat) (x : Int) :
    satI sg w x = if x < intMin sg w then intMin sg w else if intMax sg w < x then intMax sg w else x := by
  have h := intMin_le_intMax sg w
  unfold satI clampI
  split
  · omega
  · split <;> omega

/-- A clamped result reads back as clamped. -/
theorem rdInt_wrap_satI (sg : Bool) {w : Nat} (hw : 0 < w) (x : Int) : rdInt sg w (wrap w (satI sg w x)) = satI sg w x := by
  have h := intMin_le_intMax sg w
  exact rdInt_wrap hw (Int.le_max_left ..) (Int.max_le.mpr ⟨h, Int.min_le_left ..⟩)

theorem tyW_pos (t : Nat) : 0 < tyW t := by
  unfold tyW
  split <;> decide

/-- R131: an element of an integer result. -/
theorem elem_intMould {t e : Nat} (sat : Bool) (f : Int → Int → Int → Int) (a b d : Nat) (he : e < elemN t) :
    elem (tyW t) e (intMould t sat f a b d) =
      intRes t sat (f (rdInt (tySigned t) (tyW t) (elem (tyW t) e a)) (rdInt (tySigned t) (tyW t) (elem (tyW t) e b))
        (rdInt (tySigned t) (tyW t) (elem (tyW t) e d))) := by
  rw [intMould, elem_mapElems _ he, intRes, wrap_mod]

/-! ### The corners of division -/

theorem divRem_of_ne_zero (sg : Bool) (w : Nat) (a : Int) {b : Int} (hb : b ≠ 0) :
    divRem sg w a b = (Int.tdiv a b, Int.tmod a b) := by
  rw [divRem, if_neg hb, Int.tmod_def]

/-- The least value divided by −1 is itself again, without a remainder. -/
theorem divRem_min_neg_one {w : Nat} (hw : 0 < w) :
    toSigned w (wrap w (divRem true w (-((2 ^ (w - 1) : Nat) : Int)) (-1)).1) = -((2 ^ (w - 1) : Nat) : Int) ∧
      (divRem true w (-((2 ^ (w - 1) : Nat) : Int)) (-1)).2 = 0 := by
  have h2 := Nat.two_pow_pred_mul_two hw
  have hpos := Nat.two_pow_pos (w - 1)
  rw [divRem_of_ne_zero true w _ (by decide)]
  have hq : Int.tdiv (-((2 ^ (w - 1) : Nat) : Int)) (-1) = -((2 ^ (w - 1) : Nat) : Int) + ((2 ^ w : Nat) : Int) := by
    rw [Int.tdiv_neg, Int.tdiv_one]; omega
  refine ⟨?_, by rw [Int.tmod_neg, Int.tmod_one]⟩
  rw [hq, toSigned_wrap, Int.add_bmod_right]
  exact Int.bmod_eq_of_le (by omega) (by omega)

/-! ### Shifts, division, and the instructions with a value of their own -/

/-- R32: shift counts are taken modulo w. -/
theorem computes_shl : Computes .shl false srcAB own (pats (fun _ w a b _ => a * 2 ^ (b % w))) :=
  computes_of_bitOp fun _ _ => rfl
theorem computes_shr : Computes .shr false srcAB own (pats (fun _ w a b _ => a / 2 ^ (b % w))) :=
  computes_of_bitOp fun _ _ => rfl
theorem computes_sha :
    Computes .sha false srcAB own (pats (fun _ w a b _ => wrap w (toSigned w a / ((2 ^ (b % w) : Nat) : Int)))) :=
  computes_of_bitOp fun _ _ => rfl
theorem computes_rot : Computes .rot false srcAB own (pats (fun _ w a b _ => a * 2 ^ (b % w) + a / 2 ^ (w - b % w))) :=
  computes_of_bitOp fun _ _ => rfl

theorem computes_div :
    Computes .div true srcAB own (three (fun p => intMould p.t false (fun a b _ => (divRem (tySigned p.t) (tyW p.t) a b).1))) :=
  computes_of_aluOp fun _ _ => rfl
theorem computes_rem :
    Computes .rem true srcAB own (three (fun p => intMould p.t false (fun a b _ => (divRem (tySigned p.t) (tyW p.t) a b).2))) :=
  computes_of_aluOp fun _ _ => rfl

theorem computes_mulw : Computes .mulw false srcAB (fun p => if p.t = 2 then 3 else 7)
    (three (fun p a b _ => wrap 64 (rdInt (tySigned p.t) 32 a * rdInt (tySigned p.t) 32 b))) :=
  computes_of_aluOp (ta := own) (tb := own) (td := own)
    (f := fun p a b _ => wrap 64 (rdInt (tySigned p.t) 32 a * rdInt (tySigned p.t) 32 b)) fun _ _ => rfl
theorem computes_lea : Computes .lea false srcAB (fun _ => 7)
    (fun p _ _ src => wrap 64 ((src 7 p.a : Int) + toSigned 32 (src 2 p.b.opnd) * ((2 ^ (p.ext.toNat % 8) : Nat) : Int))) :=
  computes_of_aluOp (ta := fun _ => 7) (tb := fun _ => 2) (td := fun _ => 7)
    (f := fun p a b _ => wrap 64 ((a : Int) + toSigned 32 b * ((2 ^ (p.ext.toNat % 8) : Nat) : Int))) fun _ _ => rfl

theorem computes_abs : Computes .abs false srcA own (one (fun p a => intMould p.t p.sat (fun a _ _ => a.natAbs) a 0 0)) :=
  computes_of_unOp fun _ _ => rfl
theorem computes_neg : Computes .neg false srcA own (one (fun p a => intMould p.t p.sat (fun a _ _ => -a) a 0 0)) :=
  computes_of_unOp fun _ _ => rfl

/-! ### No integer trap -/

/-- An instruction that computes a result answers, where its pipe is given, a next state in which its group is Ready: it raises
nothing. -/
theorem ready_of_computesIn {mk : P → Instr} {sfu : Bool} {xs : P → List Opnd} {tr : P → Nat}
    {val : P → State → Group → Nat → Read → Nat} (h : ComputesIn mk sfu xs tr val) {s : State} {gid : Nat} {busy : BitVec 10}
    {g : Group} {p : P} (hi : Issuer s gid busy g)
    (hp : p.h.uni = true ∨ ∃ n, pickPipe s gid busy g sfu (xs p) = .pipe n) :
    ∃ t g', exec (mk p) s = .next t ∧ mfind t.groups gid = some g' ∧ g'.st = .ready := by
  obtain ⟨huni, hvec⟩ := h
  cases hu : p.h.uni with
  | true =>
    obtain ⟨t, g', ht, hs, -⟩ := huni s gid busy g p hi hu
    exact ⟨t, g', ht, hs.found, hs.ready⟩
  | false =>
    obtain ⟨n, hn⟩ := hp.resolve_left (by simp [hu])
    obtain ⟨t, g', ht, hs, -⟩ := hvec s gid busy g p n hi hu hn
    exact ⟨t, g', ht, hs.found, hs.ready⟩

/-- An instruction with its class of pipe and its sources computes a result. -/
def ComputesSome (k : (P → Instr) × Bool × (P → List Opnd)) : Prop := ∃ tr val, ComputesIn k.1 k.2.1 k.2.2 tr val

/-- Every integer instruction computes a result: those that no lemma above names are given by an exact result. -/
theorem computesSome_of_mem_intInstrs : ∀ k ∈ intInstrs, ComputesSome k := by
  simp only [intInstrs, List.forall_mem_append, List.forall_mem_map, List.forall_mem_cons, List.not_mem_nil, false_implies,
    implies_true, and_true]
  refine ⟨⟨⟨?_, ?_, ?_, ?_, ?_, ?_, ?_, ?_, ?shl, ?shr, ?sha, ?rot, ?_, ?_, ?sad, ?mulw, ?lea⟩, ?abs, ?neg, ?addi⟩, ?div, ?rem⟩
  case shl => exact ⟨_, _, computes_shl⟩
  case shr => exact ⟨_, _, computes_shr⟩
  case sha => exact ⟨_, _, computes_sha⟩
  case rot => exact ⟨_, _, computes_rot⟩
  case sad => exact ⟨_, _, computes_of_aluOp fun _ _ => rfl⟩
  case mulw => exact ⟨_, _, computes_mulw⟩
  case lea => exact ⟨_, _, computes_lea⟩
  case abs => exact ⟨_, _, computes_abs⟩
  case neg => exact ⟨_, _, computes_neg⟩
  case addi => exact ⟨_, _, computes_of_immOp fun _ _ => rfl⟩
  case div => exact ⟨_, _, computes_div⟩
  case rem => exact ⟨_, _, computes_rem⟩
  all_goals exact ⟨_, _, computes_of_intOp fun _ _ => rfl⟩

/-! ### The statement -/

/-- R32: an element of an integer result, reduced, and clamped under .sat. -/
theorem elem_intMould_rule {t e : Nat} (f : Int → Int → Int → Int) (a b d : Nat) (he : e < elemN t) :
    let w := tyW t
    let x := f (rdInt (tySigned t) w (elem w e a)) (rdInt (tySigned t) w (elem w e b)) (rdInt (tySigned t) w (elem w e d))
    let lo := intMin (tySigned t) w
    let hi := intMax (tySigned t) w
    (elem w e (intMould t false f a b d) : Int) = x % ((2 ^ w : Nat) : Int) ∧
      rdInt (tySigned t) w (elem w e (intMould t true f a b d)) = if x < lo then lo else if hi < x then hi else x := by
  refine ⟨?reduced, ?clamped⟩
  case reduced => rw [elem_intMould false f a b d he]; exact wrap_cast ..
  case clamped =>
    rw [elem_intMould true f a b d he, ← satI_eq]
    exact rdInt_wrap_satI _ (tyW_pos t) _

/-- Settles O13: the elements of the integer mould, the shifts, division with its corners, and that an instruction which
computes a result leaves its group Ready. -/
theorem integerRules : Obligations.IntegerRules := by
  refine ⟨fun t _ f a b d e he => elem_intMould_rule f a b d he, computes_shl, computes_shr, computes_sha, computes_rot,
    computes_div, computes_rem, fun sg w a b => ⟨divRem_of_ne_zero sg w a, rfl, rfl⟩, fun w hw => divRem_min_neg_one hw,
    fun k hk s gid busy g p hi hp => ?ready⟩
  case ready =>
    obtain ⟨tr, val, hc⟩ := computesSome_of_mem_intInstrs k hk
    exact ready_of_computesIn hc hi hp

end Sys2Proof.Machine
end
